-- ==== Sys2Proof/Word.lean ====
section
/-! DEFINITION. The words that cross the ports of the block: 64-bit command words and the 32-bit
operand field (spec/30_encoding.md R81), and the names of the two number domains. Bit 0 is the least
significant bit (spec/00_scope.md R13). -/

namespace Sys2Proof

/-- A command word (R81). -/
abbrev Cmd := BitVec 64

/-- The `IMM` field `cmd[31:0]`: a binary32 pattern (R86) or an unsigned count (R87). -/
abbrev Imm := BitVec 32

/-- `NUM` (R8, R9): the number domain. `exact`: the rationals. `f32`: the finite binary32 values, each
primitive operation rounded to nearest, ties to even (spec/60_exceptions.md R309). -/
inductive NumInst where
  | exact
  | f32
deriving DecidableEq, Repr

end Sys2Proof
end

