-- ==== Sys2Proof/Syntax.lean ====
section
/-! DEFINITION. The 51 commands as syntax: one constructor of `Instr` per row of spec/opcode_table.json,
in the table's order, with the operands of spec/30_encoding.md R90 to R97 already turned into names. -/

namespace Sys2Proof

/-- Oscillator waveforms (spec/10_state.md R39). -/
inductive OscWave where
  | sine | saw | square | triangle
deriving DecidableEq, Repr

/-- LFO waveforms (R39). -/
inductive LfoWave where
  | sine | triangle | saw | square | stepped | smoothed
deriving DecidableEq, Repr

/-- Modulation sources that are registered objects (R32, R39 codes 0 to 3). -/
inductive ObjSource where
  | lfo1 | lfo2 | env1 | env2
deriving DecidableEq, Repr

/-- Modulation sources that are scalar controller state (R32, R39 codes 4 to 7). -/
inductive ScalarSource where
  | velocity | modwheel | aftertouch | pitchbend
deriving DecidableEq, Repr

/-- Modulation sources (R39): codes 0 to 3 are objects, 4 to 7 scalars. -/
inductive Source where
  | obj (o : ObjSource)
  | scalar (c : ScalarSource)
deriving DecidableEq, Repr

/-- Modulation destinations (R39). -/
inductive Dest where
  | cutoff | resonance | pwm | level | pitch
deriving DecidableEq, Repr

/-- The named parameters of the parameter file, in id order 0 to 24 (R48). -/
inductive Param where
  | oscWaveform | oscTune | oscPwm
  | fltCutoff | fltResonance | fltDrive | fltEnvAmount
  | ampAttack | ampDecay | ampSustain | ampRelease
  | fenvAttack | fenvDecay | fenvSustain | fenvRelease
  | lfo1Rate | lfo1Waveform | lfo1ToFilter
  | lfo2Rate | lfo2Waveform | lfo2ToFilter
  | modwheelAmount | velToFilter | velToAmp | masterVolume
deriving DecidableEq, Repr

/-- The commands. `v` is the voice (`cmd[55:52]`, R85), `i` the instance (`cmd[51:48]`), `imm` a binary32
pattern (R86), `n` a count and `idx`, `start`, `size` 16-bit indices (R87). -/
inductive Instr where
  | bufSt (idx : BitVec 16) (imm : Imm)
  | bufLd (idx : BitVec 16)
  | oscSetfreq (v : Fin 8) (imm : Imm)
  | oscSetsr (v : Fin 8) (imm : Imm)
  | oscSetwave (v : Fin 8) (kind : OscWave)
  | oscProc (v : Fin 8)
  | envNoteon (v : Fin 8) (i : Fin 2)
  | envNoteoff (v : Fin 8) (i : Fin 2)
  | envSetatk (v : Fin 8) (i : Fin 2) (imm : Imm)
  | envSetdec (v : Fin 8) (i : Fin 2) (imm : Imm)
  | envSetsus (v : Fin 8) (i : Fin 2) (imm : Imm)
  | envSetrel (v : Fin 8) (i : Fin 2) (imm : Imm)
  | envSetsr (v : Fin 8) (i : Fin 2) (imm : Imm)
  | envTick (v : Fin 8) (i : Fin 2)
  | envIsactive (v : Fin 8) (i : Fin 2)
  | lfoSetfreq (v : Fin 8) (i : Fin 2) (imm : Imm)
  | lfoSetsr (v : Fin 8) (i : Fin 2) (imm : Imm)
  | lfoSetwave (v : Fin 8) (i : Fin 2) (kind : LfoWave)
  | lfoSetbip (v : Fin 8) (i : Fin 2) (b : Bool)
  | lfoNext (v : Fin 8) (i : Fin 2)
  | lfoSkip (v : Fin 8) (i : Fin 2) (n : BitVec 32)
  | lfoReset (v : Fin 8) (i : Fin 2)
  | fltSetsr (v : Fin 8) (imm : Imm)
  | fltSetcut (v : Fin 8) (imm : Imm)
  | fltSetres (v : Fin 8) (imm : Imm)
  | fltSetdrv (v : Fin 8) (imm : Imm)
  | fltProc1 (v : Fin 8) (imm : Imm)
  | fltProcbuf (v : Fin 8) (start : BitVec 16) (n : BitVec 32)
  | fltReset (v : Fin 8)
  | modAdd (v : Fin 8) (s : Source) (d : Dest) (imm : Imm)
  | modRemove (v : Fin 8) (s : Source) (d : Dest)
  | modClear (v : Fin 8)
  | modHas (v : Fin 8) (s : Source) (d : Dest)
  | modSetbase (v : Fin 8) (d : Dest) (imm : Imm)
  | modGetdest (v : Fin 8) (d : Dest)
  | modProcblk (v : Fin 8) (n : BitVec 32)
  | modSetscalar (v : Fin 8) (c : ScalarSource) (imm : Imm)
  | modRegister (v : Fin 8) (o : ObjSource) (b : Bool)
  | voiceNoteon (v : Fin 8) (note : Fin 128) (imm : Imm)
  | voiceNoteoff (v : Fin 8) (allow : Bool)
  | voiceRender (v : Fin 8) (start : BitVec 16) (n : BitVec 32)
  | voiceIsactive (v : Fin 8)
  | voicePitchbend (v : Fin 8) (imm : Imm)
  | voiceModwheel (v : Fin 8) (imm : Imm)
  | voiceNote (v : Fin 8)
  | voiceVelocity (v : Fin 8)
  | engPrepare (size : BitVec 16) (imm : Imm)
  | engNoteon (note : Fin 128) (imm : Imm)
  | engNoteoff (note : Fin 128)
  | engRender (start : BitVec 16) (n : BitVec 32)
  | engSetparam (id : Param) (imm : Imm)
deriving DecidableEq, Repr

/-- The binary32 operand of a command whose format has one (V, AV, ABV, BV, XV; R82, R303). -/
def Instr.valueOperand : Instr → Option Imm
  | .bufSt _ imm | .oscSetfreq _ imm | .oscSetsr _ imm
  | .envSetatk _ _ imm | .envSetdec _ _ imm | .envSetsus _ _ imm | .envSetrel _ _ imm | .envSetsr _ _ imm
  | .lfoSetfreq _ _ imm | .lfoSetsr _ _ imm
  | .fltSetsr _ imm | .fltSetcut _ imm | .fltSetres _ imm | .fltSetdrv _ imm | .fltProc1 _ imm
  | .modAdd _ _ _ imm | .modSetbase _ _ imm | .modSetscalar _ _ imm
  | .voiceNoteon _ _ imm | .voicePitchbend _ imm | .voiceModwheel _ imm
  | .engPrepare _ imm | .engNoteon _ imm | .engSetparam _ imm => some imm
  | .bufLd _ | .oscSetwave _ _ | .oscProc _
  | .envNoteon _ _ | .envNoteoff _ _ | .envTick _ _ | .envIsactive _ _
  | .lfoSetwave _ _ _ | .lfoSetbip _ _ _ | .lfoNext _ _ | .lfoSkip _ _ _ | .lfoReset _ _
  | .fltProcbuf _ _ _ | .fltReset _
  | .modRemove _ _ _ | .modClear _ | .modHas _ _ _ | .modGetdest _ _ | .modProcblk _ _ | .modRegister _ _ _
  | .voiceNoteoff _ _ | .voiceRender _ _ _ | .voiceIsactive _ | .voiceNote _ | .voiceVelocity _
  | .engNoteoff _ | .engRender _ _ => none

end Sys2Proof
end

