-- ==== Sys2Proof/WellFormed.lean ====
section
/-! DEFINITION. When a command is well formed. Voice, instance, codes, notes, ids, indices and counts are in
range by their types (spec/30_encoding.md R85, R87, R88); what is left to check is the binary32 operand
(R86, R105 step 5). -/

namespace Sys2Proof

/-- The pattern is a finite binary32: its exponent field is not 255 (R86). -/
def finitePattern (w : Imm) : Bool := w.extractLsb' 23 8 != 255#8

/-- Every value operand is a finite pattern. -/
def WellFormed (i : Instr) : Bool :=
  match i.valueOperand with
  | some w => finitePattern w
  | none => true

end Sys2Proof
end

