-- ==== Sys2Proof/Decode.lean ====
section
/-! DEFINITION. The decoder and the encoder (spec/30_encoding.md). A command word is split into its fields
once (R81); the opcode selects the row, the row's selector and format check every other field (R82, R85,
R88), and a binary32 operand is checked last (R105). The decoder is total; what it rejects it rejects by
name. The encoder is written from the same rows. -/

namespace Sys2Proof

/-- The fields of a command word (R81). -/
structure Fields where
  opc   : BitVec 8
  voice : BitVec 4
  inst  : BitVec 4
  a     : BitVec 8
  b     : BitVec 8
  imm   : Imm
deriving DecidableEq, Repr

/-- `OPC = cmd[63:56]`, `VOICE = cmd[55:52]`, `INST = cmd[51:48]`, `A = cmd[47:40]`, `B = cmd[39:32]`,
`IMM = cmd[31:0]` (R81). -/
def Fields.ofWord (w : Cmd) : Fields :=
  { opc := w.extractLsb' 56 8
    voice := w.extractLsb' 52 4
    inst := w.extractLsb' 48 4
    a := w.extractLsb' 40 8
    b := w.extractLsb' 32 8
    imm := w.extractLsb' 0 32 }

/-- The word with the given fields, `OPC` in the high bits (R81, R13). -/
def Fields.word (f : Fields) : Cmd :=
  f.opc ++ f.voice ++ f.inst ++ f.a ++ f.b ++ f.imm

/-- `AB = cmd[47:32]`, the 16-bit operand with `A` its high byte (R81). -/
def Fields.ab (f : Fields) : BitVec 16 := f.a ++ f.b

/-- The `A` half of a 16-bit operand. -/
def hiByte (x : BitVec 16) : BitVec 8 := x.extractLsb' 8 8

/-- The `B` half of a 16-bit operand. -/
def loByte (x : BitVec 16) : BitVec 8 := x.extractLsb' 0 8

/-! ## Codes -/

/-- OscWave codes (R39). -/
def OscWave.code : OscWave → BitVec 8
  | .sine => 0
  | .saw => 1
  | .square => 2
  | .triangle => 3

/-- The OscWave a code names, if any (R88). -/
def OscWave.ofCode (c : BitVec 8) : Option OscWave :=
  match c.toNat with
  | 0 => some .sine
  | 1 => some .saw
  | 2 => some .square
  | 3 => some .triangle
  | _ => none

/-- LfoWave codes (R39). -/
def LfoWave.code : LfoWave → BitVec 8
  | .sine => 0
  | .triangle => 1
  | .saw => 2
  | .square => 3
  | .stepped => 4
  | .smoothed => 5

/-- The LfoWave a code names, if any (R88). -/
def LfoWave.ofCode (c : BitVec 8) : Option LfoWave :=
  match c.toNat with
  | 0 => some .sine
  | 1 => some .triangle
  | 2 => some .saw
  | 3 => some .square
  | 4 => some .stepped
  | 5 => some .smoothed
  | _ => none

/-- Source codes 0 to 3 (R39). -/
def ObjSource.code : ObjSource → BitVec 8
  | .lfo1 => 0
  | .lfo2 => 1
  | .env1 => 2
  | .env2 => 3

/-- MOD.REGISTER takes Source codes 0 to 3 only (R88). -/
def ObjSource.ofCode (c : BitVec 8) : Option ObjSource :=
  match c.toNat with
  | 0 => some .lfo1
  | 1 => some .lfo2
  | 2 => some .env1
  | 3 => some .env2
  | _ => none

/-- Source codes 4 to 7 (R39). -/
def ScalarSource.code : ScalarSource → BitVec 8
  | .velocity => 4
  | .modwheel => 5
  | .aftertouch => 6
  | .pitchbend => 7

/-- MOD.SETSCALAR takes Source codes 4 to 7 only (R88). -/
def ScalarSource.ofCode (c : BitVec 8) : Option ScalarSource :=
  match c.toNat with
  | 4 => some .velocity
  | 5 => some .modwheel
  | 6 => some .aftertouch
  | 7 => some .pitchbend
  | _ => none

/-- Source codes (R39). -/
def Source.code : Source → BitVec 8
  | .obj o => o.code
  | .scalar c => c.code

/-- The Source a code names, if any (R88). -/
def Source.ofCode (c : BitVec 8) : Option Source :=
  match ObjSource.ofCode c with
  | some o => some (.obj o)
  | none => (ScalarSource.ofCode c).map .scalar

/-- Dest codes (R39). -/
def Dest.code : Dest → BitVec 8
  | .cutoff => 0
  | .resonance => 1
  | .pwm => 2
  | .level => 3
  | .pitch => 4

/-- The Dest a code names, if any (R88). -/
def Dest.ofCode (c : BitVec 8) : Option Dest :=
  match c.toNat with
  | 0 => some .cutoff
  | 1 => some .resonance
  | 2 => some .pwm
  | 3 => some .level
  | 4 => some .pitch
  | _ => none

/-- Parameter ids (spec/10_state.md R48). -/
def Param.code : Param → BitVec 8
  | .oscWaveform => 0
  | .oscTune => 1
  | .oscPwm => 2
  | .fltCutoff => 3
  | .fltResonance => 4
  | .fltDrive => 5
  | .fltEnvAmount => 6
  | .ampAttack => 7
  | .ampDecay => 8
  | .ampSustain => 9
  | .ampRelease => 10
  | .fenvAttack => 11
  | .fenvDecay => 12
  | .fenvSustain => 13
  | .fenvRelease => 14
  | .lfo1Rate => 15
  | .lfo1Waveform => 16
  | .lfo1ToFilter => 17
  | .lfo2Rate => 18
  | .lfo2Waveform => 19
  | .lfo2ToFilter => 20
  | .modwheelAmount => 21
  | .velToFilter => 22
  | .velToAmp => 23
  | .masterVolume => 24

/-- The parameter an id names, if any (R88: 0 to 24). -/
def Param.ofCode (c : BitVec 8) : Option Param :=
  match c.toNat with
  | 0 => some .oscWaveform
  | 1 => some .oscTune
  | 2 => some .oscPwm
  | 3 => some .fltCutoff
  | 4 => some .fltResonance
  | 5 => some .fltDrive
  | 6 => some .fltEnvAmount
  | 7 => some .ampAttack
  | 8 => some .ampDecay
  | 9 => some .ampSustain
  | 10 => some .ampRelease
  | 11 => some .fenvAttack
  | 12 => some .fenvDecay
  | 13 => some .fenvSustain
  | 14 => some .fenvRelease
  | 15 => some .lfo1Rate
  | 16 => some .lfo1Waveform
  | 17 => some .lfo1ToFilter
  | 18 => some .lfo2Rate
  | 19 => some .lfo2Waveform
  | 20 => some .lfo2ToFilter
  | 21 => some .modwheelAmount
  | 22 => some .velToFilter
  | 23 => some .velToAmp
  | 24 => some .masterVolume
  | _ => none

/-- A boolean operand is 0 or 1 (R88). -/
def boolCode (b : Bool) : BitVec 8 := if b then 1 else 0

/-- The boolean a code names, if any (R88). -/
def boolOfCode (c : BitVec 8) : Option Bool :=
  match c.toNat with
  | 0 => some false
  | 1 => some true
  | _ => none

/-- A note number as a code operand (R88). -/
def noteCode (n : Fin 128) : BitVec 8 := BitVec.ofNat 8 n

/-- A note number is 0 to 127 (R88). -/
def noteOfCode (c : BitVec 8) : Option (Fin 128) :=
  if h : c.toNat < 128 then some ⟨c.toNat, h⟩ else none

/-- The `VOICE` field of a voice-addressed command. -/
def voiceCode (v : Fin 8) : BitVec 4 := BitVec.ofNat 4 v

/-- The `INST` field of an ENV or LFO command. -/
def instCode (i : Fin 2) : BitVec 4 := BitVec.ofNat 4 i

/-! ## Selectors: which voice and instance (R85) -/

/-- BUF and ENG commands: `VOICE` and `INST` must be 0. -/
def Fields.global (f : Fields) (k : Option Instr) : Option Instr :=
  if f.voice = 0 ∧ f.inst = 0 then k else none

/-- OSC, FLT, MOD and VOICE commands: `VOICE` below 8, `INST` 0. -/
def Fields.onVoice (f : Fields) (k : Fin 8 → Option Instr) : Option Instr :=
  if h : f.voice.toNat < 8 then
    if f.inst = 0 then k ⟨f.voice.toNat, h⟩ else none
  else none

/-- ENV and LFO commands: `VOICE` below 8, `INST` 0 or 1. -/
def Fields.onUnit (f : Fields) (k : Fin 8 → Fin 2 → Option Instr) : Option Instr :=
  if h : f.voice.toNat < 8 then
    if g : f.inst.toNat < 2 then k ⟨f.voice.toNat, h⟩ ⟨f.inst.toNat, g⟩ else none
  else none

/-! ## Formats: which of `A`, `B`, `AB`, `IMM` a command uses; the others must be zero (R82) -/

/-- Format N: no operand. -/
def Fields.fmtN (f : Fields) (k : Instr) : Option Instr :=
  if f.a = 0 ∧ f.b = 0 ∧ f.imm = 0 then some k else none

/-- Format V: a binary32 value. -/
def Fields.fmtV (f : Fields) (k : Imm → Instr) : Option Instr :=
  if f.a = 0 ∧ f.b = 0 then some (k f.imm) else none

/-- Format I: an unsigned count. -/
def Fields.fmtI (f : Fields) (k : BitVec 32 → Instr) : Option Instr :=
  if f.a = 0 ∧ f.b = 0 then some (k f.imm) else none

/-- Format K: one code. -/
def Fields.fmtK {α : Type} (f : Fields) (decA : BitVec 8 → Option α) (k : α → Instr) : Option Instr :=
  if f.b = 0 ∧ f.imm = 0 then (decA f.a).map k else none

/-- Format AV: one code and a binary32 value. -/
def Fields.fmtAV {α : Type} (f : Fields) (decA : BitVec 8 → Option α) (k : α → Imm → Instr) :
    Option Instr :=
  if f.b = 0 then (decA f.a).map fun x => k x f.imm else none

/-- Format AB: two codes. -/
def Fields.fmtAB {α β : Type} (f : Fields) (decA : BitVec 8 → Option α) (decB : BitVec 8 → Option β)
    (k : α → β → Instr) : Option Instr :=
  if f.imm = 0 then
    match decA f.a, decB f.b with
    | some x, some y => some (k x y)
    | _, _ => none
  else none

/-- Format ABV: two codes and a binary32 value. -/
def Fields.fmtABV {α β : Type} (f : Fields) (decA : BitVec 8 → Option α) (decB : BitVec 8 → Option β)
    (k : α → β → Imm → Instr) : Option Instr :=
  match decA f.a, decB f.b with
  | some x, some y => some (k x y f.imm)
  | _, _ => none

/-- Format BV: a code in `B` and a binary32 value. -/
def Fields.fmtBV {β : Type} (f : Fields) (decB : BitVec 8 → Option β) (k : β → Imm → Instr) :
    Option Instr :=
  if f.a = 0 then (decB f.b).map fun y => k y f.imm else none

/-- Format B: a code in `B`. -/
def Fields.fmtB {β : Type} (f : Fields) (decB : BitVec 8 → Option β) (k : β → Instr) : Option Instr :=
  if f.a = 0 ∧ f.imm = 0 then (decB f.b).map k else none

/-- Format XV: a 16-bit index or size and a binary32 value. -/
def Fields.fmtXV (f : Fields) (k : BitVec 16 → Imm → Instr) : Option Instr :=
  some (k f.ab f.imm)

/-- Format X: a 16-bit index. -/
def Fields.fmtX (f : Fields) (k : BitVec 16 → Instr) : Option Instr :=
  if f.imm = 0 then some (k f.ab) else none

/-- Format XI: a 16-bit start index and an unsigned count. -/
def Fields.fmtXI (f : Fields) (k : BitVec 16 → BitVec 32 → Instr) : Option Instr :=
  some (k f.ab f.imm)

/-! ## Decoding -/

/-- Steps 1 to 4 of R105: the legal command the fields stand for, if any. An opcode of no row is reserved
(R98). -/
def Fields.legal (f : Fields) : Option Instr :=
  match f.opc with
  -- Buffer group (R90)
  | 0x01#8 => f.global (f.fmtXV .bufSt)
  | 0x02#8 => f.global (f.fmtX .bufLd)
  -- Oscillator group (R91)
  | 0x10#8 => f.onVoice fun v => f.fmtV (.oscSetfreq v)
  | 0x11#8 => f.onVoice fun v => f.fmtV (.oscSetsr v)
  | 0x12#8 => f.onVoice fun v => f.fmtK OscWave.ofCode (.oscSetwave v)
  | 0x13#8 => f.onVoice fun v => f.fmtN (.oscProc v)
  -- EnvelopeGenerator group (R92)
  | 0x20#8 => f.onUnit fun v i => f.fmtN (.envNoteon v i)
  | 0x21#8 => f.onUnit fun v i => f.fmtN (.envNoteoff v i)
  | 0x22#8 => f.onUnit fun v i => f.fmtV (.envSetatk v i)
  | 0x23#8 => f.onUnit fun v i => f.fmtV (.envSetdec v i)
  | 0x24#8 => f.onUnit fun v i => f.fmtV (.envSetsus v i)
  | 0x25#8 => f.onUnit fun v i => f.fmtV (.envSetrel v i)
  | 0x26#8 => f.onUnit fun v i => f.fmtV (.envSetsr v i)
  | 0x27#8 => f.onUnit fun v i => f.fmtN (.envTick v i)
  | 0x28#8 => f.onUnit fun v i => f.fmtN (.envIsactive v i)
  -- LowFrequencyOscillator group (R93)
  | 0x30#8 => f.onUnit fun v i => f.fmtV (.lfoSetfreq v i)
  | 0x31#8 => f.onUnit fun v i => f.fmtV (.lfoSetsr v i)
  | 0x32#8 => f.onUnit fun v i => f.fmtK LfoWave.ofCode (.lfoSetwave v i)
  | 0x33#8 => f.onUnit fun v i => f.fmtK boolOfCode (.lfoSetbip v i)
  | 0x34#8 => f.onUnit fun v i => f.fmtN (.lfoNext v i)
  | 0x35#8 => f.onUnit fun v i => f.fmtI (.lfoSkip v i)
  | 0x36#8 => f.onUnit fun v i => f.fmtN (.lfoReset v i)
  -- LadderFilter group (R94)
  | 0x40#8 => f.onVoice fun v => f.fmtV (.fltSetsr v)
  | 0x41#8 => f.onVoice fun v => f.fmtV (.fltSetcut v)
  | 0x42#8 => f.onVoice fun v => f.fmtV (.fltSetres v)
  | 0x43#8 => f.onVoice fun v => f.fmtV (.fltSetdrv v)
  | 0x44#8 => f.onVoice fun v => f.fmtV (.fltProc1 v)
  | 0x45#8 => f.onVoice fun v => f.fmtXI (.fltProcbuf v)
  | 0x46#8 => f.onVoice fun v => f.fmtN (.fltReset v)
  -- ModulationRouter group (R95)
  | 0x50#8 => f.onVoice fun v => f.fmtABV Source.ofCode Dest.ofCode (.modAdd v)
  | 0x51#8 => f.onVoice fun v => f.fmtAB Source.ofCode Dest.ofCode (.modRemove v)
  | 0x52#8 => f.onVoice fun v => f.fmtN (.modClear v)
  | 0x53#8 => f.onVoice fun v => f.fmtAB Source.ofCode Dest.ofCode (.modHas v)
  | 0x54#8 => f.onVoice fun v => f.fmtBV Dest.ofCode (.modSetbase v)
  | 0x55#8 => f.onVoice fun v => f.fmtB Dest.ofCode (.modGetdest v)
  | 0x56#8 => f.onVoice fun v => f.fmtI (.modProcblk v)
  | 0x57#8 => f.onVoice fun v => f.fmtAV ScalarSource.ofCode (.modSetscalar v)
  | 0x58#8 => f.onVoice fun v => f.fmtAB ObjSource.ofCode boolOfCode (.modRegister v)
  -- Voice group (R96)
  | 0x60#8 => f.onVoice fun v => f.fmtAV noteOfCode (.voiceNoteon v)
  | 0x61#8 => f.onVoice fun v => f.fmtK boolOfCode (.voiceNoteoff v)
  | 0x62#8 => f.onVoice fun v => f.fmtXI (.voiceRender v)
  | 0x63#8 => f.onVoice fun v => f.fmtN (.voiceIsactive v)
  | 0x64#8 => f.onVoice fun v => f.fmtV (.voicePitchbend v)
  | 0x65#8 => f.onVoice fun v => f.fmtV (.voiceModwheel v)
  | 0x66#8 => f.onVoice fun v => f.fmtN (.voiceNote v)
  | 0x67#8 => f.onVoice fun v => f.fmtN (.voiceVelocity v)
  -- Engine group (R97)
  | 0x70#8 => f.global (f.fmtXV .engPrepare)
  | 0x71#8 => f.global (f.fmtAV noteOfCode .engNoteon)
  | 0x72#8 => f.global (f.fmtK noteOfCode .engNoteoff)
  | 0x73#8 => f.global (f.fmtXI .engRender)
  | 0x74#8 => f.global (f.fmtAV Param.ofCode .engSetparam)
  | _ => none

/-- Why a word is no command: steps 1 to 4 of R105 failed, or step 5 found a non-finite operand. -/
inductive DecodeError where
  | illegalCmd
  | badOperand (imm : Imm)
deriving DecidableEq, Repr

/-- The decoding algorithm (R105), total on 64-bit words (R100): legality first, the value operand last. -/
def decode (w : Cmd) : Except DecodeError Instr :=
  match (Fields.ofWord w).legal with
  | none => .error .illegalCmd
  | some i =>
    match i.valueOperand with
    | none => .ok i
    | some imm => if finitePattern imm then .ok i else .error (.badOperand imm)

/-! ## Encoding -/

/-- The fields of a command's word, row by row (R90 to R97). -/
def encodeFields : Instr → Fields
  -- Buffer group (R90)
  | .bufSt x imm => ⟨0x01#8, 0, 0, hiByte x, loByte x, imm⟩
  | .bufLd x => ⟨0x02#8, 0, 0, hiByte x, loByte x, 0⟩
  -- Oscillator group (R91)
  | .oscSetfreq v imm => ⟨0x10#8, voiceCode v, 0, 0, 0, imm⟩
  | .oscSetsr v imm => ⟨0x11#8, voiceCode v, 0, 0, 0, imm⟩
  | .oscSetwave v a => ⟨0x12#8, voiceCode v, 0, a.code, 0, 0⟩
  | .oscProc v => ⟨0x13#8, voiceCode v, 0, 0, 0, 0⟩
  -- EnvelopeGenerator group (R92)
  | .envNoteon v i => ⟨0x20#8, voiceCode v, instCode i, 0, 0, 0⟩
  | .envNoteoff v i => ⟨0x21#8, voiceCode v, instCode i, 0, 0, 0⟩
  | .envSetatk v i imm => ⟨0x22#8, voiceCode v, instCode i, 0, 0, imm⟩
  | .envSetdec v i imm => ⟨0x23#8, voiceCode v, instCode i, 0, 0, imm⟩
  | .envSetsus v i imm => ⟨0x24#8, voiceCode v, instCode i, 0, 0, imm⟩
  | .envSetrel v i imm => ⟨0x25#8, voiceCode v, instCode i, 0, 0, imm⟩
  | .envSetsr v i imm => ⟨0x26#8, voiceCode v, instCode i, 0, 0, imm⟩
  | .envTick v i => ⟨0x27#8, voiceCode v, instCode i, 0, 0, 0⟩
  | .envIsactive v i => ⟨0x28#8, voiceCode v, instCode i, 0, 0, 0⟩
  -- LowFrequencyOscillator group (R93)
  | .lfoSetfreq v i imm => ⟨0x30#8, voiceCode v, instCode i, 0, 0, imm⟩
  | .lfoSetsr v i imm => ⟨0x31#8, voiceCode v, instCode i, 0, 0, imm⟩
  | .lfoSetwave v i a => ⟨0x32#8, voiceCode v, instCode i, a.code, 0, 0⟩
  | .lfoSetbip v i a => ⟨0x33#8, voiceCode v, instCode i, boolCode a, 0, 0⟩
  | .lfoNext v i => ⟨0x34#8, voiceCode v, instCode i, 0, 0, 0⟩
  | .lfoSkip v i n => ⟨0x35#8, voiceCode v, instCode i, 0, 0, n⟩
  | .lfoReset v i => ⟨0x36#8, voiceCode v, instCode i, 0, 0, 0⟩
  -- LadderFilter group (R94)
  | .fltSetsr v imm => ⟨0x40#8, voiceCode v, 0, 0, 0, imm⟩
  | .fltSetcut v imm => ⟨0x41#8, voiceCode v, 0, 0, 0, imm⟩
  | .fltSetres v imm => ⟨0x42#8, voiceCode v, 0, 0, 0, imm⟩
  | .fltSetdrv v imm => ⟨0x43#8, voiceCode v, 0, 0, 0, imm⟩
  | .fltProc1 v imm => ⟨0x44#8, voiceCode v, 0, 0, 0, imm⟩
  | .fltProcbuf v x n => ⟨0x45#8, voiceCode v, 0, hiByte x, loByte x, n⟩
  | .fltReset v => ⟨0x46#8, voiceCode v, 0, 0, 0, 0⟩
  -- ModulationRouter group (R95)
  | .modAdd v a b imm => ⟨0x50#8, voiceCode v, 0, a.code, b.code, imm⟩
  | .modRemove v a b => ⟨0x51#8, voiceCode v, 0, a.code, b.code, 0⟩
  | .modClear v => ⟨0x52#8, voiceCode v, 0, 0, 0, 0⟩
  | .modHas v a b => ⟨0x53#8, voiceCode v, 0, a.code, b.code, 0⟩
  | .modSetbase v b imm => ⟨0x54#8, voiceCode v, 0, 0, b.code, imm⟩
  | .modGetdest v b => ⟨0x55#8, voiceCode v, 0, 0, b.code, 0⟩
  | .modProcblk v n => ⟨0x56#8, voiceCode v, 0, 0, 0, n⟩
  | .modSetscalar v a imm => ⟨0x57#8, voiceCode v, 0, a.code, 0, imm⟩
  | .modRegister v a b => ⟨0x58#8, voiceCode v, 0, a.code, boolCode b, 0⟩
  -- Voice group (R96)
  | .voiceNoteon v a imm => ⟨0x60#8, voiceCode v, 0, noteCode a, 0, imm⟩
  | .voiceNoteoff v a => ⟨0x61#8, voiceCode v, 0, boolCode a, 0, 0⟩
  | .voiceRender v x n => ⟨0x62#8, voiceCode v, 0, hiByte x, loByte x, n⟩
  | .voiceIsactive v => ⟨0x63#8, voiceCode v, 0, 0, 0, 0⟩
  | .voicePitchbend v imm => ⟨0x64#8, voiceCode v, 0, 0, 0, imm⟩
  | .voiceModwheel v imm => ⟨0x65#8, voiceCode v, 0, 0, 0, imm⟩
  | .voiceNote v => ⟨0x66#8, voiceCode v, 0, 0, 0, 0⟩
  | .voiceVelocity v => ⟨0x67#8, voiceCode v, 0, 0, 0, 0⟩
  -- Engine group (R97)
  | .engPrepare x imm => ⟨0x70#8, 0, 0, hiByte x, loByte x, imm⟩
  | .engNoteon a imm => ⟨0x71#8, 0, 0, noteCode a, 0, imm⟩
  | .engNoteoff a => ⟨0x72#8, 0, 0, noteCode a, 0, 0⟩
  | .engRender x n => ⟨0x73#8, 0, 0, hiByte x, loByte x, n⟩
  | .engSetparam a imm => ⟨0x74#8, 0, 0, a.code, 0, imm⟩

/-- The word of a command. -/
def encode (i : Instr) : Cmd := (encodeFields i).word

/-! ## Words as bytes, and the table's numbering -/

/-- The eight bytes of a word, least significant first (spec/20_memory.md R65). -/
def bytesOfWord (w : Cmd) : List (BitVec 8) :=
  (List.range 8).map fun k => w.extractLsb' (8 * k) 8

/-- The word that eight bytes serialise, and the bytes after it (R65). -/
def wordOfBytes : List (BitVec 8) → Option (Cmd × List (BitVec 8))
  | b0 :: b1 :: b2 :: b3 :: b4 :: b5 :: b6 :: b7 :: rest =>
    some (b7 ++ b6 ++ b5 ++ b4 ++ b3 ++ b2 ++ b1 ++ b0, rest)
  | _ => none

/-- A serialised stream's first command: what it decodes to, and the bytes after it; none if fewer than
eight bytes are left (R101: every command is 64 bits). -/
def decodeBytes (bs : List (BitVec 8)) : Option (Except DecodeError Instr × List (BitVec 8)) :=
  (wordOfBytes bs).map fun (w, rest) => (decode w, rest)

/-- The 64-bit word whose low `nbits` bits are those of `w`, the bits above them 0. -/
def tableWord (nbits w : Nat) : Cmd := BitVec.ofNat 64 (w % 2 ^ nbits)

/-- What the decoder reads from the word whose bits are `w`, numbered as spec/opcode_table.json numbers
them (bit 0 least significant); none where it refuses. -/
def decodeTableWord (nbits w : Nat) : Option Instr :=
  match decode (tableWord nbits w) with
  | .ok i => some i
  | .error _ => none

end Sys2Proof
end

