-- ==== Sys2Proof/Machine/Trap.lean ====
section
/-! DEFINITION. The seven faults a command can raise (spec/60_exceptions.md R300) and the result of a
computation that may raise one. -/

namespace Sys2Proof.Machine

/-- The fault codes of R300. -/
inductive FaultCode where
  /-- 1 `F_ILLEGAL_CMD`: the word is not a legal command (R302). -/
  | illegalCmd
  /-- 2 `F_BAD_OPERAND`: a binary32 operand is an infinity or a NaN (R303). -/
  | badOperand
  /-- 3 `F_UNSET`: the command reads a register, parameter or element that holds no value (R304). -/
  | unset
  /-- 4 `F_SR_RANGE`: a sample-rate operand is outside the accepted range (R305). -/
  | srRange
  /-- 5 `F_INC_RANGE`: a phase advance finds the increment outside [0,1) (R306). -/
  | incRange
  /-- 6 `F_BUF_RANGE`: a buffer index is at or beyond `BUF_LEN` (R307). -/
  | bufRange
  /-- 7 `F_NUMERIC`: an operation of `NUM` has no finite result (R308). -/
  | numeric
deriving DecidableEq, Repr

/-- The code's number (R300); 0 is not a code. -/
def FaultCode.number : FaultCode → Nat
  | .illegalCmd => 1
  | .badOperand => 2
  | .unset => 3
  | .srRange => 4
  | .incRange => 5
  | .bufRange => 6
  | .numeric => 7

/-- A raised fault: its code and its 64-bit info word (R300). -/
structure Trap where
  code : FaultCode
  info : BitVec 64
deriving DecidableEq, Repr

/-- A computation of a command: its value, or the first fault it raises (R310). -/
abbrev Res (α : Type) := Except Trap α

/-- `raise F_UNSET`: info 0. -/
def Trap.unset : Trap := ⟨.unset, 0⟩

/-- `raise F_INC_RANGE`: info 0. -/
def Trap.incRange : Trap := ⟨.incRange, 0⟩

/-- `raise F_NUMERIC`: info 0. -/
def Trap.numeric : Trap := ⟨.numeric, 0⟩

/-- `raise F_BAD_OPERAND`: info `zext_64(cmd[31:0])`. -/
def Trap.badOperand (imm : Imm) : Trap := ⟨.badOperand, imm.setWidth 64⟩

/-- `raise F_SR_RANGE`: info `zext_64(cmd[31:0])`. -/
def Trap.srRange (imm : Imm) : Trap := ⟨.srRange, imm.setWidth 64⟩

/-- `raise F_BUF_RANGE(i)`: info the index. -/
def Trap.bufRange (i : Nat) : Trap := ⟨.bufRange, BitVec.ofNat 64 i⟩

/-- `raise F_ILLEGAL_CMD(cmd)`: info the command word. -/
def Trap.illegalCmd (w : Cmd) : Trap := ⟨.illegalCmd, w⟩

/-- Reading an `opt` register: its value, or `F_UNSET` (R14, R304). -/
def readOpt {α : Type} : Option α → Res α
  | some x => .ok x
  | none => .error Trap.unset

end Sys2Proof.Machine
end

