-- ==== Sys2Proof/Machine/Num.lean ====
section
/-! DEFINITION. The number domain `NUM` (spec/00_scope.md R9). A value of `NUM` is a rational in both
instances: in `F32` the values are the finite binary32 numbers with the two zeros identified
(spec/60_exceptions.md R309), which are rationals. Each primitive operation computes exactly; in `F32` its
result is then rounded to nearest, ties to even, and a result without a finite binary32 raises
`F_NUMERIC` (R308). Comparisons, `min`, `max` and negation are exact on the values. -/

namespace Sys2Proof.Machine

/-! ## binary32 as rationals -/

/-- 2 to an integer power. -/
def pow2 (k : Int) : Rat :=
  if 0 ≤ k then ((2 ^ k.toNat : Nat) : Rat) else 1 / ((2 ^ (-k).toNat : Nat) : Rat)

/-- The absolute value. -/
def absQ (q : Rat) : Rat := if q < 0 then -q else q

/-- The greatest `e` with `2^e ≤ a`, for `a > 0`. -/
def ilog2 (a : Rat) : Int :=
  let e : Int := (Nat.log2 a.num.natAbs : Int) - (Nat.log2 a.den : Int)
  if pow2 e ≤ a then e else e - 1

/-- The integer nearest to `q`; of two equally near, the even one (R309). -/
def roundHalfEven (q : Rat) : Int :=
  let n := q.floor
  let r := q - (n : Rat)
  if r < 1 / 2 then n
  else if 1 / 2 < r then n + 1
  else if n % 2 = 0 then n else n + 1

/-- The unit in the last place of the binary32 numbers around `q ≠ 0`: 24 significant bits, subnormals
kept (exponent not below −126). -/
def f32Ulp (q : Rat) : Rat := pow2 (max (ilog2 (absQ q)) (-126) - 23)

/-- `q` rounded to binary32, nearest, ties to even (R309); none when the result is not finite (R308). -/
def f32Round (q : Rat) : Option Rat :=
  if q = 0 then some 0
  else
    let u := f32Ulp q
    let r := (roundHalfEven (q / u) : Rat) * u
    if absQ r < pow2 128 then some r else none

/-- `f32(w)` (spec/30_encoding.md R86): the value of a binary32 pattern, none for an infinity or a NaN. -/
def f32Value (w : Imm) : Option Rat :=
  let e := (w.extractLsb' 23 8).toNat
  let m := (w.extractLsb' 0 23).toNat
  let mag : Rat := if e = 0 then (m : Rat) * pow2 (-149) else ((2 ^ 23 + m : Nat) : Rat) * pow2 ((e : Int) - 150)
  if e = 255 then none
  else some (if w.getLsbD 31 then -mag else mag)

/-- The binary32 pattern of a value of the `F32` domain; zero is +0 (R83, R309). -/
def f32Pattern (q : Rat) : Imm :=
  if q = 0 then 0
  else
    let a := absQ q
    let e := ilog2 a
    let sign : BitVec 1 := if q < 0 then 1 else 0
    if e < -126 then sign ++ (0 : BitVec 8) ++ BitVec.ofNat 23 (a / pow2 (-149)).floor.toNat
    else sign ++ BitVec.ofNat 8 (e + 127).toNat ++ BitVec.ofNat 23 ((a / pow2 (e - 23)).floor.toNat - 2 ^ 23)

/-! ## The operations of `NUM` -/

/-- The result of a primitive operation in the instance `m` (R9, R308, R309). -/
def numResult (m : NumInst) (q : Rat) : Res Rat :=
  match m with
  | .exact => .ok q
  | .f32 =>
    match f32Round q with
    | some r => .ok r
    | none => .error Trap.numeric

/-- `a + b`. -/
def numAdd (m : NumInst) (a b : Rat) : Res Rat := numResult m (a + b)

/-- `a − b`. -/
def numSub (m : NumInst) (a b : Rat) : Res Rat := numResult m (a - b)

/-- `a × b`. -/
def numMul (m : NumInst) (a b : Rat) : Res Rat := numResult m (a * b)

/-- `a ÷ b`. In `EXACT` every divisor of a rule is guarded to be non-zero (R9); in `F32` a divisor that
rounding made zero has no finite quotient (R308). -/
def numDiv (m : NumInst) (a b : Rat) : Res Rat :=
  match m with
  | .exact => .ok (a / b)
  | .f32 => if b = 0 then .error Trap.numeric else numResult .f32 (a / b)

/-- A decimal literal of the source: the exact rational, in `F32` the binary32 nearest to it (R10). -/
def lit (m : NumInst) (q : Rat) : Rat :=
  match m with
  | .exact => q
  | .f32 => (f32Round q).getD q

/-- A value of the domain (R9, R309): any rational in `EXACT`, a finite binary32 in `F32`. -/
def InDomain (m : NumInst) (q : Rat) : Prop :=
  match m with
  | .exact => True
  | .f32 => f32Round q = some q

/-- How a function that increases orders two of its values: strictly in `EXACT`; in `F32`, where different
values round to one, at least not downwards (log 2). -/
def Rises (m : NumInst) (a b : Rat) : Prop :=
  match m with
  | .exact => a < b
  | .f32 => a ≤ b

/-- `clamp(v, lo, hi)` (spec/00_scope.md R15), used with `lo ≤ hi`. -/
def clamp (v lo hi : Rat) : Rat := min (max v lo) hi

end Sys2Proof.Machine
end

