-- ==== Sys2Proof/Machine/LadderGain.lean ====
section
/-! DEFINITION. The linear loop of the ladder filter and its gain (spec/43_ladder_filter.md R200, R203), in
`EXACT`: what the named property `LADDER_STABLE` of the configuration field `COEF_P` speaks of. -/

namespace Sys2Proof.Machine

/-- The stages of the loop from `u` to `y4` with constant coefficients (R200 (a)): the four outputs after the
driven sample `u`. -/
def ladderLinear (p k u : Rat) (y : Rat × Rat × Rat × Rat) : Rat × Rat × Rat × Rat :=
  let y1 := y.1 + p * (u - k * y.2.2.2 - y.1)
  let y2 := y.2.1 + p * (y1 - y.2.1)
  let y3 := y.2.2.1 + p * (y2 - y.2.2.1)
  let y4 := y.2.2.2 + p * (y3 - y.2.2.2)
  (y1, y2, y3, y4)

/-- The impulse response from `u` to `y4`, sample `n`. -/
def ladderImpulse (p k : Rat) (n : Nat) : Rat :=
  ((ladderLinear p k 0)^[n] (ladderLinear p k 1 (0, 0, 0, 0))).2.2.2

/-- The absolute sum of the impulse response from `u` to `y4` is at most `g` (R203: `G(p, r) ≤ g`). -/
def LadderGainAtMost (p k g : Rat) : Prop :=
  ∀ N : Nat, ((List.range N).map fun n => absQ (ladderImpulse p k n)).sum ≤ g

/-- R203's condition on one coefficient: with `k = 4 × r × p⁴` the gain is at most `g` for every resonance
`r` in [0,1]. -/
def LadderStableAt (g p : Rat) : Prop :=
  ∀ r : Rat, 0 ≤ r → r ≤ 1 → LadderGainAtMost p (4 * r * p ^ 4) g

/-! ## A loop gain below 1 -/

theorem absQ_eq_abs (q : Rat) : absQ q = |q| := by
  unfold absQ
  split
  · rw [abs_of_neg ‹_›]
  · rw [abs_of_nonneg (not_lt.1 ‹_›)]

/-- One stage `y + p × (x − y)` is a weighted mean of its output and its input. -/
theorem abs_stage_le {p : Rat} (x y : Rat) (h0 : 0 ≤ p) (h1 : p ≤ 1) :
    |y + p * (x - y)| ≤ (1 - p) * |y| + p * |x| := by
  have h : y + p * (x - y) = (1 - p) * y + p * x := by ring
  rw [h]
  refine (abs_add_le _ _).trans (le_of_eq ?_)
  rw [abs_mul, abs_mul, abs_of_nonneg h0, abs_of_nonneg (sub_nonneg.2 h1)]

/-- What the four stages hold of the impulse, and the fourth output as the feedback weighs it. -/
def ladderWeight (p k : Rat) (y : Rat × Rat × Rat × Rat) : Rat :=
  (1 - p) * (|y.1| + |y.2.1| + |y.2.2.1| + |y.2.2.2|) + p * (k * |y.2.2.2|)

theorem ladderWeight_step {p k : Rat} (u : Rat) (y : Rat × Rat × Rat × Rat) (h0 : 0 ≤ p) (h1 : p ≤ 1)
    (hk : 0 ≤ k) :
    ladderWeight p k (ladderLinear p k u y) + p * ((1 - k) * |(ladderLinear p k u y).2.2.2|) ≤
      ladderWeight p k y + p * |u| := by
  obtain ⟨a, b, c, d⟩ := y
  have s1 := abs_stage_le (u - k * d) a h0 h1
  have s2 := abs_stage_le (a + p * (u - k * d - a)) b h0 h1
  have s3 := abs_stage_le (b + p * (a + p * (u - k * d - a) - b)) c h0 h1
  have s4 := abs_stage_le (c + p * (b + p * (a + p * (u - k * d - a) - b) - c)) d h0 h1
  have hu : |u - k * d| ≤ |u| + k * |d| := by
    refine (abs_sub _ _).trans (le_of_eq ?_)
    rw [abs_mul, abs_of_nonneg hk]
  have hpu := mul_le_mul_of_nonneg_left hu h0
  simp only [ladderWeight, ladderLinear] at *
  linarith

/-- With a loop gain below 1 the gain from `u` to `y4` is at most `1 ÷ (1 − k)`. -/
theorem ladderGainAtMost_of_lt_one {p k : Rat} (h0 : 0 < p) (h1 : p ≤ 1) (hk : 0 ≤ k) (hk1 : k < 1) :
    LadderGainAtMost p k (1 / (1 - k)) := by
  have hw : ∀ y, 0 ≤ ladderWeight p k y := fun y => by
    have := sub_nonneg.2 h1
    unfold ladderWeight
    positivity
  have sums : ∀ N, (((List.range (N + 1)).map fun n => absQ (ladderImpulse p k n)).sum) * (p * (1 - k)) +
      ladderWeight p k ((ladderLinear p k 0)^[N] (ladderLinear p k 1 (0, 0, 0, 0))) ≤ p := by
    intro N
    induction N with
    | zero =>
      have h := ladderWeight_step (p := p) (k := k) 1 (0, 0, 0, 0) h0.le h1 hk
      simp [ladderImpulse, absQ_eq_abs, ladderWeight] at h ⊢
      linarith
    | succ N ih =>
      have h := ladderWeight_step (p := p) (k := k) 0
        ((ladderLinear p k 0)^[N] (ladderLinear p k 1 (0, 0, 0, 0))) h0.le h1 hk
      rw [← Function.iterate_succ_apply' (ladderLinear p k 0)] at h
      rw [List.range_succ, List.map_append, List.sum_append, List.map_singleton, List.sum_singleton, absQ_eq_abs,
        ladderImpulse]
      rw [abs_zero] at h
      linarith
  have hpk : 0 < 1 - k := by linarith
  intro N
  cases N with
  | zero => simpa using hpk.le
  | succ N =>
    rw [le_div_iff₀ hpk]
    have hN := sums N
    have h := hw ((ladderLinear p k 0)^[N] (ladderLinear p k 1 (0, 0, 0, 0)))
    have : p * ((((List.range (N + 1)).map fun n => absQ (ladderImpulse p k n)).sum) * (1 - k)) ≤ p * 1 := by
      linarith
    exact le_of_mul_le_mul_left this h0

/-- A coefficient of at most 9/16 meets R203's condition with the bound 2. -/
theorem ladderStableAt_two {p : Rat} (h0 : 0 < p) (h1 : p ≤ 9 / 16) : LadderStableAt 2 p := by
  intro r hr0 hr1 N
  have hp4 : p ^ 4 ≤ (9 / 16) ^ 4 := pow_le_pow_left₀ h0.le h1 4
  have hk0 : 0 ≤ 4 * r * p ^ 4 := by positivity
  have hk : 4 * r * p ^ 4 ≤ 1 / 2 := by
    have : r * p ^ 4 ≤ 1 * (9 / 16) ^ 4 := mul_le_mul hr1 hp4 (by positivity) zero_le_one
    linarith
  refine (ladderGainAtMost_of_lt_one h0 (by linarith) hk0 (by linarith) N).trans ?_
  rw [div_le_iff₀ (by linarith)]
  linarith

end Sys2Proof.Machine
end

