-- ==== Sys2Proof/Config.lean ====
section
/-! DEFINITION. The parameters of the hardware (spec/00_scope.md R8) and its free values.
An `opaque` constant here has no body: nothing can evaluate it, so whatever is proved holds for every
value of its type. The types of TANH, COEF_P and NOTE_HZ carry their named properties (R11), so those three
constants are used as they are; Sys2Proof/Machine/ConfigFns.lean maps each of the others onto the values the
spec allows it (R11, R12, R8), and every allowed value is reached. -/

namespace Sys2Proof

/-- The three values `SQ_HALF` may have (R8): −1, 0, +1. -/
inductive SqHalf where
  | minusOne
  | zero
  | plusOne
deriving DecidableEq, Repr, Inhabited

namespace Config

/-- `SQ_HALF` (R8, R114): the square waveform at phase exactly 1/2. OPEN in the spec (log 3, DESIGN CHOICE). -/
opaque sqHalf : SqHalf

/-- `ENV_MIN_MS` (R8, R135): the minimum envelope duration. OPEN in the spec (log 4, DEDUCED). -/
opaque envMinMs : NumInst → Rat

/-- The random source of the LFOs (R12): the value of the n-th draw. A free input (log 5, DESIGN CHOICE). -/
opaque draw : Nat → Rat

/-- `SINE01` (R11), free but for its named properties (log 2, DESIGN CHOICE). -/
opaque sine01 : NumInst → Rat → Rat

/-- One linear piece of `TRI01`: it gives `slope * t + offset` for `t` below `upTo`. -/
structure TriPiece where
  upTo   : Rat
  slope  : Rat
  offset : Rat
deriving DecidableEq, Repr

/-- `TRI01` (R11), a piecewise linear function: its pieces, first match first (log 2, DESIGN CHOICE). -/
opaque tri01 : NumInst → List TriPiece

open Sys2Proof.Machine

/-! ### TANH, COEF_P and NOTE_HZ: the functions with their named properties

Each property has a default proof for one simple function, which shows that the properties can be met
together; nothing says that the constant is that function. -/

/-- A function that meets the properties of `TANH`: `x ÷ (1 + |x|)`, in `F32` the sign of `x` halved. -/
def sampleTanh (m : NumInst) (x : Rat) : Rat :=
  match m with
  | .exact => x / (1 + |x|)
  | .f32 => if x = 0 then 0 else if 0 < x then 1 / 2 else -(1 / 2)

/-- A function that meets the properties of `COEF_P`: linear in `c ÷ fs`, in `F32` with three values. -/
def sampleCoefP (m : NumInst) (c fs : Rat) : Rat :=
  match m with
  | .exact => if fs = 0 then 1 / 2 else 7 / 16 + clamp (c / fs) 0 (1 / 2) / 4
  | .f32 => if 4 * c = fs then 1 / 2 else if 4 * c < fs then 1 / 4 else 9 / 16

/-- A function that meets the properties of `NOTE_HZ` on one octave: linear, in `F32` constant. -/
def sampleOctave (m : NumInst) (f : Rat) : Rat :=
  match m with
  | .exact => 440 + 440 * f / 12
  | .f32 => 440

theorem sampleTanh_odd (m : NumInst) (x : Rat) : sampleTanh m (-x) = -sampleTanh m x := by
  cases m with
  | exact => simp only [sampleTanh, abs_neg, neg_div]
  | f32 =>
    rcases lt_trichotomy x 0 with h | rfl | h
    · simp [sampleTanh, h, h.ne, h.le.not_gt]
    · simp [sampleTanh]
    · simp [sampleTanh, h, h.ne', h.le.not_gt]

theorem sampleTanh_pos (m : NumInst) (x : Rat) (h : 0 < x) : 0 < sampleTanh m x := by
  cases m with
  | exact => simp only [sampleTanh]; positivity
  | f32 => norm_num [sampleTanh, h, h.ne']

theorem sampleTanh_lt_one (m : NumInst) (x : Rat) : sampleTanh m x < 1 := by
  cases m with
  | exact =>
    simp only [sampleTanh]
    rw [div_lt_one (by positivity)]
    linarith [le_abs_self x]
  | f32 => simp only [sampleTanh]; split_ifs <;> norm_num

theorem sampleTanh_rises (m : NumInst) (x y : Rat) (h : x < y) : Rises m (sampleTanh m x) (sampleTanh m y) := by
  cases m with
  | exact =>
    simp only [Rises, sampleTanh]
    rw [div_lt_div_iff₀ (by positivity) (by positivity)]
    rcases le_total 0 x with hx | hx <;> rcases le_total 0 y with hy | hy <;>
      simp only [abs_of_nonneg, abs_of_nonpos, hx, hy] <;> nlinarith
  | f32 => simp only [Rises, sampleTanh]; split_ifs <;> first | (exfalso; linarith) | norm_num

theorem sampleTanh_inDomain (m : NumInst) (x : Rat) : InDomain m (sampleTanh m x) := by
  cases m with
  | exact => trivial
  | f32 => simp only [InDomain, sampleTanh]; split_ifs <;> decide +kernel

theorem sampleCoefP_bounds (m : NumInst) (c fs : Rat) : 0 < sampleCoefP m c fs ∧ sampleCoefP m c fs ≤ 9 / 16 := by
  cases m with
  | exact =>
    have h0 : 0 ≤ clamp (c / fs) 0 (1 / 2) := le_min (le_max_right _ _) (by norm_num)
    have h1 : clamp (c / fs) 0 (1 / 2) ≤ 1 / 2 := min_le_right _ _
    simp only [sampleCoefP]
    split_ifs <;> constructor <;> linarith
  | f32 => simp only [sampleCoefP]; split_ifs <;> norm_num

theorem sampleCoefP_quarter (m : NumInst) (fs : Rat) : sampleCoefP m (fs / 4) fs = 1 / 2 := by
  cases m with
  | exact =>
    simp only [sampleCoefP]
    split_ifs with h
    · rfl
    · have : fs / 4 / fs = 1 / 4 := by field_simp
      rw [this, clamp, max_eq_left (by norm_num), min_eq_left (by norm_num)]
      norm_num
  | f32 => simp only [sampleCoefP]; rw [if_pos (by ring)]

theorem sampleCoefP_below (m : NumInst) (c fs : Rat) (h0 : 0 < fs) (h : 4 * c < fs) : sampleCoefP m c fs < 1 / 2 := by
  cases m with
  | exact =>
    have h1 : c / fs < 1 / 4 := by rw [div_lt_iff₀ h0]; linarith
    have : clamp (c / fs) 0 (1 / 2) < 1 / 4 := min_lt_of_left_lt (max_lt h1 (by norm_num))
    simp only [sampleCoefP]
    rw [if_neg h0.ne']
    linarith
  | f32 => simp only [sampleCoefP]; rw [if_neg h.ne, if_pos h]; norm_num

theorem sampleCoefP_rises (m : NumInst) (c d fs : Rat) (hc : 0 < c) (h : c < d) (hd : 2 * d < fs) :
    Rises m (sampleCoefP m c fs) (sampleCoefP m d fs) := by
  have h0 : 0 < fs := by linarith
  cases m with
  | exact =>
    have hcd : c / fs < d / fs := div_lt_div_of_pos_right h h0
    have hd2 : d / fs < 1 / 2 := by rw [div_lt_iff₀ h0]; linarith
    have hc0 : 0 < c / fs := by positivity
    simp only [Rises, sampleCoefP, clamp]
    rw [if_neg h0.ne', if_neg h0.ne', max_eq_left hc0.le, max_eq_left (hc0.trans hcd).le,
      min_eq_left (hcd.trans hd2).le, min_eq_left hd2.le]
    linarith
  | f32 => simp only [Rises, sampleCoefP]; split_ifs <;> first | (exfalso; linarith) | norm_num

theorem sampleCoefP_inDomain (m : NumInst) (c fs : Rat) : InDomain m (sampleCoefP m c fs) := by
  cases m with
  | exact => trivial
  | f32 => simp only [InDomain, sampleCoefP]; split_ifs <;> decide +kernel

theorem sampleOctave_rises (m : NumInst) (f g : Rat) (h : f < g) : Rises m (sampleOctave m f) (sampleOctave m g) := by
  cases m with
  | exact => simp only [Rises, sampleOctave]; linarith
  | f32 => exact le_refl _

theorem sampleOctave_top (m : NumInst) (f : Rat) (h : f < 12) : Rises m (sampleOctave m f) 880 := by
  cases m with
  | exact => simp only [Rises, sampleOctave]; linarith
  | f32 => simp only [Rises, sampleOctave]; norm_num

theorem sampleOctave_inDomain (m : NumInst) (f : Rat) : InDomain m (sampleOctave m f) := by
  cases m with
  | exact => trivial
  | f32 => simp only [InDomain, sampleOctave]; decide +kernel

/-- A function with the named properties of `TANH` (R11). -/
structure TanhFn (m : NumInst) where
  val      : Rat → Rat := sampleTanh m
  zero     : val 0 = 0 := by cases m <;> simp [sampleTanh]
  odd      : ∀ x, val (-x) = -val x := by exact sampleTanh_odd _
  pos      : ∀ x, 0 < x → 0 < val x := by exact sampleTanh_pos _
  lt_one   : ∀ x, val x < 1 := by exact sampleTanh_lt_one _
  rises    : ∀ x y, x < y → Rises m (val x) (val y) := by exact sampleTanh_rises _
  inDomain : ∀ x, InDomain m (val x) := by exact sampleTanh_inDomain _
deriving Inhabited

/-- A function of a cutoff `c` and a sample rate `fs` with the named properties of `COEF_P` (R11), `LADDER_STABLE`
with its bound `CEIL_G` among them (spec/43_ladder_filter.md R203). In `F32` too the range of `stable` ends at the exact
`9/20 × fs` and not at the rounded bound of R193's clamp, which may lie above it (log 2, DESIGN CHOICE). -/
structure CoefFn (m : NumInst) where
  val      : Rat → Rat → Rat := sampleCoefP m
  pos      : ∀ c fs, 0 < val c fs := by exact fun c fs => (sampleCoefP_bounds _ c fs).1
  lt_one   : ∀ c fs, val c fs < 1 := by exact fun c fs => (sampleCoefP_bounds _ c fs).2.trans_lt (by norm_num)
  quarter  : ∀ fs, val (fs / 4) fs = 1 / 2 := by exact sampleCoefP_quarter _
  below    : ∀ c fs, 0 < fs → 4 * c < fs → val c fs < 1 / 2 := by exact sampleCoefP_below _
  rises    : ∀ c d fs, 0 < c → c < d → 2 * d < fs → Rises m (val c fs) (val d fs) := by exact sampleCoefP_rises _
  inDomain : ∀ c fs, InDomain m (val c fs) := by exact sampleCoefP_inDomain _
  ceilG    : Rat := 2
  stable   : ∀ c fs, 20 ≤ c → c ≤ 9 / 20 * fs → LadderStableAt ceilG (val c fs) := by
    exact fun c fs _ _ => ladderStableAt_two (sampleCoefP_bounds _ c fs).1 (sampleCoefP_bounds _ c fs).2
deriving Inhabited

/-- `NOTE_HZ` within one octave above 440 Hz, the frequency `f` semitones up, 0 ≤ f < 12: a function with the
properties that make the whole function increase and double by the octave (R11). -/
structure OctaveFn (m : NumInst) where
  val      : Rat → Rat := sampleOctave m
  a4       : val 0 = 440 := by cases m <;> norm_num [sampleOctave]
  rises    : ∀ f g, 0 ≤ f → f < g → g < 12 → Rises m (val f) (val g) := by exact fun f g _ h _ => sampleOctave_rises _ f g h
  top      : ∀ f, 0 ≤ f → f < 12 → Rises m (val f) 880 := by exact fun f _ h => sampleOctave_top _ f h
  inDomain : ∀ f, InDomain m (val f) := by exact sampleOctave_inDomain _
deriving Inhabited

/-- `TANH` (R11), free but for its named properties (log 2, DESIGN CHOICE). -/
opaque tanh : (m : NumInst) → TanhFn m

/-- `COEF_P` (R11), free but for its named properties (log 2, DESIGN CHOICE). -/
opaque coefP : (m : NumInst) → CoefFn m

/-- `NOTE_HZ` (R11) within one octave, free but for its named properties (log 2, DESIGN CHOICE). -/
opaque noteHz : (m : NumInst) → OctaveFn m

/-- `VEL_GAIN` (R11) of a velocity and an amount, free but for its named properties (log 2, DESIGN CHOICE). -/
opaque velGain : NumInst → Rat → Rat → Rat

/-- `ENV_RETRIG_RESET` (R8, R137): false in this hardware (spec/92_eei_decisions.md D18). -/
def envRetrigReset : Bool := false

end Config

end Sys2Proof
end

