-- ==== Sys2Proof/Machine/ConfigFns.lean ====
section
/-! DEFINITION. The configuration functions and open parameters the machine uses (spec/00_scope.md R8, R11,
R12). Each takes its value from an opaque constant of Config. TANH, COEF_P and one octave of NOTE_HZ have
their named properties with them and are used as they are; the value the properties fix (at 0, at `fs/4`, at
note 69) is written out, so that it computes. Each of the others is mapped onto the values its
named properties allow: where the constant already meets them it is used as it is, so every allowed value
occurs, and the properties hold by construction (log 2, DESIGN CHOICE). -/

namespace Sys2Proof.Machine

/-- The value of a total configuration function in the domain `m`: any rational in `EXACT`, a binary32
number in `F32` (R309). `dflt` stands in where the constant has no finite binary32. -/
def inDomain (m : NumInst) (dflt x : Rat) : Rat :=
  match m with
  | .exact => x
  | .f32 => (f32Round x).getD dflt

/-- A value of the domain in `[lo, hi]`: `x` itself if it is one, else `dflt`. -/
def within (m : NumInst) (lo hi dflt x : Rat) : Rat :=
  let r := inDomain m dflt x
  if lo ≤ r ∧ r ≤ hi then r else dflt

/-! ## SINE01 -/

/-- `SINE01` on the first half period: 0 at 0, 1 at 1/4, else any value in [−1,1]. -/
def sineHalf (m : NumInst) (t : Rat) : Rat :=
  if t = 0 then 0
  else if t = 1 / 4 then 1
  else within m (-1) 1 0 (Config.sine01 m t)

/-- `SINE01(t)`, `0 ≤ t < 1` (R11): the second half period is the first negated. -/
def sine01 (m : NumInst) (t : Rat) : Rat :=
  if t < 1 / 2 then sineHalf m t else -sineHalf m (t - 1 / 2)

/-! ## TRI01 -/

/-- The value at `t` of a piecewise linear function: that of the first piece that ends after `t`. -/
def triValue (pieces : List Config.TriPiece) (t : Rat) : Rat :=
  match pieces with
  | [] => 0
  | p :: rest => if t < p.upTo then p.slope * t + p.offset else triValue rest t

/-- `TRI01(t)`, `0 ≤ t < 1` (R11): piecewise linear, in [−1,1]. -/
def tri01 (m : NumInst) (t : Rat) : Rat :=
  within m (-1) 1 0 (clamp (triValue (Config.tri01 m) t) (-1) 1)

/-- The reference instance of `TRI01` (R11). The machine does not use it; a claim may name it. -/
def tri01Reference (t : Rat) : Rat := if t < 1 / 2 then 4 * t - 1 else 3 - 4 * t

/-! ## TANH -/

/-- `TANH(x)` (R11): 0 at 0, odd, increasing, strictly between −1 and 1. -/
def tanhFn (m : NumInst) (x : Rat) : Rat := if x = 0 then 0 else (Config.tanh m).val x

/-! ## COEF_P -/

/-- `COEF_P(c, fs)` (R11): in (0,1), 1/2 at `fs/4`, increasing in `c`, `LADDER_STABLE`. -/
def coefP (m : NumInst) (c fs : Rat) : Rat :=
  if 4 * c = fs then 1 / 2 else (Config.coefP m).val c fs

/-- `CEIL_G`, the bound of `LADDER_STABLE` (spec/43_ladder_filter.md R203). -/
def ceilG (m : NumInst) : Rat := (Config.coefP m).ceilG

/-! ## NOTE_HZ -/

/-- How many whole octaves the note `x` lies above note 69. -/
def octave (x : Rat) : Int := ((x - 69) / 12).floor

/-- `NOTE_HZ` within one octave: 440 at 0 semitones, increasing up to 880. -/
def octaveHz (m : NumInst) (f : Rat) : Rat := if f = 0 then 440 else (Config.noteHz m).val f

/-- The least positive binary32. -/
def f32Least : Rat := pow2 (-149)

/-- `NOTE_HZ(x)` (R11): 440 at 69, doubled by 12 semitones, positive, increasing. In `F32` a value beyond the largest
binary32 is no finite result (R308), and one below the least positive is that least one (log 16, DESIGN CHOICE). -/
def noteHz (m : NumInst) (x : Rat) : Res Rat :=
  let o := octave x
  let base := octaveHz m (x - 69 - 12 * (o : Rat))
  match m with
  | .exact => .ok (base * pow2 o)
  | .f32 =>
    if 200 < o then .error Trap.numeric
    else if o < -200 then .ok f32Least
    else
      match f32Round (base * pow2 o) with
      | none => .error Trap.numeric
      | some r => .ok (if 0 < r then r else f32Least)

/-! ## VEL_GAIN -/

/-- `VEL_GAIN(v, a)` (R11): 1 at velocity 1 and at amount 0. -/
def velGain (m : NumInst) (v a : Rat) : Res Rat :=
  if v = 1 ∨ a = 0 then .ok 1 else numResult m (Config.velGain m v a)

/-- The reference instance of `VEL_GAIN` in `EXACT` (R11). The machine does not use it; a claim may name
it. -/
def velGainReference (v a : Rat) : Rat := 1 - a + a * v

/-! ## SQ_HALF, ENV_MIN_MS and the draws -/

/-- `SQ_HALF` (R8) as a number. -/
def sqHalf : Rat :=
  match Config.sqHalf with
  | .minusOne => -1
  | .zero => 0
  | .plusOne => 1

/-- `ENV_MIN_MS` (R8): positive, and at most 50 so that the reset durations meet it
(spec/10_state.md R26). -/
def envMinMs (m : NumInst) : Rat :=
  let r := inDomain m 1 (Config.envMinMs m)
  if 0 < r ∧ r ≤ 50 then r else 1

/-- The n-th `Draw()` (R12): any value in [−1,1]. -/
def draw (m : NumInst) (n : Nat) : Rat := within m (-1) 1 0 (Config.draw n)

/-- The n-th draw where it must differ from `held` (spec/42_lfo.md R172, R173): any value in [−1,1] but
`held`. -/
def drawOther (m : NumInst) (n : Nat) (held : Rat) : Rat :=
  let d := draw m n
  if d = held then (if held = 0 then 1 else 0) else d

end Sys2Proof.Machine
end

