-- ==== Sys2Proof/Machine/State.lean ====
section
/-! DEFINITION. The state of the block as plain data (spec/10_state.md), the reasons a step can stop, and
the state after reset. A register the spec types `opt` is an `Option`: "unset" is the spec's own state
(spec/00_scope.md R14), and reading it is the spec's own fault `F_UNSET`. -/

namespace Sys2Proof.Machine

/-- The stages of an envelope (R39). -/
inductive Stage where
  | idle | attack | decay | sustain | release
deriving DecidableEq, Repr

/-- Oscillator registers (R24). -/
structure Osc where
  phase : Rat
  inc   : Option Rat
  wave  : OscWave
  freq  : Option Rat
  sr    : Option Rat
deriving DecidableEq, Repr

/-- EnvelopeGenerator registers (R26). -/
structure Env where
  stage   : Stage
  level   : Rat
  atkMs   : Rat
  decMs   : Rat
  sus     : Rat
  relMs   : Rat
  sr      : Option Rat
  atkRate : Option Rat
  decRate : Option Rat
  relRate : Option Rat
  relFrom : Rat
deriving DecidableEq, Repr

/-- LowFrequencyOscillator registers (R28). -/
structure Lfo where
  phase   : Rat
  inc     : Option Rat
  wave    : Option LfoWave
  bipolar : Bool
  freq    : Option Rat
  sr      : Option Rat
  held    : Rat
  sPrev   : Rat
  sTarget : Rat
  lastOut : Rat
deriving DecidableEq, Repr

/-- LadderFilter registers (R30). `h1` and `h2` are written and never read (R199). -/
structure Flt where
  y1     : Rat
  y2     : Rat
  y3     : Rat
  y4     : Rat
  h1     : Rat
  h2     : Rat
  p      : Option Rat
  k      : Option Rat
  cutoff : Rat
  res    : Rat
  drive  : Option Rat
  sr     : Option Rat
deriving DecidableEq, Repr

/-- ModulationRouter registers (R32), indexed by the codes of R39: `conn[s][d]`, `base[d]`, `mod[d]`,
`scalar[s − 4]`, `registered[s]`. -/
structure Router where
  conn       : Vector (Vector (Option Rat) 5) 8
  base       : Vector (Option Rat) 5
  mod        : Vector (Option Rat) 5
  scalar     : Vector Rat 4
  registered : Vector Bool 4
deriving DecidableEq, Repr

/-- One voice: its units (R20) and the voice registers (R34). `env[0]` is the amplitude envelope, `env[1]`
the filter envelope (R251). -/
structure Voice where
  osc     : Osc
  env     : Vector Env 2
  lfo     : Vector Lfo 2
  flt     : Flt
  router  : Router
  note    : Option (Fin 128)
  vel     : Rat
  bend    : Rat
  wheel   : Rat
  playing : Bool
  tailOff : Bool
deriving DecidableEq, Repr

/-- What `SYS.fault` records (R22, R300): the code, the info word and the `pc` of the faulting command. -/
structure FaultRecord where
  code : FaultCode
  info : BitVec 64
  pc   : Nat
deriving DecidableEq, Repr

/-- What an executed command puts on the response port (spec/30_encoding.md R83). -/
inductive Response where
  | none
  | num (q : Rat)
  | bool (b : Bool)
  | int (w : BitVec 32)
deriving DecidableEq, Repr

/-- The sample buffer `BUF` (R37): the elements that hold a value, by index, indices strictly rising. An
index that is not listed is unset. -/
abbrev Memory := List (Nat × Rat)

/-- The state of the block.

`num`, `stream` and `draws` are what the spec calls parameters of the step (R20): the number domain, the
command stream, and how many draws have been taken (logs 1, 5, 6). `responses` is what the response port has
carried, in command order (R80, R340; log 7, DESIGN CHOICE). -/
structure State where
  num       : NumInst
  pc        : Nat
  stream    : List Cmd
  fault     : Option FaultRecord
  voices    : Vector Voice 8
  engSr     : Option Rat
  bufLen    : Option (Fin 65536)
  param     : Vector (Option Rat) 25
  buf       : Memory
  responses : List Response
  draws     : Nat
deriving DecidableEq, Repr

/-- Why `step` gives no next state. A fault of the spec (R300) is not one of these: taking it is a next
state. -/
inductive Fault where
  /-- Raised by `step` alone: `pc` is at or beyond the end of the command stream, so "there is no step and
  the run is over" (R80, R340). Safe: the spec gives no step here either (log 8, DEDUCED). -/
  | endOfStream
deriving DecidableEq, Repr

/-- Why `exec` gives an instruction no meaning. -/
inductive Refusal where
  /-- Raised by `exec` for an instruction the model has not reached. Safe: nothing can be proved of it. -/
  | notModelled (mnemonic : String)
deriving DecidableEq, Repr

/-! ## Reset (spec/70_reset_and_hazards.md R330, R331) -/

/-- R24. -/
def Osc.reset : Osc := { phase := 0, inc := none, wave := .sine, freq := none, sr := none }

/-- R26. -/
def Env.reset (m : NumInst) : Env :=
  { stage := .idle, level := 0, atkMs := 50, decMs := 100, sus := lit m (7 / 10), relMs := 200
    sr := none, atkRate := none, decRate := none, relRate := none, relFrom := 0 }

/-- R28; the three random registers hold the draws `n`, `n + 1`, `n + 2` (R40, R176). -/
def Lfo.reset (m : NumInst) (n : Nat) : Lfo :=
  { phase := 0, inc := none, wave := none, bipolar := true, freq := none, sr := none
    held := draw m n, sPrev := draw m (n + 1), sTarget := draw m (n + 2), lastOut := 0 }

/-- R30. -/
def Flt.reset (m : NumInst) : Flt :=
  { y1 := 0, y2 := 0, y3 := 0, y4 := 0, h1 := 0, h2 := 0, p := none, k := none
    cutoff := 1000, res := lit m (1 / 10), drive := none, sr := none }

/-- R32. -/
def Router.reset : Router :=
  { conn := Vector.replicate 8 (Vector.replicate 5 none)
    base := Vector.replicate 5 none
    mod := Vector.replicate 5 none
    scalar := Vector.replicate 4 0
    registered := Vector.replicate 4 true }

/-- R34; the two LFOs hold the draws `n` to `n + 5`. -/
def Voice.reset (m : NumInst) (n : Nat) : Voice :=
  { osc := .reset
    env := Vector.replicate 2 (.reset m)
    lfo := #v[.reset m n, .reset m (n + 3)]
    flt := .reset m
    router := .reset
    note := none, vel := 0, bend := 0, wheel := 0, playing := false, tailOff := false }

/-- R48: the parameters with a default of the source's §8, every other one unset. -/
def paramReset (m : NumInst) : Vector (Option Rat) 25 :=
  #v[some 0, none, none,
    some 1000, some (lit m (1 / 10)), none, none,
    some 50, some 100, some (lit m (7 / 10)), some 200,
    some 50, some 100, some (lit m (7 / 10)), some 200,
    none, none, none, none, none, none,
    none, none, none, none]

/-- The state after reset of a block whose number domain is `m` (R330, R331). No program is in the stream
(log 6, DESIGN CHOICE); the 48 draws of the 16 LFOs have been taken (R40; log 5, DESIGN CHOICE). -/
def State.resetIn (m : NumInst) : State :=
  { num := m
    pc := 0
    stream := []
    fault := none
    voices := #v[.reset m 0, .reset m 6, .reset m 12, .reset m 18,
      .reset m 24, .reset m 30, .reset m 36, .reset m 42]
    engSr := none
    bufLen := none
    param := paramReset m
    buf := []
    responses := []
    draws := 48 }

/-- The state after reset, in the reference instance `EXACT` of the number domain (R9; log 1, DESIGN CHOICE). -/
def State.reset : State := State.resetIn .exact

end Sys2Proof.Machine
end

