-- ==== Sys2Proof/Machine/Ops.lean ====
section
/-! DEFINITION. The named operations over registers, the sample buffer and the command stream, taking a
fault, and completing a command. Meanings are written over these. -/

namespace Sys2Proof

/-! ## Where a named register stands in its array (spec/10_state.md R39, R48) -/

/-- The place of an object source in `registered`. -/
def ObjSource.idx : ObjSource → Fin 4
  | .lfo1 => 0
  | .lfo2 => 1
  | .env1 => 2
  | .env2 => 3

/-- The place of a scalar source in `scalar`. -/
def ScalarSource.idx : ScalarSource → Fin 4
  | .velocity => 0
  | .modwheel => 1
  | .aftertouch => 2
  | .pitchbend => 3

/-- The row of a source in `conn`: its code. -/
def Source.idx : Source → Fin 8
  | .obj .lfo1 => 0
  | .obj .lfo2 => 1
  | .obj .env1 => 2
  | .obj .env2 => 3
  | .scalar .velocity => 4
  | .scalar .modwheel => 5
  | .scalar .aftertouch => 6
  | .scalar .pitchbend => 7

/-- The column of a destination: its code. -/
def Dest.idx : Dest → Fin 5
  | .cutoff => 0
  | .resonance => 1
  | .pwm => 2
  | .level => 3
  | .pitch => 4

/-- The place of a parameter in the file: its id. -/
def Param.idx : Param → Fin 25
  | .oscWaveform => 0
  | .oscTune => 1
  | .oscPwm => 2
  | .fltCutoff => 3
  | .fltResonance => 4
  | .fltDrive => 5
  | .fltEnvAmount => 6
  | .ampAttack => 7
  | .ampDecay => 8
  | .ampSustain => 9
  | .ampRelease => 10
  | .fenvAttack => 11
  | .fenvDecay => 12
  | .fenvSustain => 13
  | .fenvRelease => 14
  | .lfo1Rate => 15
  | .lfo1Waveform => 16
  | .lfo1ToFilter => 17
  | .lfo2Rate => 18
  | .lfo2Waveform => 19
  | .lfo2ToFilter => 20
  | .modwheelAmount => 21
  | .velToFilter => 22
  | .velToAmp => 23
  | .masterVolume => 24

namespace Machine

/-! ## The codes of a register that no command names by code (spec/10_state.md R39) -/

/-- Stage codes (R39): what `ENV.stage` holds as a number. -/
def Stage.code : Stage → BitVec 8
  | .idle => 0
  | .attack => 1
  | .decay => 2
  | .sustain => 3
  | .release => 4

/-- The Stage a code names, if any (R39). -/
def Stage.ofCode (c : BitVec 8) : Option Stage :=
  match c.toNat with
  | 0 => some .idle
  | 1 => some .attack
  | 2 => some .decay
  | 3 => some .sustain
  | 4 => some .release
  | _ => none

/-! ## The sample buffer (spec/20_memory.md R60 to R62) -/

/-- The one form of a buffer: indices strictly rising. (An unset element is not listed, so no entry equals
what an unlisted index reads as.) -/
abbrev Memory.wf (b : Memory) : Prop := List.Pairwise (fun x y => x.1 < y.1) b

/-- The value of element `i`, none if it is unset. -/
def Memory.get : Memory → Nat → Option Rat
  | [], _ => none
  | (j, x) :: rest, i => if i = j then some x else Memory.get rest i

/-- The buffer with element `i` holding `x`; the indices stay in rising order. -/
def Memory.put : Memory → Nat → Rat → Memory
  | [], i, x => [(i, x)]
  | (j, y) :: rest, i, x =>
    if i < j then (i, x) :: (j, y) :: rest
    else if i = j then (i, x) :: rest
    else (j, y) :: Memory.put rest i x

/-- The bound check of R62, in its order: `F_UNSET` without a buffer length, then `F_BUF_RANGE`. -/
def bufCheck (len : Option (Fin 65536)) (i : Nat) : Res Unit :=
  match len with
  | none => .error Trap.unset
  | some n => if n.val ≤ i then .error (Trap.bufRange i) else .ok ()

/-- `MemRead(i, 1)`, written `BUF[i]` (R62, R310). -/
def bufRead (len : Option (Fin 65536)) (b : Memory) (i : Nat) : Res Rat := do
  bufCheck len i
  readOpt (Memory.get b i)

/-- `MemWrite(i, 1, v)`, written `BUF[i] <- v` (R62, R310). -/
def bufWrite (len : Option (Fin 65536)) (b : Memory) (i : Nat) (x : Rat) : Res Memory := do
  bufCheck len i
  .ok (Memory.put b i x)

/-! ## Registers -/

/-- The voice with its envelope `i` replaced. -/
def Voice.setEnv (w : Voice) (i : Fin 2) (e : Env) : Voice := { w with env := w.env.set i e }

/-- The voice with its LFO `i` replaced. -/
def Voice.setLfo (w : Voice) (i : Fin 2) (l : Lfo) : Voice := { w with lfo := w.lfo.set i l }

/-- The state with voice `v` replaced. -/
def State.setVoice (s : State) (v : Fin 8) (w : Voice) : State := { s with voices := s.voices.set v w }

/-- The state with the oscillator of voice `v` replaced. -/
def State.setOsc (s : State) (v : Fin 8) (o : Osc) : State := s.setVoice v { s.voices[v] with osc := o }

/-- The state with envelope `i` of voice `v` replaced. -/
def State.setEnv (s : State) (v : Fin 8) (i : Fin 2) (e : Env) : State :=
  s.setVoice v (s.voices[v].setEnv i e)

/-- The state with LFO `i` of voice `v` replaced. -/
def State.setLfo (s : State) (v : Fin 8) (i : Fin 2) (l : Lfo) : State :=
  s.setVoice v (s.voices[v].setLfo i l)

/-- The state with the filter of voice `v` replaced. -/
def State.setFlt (s : State) (v : Fin 8) (f : Flt) : State := s.setVoice v { s.voices[v] with flt := f }

/-- The state with the router of voice `v` replaced. -/
def State.setRouter (s : State) (v : Fin 8) (r : Router) : State :=
  s.setVoice v { s.voices[v] with router := r }

/-- The parameter `p` of the file (spec/10_state.md R48). -/
def paramGet (file : Vector (Option Rat) 25) (p : Param) : Option Rat := file[p.idx]

/-! ## Taking a fault, and completing a command -/

/-- Taking a fault (spec/60_exceptions.md R300, R313): the code, the info word and the command's `pc` go to
`SYS.fault`, `pc` advances, nothing else changes and no response is produced. The block is then halted
(R301); it has no return but reset (R314). -/
def State.takeFault (s : State) (t : Trap) : State :=
  { s with fault := some { code := t.code, info := t.info, pc := s.pc }, pc := s.pc + 1 }

/-- A command that ran: its result on the response port, `pc <- pc + 1` (spec/30_encoding.md R80). -/
def State.respond (s : State) (r : Response) : State :=
  { s with pc := s.pc + 1, responses := s.responses ++ [r] }

/-- The step of a command from state `s`: all of its effect, or its fault and none of it (R300). -/
def finish (s : State) (r : Res (Response × State)) : Host.Outcome State Fault Refusal :=
  match r with
  | .ok (resp, t) => .next (t.respond resp)
  | .error trap => .next (s.takeFault trap)

/-- The 34-bit response word (spec/30_encoding.md R83): kind in bits 33..32, data in bits 31..0. In `EXACT`
a NUM response is the rational itself and has no bit pattern. -/
def responseWord (m : NumInst) (r : Response) : Option (BitVec 34) :=
  match r with
  | .none => some (0#2 ++ 0#32)
  | .num q =>
    match m with
    | .exact => none
    | .f32 => some (1#2 ++ f32Pattern q)
  | .bool b => some (2#2 ++ (if b then 1#32 else 0#32))
  | .int w => some (3#2 ++ w)

/-! ## The command stream (R80, R105) -/

/-- The word at `pc`, none at the end of the stream. -/
def fetch (s : State) : Option Cmd := s.stream[s.pc]?

/-- The fault of a word that does not decode (R302, R303). -/
def decodeTrap (w : Cmd) : DecodeError → Trap
  | .illegalCmd => Trap.illegalCmd w
  | .badOperand imm => Trap.badOperand imm

/-- The stream with the word `w` at index `k`; all-zero (illegal) words fill a gap before it. -/
def streamPut (stream : List Cmd) (k : Nat) (w : Cmd) : List Cmd :=
  stream.take k ++ List.replicate (k - stream.length) 0 ++ [w] ++ stream.drop (k + 1)

/-- The state in which the next step fetches `w`: `w` stands at `pc` and the block is not halted
(log 6, DESIGN CHOICE). -/
def State.loadWord (s : State) (w : Cmd) : State :=
  { s with stream := streamPut s.stream s.pc w, fault := none }

/-! ## All voices, in index order -/

/-- The voice indices 0 to 7, ascending (spec/46_engine.md R281, R286, R287). -/
def allVoices : List (Fin 8) := [0, 1, 2, 3, 4, 5, 6, 7]

end Machine

end Sys2Proof
end

