-- ==== Sys2Proof/Machine/Operands.lean ====
section
/-! DEFINITION. The operand forms of spec/30_encoding.md section 2, as values of a command. Voice,
instance, code, note and id operands are already named by the syntax (R85, R88). -/

namespace Sys2Proof.Machine

/-- A value operand (R86, R105 step 5): the pattern's value as an element of `NUM`, taken in without
rounding; an infinity or a NaN raises `F_BAD_OPERAND`. -/
def valueOp (imm : Imm) : Res Rat :=
  match f32Value imm with
  | some x => .ok x
  | none => .error (Trap.badOperand imm)

/-- A count operand `n = cmd[31:0]` (R87). -/
def countOp (n : BitVec 32) : Nat := n.toNat

/-- An index operand `cmd[47:32]` (R87). -/
def indexOp (x : BitVec 16) : Nat := x.toNat

/-- A block size `cmd[47:32]` as the buffer length (R87). -/
def sizeOp (x : BitVec 16) : Fin 65536 := ⟨x.toNat, x.isLt⟩

/-- `ChoiceCode(x, max)` (spec/45_voice.md R262): clamp to [0, max], then round down. -/
def choiceCode (x : Rat) (top : Nat) : Nat := (clamp x 0 top).floor.toNat

/-- The waveform of a choice parameter of the oscillator (R262, R39). -/
def oscChoice (x : Rat) : OscWave :=
  match choiceCode x 3 with
  | 0 => .sine
  | 1 => .saw
  | 2 => .square
  | _ => .triangle

/-- The waveform of a choice parameter of an LFO (R262, R39). -/
def lfoChoice (x : Rat) : LfoWave :=
  match choiceCode x 5 with
  | 0 => .sine
  | 1 => .triangle
  | 2 => .saw
  | 3 => .square
  | 4 => .stepped
  | _ => .smoothed

/-- The clamp range of a destination (spec/44_mod_router.md R232): its lower end. -/
def Dest.lo : Dest → Rat
  | .cutoff => 20
  | .resonance => 0
  | .pwm => 0
  | .level => 0
  | .pitch => -12

/-- The clamp range of a destination (R232): its upper end. -/
def Dest.hi : Dest → Rat
  | .cutoff => 20000
  | .resonance => 1
  | .pwm => 1
  | .level => 1
  | .pitch => 12

end Sys2Proof.Machine
end

