-- ==== Sys2Proof/Machine/Buffer.lean ====
section
/-! DEFINITION. The buffer group (spec/20_memory.md R63, R64). -/

namespace Sys2Proof.Machine

/-- BUF.ST idx, value (R63): `BUF[idx] <- value`. -/
def execBufSt (idx : BitVec 16) (imm : Imm) (s : State) : Host.Outcome State Fault Refusal :=
  finish s do
    let x ← valueOp imm
    let b ← bufWrite s.bufLen s.buf (indexOp idx) x
    .ok (.none, { s with buf := b })

/-- BUF.LD idx (R64): `result BUF[idx]`. -/
def execBufLd (idx : BitVec 16) (s : State) : Host.Outcome State Fault Refusal :=
  finish s do
    let x ← bufRead s.bufLen s.buf (indexOp idx)
    .ok (.num x, s)

end Sys2Proof.Machine
end

