-- ==== Sys2Proof/Machine/Flags.lean ====
section
/-! DEFINITION. The flags of spec/10_state.md R23: the block has no arithmetic condition codes. Stored flags
(`bipolar`, `playing`, `tailOff`, `registered`) are registers; the ones computed here are predicates of
registers. -/

namespace Sys2Proof.Machine

/-- `SYS.halted`: `SYS.fault` holds a record (R22, R301). -/
def State.halted (s : State) : Bool := s.fault.isSome

/-- `isActive()`: "false only in Idle" (R23, spec/41_envelope.md R142). -/
def Env.isActive (e : Env) : Bool := e.stage != .idle

/-- A router cell is present: it holds an amount (R32, spec/44_mod_router.md R225). -/
def Router.present (r : Router) (s : Source) (d : Dest) : Bool := (r.conn[s.idx])[d.idx].isSome

/-- The lifecycle states of a voice (R35). -/
inductive Lifecycle where
  | free | playing | releasing
deriving DecidableEq, Repr

/-- The lifecycle state is a function of the two flags (R35). -/
def Voice.lifecycle (w : Voice) : Lifecycle :=
  if w.playing then (if w.tailOff then .releasing else .playing) else .free

end Sys2Proof.Machine
end

