-- ==== Sys2Proof/Machine/Envelope.lean ====
section
/-! DEFINITION. The EnvelopeGenerator (spec/41_envelope.md). -/

namespace Sys2Proof.Machine

/-! ## Rates -/

/-- `CalcRate(delta, ms, sr)` (R133). -/
def calcRate (m : NumInst) (delta ms sr : Rat) : Res Rat :=
  if ms ≤ 0 ∨ delta ≤ 0 then .ok delta
  else do
    let a ← numMul m ms (lit m (1 / 1000))
    let samples ← numMul m a sr
    numDiv m delta samples

/-- `Rederive()` (R134): the three rates, when the sample rate is set. -/
def Env.rederive (m : NumInst) (e : Env) : Res Env :=
  match e.sr with
  | none => .ok e
  | some sr => do
    let atk ← calcRate m 1 e.atkMs sr
    let drop ← numSub m 1 e.sus
    let dec ← calcRate m drop e.decMs sr
    let rel ← calcRate m e.relFrom e.relMs sr
    .ok { e with atkRate := some atk, decRate := some dec, relRate := some rel }

/-! ## The effects of the commands on the registers -/

/-- The effect of ENV.SETSR (R132); `imm` is the operand's pattern. -/
def Env.setSr (m : NumInst) (imm : Imm) (x : Rat) (e : Env) : Res Env :=
  if x ≤ 0 then .error (Trap.srRange imm) else Env.rederive m { e with sr := some x }

/-- The effect of ENV.SETATK (R135). -/
def Env.setAtk (m : NumInst) (ms : Rat) (e : Env) : Res Env :=
  Env.rederive m { e with atkMs := max ms (envMinMs m) }

/-- The effect of ENV.SETDEC (R145). -/
def Env.setDec (m : NumInst) (ms : Rat) (e : Env) : Res Env :=
  Env.rederive m { e with decMs := max ms (envMinMs m) }

/-- The effect of ENV.SETREL (R146). -/
def Env.setRel (m : NumInst) (ms : Rat) (e : Env) : Res Env :=
  Env.rederive m { e with relMs := max ms (envMinMs m) }

/-- The effect of ENV.SETSUS (R136). -/
def Env.setSus (m : NumInst) (level : Rat) (e : Env) : Res Env :=
  Env.rederive m { e with sus := clamp level 0 1 }

/-- The effect of ENV.NOTEON (R137). -/
def Env.noteOn (e : Env) : Env :=
  { e with stage := .attack, level := if Config.envRetrigReset then 0 else e.level }

/-- The effect of ENV.NOTEOFF (R138): nothing in Idle and Release. -/
def Env.noteOff (m : NumInst) (e : Env) : Res Env :=
  match e.stage with
  | .idle => .ok e
  | .release => .ok e
  | .attack | .decay | .sustain => do
    let e' ← Env.rederive m { e with relFrom := e.level }
    .ok { e' with stage := .release }

/-- The effect and result of ENV.TICK (R139): the updated level. -/
def Env.tick (m : NumInst) (e : Env) : Res (Rat × Env) :=
  match e.stage with
  | .idle => .ok (e.level, e)
  | .attack => do
    let rate ← readOpt e.atkRate
    let l ← numAdd m e.level rate
    if 1 ≤ l then .ok (1, { e with level := 1, stage := .decay })
    else .ok (l, { e with level := l })
  | .decay => do
    let rate ← readOpt e.decRate
    let l ← numSub m e.level rate
    if l ≤ e.sus then .ok (e.sus, { e with level := e.sus, stage := .sustain })
    else .ok (l, { e with level := l })
  | .sustain => .ok (e.sus, { e with level := e.sus })
  | .release => do
    let rate ← readOpt e.relRate
    let l ← numSub m e.level rate
    if l ≤ 0 then .ok (0, { e with level := 0, stage := .idle })
    else .ok (l, { e with level := l })

/-! ## The commands -/

/-- ENV.NOTEON (R137). -/
def execEnvNoteon (v : Fin 8) (i : Fin 2) (s : State) : Host.Outcome State Fault Refusal :=
  finish s (.ok (.none, s.setEnv v i s.voices[v].env[i].noteOn))

/-- ENV.NOTEOFF (R138). -/
def execEnvNoteoff (v : Fin 8) (i : Fin 2) (s : State) : Host.Outcome State Fault Refusal :=
  finish s do
    let e ← s.voices[v].env[i].noteOff s.num
    .ok (.none, s.setEnv v i e)

/-- ENV.SETATK ms (R135). -/
def execEnvSetatk (v : Fin 8) (i : Fin 2) (imm : Imm) (s : State) : Host.Outcome State Fault Refusal :=
  finish s do
    let x ← valueOp imm
    let e ← s.voices[v].env[i].setAtk s.num x
    .ok (.none, s.setEnv v i e)

/-- ENV.SETDEC ms (R145). -/
def execEnvSetdec (v : Fin 8) (i : Fin 2) (imm : Imm) (s : State) : Host.Outcome State Fault Refusal :=
  finish s do
    let x ← valueOp imm
    let e ← s.voices[v].env[i].setDec s.num x
    .ok (.none, s.setEnv v i e)

/-- ENV.SETSUS level (R136). -/
def execEnvSetsus (v : Fin 8) (i : Fin 2) (imm : Imm) (s : State) : Host.Outcome State Fault Refusal :=
  finish s do
    let x ← valueOp imm
    let e ← s.voices[v].env[i].setSus s.num x
    .ok (.none, s.setEnv v i e)

/-- ENV.SETREL ms (R146). -/
def execEnvSetrel (v : Fin 8) (i : Fin 2) (imm : Imm) (s : State) : Host.Outcome State Fault Refusal :=
  finish s do
    let x ← valueOp imm
    let e ← s.voices[v].env[i].setRel s.num x
    .ok (.none, s.setEnv v i e)

/-- ENV.SETSR Hz (R132). -/
def execEnvSetsr (v : Fin 8) (i : Fin 2) (imm : Imm) (s : State) : Host.Outcome State Fault Refusal :=
  finish s do
    let x ← valueOp imm
    let e ← s.voices[v].env[i].setSr s.num imm x
    .ok (.none, s.setEnv v i e)

/-- ENV.TICK (R139). -/
def execEnvTick (v : Fin 8) (i : Fin 2) (s : State) : Host.Outcome State Fault Refusal :=
  finish s do
    let r ← s.voices[v].env[i].tick s.num
    .ok (.num r.1, s.setEnv v i r.2)

/-- ENV.ISACTIVE (R142). -/
def execEnvIsactive (v : Fin 8) (i : Fin 2) (s : State) : Host.Outcome State Fault Refusal :=
  finish s (.ok (.bool s.voices[v].env[i].isActive, s))

end Sys2Proof.Machine
end

