-- ==== Sys2Proof/Machine/LadderFilter.lean ====
section
/-! DEFINITION. The LadderFilter (spec/43_ladder_filter.md). -/

namespace Sys2Proof.Machine

/-! ## Coefficients -/

/-- `Recompute()` (R194), when the sample rate is set. -/
def Flt.recompute (m : NumInst) (f : Flt) : Res Flt :=
  match f.sr with
  | none => .ok f
  | some sr => do
    let p := coefP m f.cutoff sr
    let k1 ← numMul m 4 f.res
    let k2 ← numMul m k1 p
    let k3 ← numMul m k2 p
    let k4 ← numMul m k3 p
    let k ← numMul m k4 p
    .ok { f with p := some p, k := some k }

/-! ## The effects of the commands on the registers -/

/-- The effect of FLT.SETSR (R192); `imm` is the operand's pattern. -/
def Flt.setSr (m : NumInst) (imm : Imm) (x : Rat) (f : Flt) : Res Flt :=
  if x ≤ 0 then .error (Trap.srRange imm)
  else do
    let top ← numMul m (lit m (9 / 20)) x
    if top < 20 then .error (Trap.srRange imm)
    else Flt.recompute m { f with sr := some x, cutoff := clamp f.cutoff 20 top }

/-- The effect of FLT.SETCUT (R193). -/
def Flt.setCut (m : NumInst) (x : Rat) (f : Flt) : Res Flt := do
  let sr ← readOpt f.sr
  let top ← numMul m (lit m (9 / 20)) sr
  Flt.recompute m { f with cutoff := clamp x 20 top }

/-- The effect of FLT.SETRES (R195). -/
def Flt.setRes (m : NumInst) (x : Rat) (f : Flt) : Res Flt :=
  Flt.recompute m { f with res := clamp x 0 1 }

/-- The effect of FLT.SETDRV (R196). -/
def Flt.setDrv (x : Rat) (f : Flt) : Flt := { f with drive := some (max x 0) }

/-- The effect of FLT.RESET (R202). -/
def Flt.clear (f : Flt) : Flt := { f with y1 := 0, y2 := 0, y3 := 0, y4 := 0, h1 := 0, h2 := 0 }

/-! ## One sample -/

/-- One stage of the ladder (R197): `y + p × (x − y)`, the difference first, then the product, then the
sum. -/
def ladderStage (m : NumInst) (p x y : Rat) : Res Rat := do
  let d ← numSub m x y
  let e ← numMul m p d
  numAdd m y e

/-- `FilterStep(in)` (R197), the effect and result of FLT.PROC1 (R198). The feedback uses the fourth
stage's output of the previous sample. -/
def Flt.sample (m : NumInst) (x : Rat) (f : Flt) : Res (Rat × Flt) := do
  let p ← readOpt f.p
  let drive ← readOpt f.drive
  let driven ← numMul m drive x
  let u := tanhFn m driven
  let k ← readOpt f.k
  let fb ← numMul m k f.y4
  let x' ← numSub m u fb
  let y1 ← ladderStage m p x' f.y1
  let y2 ← ladderStage m p y1 f.y2
  let y3 ← ladderStage m p y2 f.y3
  let y4 ← ladderStage m p y3 f.y4
  .ok (y4, { f with y1 := y1, y2 := y2, y3 := y3, y4 := y4, h1 := u, h2 := x' })

/-- The loop of FLT.PROCBUF (R201): `n` elements from index `i`, ascending, each filtered in place. -/
def Flt.processFrom (m : NumInst) (len : Option (Fin 65536)) :
    Nat → Nat → Flt → Memory → Res (Flt × Memory)
  | 0, _, f, b => .ok (f, b)
  | n + 1, i, f, b => do
    let x ← bufRead len b i
    let r ← f.sample m x
    let b' ← bufWrite len b i r.1
    Flt.processFrom m len n (i + 1) r.2 b'

/-- The effect of FLT.PROCBUF (R201). -/
def Flt.process (m : NumInst) (len : Option (Fin 65536)) (start n : Nat) (f : Flt) (b : Memory) :
    Res (Flt × Memory) :=
  if 0 < n ∧ (f.p = none ∨ f.drive = none) then .error Trap.unset
  else Flt.processFrom m len n start f b

/-! ## The commands -/

/-- FLT.SETSR Hz (R192). -/
def execFltSetsr (v : Fin 8) (imm : Imm) (s : State) : Host.Outcome State Fault Refusal :=
  finish s do
    let x ← valueOp imm
    let f ← s.voices[v].flt.setSr s.num imm x
    .ok (.none, s.setFlt v f)

/-- FLT.SETCUT Hz (R193). -/
def execFltSetcut (v : Fin 8) (imm : Imm) (s : State) : Host.Outcome State Fault Refusal :=
  finish s do
    let x ← valueOp imm
    let f ← s.voices[v].flt.setCut s.num x
    .ok (.none, s.setFlt v f)

/-- FLT.SETRES r (R195). -/
def execFltSetres (v : Fin 8) (imm : Imm) (s : State) : Host.Outcome State Fault Refusal :=
  finish s do
    let x ← valueOp imm
    let f ← s.voices[v].flt.setRes s.num x
    .ok (.none, s.setFlt v f)

/-- FLT.SETDRV d (R196). -/
def execFltSetdrv (v : Fin 8) (imm : Imm) (s : State) : Host.Outcome State Fault Refusal :=
  finish s do
    let x ← valueOp imm
    .ok (.none, s.setFlt v (s.voices[v].flt.setDrv x))

/-- FLT.PROC1 x (R198). -/
def execFltProc1 (v : Fin 8) (imm : Imm) (s : State) : Host.Outcome State Fault Refusal :=
  finish s do
    let x ← valueOp imm
    let r ← s.voices[v].flt.sample s.num x
    .ok (.num r.1, s.setFlt v r.2)

/-- FLT.PROCBUF start, n (R201). -/
def execFltProcbuf (v : Fin 8) (start : BitVec 16) (n : BitVec 32) (s : State) :
    Host.Outcome State Fault Refusal :=
  finish s do
    let r ← s.voices[v].flt.process s.num s.bufLen (indexOp start) (countOp n) s.buf
    .ok (.none, { s.setFlt v r.1 with buf := r.2 })

/-- FLT.RESET (R202). -/
def execFltReset (v : Fin 8) (s : State) : Host.Outcome State Fault Refusal :=
  finish s (.ok (.none, s.setFlt v s.voices[v].flt.clear))

end Sys2Proof.Machine
end

