-- ==== Sys2Proof/Machine/Oscillator.lean ====
section
/-! DEFINITION. The Oscillator (spec/40_oscillator.md). -/

namespace Sys2Proof.Machine

/-! ## The waveform function and the phase advance, shared with the LFO -/

/-- `WAVE(kind, t)` (R114). -/
def waveValue (m : NumInst) (kind : OscWave) (t : Rat) : Res Rat :=
  match kind with
  | .sine => .ok (sine01 m t)
  | .saw => do
    let d ← numMul m 2 t
    numSub m d 1
  | .square => .ok (if t < 1 / 2 then -1 else if 1 / 2 < t then 1 else sqHalf)
  | .triangle => .ok (tri01 m t)

/-- `PhaseAdvance(phase, inc)` (R115): the new phase, and whether it wrapped. -/
def phaseStep (m : NumInst) (phase inc : Rat) : Res (Rat × Bool) :=
  if inc < 0 ∨ 1 ≤ inc then .error Trap.incRange
  else do
    let t ← numAdd m phase inc
    if 1 ≤ t then do
      let u ← numSub m t 1
      .ok (u, true)
    else .ok (t, false)

/-! ## The effects of the commands on the registers -/

/-- The effect of OSC.SETFREQ (R111). -/
def Osc.setFreq (m : NumInst) (x : Rat) (o : Osc) : Res Osc :=
  match o.sr with
  | none => .ok { o with freq := some x }
  | some sr => do
    let q ← numDiv m x sr
    .ok { o with freq := some x, inc := some q }

/-- The effect of OSC.SETSR (R112); `imm` is the operand's pattern. -/
def Osc.setSr (m : NumInst) (imm : Imm) (x : Rat) (o : Osc) : Res Osc :=
  if x ≤ 0 then .error (Trap.srRange imm)
  else
    match o.freq with
    | none => .ok { o with sr := some x }
    | some f => do
      let q ← numDiv m f x
      .ok { o with sr := some x, inc := some q }

/-- The effect and result of OSC.PROC (R116): the value at the current phase, then the advance. -/
def Osc.proc (m : NumInst) (o : Osc) : Res (Rat × Osc) := do
  let inc ← readOpt o.inc
  let out ← waveValue m o.wave o.phase
  let t ← phaseStep m o.phase inc
  .ok (out, { o with phase := t.1 })

/-! ## The commands -/

/-- OSC.SETFREQ Hz (R111). -/
def execOscSetfreq (v : Fin 8) (imm : Imm) (s : State) : Host.Outcome State Fault Refusal :=
  finish s do
    let x ← valueOp imm
    let o ← s.voices[v].osc.setFreq s.num x
    .ok (.none, s.setOsc v o)

/-- OSC.SETSR Hz (R112). -/
def execOscSetsr (v : Fin 8) (imm : Imm) (s : State) : Host.Outcome State Fault Refusal :=
  finish s do
    let x ← valueOp imm
    let o ← s.voices[v].osc.setSr s.num imm x
    .ok (.none, s.setOsc v o)

/-- OSC.SETWAVE kind (R113). -/
def execOscSetwave (v : Fin 8) (kind : OscWave) (s : State) : Host.Outcome State Fault Refusal :=
  finish s (.ok (.none, s.setOsc v { s.voices[v].osc with wave := kind }))

/-- OSC.PROC (R116). -/
def execOscProc (v : Fin 8) (s : State) : Host.Outcome State Fault Refusal :=
  finish s do
    let r ← s.voices[v].osc.proc s.num
    .ok (.num r.1, s.setOsc v r.2)

end Sys2Proof.Machine
end

