-- ==== Sys2Proof/Machine/LowFreqOsc.lean ====
section
/-! DEFINITION. The LowFrequencyOscillator (spec/42_lfo.md). Functions that may draw take the number of
draws already taken and return the new one with the LFO (spec/00_scope.md R12; log 5, DESIGN CHOICE). -/

namespace Sys2Proof.Machine

/-! ## The value, the advance, the wrap action -/

/-- `LfoValue(kind, t)` at the LFO's own phase (R166 to R169). -/
def Lfo.value (m : NumInst) (kind : LfoWave) (l : Lfo) : Res Rat :=
  match kind with
  | .sine => waveValue m .sine l.phase
  | .triangle => waveValue m .triangle l.phase
  | .saw => waveValue m .saw l.phase
  | .square => waveValue m .square l.phase
  | .stepped => .ok l.held
  | .smoothed => do
    let d ← numSub m l.sTarget l.sPrev
    let e ← numMul m d l.phase
    numAdd m l.sPrev e

/-- `WrapAction()` (R172), by the waveform selected at that moment; `n` draws have been taken. -/
def Lfo.wrap (m : NumInst) (n : Nat) (l : Lfo) : Nat × Lfo :=
  match l.wave with
  | some .stepped => (n + 1, { l with held := drawOther m n l.held })
  | some .smoothed => (n + 1, { l with sPrev := l.sTarget, sTarget := draw m n })
  | some .sine | some .triangle | some .saw | some .square | none => (n, l)

/-- `LfoAdvance()` (R171). -/
def Lfo.advance (m : NumInst) (n : Nat) (l : Lfo) : Res (Nat × Lfo) := do
  let inc ← readOpt l.inc
  let t ← phaseStep m l.phase inc
  let l' := { l with phase := t.1 }
  .ok (if t.2 then l'.wrap m n else (n, l'))

/-! ## The effects of the commands on the registers -/

/-- The effect of LFO.SETFREQ (R162): clamped to [1/100, 100]. -/
def Lfo.setFreq (m : NumInst) (x : Rat) (l : Lfo) : Res Lfo :=
  let f := clamp x (lit m (1 / 100)) 100
  match l.sr with
  | none => .ok { l with freq := some f }
  | some sr => do
    let q ← numDiv m f sr
    .ok { l with freq := some f, inc := some q }

/-- The effect of LFO.SETSR (R163); `imm` is the operand's pattern. -/
def Lfo.setSr (m : NumInst) (imm : Imm) (x : Rat) (l : Lfo) : Res Lfo :=
  if x ≤ 0 then .error (Trap.srRange imm)
  else
    match l.freq with
    | none => .ok { l with sr := some x }
    | some f => do
      let q ← numDiv m f x
      .ok { l with sr := some x, inc := some q }

/-- The output of LFO.NEXT (R170): the value, remapped to [0,1] when not bipolar. -/
def Lfo.output (m : NumInst) (kind : LfoWave) (l : Lfo) : Res Rat := do
  let x ← l.value m kind
  if l.bipolar then .ok x
  else do
    let y ← numAdd m x 1
    numMul m y (1 / 2)

/-- The effect and result of LFO.NEXT (R170): the output at the current phase, then the advance, then the
latch. -/
def Lfo.next (m : NumInst) (n : Nat) (l : Lfo) : Res (Rat × Nat × Lfo) := do
  let kind ← readOpt l.wave
  let _ ← readOpt l.inc
  let out ← l.output m kind
  let r ← l.advance m n
  .ok (out, r.1, { r.2 with lastOut := out })

/-- `repeat k times: LfoAdvance()` (R174). -/
def Lfo.advanceN (m : NumInst) : Nat → Nat → Lfo → Res (Nat × Lfo)
  | 0, n, l => .ok (n, l)
  | k + 1, n, l => do
    let r ← l.advance m n
    Lfo.advanceN m k r.1 r.2

/-- The effect of LFO.SKIP (R174). -/
def Lfo.skip (m : NumInst) (k n : Nat) (l : Lfo) : Res (Nat × Lfo) :=
  if 0 < k ∧ (l.wave = none ∨ l.inc = none) then .error Trap.unset else Lfo.advanceN m k n l

/-- The effect of LFO.RESET (R176): three draws. -/
def Lfo.rewind (m : NumInst) (n : Nat) (l : Lfo) : Nat × Lfo :=
  (n + 3, { l with phase := 0, held := draw m n, sPrev := draw m (n + 1), sTarget := draw m (n + 2) })

/-! ## The commands -/

/-- LFO.SETFREQ Hz (R162). -/
def execLfoSetfreq (v : Fin 8) (i : Fin 2) (imm : Imm) (s : State) : Host.Outcome State Fault Refusal :=
  finish s do
    let x ← valueOp imm
    let l ← s.voices[v].lfo[i].setFreq s.num x
    .ok (.none, s.setLfo v i l)

/-- LFO.SETSR Hz (R163). -/
def execLfoSetsr (v : Fin 8) (i : Fin 2) (imm : Imm) (s : State) : Host.Outcome State Fault Refusal :=
  finish s do
    let x ← valueOp imm
    let l ← s.voices[v].lfo[i].setSr s.num imm x
    .ok (.none, s.setLfo v i l)

/-- LFO.SETWAVE kind (R164). -/
def execLfoSetwave (v : Fin 8) (i : Fin 2) (kind : LfoWave) (s : State) :
    Host.Outcome State Fault Refusal :=
  finish s (.ok (.none, s.setLfo v i { s.voices[v].lfo[i] with wave := some kind }))

/-- LFO.SETBIP b (R165). -/
def execLfoSetbip (v : Fin 8) (i : Fin 2) (b : Bool) (s : State) : Host.Outcome State Fault Refusal :=
  finish s (.ok (.none, s.setLfo v i { s.voices[v].lfo[i] with bipolar := b }))

/-- LFO.NEXT (R170). -/
def execLfoNext (v : Fin 8) (i : Fin 2) (s : State) : Host.Outcome State Fault Refusal :=
  finish s do
    let r ← s.voices[v].lfo[i].next s.num s.draws
    .ok (.num r.1, { s.setLfo v i r.2.2 with draws := r.2.1 })

/-- LFO.SKIP n (R174). -/
def execLfoSkip (v : Fin 8) (i : Fin 2) (n : BitVec 32) (s : State) : Host.Outcome State Fault Refusal :=
  finish s do
    let r ← s.voices[v].lfo[i].skip s.num (countOp n) s.draws
    .ok (.none, { s.setLfo v i r.2 with draws := r.1 })

/-- LFO.RESET (R176). -/
def execLfoReset (v : Fin 8) (i : Fin 2) (s : State) : Host.Outcome State Fault Refusal :=
  let r := s.voices[v].lfo[i].rewind s.num s.draws
  finish s (.ok (.none, { s.setLfo v i r.2 with draws := r.1 }))

end Sys2Proof.Machine
end

