-- ==== Sys2Proof/Machine/ModRouter.lean ====
section
/-! DEFINITION. The ModulationRouter (spec/44_mod_router.md). Evaluation reads the latches of the units of
the same voice (R228), so it is a function of the voice. -/

namespace Sys2Proof.Machine

/-! ## Connections, bases, sources -/

/-- `MOD.conn[s][d] <- c` (R222, R223): `none` removes the connection. -/
def Router.setConn (r : Router) (s : Source) (d : Dest) (c : Option Rat) : Router :=
  { r with conn := r.conn.set s.idx ((r.conn[s.idx]).set d.idx c) }

/-- The effect of MOD.CLEAR (R224): all 40 cells absent. -/
def Router.clear (r : Router) : Router :=
  { r with conn := Vector.replicate 8 (Vector.replicate 5 none) }

/-- `MOD.base[d] <- x` (R226), unclamped. -/
def Router.setBase (r : Router) (d : Dest) (x : Rat) : Router :=
  { r with base := r.base.set d.idx (some x) }

/-- `MOD.scalar[c] <- x`. -/
def Router.setScalar (r : Router) (c : ScalarSource) (x : Rat) : Router :=
  { r with scalar := r.scalar.set c.idx x }

/-- The effect of MOD.SETSCALAR (R234): velocity and mod wheel are clamped to [0,1]. -/
def Router.putScalar (r : Router) (c : ScalarSource) (x : Rat) : Router :=
  match c with
  | .velocity | .modwheel => r.setScalar c (clamp x 0 1)
  | .aftertouch | .pitchbend => r.setScalar c x

/-- `MOD.registered[o] <- b` (R235). -/
def Router.setRegistered (r : Router) (o : ObjSource) (b : Bool) : Router :=
  { r with registered := r.registered.set o.idx b }

/-! ## Evaluation -/

/-- The latch of the unit an object source is bound to (R228, R235). -/
def Voice.latch (w : Voice) : ObjSource → Rat
  | .lfo1 => w.lfo[0].lastOut
  | .lfo2 => w.lfo[1].lastOut
  | .env1 => w.env[0].level
  | .env2 => w.env[1].level

/-- `SourceValue(s)` (R228): "an unregistered source yields 0". -/
def Voice.sourceValue (w : Voice) : Source → Rat
  | .obj o => if w.router.registered[o.idx] then w.latch o else 0
  | .scalar c => w.router.scalar[c.idx]

/-- The sources in code order 0 to 7 (R229). -/
def allSources : List Source :=
  [.obj .lfo1, .obj .lfo2, .obj .env1, .obj .env2,
    .scalar .velocity, .scalar .modwheel, .scalar .aftertouch, .scalar .pitchbend]

/-- The inner loop of `Evaluate()` (R229): the connections into `d` from the listed sources added to
`acc`, in order. -/
def Voice.sumInto (m : NumInst) (w : Voice) (d : Dest) : List Source → Rat → Res Rat
  | [], acc => .ok acc
  | s :: rest, acc =>
    match (w.router.conn[s.idx])[d.idx] with
    | none => Voice.sumInto m w d rest acc
    | some amount => do
      let t ← numMul m (w.sourceValue s) amount
      let acc' ← numAdd m acc t
      Voice.sumInto m w d rest acc'

/-- The modulated value of one destination (R229, R232): none if its base is unset. -/
def Voice.evalDest (m : NumInst) (w : Voice) (d : Dest) : Res (Option Rat) :=
  match w.router.base[d.idx] with
  | none => .ok none
  | some b => do
    let acc ← w.sumInto m d allSources b
    .ok (some (clamp acc (Dest.lo d) (Dest.hi d)))

/-- `Evaluate()` (R229): all destinations, in code order. -/
def Voice.evaluate (m : NumInst) (w : Voice) : Res Voice := do
  let c ← w.evalDest m .cutoff
  let r ← w.evalDest m .resonance
  let p ← w.evalDest m .pwm
  let l ← w.evalDest m .level
  let t ← w.evalDest m .pitch
  .ok { w with router := { w.router with mod := #v[c, r, p, l, t] } }

/-- `repeat n times: Evaluate()` (R230). -/
def Voice.evaluateN (m : NumInst) : Nat → Voice → Res Voice
  | 0, w => .ok w
  | n + 1, w => do
    let w' ← w.evaluate m
    Voice.evaluateN m n w'

/-- The first line of MOD.PROCBLK (R230): the modulated values reset to the clamped bases. -/
def Router.resetMod (r : Router) : Router :=
  let at_ (d : Dest) : Option Rat := (r.base[d.idx]).map fun b => clamp b (Dest.lo d) (Dest.hi d)
  { r with mod := #v[at_ .cutoff, at_ .resonance, at_ .pwm, at_ .level, at_ .pitch] }

/-- The effect of MOD.PROCBLK n (R230). -/
def Voice.processBlock (m : NumInst) (n : Nat) (w : Voice) : Res Voice :=
  Voice.evaluateN m n { w with router := w.router.resetMod }

/-! ## The commands -/

/-- MOD.ADD s, d, amount (R222). -/
def execModAdd (v : Fin 8) (src : Source) (d : Dest) (imm : Imm) (s : State) :
    Host.Outcome State Fault Refusal :=
  finish s do
    let x ← valueOp imm
    .ok (.none, s.setRouter v (s.voices[v].router.setConn src d (some x)))

/-- MOD.REMOVE s, d (R223). -/
def execModRemove (v : Fin 8) (src : Source) (d : Dest) (s : State) :
    Host.Outcome State Fault Refusal :=
  finish s (.ok (.none, s.setRouter v (s.voices[v].router.setConn src d none)))

/-- MOD.CLEAR (R224). -/
def execModClear (v : Fin 8) (s : State) : Host.Outcome State Fault Refusal :=
  finish s (.ok (.none, s.setRouter v s.voices[v].router.clear))

/-- MOD.HAS s, d (R225). -/
def execModHas (v : Fin 8) (src : Source) (d : Dest) (s : State) : Host.Outcome State Fault Refusal :=
  finish s (.ok (.bool (s.voices[v].router.present src d), s))

/-- MOD.SETBASE d, value (R226). -/
def execModSetbase (v : Fin 8) (d : Dest) (imm : Imm) (s : State) : Host.Outcome State Fault Refusal :=
  finish s do
    let x ← valueOp imm
    .ok (.none, s.setRouter v (s.voices[v].router.setBase d x))

/-- MOD.GETDEST d (R227). -/
def execModGetdest (v : Fin 8) (d : Dest) (s : State) : Host.Outcome State Fault Refusal :=
  finish s do
    let x ← readOpt s.voices[v].router.mod[d.idx]
    .ok (.num x, s)

/-- MOD.PROCBLK n (R230). -/
def execModProcblk (v : Fin 8) (n : BitVec 32) (s : State) : Host.Outcome State Fault Refusal :=
  finish s do
    let w ← s.voices[v].processBlock s.num (countOp n)
    .ok (.none, s.setVoice v w)

/-- MOD.SETSCALAR s, value (R234). -/
def execModSetscalar (v : Fin 8) (c : ScalarSource) (imm : Imm) (s : State) :
    Host.Outcome State Fault Refusal :=
  finish s do
    let x ← valueOp imm
    .ok (.none, s.setRouter v (s.voices[v].router.putScalar c x))

/-- MOD.REGISTER s, b (R235). -/
def execModRegister (v : Fin 8) (o : ObjSource) (b : Bool) (s : State) :
    Host.Outcome State Fault Refusal :=
  finish s (.ok (.none, s.setRouter v (s.voices[v].router.setRegistered o b)))

end Sys2Proof.Machine
end

