-- ==== Sys2Proof/Machine/VoiceUnit.lean ====
section
/-! DEFINITION. The Voice (spec/45_voice.md). "The effect of X" is the unit function of X, without a `pc`
update and without a response. -/

namespace Sys2Proof.Machine

/-! ## Pitch, note on, note off, free -/

/-- `SetPitch()` (R253), run only when the note holds a value. -/
def Voice.setPitch (m : NumInst) (file : Vector (Option Rat) 25) (w : Voice) : Res Voice :=
  match w.note with
  | none => .ok w
  | some note => do
    let a ← numAdd m ((note.val : Nat) : Rat) ((paramGet file .oscTune).getD 0)
    let x ← numAdd m a w.bend
    let hz ← noteHz m x
    let o ← w.osc.setFreq m hz
    .ok { w with osc := o }

/-- The effect of VOICE.NOTEON (R252), in its order; `n` draws have been taken. -/
def Voice.noteOn (m : NumInst) (file : Vector (Option Rat) 25) (note : Fin 128) (velocity : Rat)
    (n : Nat) (w : Voice) : Res (Nat × Voice) := do
  let vel := clamp velocity 0 1
  let w1 := { w with note := some note, vel := vel, router := w.router.setScalar .velocity vel }
  let w2 ← w1.setPitch m file
  let w3 := (w2.setEnv 0 w2.env[0].noteOn).setEnv 1 w2.env[1].noteOn
  let r0 := w3.lfo[0].rewind m n
  let r1 := w3.lfo[1].rewind m r0.1
  let w4 := (w3.setLfo 0 r0.2).setLfo 1 r1.2
  .ok (r1.1, { w4 with playing := true, tailOff := false })

/-- `Free()` (R256). -/
def Voice.free (w : Voice) : Voice :=
  { w with
    playing := false
    tailOff := false
    note := none
    env := #v[{ w.env[0] with stage := .idle, level := 0 }, { w.env[1] with stage := .idle, level := 0 }] }

/-- The effect of VOICE.NOTEOFF (R255). -/
def Voice.noteOff (m : NumInst) (allow : Bool) (w : Voice) : Res Voice :=
  if w.playing then
    if allow then do
      let e0 ← w.env[0].noteOff m
      let e1 ← w.env[1].noteOff m
      .ok { w with env := #v[e0, e1], tailOff := true }
    else .ok w.free
  else .ok w

/-- The effect of VOICE.PITCHBEND (R257). -/
def Voice.pitchBend (m : NumInst) (file : Vector (Option Rat) 25) (x : Rat) (w : Voice) : Res Voice :=
  Voice.setPitch m file { w with bend := x, router := w.router.setScalar .pitchbend x }

/-- The effect of VOICE.MODWHEEL (R258). -/
def Voice.modWheel (x : Rat) (w : Voice) : Voice :=
  { w with wheel := clamp x 0 1, router := w.router.setScalar .modwheel (clamp x 0 1) }

/-! ## Applying the parameters (R262) -/

/-- One line of `ApplyParams`: it runs only if its parameter holds a value. -/
def Voice.apply (file : Vector (Option Rat) 25) (p : Param) (f : Rat → Voice → Res Voice) (w : Voice) :
    Res Voice :=
  match paramGet file p with
  | none => .ok w
  | some x => f x w

/-- An envelope setter as a line of `ApplyParams`. -/
def Voice.onEnv (i : Fin 2) (f : Rat → Env → Res Env) (x : Rat) (w : Voice) : Res Voice := do
  let e ← f x w.env[i]
  .ok (w.setEnv i e)

/-- The LFO rate as a line of `ApplyParams`. -/
def Voice.lfoRate (m : NumInst) (i : Fin 2) (x : Rat) (w : Voice) : Res Voice := do
  let l ← w.lfo[i].setFreq m x
  .ok (w.setLfo i l)

/-- The LFO waveform as a line of `ApplyParams`. -/
def Voice.lfoWave (i : Fin 2) (x : Rat) (w : Voice) : Res Voice :=
  .ok (w.setLfo i { w.lfo[i] with wave := some (lfoChoice x) })

/-- A connection into CUTOFF as a line of `ApplyParams` (R261). -/
def Voice.toCutoff (s : Source) (x : Rat) (w : Voice) : Res Voice :=
  .ok { w with router := w.router.setConn s .cutoff (some x) }

/-- A base value as a line of `ApplyParams`. -/
def Voice.toBase (d : Dest) (x : Rat) (w : Voice) : Res Voice :=
  .ok { w with router := w.router.setBase d x }

/-- `ApplyParams()` (R262), line by line. VEL_TO_AMP and MASTER_VOLUME are read per sample (R264). -/
def Voice.applyParams (m : NumInst) (file : Vector (Option Rat) 25) (w : Voice) : Res Voice := do
  let w ← w.apply file .oscWaveform fun x w => .ok { w with osc := { w.osc with wave := oscChoice x } }
  let w ← w.setPitch m file
  let w ← w.apply file .oscPwm (Voice.toBase .pwm)
  let w ← w.apply file .fltCutoff (Voice.toBase .cutoff)
  let w ← w.apply file .fltResonance fun x w => do
    let f ← w.flt.setRes m x
    .ok { w with flt := f }
  let w ← w.apply file .fltDrive fun x w => .ok { w with flt := w.flt.setDrv x }
  let w ← w.apply file .fltEnvAmount (Voice.toCutoff (.obj .env2))
  let w ← w.apply file .ampAttack (Voice.onEnv 0 (Env.setAtk m))
  let w ← w.apply file .ampDecay (Voice.onEnv 0 (Env.setDec m))
  let w ← w.apply file .ampSustain (Voice.onEnv 0 (Env.setSus m))
  let w ← w.apply file .ampRelease (Voice.onEnv 0 (Env.setRel m))
  let w ← w.apply file .fenvAttack (Voice.onEnv 1 (Env.setAtk m))
  let w ← w.apply file .fenvDecay (Voice.onEnv 1 (Env.setDec m))
  let w ← w.apply file .fenvSustain (Voice.onEnv 1 (Env.setSus m))
  let w ← w.apply file .fenvRelease (Voice.onEnv 1 (Env.setRel m))
  let w ← w.apply file .lfo1Rate (Voice.lfoRate m 0)
  let w ← w.apply file .lfo1Waveform (Voice.lfoWave 0)
  let w ← w.apply file .lfo1ToFilter (Voice.toCutoff (.obj .lfo1))
  let w ← w.apply file .lfo2Rate (Voice.lfoRate m 1)
  let w ← w.apply file .lfo2Waveform (Voice.lfoWave 1)
  let w ← w.apply file .lfo2ToFilter (Voice.toCutoff (.obj .lfo2))
  let w ← w.apply file .modwheelAmount (Voice.toCutoff (.scalar .modwheel))
  w.apply file .velToFilter (Voice.toCutoff (.scalar .velocity))

/-! ## Rendering -/

/-- The units' part of one sample of `RenderVoice` (R265): oscillator, envelopes, LFOs, router, filter
cutoff, filter. The filter output `y`, the amplitude envelope value `a`, the draws taken, the voice. -/
def Voice.chain (m : NumInst) (n : Nat) (w : Voice) : Res (Rat × Rat × Nat × Voice) := do
  let o ← w.osc.proc m
  let a ← w.env[0].tick m
  let b ← w.env[1].tick m
  let l0 ← w.lfo[0].next m n
  let l1 ← w.lfo[1].next m l0.2.1
  let w1 := { w with osc := o.2, env := #v[a.2, b.2], lfo := #v[l0.2.2, l1.2.2] }
  let w2 ← w1.processBlock m 1
  let c ← readOpt w2.router.mod[Dest.cutoff.idx]
  let f ← w2.flt.setCut m c
  let y ← f.sample m o.1
  .ok (y.1, a.1, l1.2.1, { w2 with flt := y.2 })

/-- The final sample (R264), left to right: `y × a × VEL_GAIN(vel, VEL_TO_AMP) × MASTER_VOLUME`. -/
def finalSample (m : NumInst) (file : Vector (Option Rat) 25) (vel y a : Rat) : Res Rat := do
  let t ← numMul m y a
  let amount ← readOpt (paramGet file .velToAmp)
  let g ← velGain m vel amount
  let t' ← numMul m t g
  let volume ← readOpt (paramGet file .masterVolume)
  numMul m t' volume

/-- The sample loop of `RenderVoice` (R265): `n` samples added to the elements from index `i`, ascending.
The result is the draws taken, the voice and the buffer. -/
def Voice.renderFrom (m : NumInst) (file : Vector (Option Rat) 25) (len : Option (Fin 65536)) :
    Nat → Nat → Nat → Voice → Memory → Res (Nat × Voice × Memory)
  | 0, _, d, w, b => .ok (d, w, b)
  | n + 1, i, d, w, b => do
    let r ← w.chain m d
    let x ← finalSample m file w.vel r.1 r.2.1
    let old ← bufRead len b i
    let sum ← numAdd m old x
    let b' ← bufWrite len b i sum
    Voice.renderFrom m file len n (i + 1) r.2.2.1 r.2.2.2 b'

/-- The end-of-render check (R267). -/
def Voice.endOfRender (w : Voice) : Voice :=
  if w.tailOff = true ∧ w.env[0].stage = .idle then w.free else w

/-- `RenderVoice(v, start, n)` (R265). A Free voice applies parameters and renders nothing. -/
def Voice.render (m : NumInst) (file : Vector (Option Rat) 25) (len : Option (Fin 65536))
    (start n d : Nat) (w : Voice) (b : Memory) : Res (Nat × Voice × Memory) := do
  let w ← w.applyParams m file
  if w.playing then do
    let r ← Voice.renderFrom m file len n start d w b
    .ok (r.1, r.2.1.endOfRender, r.2.2)
  else .ok (d, w, b)

/-! ## The commands -/

/-- VOICE.NOTEON note, velocity (R252). -/
def execVoiceNoteon (v : Fin 8) (note : Fin 128) (imm : Imm) (s : State) :
    Host.Outcome State Fault Refusal :=
  finish s do
    let x ← valueOp imm
    let r ← s.voices[v].noteOn s.num s.param note x s.draws
    .ok (.none, { s.setVoice v r.2 with draws := r.1 })

/-- VOICE.NOTEOFF allow (R255). -/
def execVoiceNoteoff (v : Fin 8) (allow : Bool) (s : State) : Host.Outcome State Fault Refusal :=
  finish s do
    let w ← s.voices[v].noteOff s.num allow
    .ok (.none, s.setVoice v w)

/-- VOICE.RENDER start, n (R265). -/
def execVoiceRender (v : Fin 8) (start : BitVec 16) (n : BitVec 32) (s : State) :
    Host.Outcome State Fault Refusal :=
  finish s do
    let r ← s.voices[v].render s.num s.param s.bufLen (indexOp start) (countOp n) s.draws s.buf
    .ok (.none, { s.setVoice v r.2.1 with draws := r.1, buf := r.2.2 })

/-- VOICE.ISACTIVE (R268). -/
def execVoiceIsactive (v : Fin 8) (s : State) : Host.Outcome State Fault Refusal :=
  finish s (.ok (.bool s.voices[v].playing, s))

/-- VOICE.PITCHBEND semitones (R257). -/
def execVoicePitchbend (v : Fin 8) (imm : Imm) (s : State) : Host.Outcome State Fault Refusal :=
  finish s do
    let x ← valueOp imm
    let w ← s.voices[v].pitchBend s.num s.param x
    .ok (.none, s.setVoice v w)

/-- VOICE.MODWHEEL value (R258). -/
def execVoiceModwheel (v : Fin 8) (imm : Imm) (s : State) : Host.Outcome State Fault Refusal :=
  finish s do
    let x ← valueOp imm
    .ok (.none, s.setVoice v (s.voices[v].modWheel x))

/-- VOICE.NOTE (R269): the note number, or all ones when the voice holds no note. -/
def execVoiceNote (v : Fin 8) (s : State) : Host.Outcome State Fault Refusal :=
  finish s (.ok (.int (match s.voices[v].note with
    | some note => BitVec.ofNat 32 note.val
    | none => 0xFFFFFFFF#32), s))

/-- VOICE.VELOCITY (R270). -/
def execVoiceVelocity (v : Fin 8) (s : State) : Host.Outcome State Fault Refusal :=
  finish s (.ok (.num s.voices[v].vel, s))

end Sys2Proof.Machine
end

