-- ==== Sys2Proof/Machine/Engine.lean ====
section
/-! DEFINITION. The VoiceAllocator/Engine (spec/46_engine.md). -/

namespace Sys2Proof.Machine

/-! ## Prepare -/

/-- The six sample-rate setters of one voice, in the order of R281. -/
def Voice.setRates (m : NumInst) (imm : Imm) (x : Rat) (w : Voice) : Res Voice := do
  let o ← w.osc.setSr m imm x
  let e0 ← w.env[0].setSr m imm x
  let e1 ← w.env[1].setSr m imm x
  let l0 ← w.lfo[0].setSr m imm x
  let l1 ← w.lfo[1].setSr m imm x
  let f ← w.flt.setSr m imm x
  .ok { w with osc := o, env := #v[e0, e1], lfo := #v[l0, l1], flt := f }

/-- The loop of R281 over the listed voices. -/
def prepareVoices (m : NumInst) (imm : Imm) (x : Rat) :
    List (Fin 8) → Vector Voice 8 → Res (Vector Voice 8)
  | [], vs => .ok vs
  | v :: rest, vs => do
    let w ← vs[v].setRates m imm x
    prepareVoices m imm x rest (vs.set v w)

/-- The effect of ENG.PREPARE (R281). -/
def prepare (imm : Imm) (size : Fin 65536) (x : Rat) (s : State) : Res State :=
  if x ≤ 0 then .error (Trap.srRange imm)
  else do
    let top ← numMul s.num (lit s.num (9 / 20)) x
    if top < 20 then .error (Trap.srRange imm)
    else do
      let vs ← prepareVoices s.num imm x allVoices s.voices
      .ok { s with engSr := some x, bufLen := some size, buf := [], voices := vs }

/-! ## Allocation -/

/-- The Free voice of lowest index among the listed ones (R282, R283). -/
def firstFree (vs : Vector Voice 8) : List (Fin 8) → Option (Fin 8)
  | [] => none
  | v :: rest => if vs[v].playing then firstFree vs rest else some v

/-- The voice of lowest amplitude level among `best` and the listed ones; a later voice wins only with a
strictly lower level (R284). -/
def lowestFrom (vs : Vector Voice 8) (best : Fin 8) : List (Fin 8) → Fin 8
  | [] => best
  | v :: rest =>
    lowestFrom vs (if (vs[v].env[0]).level < (vs[best].env[0]).level then v else best) rest

/-- `StealTarget()` (R284): the lowest `ENV[0].level`, a tie broken by the lowest index. -/
def stealTarget (vs : Vector Voice 8) : Fin 8 := lowestFrom vs 0 allVoices

/-- The voice ENG.NOTEON takes (R283): the least Free one, or the steal target. -/
def noteTarget (vs : Vector Voice 8) : Fin 8 :=
  match firstFree vs allVoices with
  | some v => v
  | none => stealTarget vs

/-! ## Note off and render -/

/-- Whether ENG.NOTEOFF releases the voice (R286): Playing, not Releasing, and holding the note. -/
def Voice.holds (w : Voice) (note : Fin 128) : Bool :=
  w.playing && !w.tailOff && (w.note == some note)

/-- The loop of ENG.NOTEOFF (R286) over the listed voices. -/
def releaseVoices (m : NumInst) (note : Fin 128) :
    List (Fin 8) → Vector Voice 8 → Res (Vector Voice 8)
  | [], vs => .ok vs
  | v :: rest, vs =>
    if vs[v].holds note then do
      let w ← vs[v].noteOff m true
      releaseVoices m note rest (vs.set v w)
    else releaseVoices m note rest vs

/-- The loop of ENG.RENDER (R287) over the listed voices: each renders the whole range before the next
starts. The result is the draws taken, the voices and the buffer. -/
def renderVoices (m : NumInst) (file : Vector (Option Rat) 25) (len : Option (Fin 65536))
    (start n : Nat) :
    List (Fin 8) → Nat → Vector Voice 8 → Memory → Res (Nat × Vector Voice 8 × Memory)
  | [], d, vs, b => .ok (d, vs, b)
  | v :: rest, d, vs, b => do
    let r ← vs[v].render m file len start n d b
    renderVoices m file len start n rest r.1 (vs.set v r.2.1) r.2.2

/-! ## The commands -/

/-- ENG.PREPARE maxBlockSize, sampleRate (R281). -/
def execEngPrepare (size : BitVec 16) (imm : Imm) (s : State) : Host.Outcome State Fault Refusal :=
  finish s do
    let x ← valueOp imm
    let t ← prepare imm (sizeOp size) x s
    .ok (.none, t)

/-- ENG.NOTEON note, velocity (R283). -/
def execEngNoteon (note : Fin 128) (imm : Imm) (s : State) : Host.Outcome State Fault Refusal :=
  finish s do
    let x ← valueOp imm
    let r ← s.voices[noteTarget s.voices].noteOn s.num s.param note x s.draws
    .ok (.none, { s.setVoice (noteTarget s.voices) r.2 with draws := r.1 })

/-- ENG.NOTEOFF note (R286). -/
def execEngNoteoff (note : Fin 128) (s : State) : Host.Outcome State Fault Refusal :=
  finish s do
    let vs ← releaseVoices s.num note allVoices s.voices
    .ok (.none, { s with voices := vs })

/-- ENG.RENDER start, n (R287). -/
def execEngRender (start : BitVec 16) (n : BitVec 32) (s : State) : Host.Outcome State Fault Refusal :=
  finish s do
    let r ← renderVoices s.num s.param s.bufLen (indexOp start) (countOp n) allVoices s.draws s.voices s.buf
    .ok (.none, { s with draws := r.1, voices := r.2.1, buf := r.2.2 })

/-- ENG.SETPARAM id, value (R290): stored as given. -/
def execEngSetparam (id : Param) (imm : Imm) (s : State) : Host.Outcome State Fault Refusal :=
  finish s do
    let x ← valueOp imm
    .ok (.none, { s with param := s.param.set id.idx (some x) })

end Sys2Proof.Machine
end

