-- ==== Sys2Proof/Machine/Dispatch.lean ====
section
/-! DEFINITION. Dispatch: one arm per command, each one direct call of its meaning. -/

namespace Sys2Proof.Machine

def exec (i : Instr) (s : State) : Host.Outcome State Fault Refusal :=
  match i with
  | .bufSt x imm => Sys2Proof.Machine.execBufSt x imm s
  | .bufLd x => Sys2Proof.Machine.execBufLd x s
  | .oscSetfreq v imm => Sys2Proof.Machine.execOscSetfreq v imm s
  | .oscSetsr v imm => Sys2Proof.Machine.execOscSetsr v imm s
  | .oscSetwave v a => Sys2Proof.Machine.execOscSetwave v a s
  | .oscProc v => Sys2Proof.Machine.execOscProc v s
  | .envNoteon v k => Sys2Proof.Machine.execEnvNoteon v k s
  | .envNoteoff v k => Sys2Proof.Machine.execEnvNoteoff v k s
  | .envSetatk v k imm => Sys2Proof.Machine.execEnvSetatk v k imm s
  | .envSetdec v k imm => Sys2Proof.Machine.execEnvSetdec v k imm s
  | .envSetsus v k imm => Sys2Proof.Machine.execEnvSetsus v k imm s
  | .envSetrel v k imm => Sys2Proof.Machine.execEnvSetrel v k imm s
  | .envSetsr v k imm => Sys2Proof.Machine.execEnvSetsr v k imm s
  | .envTick v k => Sys2Proof.Machine.execEnvTick v k s
  | .envIsactive v k => Sys2Proof.Machine.execEnvIsactive v k s
  | .lfoSetfreq v k imm => Sys2Proof.Machine.execLfoSetfreq v k imm s
  | .lfoSetsr v k imm => Sys2Proof.Machine.execLfoSetsr v k imm s
  | .lfoSetwave v k a => Sys2Proof.Machine.execLfoSetwave v k a s
  | .lfoSetbip v k a => Sys2Proof.Machine.execLfoSetbip v k a s
  | .lfoNext v k => Sys2Proof.Machine.execLfoNext v k s
  | .lfoSkip v k n => Sys2Proof.Machine.execLfoSkip v k n s
  | .lfoReset v k => Sys2Proof.Machine.execLfoReset v k s
  | .fltSetsr v imm => Sys2Proof.Machine.execFltSetsr v imm s
  | .fltSetcut v imm => Sys2Proof.Machine.execFltSetcut v imm s
  | .fltSetres v imm => Sys2Proof.Machine.execFltSetres v imm s
  | .fltSetdrv v imm => Sys2Proof.Machine.execFltSetdrv v imm s
  | .fltProc1 v imm => Sys2Proof.Machine.execFltProc1 v imm s
  | .fltProcbuf v x n => Sys2Proof.Machine.execFltProcbuf v x n s
  | .fltReset v => Sys2Proof.Machine.execFltReset v s
  | .modAdd v a b imm => Sys2Proof.Machine.execModAdd v a b imm s
  | .modRemove v a b => Sys2Proof.Machine.execModRemove v a b s
  | .modClear v => Sys2Proof.Machine.execModClear v s
  | .modHas v a b => Sys2Proof.Machine.execModHas v a b s
  | .modSetbase v b imm => Sys2Proof.Machine.execModSetbase v b imm s
  | .modGetdest v b => Sys2Proof.Machine.execModGetdest v b s
  | .modProcblk v n => Sys2Proof.Machine.execModProcblk v n s
  | .modSetscalar v a imm => Sys2Proof.Machine.execModSetscalar v a imm s
  | .modRegister v a b => Sys2Proof.Machine.execModRegister v a b s
  | .voiceNoteon v a imm => Sys2Proof.Machine.execVoiceNoteon v a imm s
  | .voiceNoteoff v a => Sys2Proof.Machine.execVoiceNoteoff v a s
  | .voiceRender v x n => Sys2Proof.Machine.execVoiceRender v x n s
  | .voiceIsactive v => Sys2Proof.Machine.execVoiceIsactive v s
  | .voicePitchbend v imm => Sys2Proof.Machine.execVoicePitchbend v imm s
  | .voiceModwheel v imm => Sys2Proof.Machine.execVoiceModwheel v imm s
  | .voiceNote v => Sys2Proof.Machine.execVoiceNote v s
  | .voiceVelocity v => Sys2Proof.Machine.execVoiceVelocity v s
  | .engPrepare x imm => Sys2Proof.Machine.execEngPrepare x imm s
  | .engNoteon a imm => Sys2Proof.Machine.execEngNoteon a imm s
  | .engNoteoff a => Sys2Proof.Machine.execEngNoteoff a s
  | .engRender x n => Sys2Proof.Machine.execEngRender x n s
  | .engSetparam a imm => Sys2Proof.Machine.execEngSetparam a imm s

end Sys2Proof.Machine
end

