-- ==== Sys2Proof/Machine/Step.lean ====
section
/-! DEFINITION. The step of the block (spec/30_encoding.md R80, spec/60_exceptions.md R301, R310). -/

namespace Sys2Proof.Machine

/-- One step. A halted block does nothing (R301). Otherwise the word at `pc` is fetched and decoded; a word
that does not decode takes its fault (R302, R303) before any state is read (R310), a command is executed.
At the end of the stream there is no step (R340). -/
def step (s : State) : Host.Outcome State Fault Refusal :=
  if s.halted then .next s
  else
    match fetch s with
    | none => .fault .endOfStream
    | some w =>
      match decode w with
      | .error e => .next (s.takeFault (decodeTrap w e))
      | .ok i => exec i s

/-- The state in which the next step fetches and runs the word whose bits are `w` (bit 0 least
significant, the bits above `nbits` zero): the word stands at `pc` in the command stream and the block is
not halted. It stands for the host supplying the stream (log 6, DESIGN CHOICE). -/
def State.withFetchWord (s : State) (nbits w : Nat) : State := s.loadWord (tableWord nbits w)

end Sys2Proof.Machine
end

