-- ==== Sys2Proof/Safety/Table.lean ====
section
/-! DEFINITION. spec/opcode_table.json as data, beside the decoder and never used by it: claims hold the decoder
against it. -/

namespace Sys2Proof

/-- The `mask` of a command's row in spec/opcode_table.json (R106). -/
def tableMask : Instr → Cmd
  | .bufSt _ _ | .engPrepare _ _ | .engRender _ _ => 0xFFFF000000000000#64
  | .bufLd _ => 0xFFFF0000FFFFFFFF#64
  | .oscSetfreq _ _ | .oscSetsr _ _ | .fltSetsr _ _ | .fltSetcut _ _ | .fltSetres _ _ | .fltSetdrv _ _
  | .fltProc1 _ _ | .modProcblk _ _ | .voicePitchbend _ _ | .voiceModwheel _ _ => 0xFF8FFFFF00000000#64
  | .oscSetwave _ _ => 0xFF8FFCFFFFFFFFFF#64
  | .oscProc _ | .fltReset _ | .modClear _ | .voiceIsactive _ | .voiceNote _
  | .voiceVelocity _ => 0xFF8FFFFFFFFFFFFF#64
  | .envNoteon _ _ | .envNoteoff _ _ | .envTick _ _ | .envIsactive _ _ | .lfoNext _ _
  | .lfoReset _ _ => 0xFF8EFFFFFFFFFFFF#64
  | .envSetatk _ _ _ | .envSetdec _ _ _ | .envSetsus _ _ _ | .envSetrel _ _ _ | .envSetsr _ _ _
  | .lfoSetfreq _ _ _ | .lfoSetsr _ _ _ | .lfoSkip _ _ _ => 0xFF8EFFFF00000000#64
  | .lfoSetwave _ _ _ => 0xFF8EF8FFFFFFFFFF#64
  | .lfoSetbip _ _ _ => 0xFF8EFEFFFFFFFFFF#64
  | .fltProcbuf _ _ _ | .voiceRender _ _ _ => 0xFF8F000000000000#64
  | .modAdd _ _ _ _ => 0xFF8FF8F800000000#64
  | .modRemove _ _ _ | .modHas _ _ _ => 0xFF8FF8F8FFFFFFFF#64
  | .modSetbase _ _ _ => 0xFF8FFFF800000000#64
  | .modGetdest _ _ => 0xFF8FFFF8FFFFFFFF#64
  | .modSetscalar _ _ _ => 0xFF8FFCFF00000000#64
  | .modRegister _ _ _ => 0xFF8FFCFEFFFFFFFF#64
  | .voiceNoteon _ _ _ => 0xFF8F80FF00000000#64
  | .voiceNoteoff _ _ => 0xFF8FFEFFFFFFFFFF#64
  | .engNoteon _ _ => 0xFFFF80FF00000000#64
  | .engNoteoff _ => 0xFFFF80FFFFFFFFFF#64
  | .engSetparam _ _ => 0xFFFFE0FF00000000#64

/-- The `match` of a command's row in spec/opcode_table.json (R106). -/
def tableMatch : Instr → Cmd
  | .bufSt _ _ => 0x0100000000000000#64
  | .bufLd _ => 0x0200000000000000#64
  | .oscSetfreq _ _ => 0x1000000000000000#64
  | .oscSetsr _ _ => 0x1100000000000000#64
  | .oscSetwave _ _ => 0x1200000000000000#64
  | .oscProc _ => 0x1300000000000000#64
  | .envNoteon _ _ => 0x2000000000000000#64
  | .envNoteoff _ _ => 0x2100000000000000#64
  | .envSetatk _ _ _ => 0x2200000000000000#64
  | .envSetdec _ _ _ => 0x2300000000000000#64
  | .envSetsus _ _ _ => 0x2400000000000000#64
  | .envSetrel _ _ _ => 0x2500000000000000#64
  | .envSetsr _ _ _ => 0x2600000000000000#64
  | .envTick _ _ => 0x2700000000000000#64
  | .envIsactive _ _ => 0x2800000000000000#64
  | .lfoSetfreq _ _ _ => 0x3000000000000000#64
  | .lfoSetsr _ _ _ => 0x3100000000000000#64
  | .lfoSetwave _ _ _ => 0x3200000000000000#64
  | .lfoSetbip _ _ _ => 0x3300000000000000#64
  | .lfoNext _ _ => 0x3400000000000000#64
  | .lfoSkip _ _ _ => 0x3500000000000000#64
  | .lfoReset _ _ => 0x3600000000000000#64
  | .fltSetsr _ _ => 0x4000000000000000#64
  | .fltSetcut _ _ => 0x4100000000000000#64
  | .fltSetres _ _ => 0x4200000000000000#64
  | .fltSetdrv _ _ => 0x4300000000000000#64
  | .fltProc1 _ _ => 0x4400000000000000#64
  | .fltProcbuf _ _ _ => 0x4500000000000000#64
  | .fltReset _ => 0x4600000000000000#64
  | .modAdd _ _ _ _ => 0x5000000000000000#64
  | .modRemove _ _ _ => 0x5100000000000000#64
  | .modClear _ => 0x5200000000000000#64
  | .modHas _ _ _ => 0x5300000000000000#64
  | .modSetbase _ _ _ => 0x5400000000000000#64
  | .modGetdest _ _ => 0x5500000000000000#64
  | .modProcblk _ _ => 0x5600000000000000#64
  | .modSetscalar _ _ _ => 0x5700040000000000#64
  | .modRegister _ _ _ => 0x5800000000000000#64
  | .voiceNoteon _ _ _ => 0x6000000000000000#64
  | .voiceNoteoff _ _ => 0x6100000000000000#64
  | .voiceRender _ _ _ => 0x6200000000000000#64
  | .voiceIsactive _ => 0x6300000000000000#64
  | .voicePitchbend _ _ => 0x6400000000000000#64
  | .voiceModwheel _ _ => 0x6500000000000000#64
  | .voiceNote _ => 0x6600000000000000#64
  | .voiceVelocity _ => 0x6700000000000000#64
  | .engPrepare _ _ => 0x7000000000000000#64
  | .engNoteon _ _ => 0x7100000000000000#64
  | .engNoteoff _ => 0x7200000000000000#64
  | .engRender _ _ => 0x7300000000000000#64
  | .engSetparam _ _ => 0x7400000000000000#64

/-- A code operand whose range is no power of two (R106 "constraints"): `A`, `cmd[47:40]`, at most 5 for
LFO.SETWAVE and at most 24 for ENG.SETPARAM; `B`, `cmd[39:32]`, at most 4 where it is a Dest. -/
def TableConstraint (i : Instr) (w : Cmd) : Prop :=
  match i with
  | .lfoSetwave _ _ _ => (w.extractLsb' 40 8).toNat ≤ 5
  | .engSetparam _ _ => (w.extractLsb' 40 8).toNat ≤ 24
  | .modAdd _ _ _ _ | .modRemove _ _ _ | .modHas _ _ _ | .modSetbase _ _ _ | .modGetdest _ _ =>
    (w.extractLsb' 32 8).toNat ≤ 4
  | _ => True

/-- The word selects the command's row: `w & mask = match` and the row's constraints hold (R106). -/
def SelectsRow (w : Cmd) (i : Instr) : Prop := w &&& tableMask i = tableMatch i ∧ TableConstraint i w

/-- The reserved opcodes, as R98 lists them. -/
def ReservedOpcode (o : Nat) : Prop :=
  o = 0x00 ∨ (0x03 ≤ o ∧ o ≤ 0x0F) ∨ (0x14 ≤ o ∧ o ≤ 0x1F) ∨ (0x29 ≤ o ∧ o ≤ 0x2F) ∨
    (0x37 ≤ o ∧ o ≤ 0x3F) ∨ (0x47 ≤ o ∧ o ≤ 0x4F) ∨ (0x59 ≤ o ∧ o ≤ 0x5F) ∨ (0x68 ≤ o ∧ o ≤ 0x6F) ∨
    (0x75 ≤ o ∧ o ≤ 0x7F) ∨ (0x80 ≤ o ∧ o ≤ 0xFF)

end Sys2Proof
end

