-- ==== Sys2Proof/Safety.lean ====
section
/-! DEFINITION. The terms claims are stated in: what it is for a command to complete or to take a fault, what a
command leaves alone, repeated unit operations, and the invariants of spec/10_state.md. -/

namespace Sys2Proof.Machine

/-! ## Completing and faulting -/

/-- The command runs: it leaves the state `t` but for `pc <- pc + 1`, and puts `r` on the response port
(spec/30_encoding.md R80). -/
def Completes (i : Instr) (s : State) (r : Response) (t : State) : Prop :=
  exec i s = .next { t with pc := s.pc + 1, responses := s.responses ++ [r] }

/-- The command takes a fault: its code, info word and `pc` are recorded, `pc` advances, nothing else
changes (spec/60_exceptions.md R300). -/
def Traps (i : Instr) (s : State) (code : FaultCode) (info : BitVec 64) : Prop :=
  exec i s = .next { s with fault := some { code := code, info := info, pc := s.pc }, pc := s.pc + 1 }

/-- The command word with the given fields (spec/30_encoding.md R81). -/
def cmdWord (opc : BitVec 8) (voice inst : Nat) (a b : BitVec 8) (imm : Imm) : Cmd :=
  opc ++ BitVec.ofNat 4 voice ++ BitVec.ofNat 4 inst ++ a ++ b ++ imm

/-- A safe step: no fault is on record after it. -/
def SafeStep (s : State) : Prop := ∃ t, step s = .next t ∧ t.fault = none

/-! ## What a command leaves alone -/

/-- What a command addresses (spec/30_encoding.md R85, R89, R97). -/
inductive Target where
  | buffer
  | osc (v : Fin 8)
  | env (v : Fin 8) (i : Fin 2)
  | lfo (v : Fin 8) (i : Fin 2)
  | flt (v : Fin 8)
  | router (v : Fin 8)
  | voice (v : Fin 8)
  | engine
deriving DecidableEq, Repr

/-- The unit, voice or engine a command addresses. -/
def target : Instr → Target
  | .bufSt _ _ | .bufLd _ => .buffer
  | .oscSetfreq v _ | .oscSetsr v _ | .oscSetwave v _ | .oscProc v => .osc v
  | .envNoteon v i | .envNoteoff v i | .envSetatk v i _ | .envSetdec v i _ | .envSetsus v i _
  | .envSetrel v i _ | .envSetsr v i _ | .envTick v i | .envIsactive v i => .env v i
  | .lfoSetfreq v i _ | .lfoSetsr v i _ | .lfoSetwave v i _ | .lfoSetbip v i _ | .lfoNext v i
  | .lfoSkip v i _ | .lfoReset v i => .lfo v i
  | .fltSetsr v _ | .fltSetcut v _ | .fltSetres v _ | .fltSetdrv v _ | .fltProc1 v _
  | .fltProcbuf v _ _ | .fltReset v => .flt v
  | .modAdd v _ _ _ | .modRemove v _ _ | .modClear v | .modHas v _ _ | .modSetbase v _ _
  | .modGetdest v _ | .modProcblk v _ | .modSetscalar v _ _ | .modRegister v _ _ => .router v
  | .voiceNoteon v _ _ | .voiceNoteoff v _ | .voiceRender v _ _ | .voiceIsactive v
  | .voicePitchbend v _ | .voiceModwheel v _ | .voiceNote v | .voiceVelocity v => .voice v
  | .engPrepare _ _ | .engNoteon _ _ | .engNoteoff _ | .engRender _ _ | .engSetparam _ _ => .engine

/-- The voices of `t` are those of `s` but for the addressed unit or voice. -/
def OnlyTargetChanged (tg : Target) (s t : State) : Prop :=
  match tg with
  | .buffer => t.voices = s.voices
  | .osc v => t.voices = (s.setOsc v t.voices[v].osc).voices
  | .env v i => t.voices = (s.setEnv v i t.voices[v].env[i]).voices
  | .lfo v i => t.voices = (s.setLfo v i t.voices[v].lfo[i]).voices
  | .flt v => t.voices = (s.setFlt v t.voices[v].flt).voices
  | .router v => t.voices = (s.setRouter v t.voices[v].router).voices
  | .voice v => ∀ u : Fin 8, u ≠ v → t.voices[u] = s.voices[u]
  | .engine => True

/-- The elements a command may store to (spec/20_memory.md R75): BUF.ST its index, the counted commands
`start` to `start + n − 1`. -/
def StoresAt (i : Instr) (j : Nat) : Prop :=
  match i with
  | .bufSt idx _ => j = indexOp idx
  | .fltProcbuf _ start n | .voiceRender _ start n | .engRender start n =>
    indexOp start ≤ j ∧ j < indexOp start + countOp n
  | _ => False

/-- Element `i` of the new buffer holds `x`, every other element is as before. -/
def StoredAt (b b' : Memory) (i : Nat) (x : Rat) : Prop :=
  Memory.get b' i = some x ∧ ∀ j, j ≠ i → Memory.get b' j = Memory.get b j

/-! ## Repeated unit operations -/

/-- `k` times OSC.PROC's effect (spec/40_oscillator.md R116). -/
def Osc.procs (m : NumInst) : Nat → Osc → Res Osc
  | 0, o => .ok o
  | k + 1, o => do
    let r ← o.proc m
    Osc.procs m k r.2

/-- `k` times ENV.TICK's effect (spec/41_envelope.md R139). -/
def Env.ticks (m : NumInst) : Nat → Env → Res Env
  | 0, e => .ok e
  | k + 1, e => do
    let r ← e.tick m
    Env.ticks m k r.2

/-- FLT.PROC1's results on a list of inputs, one after the other (spec/43_ladder_filter.md R198). -/
def Flt.outputs (m : NumInst) : List Rat → Flt → Res (List Rat)
  | [], _ => .ok []
  | x :: rest, f => do
    let r ← f.sample m x
    let ys ← Flt.outputs m rest r.2
    .ok (r.1 :: ys)

/-- The amount of the connection from `s` to `d`, none if there is none (spec/44_mod_router.md R221). -/
def Router.cell (r : Router) (s : Source) (d : Dest) : Option Rat := (r.conn[s.idx])[d.idx]

/-- `base + Σ sourceValue × amount` over the connections into `d` (R231), in `EXACT`. -/
def Voice.exactSum (w : Voice) (d : Dest) (base : Rat) : Rat :=
  base + (allSources.map fun s => match w.router.cell s d with
    | none => 0
    | some amount => w.sourceValue s * amount).sum

/-! ## Invariants -/

/-- Every listed element of the buffer has an index below `BUF_LEN`, and the listing has its one form
(spec/20_memory.md R60, spec/10_state.md R37). -/
def State.BufferOk (s : State) : Prop :=
  Memory.wf s.buf ∧ ∀ e ∈ s.buf, ∃ n, s.bufLen = some n ∧ e.1 < n.val

/-- An increment is the quotient of frequency and sample rate, unset exactly when either is unset (R25,
R29). -/
def IncDerived (m : NumInst) (freq sr inc : Option Rat) : Prop :=
  match freq, sr with
  | some f, some r => ∃ q, numDiv m f r = .ok q ∧ inc = some q
  | _, _ => inc = none

/-- The rates are those of R134 when the sample rate is set, unset when it is not (R27). -/
def Env.Derived (m : NumInst) (e : Env) : Prop :=
  Env.rederive m e = .ok e ∧ (e.sr = none → e.atkRate = none ∧ e.decRate = none ∧ e.relRate = none)

/-- The coefficients are those of R194 when the sample rate is set, unset when it is not (R31). -/
def Flt.Derived (m : NumInst) (f : Flt) : Prop :=
  Flt.recompute m f = .ok f ∧ (f.sr = none → f.p = none ∧ f.k = none)

/-- Every derived register of every voice holds what its rule derives (R25, R27, R29, R31). -/
def State.Derived (s : State) : Prop :=
  ∀ v : Fin 8,
    IncDerived s.num s.voices[v].osc.freq s.voices[v].osc.sr s.voices[v].osc.inc ∧
    (∀ i : Fin 2, Env.Derived s.num s.voices[v].env[i]) ∧
    (∀ i : Fin 2, IncDerived s.num s.voices[v].lfo[i].freq s.voices[v].lfo[i].sr s.voices[v].lfo[i].inc) ∧
    Flt.Derived s.num s.voices[v].flt

/-- "phase always wrapped into [0,1)" (R25). -/
def Osc.InRange (o : Osc) : Prop := 0 ≤ o.phase ∧ o.phase < 1

/-- The ranges of the envelope registers in `EXACT` (R26, R27), and Idle only at level 0 (R27, R141). -/
structure Env.InRange (e : Env) : Prop where
  level   : 0 ≤ e.level ∧ e.level ≤ 1
  sus     : 0 ≤ e.sus ∧ e.sus ≤ 1
  relFrom : 0 ≤ e.relFrom ∧ e.relFrom ≤ 1
  idle    : e.stage = .idle → e.level = 0
  atkMs   : envMinMs .exact ≤ e.atkMs
  decMs   : envMinMs .exact ≤ e.decMs
  relMs   : envMinMs .exact ≤ e.relMs
  sr      : ∀ r, e.sr = some r → 0 < r
  atkRate : ∀ r, e.atkRate = some r → 0 ≤ r
  decRate : ∀ r, e.decRate = some r → 0 ≤ r
  relRate : ∀ r, e.relRate = some r → 0 ≤ r

/-- The ranges of the LFO registers in `EXACT` (R28, R29). -/
structure Lfo.InRange (l : Lfo) : Prop where
  phase   : 0 ≤ l.phase ∧ l.phase < 1
  freq    : ∀ f, l.freq = some f → 1 / 100 ≤ f ∧ f ≤ 100
  held    : -1 ≤ l.held ∧ l.held ≤ 1
  sPrev   : -1 ≤ l.sPrev ∧ l.sPrev ≤ 1
  sTarget : -1 ≤ l.sTarget ∧ l.sTarget ≤ 1
  lastOut : -1 ≤ l.lastOut ∧ l.lastOut ≤ 1

/-- The ranges of the filter registers in `EXACT` (R30, R31). -/
structure Flt.InRange (f : Flt) : Prop where
  res    : 0 ≤ f.res ∧ f.res ≤ 1
  drive  : ∀ d, f.drive = some d → 0 ≤ d
  sr     : ∀ r, f.sr = some r → 400 / 9 ≤ r ∧ 20 ≤ f.cutoff ∧ f.cutoff ≤ 9 / 20 * r
  p      : ∀ p, f.p = some p → 0 < p ∧ p < 1
  k      : ∀ k, f.k = some k → 0 ≤ k

/-- The ranges of the router registers (R33). -/
structure Router.InRange (r : Router) : Prop where
  mod      : ∀ (d : Dest) (x : Rat), r.mod[d.idx] = some x → Dest.lo d ≤ x ∧ x ≤ Dest.hi d
  velocity : 0 ≤ r.scalar[ScalarSource.velocity.idx] ∧ r.scalar[ScalarSource.velocity.idx] ≤ 1
  modwheel : 0 ≤ r.scalar[ScalarSource.modwheel.idx] ∧ r.scalar[ScalarSource.modwheel.idx] ≤ 1

/-- The voice registers: their ranges (R34), and a Free voice holds no note and no tail flag (R35). -/
structure Voice.Consistent (w : Voice) : Prop where
  vel   : 0 ≤ w.vel ∧ w.vel ≤ 1
  wheel : 0 ≤ w.wheel ∧ w.wheel ≤ 1
  free  : w.playing = false → w.tailOff = false ∧ w.note = none

/-- R25 for every voice. -/
def State.OscsInRange (s : State) : Prop := ∀ v : Fin 8, Osc.InRange s.voices[v].osc

/-- R26, R27 for every envelope. -/
def State.EnvsInRange (s : State) : Prop := ∀ (v : Fin 8) (i : Fin 2), Env.InRange s.voices[v].env[i]

/-- R28, R29 for every LFO. -/
def State.LfosInRange (s : State) : Prop := ∀ (v : Fin 8) (i : Fin 2), Lfo.InRange s.voices[v].lfo[i]

/-- R30, R31 for every filter. -/
def State.FltsInRange (s : State) : Prop := ∀ v : Fin 8, Flt.InRange s.voices[v].flt

/-- R33 for every router. -/
def State.RoutersInRange (s : State) : Prop := ∀ v : Fin 8, Router.InRange s.voices[v].router

/-- R34, R35 for every voice. -/
def State.VoicesConsistent (s : State) : Prop := ∀ v : Fin 8, Voice.Consistent s.voices[v]

/-! ## What a voice needs to render (spec/45_voice.md R266), in `EXACT` -/

/-- The registers and parameters R266 lists hold values and the phase increments are in [0,1) (R115): a
voice to which the parameters have been applied. -/
structure Voice.Ready (file : Vector (Option Rat) 25) (w : Voice) : Prop where
  osc     : ∃ q, w.osc.inc = some q ∧ 0 ≤ q ∧ q < 1
  env     : ∀ i : Fin 2, w.env[i].atkRate.isSome ∧ w.env[i].decRate.isSome ∧ w.env[i].relRate.isSome
  lfo     : ∀ i : Fin 2, w.lfo[i].wave.isSome ∧ ∃ q, w.lfo[i].inc = some q ∧ 0 ≤ q ∧ q < 1
  flt     : w.flt.sr.isSome ∧ w.flt.drive.isSome
  base    : w.router.base[Dest.cutoff.idx].isSome
  amount  : (paramGet file .velToAmp).isSome
  volume  : (paramGet file .masterVolume).isSome

/-- The rate an envelope's stage reads is unset (spec/41_envelope.md R139). -/
def Env.Lacking (e : Env) : Prop :=
  (e.stage = .attack ∧ e.atkRate = none) ∨ (e.stage = .decay ∧ e.decRate = none) ∨
  (e.stage = .release ∧ e.relRate = none)

/-- A register or parameter that one sample of a Playing voice reads is unset (R266, R304). -/
def Voice.Lacking (file : Vector (Option Rat) 25) (w : Voice) : Prop :=
  w.osc.inc = none ∨
  (∃ i : Fin 2, w.env[i].Lacking) ∨
  (∃ i : Fin 2, w.lfo[i].wave = none ∨ w.lfo[i].inc = none) ∨
  w.flt.sr = none ∨ w.flt.drive = none ∨ w.router.base[Dest.cutoff.idx] = none ∨
  paramGet file .velToAmp = none ∨ paramGet file .masterVolume = none

/-- Every phase increment that is set is in [0,1) (R115). -/
def Voice.IncsInRange (w : Voice) : Prop :=
  (∀ q, w.osc.inc = some q → 0 ≤ q ∧ q < 1) ∧ ∀ (i : Fin 2) (q : Rat), w.lfo[i].inc = some q → 0 ≤ q ∧ q < 1

end Sys2Proof.Machine
end

