-- ==== Sys2Proof/Certificates/Slice0/Obligations.lean ====
section
/-! DEFINITION. The statements about the model, in the order of OBLIGATIONS.json. "R<n>" is a rule of spec/, "log
<n>" an entry of notes/assumptions/. `Completes i s r t`: the command `i` runs in `s`, answers `r` and leaves
`t` but for `pc <- pc + 1`; `Traps i s code info`: it takes that fault and changes nothing else
(Sys2Proof/Safety.lean). Where a hypothesis has the form `numDiv m a b = .ok q` it names the value of one
operation of NUM; in EXACT every such operation has one (F32OperationsRoundToNearestEven). -/

open Sys2Proof Sys2Proof.Machine

/-! ## Encoding -/

/-- Every well-formed command decodes from its own word: no operand bit is dropped (R81, R82, R85 to R88). -/
def Obligations.DecodeOfEncodeIsTheCommand : Prop :=
  ∀ i : Instr, WellFormed i = true → decode (encode i) = .ok i

/-- The decoder (R105): it gives a command exactly for that command's own word with a finite operand; it rejects with
`F_ILLEGAL_CMD` exactly the words of no command, and with `F_BAD_OPERAND` exactly the words of a command whose
binary32 operand is not finite, which is `cmd[31:0]`. -/
def Obligations.DecodingAcceptsExactlyTheCommandWords : Prop :=
  ∀ w : Cmd,
    (∀ i : Instr, decode w = .ok i ↔ encode i = w ∧ WellFormed i = true) ∧
    (decode w = .error .illegalCmd ↔ ∀ i : Instr, encode i ≠ w) ∧
    (∀ imm : Imm, decode w = .error (.badOperand imm) ↔
      ∃ i : Instr, encode i = w ∧ i.valueOperand = some imm ∧ finitePattern imm = false) ∧
    (∀ imm : Imm, decode w = .error (.badOperand imm) → imm = w.extractLsb' 0 32)

/-- R98: a word with a reserved opcode takes `F_ILLEGAL_CMD` with the word as info; the all-zero word is
illegal; every opcode that is not reserved is some command's. -/
def Obligations.ReservedOpcodesAreIllegal : Prop :=
  (∀ (s : State) (w : Cmd), s.fault = none → s.stream[s.pc]? = some w →
    ReservedOpcode (w.extractLsb' 56 8).toNat →
    step s = .next { s with fault := some { code := .illegalCmd, info := w, pc := s.pc }, pc := s.pc + 1 }) ∧
  decode 0 = .error .illegalCmd ∧
  (∀ o : BitVec 8, ¬ReservedOpcode o.toNat → ∃ i : Instr, (encode i).extractLsb' 56 8 = o)

/-- R100, R106: a word is legal exactly if it selects a row of spec/opcode_table.json, the rows it selects are
one row, and the command it decodes to is a command of that row; a word that selects none takes `F_ILLEGAL_CMD` and
halts the block. -/
def Obligations.OpcodeTableSelectsTheCommand : Prop :=
  ∀ w : Cmd,
    (decode w ≠ .error .illegalCmd ↔ ∃ i : Instr, SelectsRow w i) ∧
    (∀ i j : Instr, SelectsRow w i → SelectsRow w j → tableMatch i = tableMatch j ∧ tableMask i = tableMask j) ∧
    (∀ i : Instr, decode w = .ok i → SelectsRow w i) ∧
    (∀ s : State, s.fault = none → s.stream[s.pc]? = some w → (¬∃ i : Instr, SelectsRow w i) →
      step s = .next { s with fault := some { code := .illegalCmd, info := w, pc := s.pc }, pc := s.pc + 1 })

/-- Words the spec writes out, one or more of each group, and what they decode to. -/
def Obligations.WordsOfTheSpecDecode : Prop :=
  decode 0x0100000300000000#64 = .ok (.bufSt 3 0) ∧
  decode 0x10000000447A0000#64 = .ok (.oscSetfreq 0 0x447A0000#32) ∧
  decode 0x1200010000000000#64 = .ok (.oscSetwave 0 .saw) ∧
  decode 0x2221000042480000#64 = .ok (.envSetatk 2 1 0x42480000#32) ∧
  decode 0x3601000000000000#64 = .ok (.lfoReset 0 1) ∧
  decode 0x3500000000000006#64 = .ok (.lfoSkip 0 0 6) ∧
  decode 0x4500000000000004#64 = .ok (.fltProcbuf 0 0 4) ∧
  decode 0x5000030044FA0000#64 = .ok (.modAdd 0 (.obj .env2) .cutoff 0x44FA0000#32) ∧
  decode 0x570005003F000000#64 = .ok (.modSetscalar 0 .modwheel 0x3F000000#32) ∧
  decode 0x6330000000000000#64 = .ok (.voiceIsactive 3) ∧
  decode 0x70000040472C4400#64 = .ok (.engPrepare 64 0x472C4400#32) ∧
  decode 0x740018003F000000#64 = .ok (.engSetparam .masterVolume 0x3F000000#32)

/-! ## The step -/

/-- R80: unless the block is halted, the word at `pc` is fetched and its command executed; a word that does not
decode takes its fault (R302, R303) and changes nothing else. -/
def Obligations.StepRunsTheFetchedWord : Prop :=
  ∀ (s : State) (w : Cmd), s.fault = none → s.stream[s.pc]? = some w →
    (∀ i : Instr, decode w = .ok i → step s = exec i s) ∧
    (decode w = .error .illegalCmd →
      step s = .next { s with fault := some { code := .illegalCmd, info := w, pc := s.pc }, pc := s.pc + 1 }) ∧
    (∀ imm : Imm, decode w = .error (.badOperand imm) →
      step s = .next { s with
        fault := some { code := .badOperand, info := (w.extractLsb' 0 32).setWidth 64, pc := s.pc }
        pc := s.pc + 1 })

/-- R301: while halted the block executes nothing, and it is halted exactly while a fault is on record; after
reset there is none. -/
def Obligations.HaltedBlockExecutesNothing : Prop :=
  (∀ s : State, s.fault ≠ none → step s = .next s) ∧
  (∀ s : State, s.halted = true ↔ s.fault ≠ none) ∧
  State.reset.fault = none

/-- The one stop of the machine (the model's `Fault.endOfStream`, log 8) is the end of the command stream, where
R80 and R340 give no step; no command is refused. -/
def Obligations.OnlyTheEndOfTheStreamStops : Prop :=
  (∀ s : State, step s = .fault .endOfStream ↔ s.fault = none ∧ s.stream.length ≤ s.pc) ∧
  (∀ (s : State) (r : Refusal), step s ≠ .refused r) ∧
  (∀ (i : Instr) (s : State), ∃ t, exec i s = .next t)

/-- How a word comes to be fetched (log 6, the model's choice): after `loadWord` it is the next command, and a
serialised word is read little-endian (R65). -/
def Obligations.LoadedWordIsTheNextCommand : Prop :=
  ∀ (s : State) (w : Cmd),
    (∀ i : Instr, decode w = .ok i → step (s.loadWord w) = exec i (s.loadWord w)) ∧
    s.loadWord w = { s with stream := (s.loadWord w).stream, fault := none } ∧
    (∀ k : Nat, k ≠ s.pc → ∀ u : Cmd, s.stream[k]? = some u → (s.loadWord w).stream[k]? = some u) ∧
    s.withFetchWord 64 w.toNat = s.loadWord w ∧
    (∀ i : Instr, decode w = .ok i → decodeTableWord 64 w.toNat = some i) ∧
    (∀ rest : List (BitVec 8), decodeBytes (bytesOfWord w ++ rest) = some (decode w, rest)) ∧
    (∀ k : Nat, k < 8 → (bytesOfWord w)[k]? = some (w.extractLsb' (8 * k) 8))

/-- R300: every command either completes, with one response and no fault, or takes a fault that commits nothing
and answers nothing; the info word is the one the code's row gives, for `F_BUF_RANGE` the index the command addresses
beyond the buffer (R307); `F_NUMERIC` is raised in `F32` only (R308); `pc` advances by one either way (R21). -/
def Obligations.CommandIsAllOrNothing : Prop :=
  ∀ (i : Instr) (s : State), ∃ t, exec i s = .next t ∧ t.pc = s.pc + 1 ∧ t.stream = s.stream ∧ t.num = s.num ∧
    ((t.fault = s.fault ∧ ∃ r, t.responses = s.responses ++ [r]) ∨
      ∃ (code : FaultCode) (info : BitVec 64),
        t = { s with fault := some { code := code, info := info, pc := s.pc }, pc := s.pc + 1 } ∧
        match code with
        | .illegalCmd => False
        | .badOperand => info = ((encode i).extractLsb' 0 32).setWidth 64
        | .unset => info = 0
        | .srRange => info = ((encode i).extractLsb' 0 32).setWidth 64
        | .incRange => info = 0
        | .bufRange => ∃ (len : Fin 65536) (k : Nat), s.bufLen = some len ∧ info = BitVec.ofNat 64 k ∧
          (match i with
          | .bufSt idx _ | .bufLd idx => k = idx.toNat ∧ len.val ≤ k
          | .fltProcbuf _ start n | .voiceRender _ start n | .engRender start n =>
            k = max start.toNat len.val ∧ 0 < n.toNat ∧ len.val < start.toNat + n.toNat
          | _ => False)
        | .numeric => info = 0 ∧ s.num = .f32)

/-- R303: a command whose format has a binary32 operand takes `F_BAD_OPERAND` exactly when `cmd[30:23] = 255`,
whatever the state; a command without one never does. -/
def Obligations.NonFiniteOperandFaults : Prop :=
  ∀ (i : Instr) (s : State),
    (∀ imm, i.valueOperand = some imm →
      imm = (encode i).extractLsb' 0 32 ∧
      (imm.extractLsb' 23 8 = 255#8 →
        decode (encode i) = .error (.badOperand imm) ∧ Traps i s .badOperand (imm.setWidth 64)) ∧
      (imm.extractLsb' 23 8 ≠ 255#8 → decode (encode i) = .ok i ∧ ∀ info, ¬Traps i s .badOperand info)) ∧
    (i.valueOperand = none → decode (encode i) = .ok i ∧ ∀ info, ¬Traps i s .badOperand info)

/-! ## Numbers -/

/-- R86: the value of a binary32 pattern, with `s = w[31]`, `e = w[30:23]`, `m = w[22:0]`; the operand is that
rational in both instances of NUM, unrounded; the spec's example. -/
def Obligations.BinaryPatternValue : Prop :=
  (∀ w : Imm,
    let s : Nat := if w.getLsbD 31 then 1 else 0
    let e : Nat := (w.extractLsb' 23 8).toNat
    let m : Nat := (w.extractLsb' 0 23).toNat
    (e = 255 → f32Value w = none ∧ valueOp w = .error (Trap.badOperand w)) ∧
    (e = 0 → f32Value w = some ((-1) ^ s * (m : Rat) * (2 : Rat) ^ (-149 : Int))) ∧
    (e ≠ 0 → e ≠ 255 → f32Value w = some ((-1) ^ s * (2 ^ 23 + (m : Rat)) * (2 : Rat) ^ ((e : Int) - 150))) ∧
    (∀ x, f32Value w = some x → valueOp w = .ok x)) ∧
  f32Value 0x3DCCCCCD#32 = some (13421773 / 2 ^ 27)

/-- R83, R309: the pattern a value of the `F32` domain is answered as is the pattern of that value, zero as
`0x0000_0000`; the four kinds of response and their data; in `EXACT` a NUM has no bit pattern. -/
def Obligations.ResponseWordLayout : Prop :=
  (∀ (w : Imm) (x : Rat), f32Value w = some x →
    f32Value (f32Pattern x) = some x ∧ (x ≠ 0 → f32Pattern x = w)) ∧
  f32Pattern 0 = 0#32 ∧
  (∀ m : NumInst,
    responseWord m .none = some 0#34 ∧
    responseWord m (.bool false) = some (2#2 ++ 0#32) ∧
    responseWord m (.bool true) = some (2#2 ++ 1#32) ∧
    (∀ k, responseWord m (.int k) = some (3#2 ++ k))) ∧
  (∀ q, responseWord .f32 (.num q) = some (1#2 ++ f32Pattern q)) ∧
  (∀ q, responseWord .exact (.num q) = none)

/-- R9, R309, R308: in `EXACT` the operations are those of the rationals; in `F32` the exact result is rounded to
the nearest finite binary32, of two equally near the one with an even pattern, and a result of magnitude
2^128 − 2^103 or more has no finite binary32 and raises `F_NUMERIC`, as a division by zero does. -/
def Obligations.F32OperationsRoundToNearestEven : Prop :=
  (∀ a b : Rat, numAdd .exact a b = .ok (a + b) ∧ numSub .exact a b = .ok (a - b) ∧
    numMul .exact a b = .ok (a * b) ∧ numDiv .exact a b = .ok (a / b)) ∧
  (∀ a b : Rat, numAdd .f32 a b = numResult .f32 (a + b) ∧ numSub .f32 a b = numResult .f32 (a - b) ∧
    numMul .f32 a b = numResult .f32 (a * b) ∧ (b ≠ 0 → numDiv .f32 a b = numResult .f32 (a / b)) ∧
    numDiv .f32 a 0 = .error Trap.numeric) ∧
  (∀ q : Rat,
    (∀ r, numResult .f32 q = .ok r →
      (∃ w, f32Value w = some r) ∧
      (∀ w y, f32Value w = some y → |q - r| ≤ |q - y|) ∧
      (∀ w y, f32Value w = some y → y ≠ r → |q - y| = |q - r| →
        ∃ w', f32Value w' = some r ∧ w'.getLsbD 0 = false)) ∧
    (numResult .f32 q = .error Trap.numeric ↔ 2 ^ 128 - 2 ^ 103 ≤ |q|) ∧
    ∀ e, numResult .f32 q = .error e → e = Trap.numeric)

/-- R11, R203, R8, R12: the named properties of the configuration functions, `LADDER_STABLE` with its bound `CEIL_G`
among them, and the ranges of the open parameters and draws (logs 3 to 5). "Increasing" is strict in `EXACT`; in `F32`,
which has more arguments than values for each of the three functions, it is that no value falls (log 2). That a cutoff
below `fs/4` gives less than 1/2 is stated for all of them, of any sign (log 2). In `F32` too the cutoffs of `LADDER_STABLE`
end at the exact `9/20 × fs`, not at the rounded bound of R193 (log 2). -/
def Obligations.ConfigurationFunctionsMeetTheirProperties : Prop :=
  (∀ m : NumInst,
    (sine01 m 0 = 0 ∧ sine01 m (1 / 4) = 1 ∧ sine01 m (1 / 2) = 0 ∧ sine01 m (3 / 4) = -1) ∧
    (∀ t, -1 ≤ sine01 m t ∧ sine01 m t ≤ 1) ∧
    (∀ t, 0 ≤ t → t < 1 / 2 → sine01 m (t + 1 / 2) = -sine01 m t) ∧
    (∀ t, -1 ≤ tri01 m t ∧ tri01 m t ≤ 1) ∧
    tanhFn m 0 = 0 ∧
    (∀ x, tanhFn m (-x) = -tanhFn m x) ∧
    (∀ x, -1 < tanhFn m x ∧ tanhFn m x < 1) ∧
    (∀ x, 0 < x → 0 < tanhFn m x) ∧
    (∀ x y, x < y → tanhFn m x ≤ tanhFn m y) ∧
    (∀ c fs, 0 < coefP m c fs ∧ coefP m c fs < 1) ∧
    (∀ fs, coefP m (fs / 4) fs = 1 / 2) ∧
    (∀ c fs, 0 < fs → 4 * c < fs → coefP m c fs < 1 / 2) ∧
    (∀ c d fs, 0 < c → c < d → 2 * d < fs → coefP m c fs ≤ coefP m d fs) ∧
    (∀ c fs r, 20 ≤ c → c ≤ 9 / 20 * fs → 0 ≤ r → r ≤ 1 →
      LadderGainAtMost (coefP m c fs) (4 * r * coefP m c fs ^ 4) (ceilG m)) ∧
    (∀ v a, velGain m 1 a = .ok 1 ∧ velGain m v 0 = .ok 1) ∧
    noteHz m 69 = .ok 440 ∧
    (∀ x hz, noteHz m x = .ok hz → 0 < hz) ∧
    (∀ x y hx hy, x < y → noteHz m x = .ok hx → noteHz m y = .ok hy → hx ≤ hy) ∧
    (0 < envMinMs m ∧ envMinMs m ≤ 50) ∧
    (∀ n, -1 ≤ draw m n ∧ draw m n ≤ 1) ∧
    (∀ n h, drawOther m n h ≠ h ∧ -1 ≤ drawOther m n h ∧ drawOther m n h ≤ 1)) ∧
  (∀ c fs, c ≤ 9 / 20 * fs → 0 < fs → coefP .exact c fs ≤ coefP .exact (9 / 20 * fs) fs) ∧
  (∀ x y, x < y → tanhFn .exact x < tanhFn .exact y) ∧
  (∀ c d fs, 0 < c → c < d → 2 * d < fs → coefP .exact c fs < coefP .exact d fs) ∧
  (∀ x y hx hy, x < y → noteHz .exact x = .ok hx → noteHz .exact y = .ok hy → hx < hy) ∧
  (∀ x, ∃ hz, noteHz .exact x = .ok hz ∧ noteHz .exact (x + 12) = .ok (2 * hz)) ∧
  (sqHalf = -1 ∨ sqHalf = 0 ∨ sqHalf = 1)

/-! ## The sample buffer -/

/-- R62, R63, R64: `MemRead` and `MemWrite` with the order of their checks, BUF.ST and BUF.LD. -/
def Obligations.BufferStoreAndLoad : Prop :=
  (∀ (len : Option (Fin 65536)) (b : Memory) (i : Nat) (x : Rat),
    (len = none →
      bufRead len b i = .error { code := .unset, info := 0 } ∧
      bufWrite len b i x = .error { code := .unset, info := 0 }) ∧
    (∀ n, len = some n → n.val ≤ i →
      bufRead len b i = .error { code := .bufRange, info := BitVec.ofNat 64 i } ∧
      bufWrite len b i x = .error { code := .bufRange, info := BitVec.ofNat 64 i }) ∧
    (∀ n, len = some n → i < n.val →
      (Memory.get b i = none → bufRead len b i = .error { code := .unset, info := 0 }) ∧
      (∀ y, Memory.get b i = some y → bufRead len b i = .ok y) ∧
      ∃ b', bufWrite len b i x = .ok b' ∧ StoredAt b b' i x ∧ (Memory.wf b → Memory.wf b'))) ∧
  (∀ (s : State) (idx : BitVec 16) (imm : Imm),
    encode (.bufSt idx imm) = 0x01#8 ++ 0#8 ++ idx ++ imm ∧
    encode (.bufLd idx) = 0x02#8 ++ 0#8 ++ idx ++ 0#32 ∧
    (f32Value imm = none → Traps (.bufSt idx imm) s .badOperand (imm.setWidth 64)) ∧
    (∀ x, f32Value imm = some x → s.bufLen = none → Traps (.bufSt idx imm) s .unset 0) ∧
    (∀ x n, f32Value imm = some x → s.bufLen = some n → n.val ≤ idx.toNat →
      Traps (.bufSt idx imm) s .bufRange (BitVec.ofNat 64 idx.toNat)) ∧
    (∀ x n, f32Value imm = some x → s.bufLen = some n → idx.toNat < n.val →
      ∃ b', Completes (.bufSt idx imm) s .none { s with buf := b' } ∧ StoredAt s.buf b' idx.toNat x) ∧
    (s.bufLen = none → Traps (.bufLd idx) s .unset 0) ∧
    (∀ n, s.bufLen = some n → n.val ≤ idx.toNat →
      Traps (.bufLd idx) s .bufRange (BitVec.ofNat 64 idx.toNat)) ∧
    (∀ n, s.bufLen = some n → idx.toNat < n.val → Memory.get s.buf idx.toNat = none →
      Traps (.bufLd idx) s .unset 0) ∧
    (∀ n x, s.bufLen = some n → idx.toNat < n.val → Memory.get s.buf idx.toNat = some x →
      Completes (.bufLd idx) s (.num x) s))

/-! ## Oscillator -/

/-- R111, R112: OSC.SETFREQ and OSC.SETSR. -/
def Obligations.OscillatorFrequencyAndRate : Prop :=
  ∀ (s : State) (v : Fin 8) (imm : Imm),
    let o := s.voices[v].osc
    encode (.oscSetfreq v imm) = cmdWord 0x10#8 v 0 0 0 imm ∧
    encode (.oscSetsr v imm) = cmdWord 0x11#8 v 0 0 0 imm ∧
    (f32Value imm = none →
      Traps (.oscSetfreq v imm) s .badOperand (imm.setWidth 64) ∧
      Traps (.oscSetsr v imm) s .badOperand (imm.setWidth 64)) ∧
    (∀ x, f32Value imm = some x →
      (o.sr = none → Completes (.oscSetfreq v imm) s .none (s.setOsc v { o with freq := some x })) ∧
      (∀ r q, o.sr = some r → numDiv s.num x r = .ok q →
        Completes (.oscSetfreq v imm) s .none (s.setOsc v { o with freq := some x, inc := some q })) ∧
      (∀ r e, o.sr = some r → numDiv s.num x r = .error e →
        Traps (.oscSetfreq v imm) s e.code e.info) ∧
      (x ≤ 0 → Traps (.oscSetsr v imm) s .srRange (imm.setWidth 64)) ∧
      (0 < x → o.freq = none →
        Completes (.oscSetsr v imm) s .none (s.setOsc v { o with sr := some x })) ∧
      (∀ f q, 0 < x → o.freq = some f → numDiv s.num f x = .ok q →
        Completes (.oscSetsr v imm) s .none (s.setOsc v { o with sr := some x, inc := some q })) ∧
      (∀ f e, 0 < x → o.freq = some f → numDiv s.num f x = .error e →
        Traps (.oscSetsr v imm) s e.code e.info))

/-- R113 to R116: OSC.SETWAVE, the waveform function, the phase advance, OSC.PROC. -/
def Obligations.OscillatorProcess : Prop :=
  (∀ (m : NumInst) (t : Rat),
    waveValue m .sine t = .ok (sine01 m t) ∧
    waveValue .exact .saw t = .ok (2 * t - 1) ∧
    (∀ d x, numMul m 2 t = .ok d → numSub m d 1 = .ok x → waveValue m .saw t = .ok x) ∧
    (t < 1 / 2 → waveValue m .square t = .ok (-1)) ∧
    (1 / 2 < t → waveValue m .square t = .ok 1) ∧
    waveValue m .square (1 / 2) = .ok sqHalf ∧
    waveValue m .triangle t = .ok (tri01 m t)) ∧
  (∀ (m : NumInst) (phase inc : Rat),
    (inc < 0 ∨ 1 ≤ inc → phaseStep m phase inc = .error { code := .incRange, info := 0 }) ∧
    (0 ≤ inc → inc < 1 →
      (∀ t, numAdd m phase inc = .ok t → t < 1 → phaseStep m phase inc = .ok (t, false)) ∧
      (∀ t u, numAdd m phase inc = .ok t → 1 ≤ t → numSub m t 1 = .ok u →
        phaseStep m phase inc = .ok (u, true)))) ∧
  (∀ (s : State) (v : Fin 8) (kind : OscWave),
    let o := s.voices[v].osc
    encode (.oscSetwave v kind) = cmdWord 0x12#8 v 0 kind.code 0 0 ∧
    encode (.oscProc v) = cmdWord 0x13#8 v 0 0 0 0 ∧
    (∀ c : BitVec 8, 3 < c.toNat → decode (cmdWord 0x12#8 v 0 c 0 0) = .error .illegalCmd) ∧
    Completes (.oscSetwave v kind) s .none (s.setOsc v { o with wave := kind }) ∧
    (o.inc = none → Traps (.oscProc v) s .unset 0) ∧
    (∀ q out, o.inc = some q → q < 0 ∨ 1 ≤ q → waveValue s.num o.wave o.phase = .ok out →
      Traps (.oscProc v) s .incRange 0) ∧
    (∀ q out t wrapped, o.inc = some q → waveValue s.num o.wave o.phase = .ok out →
      phaseStep s.num o.phase q = .ok (t, wrapped) →
      Completes (.oscProc v) s (.num out) (s.setOsc v { o with phase := t })))

/-- R118, R115, in `EXACT` (an inference the spec marks as its own, from R115 and R116): `N` OSC.PROCs add `N × inc` to
the phase and wrap it into [0,1); so after `N = sr ÷ freq` of them the phase, and with it the output, is the starting
one. -/
def Obligations.OscillatorIsPeriodic : Prop :=
  ∀ (o : Osc) (q : Rat), o.inc = some q → 0 ≤ q → q < 1 → 0 ≤ o.phase → o.phase < 1 →
    (∀ k : Nat, Osc.procs .exact k o = .ok { o with phase := Int.fract (o.phase + k * q) }) ∧
    (∀ (N : Nat) (f sr : Rat), o.freq = some f → o.sr = some sr → 0 < f → q = f / sr → (N : Rat) = sr / f →
      Osc.procs .exact N o = .ok o)

/-! ## Envelope -/

/-- R133, R134: CalcRate and Rederive. -/
def Obligations.EnvelopeRateDerivation : Prop :=
  (∀ (m : NumInst) (delta ms sr : Rat),
    (ms ≤ 0 ∨ delta ≤ 0 → calcRate m delta ms sr = .ok delta) ∧
    (∀ a samples q, 0 < ms → 0 < delta → numMul m ms (lit m (1 / 1000)) = .ok a →
      numMul m a sr = .ok samples → numDiv m delta samples = .ok q → calcRate m delta ms sr = .ok q)) ∧
  (∀ (m : NumInst) (e : Env),
    (e.sr = none → Env.rederive m e = .ok e) ∧
    (∀ sr drop a d r, e.sr = some sr → calcRate m 1 e.atkMs sr = .ok a → numSub m 1 e.sus = .ok drop →
      calcRate m drop e.decMs sr = .ok d → calcRate m e.relFrom e.relMs sr = .ok r →
      Env.rederive m e = .ok { e with atkRate := some a, decRate := some d, relRate := some r })) ∧
  (∀ e : Env, ∃ e', Env.rederive .exact e = .ok e')

/-- R132, R135, R136, R145, R146: the envelope's setters write their register, clamped, and re-derive the rates;
stage and level stay. -/
def Obligations.EnvelopeSettersRederive : Prop :=
  ∀ (s : State) (v : Fin 8) (i : Fin 2) (imm : Imm),
    let e := s.voices[v].env[i]
    encode (.envSetatk v i imm) = cmdWord 0x22#8 v i 0 0 imm ∧
    encode (.envSetdec v i imm) = cmdWord 0x23#8 v i 0 0 imm ∧
    encode (.envSetsus v i imm) = cmdWord 0x24#8 v i 0 0 imm ∧
    encode (.envSetrel v i imm) = cmdWord 0x25#8 v i 0 0 imm ∧
    encode (.envSetsr v i imm) = cmdWord 0x26#8 v i 0 0 imm ∧
    (f32Value imm = none →
      Traps (.envSetatk v i imm) s .badOperand (imm.setWidth 64) ∧
      Traps (.envSetdec v i imm) s .badOperand (imm.setWidth 64) ∧
      Traps (.envSetsus v i imm) s .badOperand (imm.setWidth 64) ∧
      Traps (.envSetrel v i imm) s .badOperand (imm.setWidth 64) ∧
      Traps (.envSetsr v i imm) s .badOperand (imm.setWidth 64)) ∧
    (∀ x e', f32Value imm = some x →
      (Env.rederive s.num { e with atkMs := max x (envMinMs s.num) } = .ok e' →
        Completes (.envSetatk v i imm) s .none (s.setEnv v i e')) ∧
      (Env.rederive s.num { e with decMs := max x (envMinMs s.num) } = .ok e' →
        Completes (.envSetdec v i imm) s .none (s.setEnv v i e')) ∧
      (Env.rederive s.num { e with sus := min (max x 0) 1 } = .ok e' →
        Completes (.envSetsus v i imm) s .none (s.setEnv v i e')) ∧
      (Env.rederive s.num { e with relMs := max x (envMinMs s.num) } = .ok e' →
        Completes (.envSetrel v i imm) s .none (s.setEnv v i e')) ∧
      (0 < x → Env.rederive s.num { e with sr := some x } = .ok e' →
        Completes (.envSetsr v i imm) s .none (s.setEnv v i e'))) ∧
    (∀ x, f32Value imm = some x → x ≤ 0 → Traps (.envSetsr v i imm) s .srRange (imm.setWidth 64)) ∧
    (∀ e₁ e', Env.rederive s.num e₁ = .ok e' → e'.stage = e₁.stage ∧ e'.level = e₁.level)

/-- R137, R138, R142: ENV.NOTEON, ENV.NOTEOFF, ENV.ISACTIVE. -/
def Obligations.EnvelopeNotes : Prop :=
  ∀ (s : State) (v : Fin 8) (i : Fin 2),
    let e := s.voices[v].env[i]
    encode (.envNoteon v i) = cmdWord 0x20#8 v i 0 0 0 ∧
    encode (.envNoteoff v i) = cmdWord 0x21#8 v i 0 0 0 ∧
    encode (.envIsactive v i) = cmdWord 0x28#8 v i 0 0 0 ∧
    Completes (.envNoteon v i) s .none (s.setEnv v i { e with stage := .attack }) ∧
    (∀ e', e.stage = .attack ∨ e.stage = .decay ∨ e.stage = .sustain →
      Env.rederive s.num { e with relFrom := e.level } = .ok e' →
      Completes (.envNoteoff v i) s .none (s.setEnv v i { e' with stage := .release })) ∧
    (e.stage = .idle ∨ e.stage = .release → Completes (.envNoteoff v i) s .none s) ∧
    Completes (.envIsactive v i) s (.bool (decide (e.stage ≠ .idle))) s

/-- R139: ENV.TICK, stage by stage. -/
def Obligations.EnvelopeTick : Prop :=
  ∀ (s : State) (v : Fin 8) (i : Fin 2),
    let e := s.voices[v].env[i]
    encode (.envTick v i) = cmdWord 0x27#8 v i 0 0 0 ∧
    (e.stage = .idle → Completes (.envTick v i) s (.num e.level) s) ∧
    (e.stage = .attack → e.atkRate = none → Traps (.envTick v i) s .unset 0) ∧
    (∀ r l, e.stage = .attack → e.atkRate = some r → numAdd s.num e.level r = .ok l →
      (l < 1 → Completes (.envTick v i) s (.num l) (s.setEnv v i { e with level := l })) ∧
      (1 ≤ l → Completes (.envTick v i) s (.num 1) (s.setEnv v i { e with level := 1, stage := .decay }))) ∧
    (e.stage = .decay → e.decRate = none → Traps (.envTick v i) s .unset 0) ∧
    (∀ r l, e.stage = .decay → e.decRate = some r → numSub s.num e.level r = .ok l →
      (e.sus < l → Completes (.envTick v i) s (.num l) (s.setEnv v i { e with level := l })) ∧
      (l ≤ e.sus → Completes (.envTick v i) s (.num e.sus)
        (s.setEnv v i { e with level := e.sus, stage := .sustain }))) ∧
    (e.stage = .sustain →
      Completes (.envTick v i) s (.num e.sus) (s.setEnv v i { e with level := e.sus })) ∧
    (e.stage = .release → e.relRate = none → Traps (.envTick v i) s .unset 0) ∧
    (∀ r l, e.stage = .release → e.relRate = some r → numSub s.num e.level r = .ok l →
      (0 < l → Completes (.envTick v i) s (.num l) (s.setEnv v i { e with level := l })) ∧
      (l ≤ 0 → Completes (.envTick v i) s (.num 0) (s.setEnv v i { e with level := 0, stage := .idle })))

/-- R140, R143, in `EXACT` (inferences the spec marks as its own, from R133, R134, R138, R139): no tick that leaves a stage
steps further than the stage's rate, and each ramp ends within the number of ticks R143 gives. -/
def Obligations.EnvelopeRampsAreContinuousAndEnd : Prop :=
  (∀ (e e' : Env) (l : Rat), Env.tick .exact e = .ok (l, e') →
    l = e'.level ∧
    (∀ r, e.stage = .attack → e'.stage = .decay → e.atkRate = some r → e.level < 1 →
      e'.level = 1 ∧ e.level < e'.level ∧ e'.level - e.level ≤ r) ∧
    (∀ r, e.stage = .decay → e'.stage = .sustain → e.decRate = some r → e.sus < e.level →
      e'.level = e.sus ∧ e'.level < e.level ∧ e.level - e'.level ≤ r) ∧
    (∀ r, e.stage = .release → e'.stage = .idle → e.relRate = some r → 0 < e.level →
      e'.level = 0 ∧ e'.level < e.level ∧ e.level - e'.level ≤ r)) ∧
  (∀ (e : Env) (r : Rat), e.stage = .attack → e.atkRate = some r → 0 < r → 0 ≤ e.level →
    ∃ k : Nat, (k : Int) ≤ ⌈1 / r⌉ ∧ Env.ticks .exact k e = .ok { e with level := 1, stage := .decay }) ∧
  (∀ (e : Env) (r : Rat), e.stage = .decay → e.decRate = some r → 0 < r → e.sus < 1 → e.level ≤ 1 →
    ∃ k : Nat, (k : Int) ≤ ⌈(1 - e.sus) / r⌉ ∧
      Env.ticks .exact k e = .ok { e with level := e.sus, stage := .sustain }) ∧
  (∀ (e : Env) (r : Rat), e.stage = .decay → e.decRate = some r → 0 ≤ r → e.sus = 1 → e.level ≤ 1 →
    Env.ticks .exact 1 e = .ok { e with level := e.sus, stage := .sustain }) ∧
  (∀ (e : Env) (r : Rat), e.stage = .release → e.relRate = some r → 0 < r → 0 < e.relFrom →
    e.level ≤ e.relFrom →
    ∃ k : Nat, (k : Int) ≤ ⌈e.relFrom / r⌉ ∧
      Env.ticks .exact k e = .ok { e with level := 0, stage := .idle }) ∧
  (∀ (e : Env) (r : Rat), e.stage = .release → e.relRate = some r → 0 ≤ r → e.level ≤ 0 →
    Env.ticks .exact 1 e = .ok { e with level := 0, stage := .idle })

/-- R144, in `EXACT` (an inference the spec marks as its own, from R133, R134, R139): the reset envelope at 44100 Hz after
ENV.NOTEON climbs by 1/2205, reaches exactly 1 at tick 2205, falls by 1/14700, reaches exactly 7/10 at tick 6615 and
holds it. -/
def Obligations.DefaultEnvelopeTiming : Prop :=
  ∀ (imm : Imm) (e : Env), Env.setSr .exact imm 44100 (Env.reset .exact) = .ok e →
    e.atkRate = some (1 / 2205) ∧ e.decRate = some (1 / 14700) ∧
    (∀ k : Nat, k < 2205 → Env.ticks .exact k e.noteOn = .ok { e.noteOn with level := (k : Rat) / 2205 }) ∧
    (∀ k : Nat, k < 4410 →
      Env.ticks .exact (2205 + k) e.noteOn =
        .ok { e.noteOn with level := 1 - (k : Rat) / 14700, stage := .decay }) ∧
    (∀ k : Nat, Env.ticks .exact (6615 + k) e.noteOn = .ok { e.noteOn with level := 7 / 10, stage := .sustain })

/-! ## LFO -/

/-- R162 to R165: the LFO's setters. -/
def Obligations.LfoSetters : Prop :=
  ∀ (s : State) (v : Fin 8) (i : Fin 2) (imm : Imm) (kind : LfoWave) (b : Bool),
    let l := s.voices[v].lfo[i]
    encode (.lfoSetfreq v i imm) = cmdWord 0x30#8 v i 0 0 imm ∧
    encode (.lfoSetsr v i imm) = cmdWord 0x31#8 v i 0 0 imm ∧
    encode (.lfoSetwave v i kind) = cmdWord 0x32#8 v i kind.code 0 0 ∧
    encode (.lfoSetbip v i b) = cmdWord 0x33#8 v i (if b then 1 else 0) 0 0 ∧
    (f32Value imm = none →
      Traps (.lfoSetfreq v i imm) s .badOperand (imm.setWidth 64) ∧
      Traps (.lfoSetsr v i imm) s .badOperand (imm.setWidth 64)) ∧
    (∀ x, f32Value imm = some x →
      (l.sr = none → Completes (.lfoSetfreq v i imm) s .none
        (s.setLfo v i { l with freq := some (min (max x (lit s.num (1 / 100))) 100) })) ∧
      (∀ r q, l.sr = some r → numDiv s.num (min (max x (lit s.num (1 / 100))) 100) r = .ok q →
        Completes (.lfoSetfreq v i imm) s .none
          (s.setLfo v i { l with
            freq := some (min (max x (lit s.num (1 / 100))) 100), inc := some q })) ∧
      (x ≤ 0 → Traps (.lfoSetsr v i imm) s .srRange (imm.setWidth 64)) ∧
      (0 < x → l.freq = none →
        Completes (.lfoSetsr v i imm) s .none (s.setLfo v i { l with sr := some x })) ∧
      (∀ f q, 0 < x → l.freq = some f → numDiv s.num f x = .ok q →
        Completes (.lfoSetsr v i imm) s .none (s.setLfo v i { l with sr := some x, inc := some q }))) ∧
    (∀ c : BitVec 8, 5 < c.toNat → decode (cmdWord 0x32#8 v i c 0 0) = .error .illegalCmd) ∧
    (∀ c : BitVec 8, 1 < c.toNat → decode (cmdWord 0x33#8 v i c 0 0) = .error .illegalCmd) ∧
    Completes (.lfoSetwave v i kind) s .none (s.setLfo v i { l with wave := some kind }) ∧
    Completes (.lfoSetbip v i b) s .none (s.setLfo v i { l with bipolar := b })

/-- R167 to R171: the value at a phase, LFO.NEXT, LfoAdvance; and LFO.RESET (R176), whose draws are the free inputs of R12
in the form of log 5: draw number `s.draws` is the next one. -/
def Obligations.LfoNextAndReset : Prop :=
  (∀ (m : NumInst) (l : Lfo),
    (l.value m .sine = waveValue m .sine l.phase ∧ l.value m .triangle = waveValue m .triangle l.phase ∧
      l.value m .saw = waveValue m .saw l.phase ∧ l.value m .square = waveValue m .square l.phase) ∧
    l.value m .stepped = .ok l.held ∧
    l.value .exact .smoothed = .ok (l.sPrev + (l.sTarget - l.sPrev) * l.phase) ∧
    (∀ d p x, numSub m l.sTarget l.sPrev = .ok d → numMul m d l.phase = .ok p → numAdd m l.sPrev p = .ok x →
      l.value m .smoothed = .ok x)) ∧
  (∀ (m : NumInst) (n : Nat) (l : Lfo) (q t : Rat),
    l.inc = some q →
      (phaseStep m l.phase q = .ok (t, false) → l.advance m n = .ok (n, { l with phase := t })) ∧
      (phaseStep m l.phase q = .ok (t, true) → l.advance m n = .ok (Lfo.wrap m n { l with phase := t }))) ∧
  (∀ (s : State) (v : Fin 8) (i : Fin 2),
    let l := s.voices[v].lfo[i]
    encode (.lfoNext v i) = cmdWord 0x34#8 v i 0 0 0 ∧
    encode (.lfoReset v i) = cmdWord 0x36#8 v i 0 0 0 ∧
    (l.wave = none ∨ l.inc = none → Traps (.lfoNext v i) s .unset 0) ∧
    (∀ kind q x, l.wave = some kind → l.inc = some q → l.value s.num kind = .ok x →
      (q < 0 ∨ 1 ≤ q → s.num = .exact ∨ l.bipolar = true → Traps (.lfoNext v i) s .incRange 0) ∧
      (∀ y out, q < 0 ∨ 1 ≤ q → numAdd s.num x 1 = .ok y → numMul s.num y (1 / 2) = .ok out →
        Traps (.lfoNext v i) s .incRange 0) ∧
      (∀ n l', l.advance s.num s.draws = .ok (n, l') → l.bipolar = true →
        Completes (.lfoNext v i) s (.num x)
          { s.setLfo v i { l' with lastOut := x } with draws := n }) ∧
      (∀ n l' y out, l.advance s.num s.draws = .ok (n, l') → l.bipolar = false →
        numAdd s.num x 1 = .ok y → numMul s.num y (1 / 2) = .ok out →
        Completes (.lfoNext v i) s (.num out)
          { s.setLfo v i { l' with lastOut := out } with draws := n })) ∧
    Completes (.lfoReset v i) s .none
      { s.setLfo v i { l with
          phase := 0, held := draw s.num s.draws
          sPrev := draw s.num (s.draws + 1), sTarget := draw s.num (s.draws + 2) } with
        draws := s.draws + 3 })

/-- R172: the wrap action by waveform; in STEPPED mode the value drawn at a wrap differs from the value held, whatever
the free draw is (R173). How a free draw is made to differ (the clause `draw m n ≠ l.held → d = draw m n`) and how
draws are numbered is the model's choice (log 5). -/
def Obligations.LfoWrapAction : Prop :=
  ∀ (m : NumInst) (n : Nat) (l : Lfo),
    (l.wave = some .stepped → ∃ d, Lfo.wrap m n l = (n + 1, { l with held := d }) ∧
      d ≠ l.held ∧ -1 ≤ d ∧ d ≤ 1 ∧ (draw m n ≠ l.held → d = draw m n)) ∧
    (l.wave = some .smoothed →
      Lfo.wrap m n l = (n + 1, { l with sPrev := l.sTarget, sTarget := draw m n })) ∧
    (l.wave ≠ some .stepped → l.wave ≠ some .smoothed → Lfo.wrap m n l = (n, l))

/-- R174: LFO.SKIP; and R175 (an inference the spec marks as its own): skips add up, LFO.SKIP 1 is LFO.NEXT without output
and latch; in `EXACT` the phase is the fractional part of `phase + n × inc`. -/
def Obligations.LfoSkipLaws : Prop :=
  ∀ (s t t₂ : State) (v : Fin 8) (i : Fin 2) (a b : BitVec 32) (x : Rat),
    let l := s.voices[v].lfo[i]
    encode (.lfoSkip v i a) = cmdWord 0x35#8 v i 0 0 a ∧
    Completes (.lfoSkip v i 0) s .none s ∧
    (0 < a.toNat → l.wave = none ∨ l.inc = none → Traps (.lfoSkip v i a) s .unset 0) ∧
    (∀ q, 0 < a.toNat → l.wave.isSome → l.inc = some q → q < 0 ∨ 1 ≤ q → Traps (.lfoSkip v i a) s .incRange 0) ∧
    (a.toNat + b.toNat < 2 ^ 32 → Completes (.lfoSkip v i a) s .none t → Completes (.lfoSkip v i b) t .none t₂ →
      Completes (.lfoSkip v i (a + b)) s .none t₂) ∧
    (Completes (.lfoNext v i) s (.num x) t →
      Completes (.lfoSkip v i 1) s .none (t.setLfo v i { t.voices[v].lfo[i] with lastOut := l.lastOut })) ∧
    (∀ q, s.num = .exact → l.wave.isSome → l.inc = some q → 0 ≤ q → q < 1 → 0 ≤ l.phase → l.phase < 1 →
      ∃ (n : Nat) (held sPrev sTarget : Rat),
        Completes (.lfoSkip v i a) s .none
          { s.setLfo v i { l with
              phase := Int.fract (l.phase + a.toNat * q)
              held := held, sPrev := sPrev, sTarget := sTarget } with draws := n } ∧
        (l.wave ≠ some .stepped → l.wave ≠ some .smoothed →
          n = s.draws ∧ held = l.held ∧ sPrev = l.sPrev ∧ sTarget = l.sTarget))

/-- R117, R177, in `EXACT` (inferences the spec marks as its own): a result of OSC.PROC lies in [−1,1]; one of LFO.NEXT in
[−1,1], and in [0,1] when the LFO is not bipolar. -/
def Obligations.OutputsStayInRange : Prop :=
  (∀ (s t : State) (v : Fin 8) (x : Rat), s.num = .exact → Osc.InRange s.voices[v].osc →
    Completes (.oscProc v) s (.num x) t → -1 ≤ x ∧ x ≤ 1) ∧
  (∀ (s t : State) (v : Fin 8) (i : Fin 2) (x : Rat), s.num = .exact → Lfo.InRange s.voices[v].lfo[i] →
    Completes (.lfoNext v i) s (.num x) t →
    (-1 ≤ x ∧ x ≤ 1) ∧ (s.voices[v].lfo[i].bipolar = false → 0 ≤ x))

/-! ## Filter -/

/-- R194: Recompute, the product left to right; in `EXACT` `k = 4 × res × p⁴`, `0 < p < 1` and `0 ≤ k < 4` for a
resonance in [0,1]. R11 gives `0 < p < 1` for cutoffs in (0, fs/2); that it holds for every cutoff and rate is the
model's choice (log 2). -/
def Obligations.FilterCoefficients : Prop :=
  (∀ (m : NumInst) (f : Flt),
    (f.sr = none → Flt.recompute m f = .ok f) ∧
    (∀ sr k₁ k₂ k₃ k₄ k, f.sr = some sr → numMul m 4 f.res = .ok k₁ →
      numMul m k₁ (coefP m f.cutoff sr) = .ok k₂ → numMul m k₂ (coefP m f.cutoff sr) = .ok k₃ →
      numMul m k₃ (coefP m f.cutoff sr) = .ok k₄ → numMul m k₄ (coefP m f.cutoff sr) = .ok k →
      Flt.recompute m f = .ok { f with p := some (coefP m f.cutoff sr), k := some k })) ∧
  (∀ (f : Flt) (sr : Rat), f.sr = some sr → 0 ≤ f.res → f.res ≤ 1 →
    ∃ p k, Flt.recompute .exact f = .ok { f with p := some p, k := some k } ∧
      p = coefP .exact f.cutoff sr ∧ k = 4 * f.res * p ^ 4 ∧ 0 < p ∧ p < 1 ∧ 0 ≤ k ∧ k < 4)

/-- R192, R193, R195, R196, R202: the filter's setters and its reset. -/
def Obligations.FilterSetters : Prop :=
  ∀ (s : State) (v : Fin 8) (imm : Imm),
    let f := s.voices[v].flt
    (encode (.fltSetsr v imm) = cmdWord 0x40#8 v 0 0 0 imm ∧
      encode (.fltSetcut v imm) = cmdWord 0x41#8 v 0 0 0 imm ∧
      encode (.fltSetres v imm) = cmdWord 0x42#8 v 0 0 0 imm ∧
      encode (.fltSetdrv v imm) = cmdWord 0x43#8 v 0 0 0 imm ∧
      encode (.fltReset v) = cmdWord 0x46#8 v 0 0 0 0) ∧
    (f32Value imm = none →
      Traps (.fltSetsr v imm) s .badOperand (imm.setWidth 64) ∧
      Traps (.fltSetcut v imm) s .badOperand (imm.setWidth 64) ∧
      Traps (.fltSetres v imm) s .badOperand (imm.setWidth 64) ∧
      Traps (.fltSetdrv v imm) s .badOperand (imm.setWidth 64)) ∧
    (∀ x, f32Value imm = some x →
      (x ≤ 0 → Traps (.fltSetsr v imm) s .srRange (imm.setWidth 64)) ∧
      (∀ top, 0 < x → numMul s.num (lit s.num (9 / 20)) x = .ok top → top < 20 →
        Traps (.fltSetsr v imm) s .srRange (imm.setWidth 64)) ∧
      (∀ top f', 0 < x → numMul s.num (lit s.num (9 / 20)) x = .ok top → 20 ≤ top →
        Flt.recompute s.num { f with sr := some x, cutoff := min (max f.cutoff 20) top } = .ok f' →
        Completes (.fltSetsr v imm) s .none (s.setFlt v f')) ∧
      (f.sr = none → Traps (.fltSetcut v imm) s .unset 0) ∧
      (∀ r top f', f.sr = some r → numMul s.num (lit s.num (9 / 20)) r = .ok top →
        Flt.recompute s.num { f with cutoff := min (max x 20) top } = .ok f' →
        Completes (.fltSetcut v imm) s .none (s.setFlt v f')) ∧
      (∀ f', Flt.recompute s.num { f with res := min (max x 0) 1 } = .ok f' →
        Completes (.fltSetres v imm) s .none (s.setFlt v f')) ∧
      Completes (.fltSetdrv v imm) s .none (s.setFlt v { f with drive := some (max x 0) })) ∧
    Completes (.fltReset v) s .none
      (s.setFlt v { f with y1 := 0, y2 := 0, y3 := 0, y4 := 0, h1 := 0, h2 := 0 })

/-- R197, R198: FLT.PROC1: the driven sample, the feedback from the fourth stage's previous output, four stages
`y + p × (x − y)`, the two history registers, the fourth stage as the result. -/
def Obligations.FilterSample : Prop :=
  (∀ (m : NumInst) (p x y d e r : Rat), numSub m x y = .ok d → numMul m p d = .ok e → numAdd m y e = .ok r →
    ladderStage m p x y = .ok r) ∧
  (∀ (s : State) (v : Fin 8) (imm : Imm),
    let f := s.voices[v].flt
    encode (.fltProc1 v imm) = cmdWord 0x44#8 v 0 0 0 imm ∧
    (f32Value imm = none → Traps (.fltProc1 v imm) s .badOperand (imm.setWidth 64)) ∧
    (∀ x, f32Value imm = some x →
      (f.p = none ∨ f.drive = none → Traps (.fltProc1 v imm) s .unset 0) ∧
      (∀ p k drive driven fb x' y₁ y₂ y₃ y₄, f.p = some p → f.k = some k → f.drive = some drive →
        numMul s.num drive x = .ok driven → numMul s.num k f.y4 = .ok fb →
        numSub s.num (tanhFn s.num driven) fb = .ok x' →
        ladderStage s.num p x' f.y1 = .ok y₁ → ladderStage s.num p y₁ f.y2 = .ok y₂ →
        ladderStage s.num p y₂ f.y3 = .ok y₃ → ladderStage s.num p y₃ f.y4 = .ok y₄ →
        Completes (.fltProc1 v imm) s (.num y₄)
          (s.setFlt v { f with
            y1 := y₁, y2 := y₂, y3 := y₃, y4 := y₄, h1 := tanhFn s.num driven, h2 := x' })) ∧
      (s.num = .exact → f.p.isSome → f.k.isSome → f.drive.isSome →
        ∃ y f', Completes (.fltProc1 v imm) s (.num y) (s.setFlt v f'))))

/-- R201: FLT.PROCBUF filters its elements in ascending order, in place: none for `n = 0`, one FilterStep for
`n = 1`, and `a + b` elements as `a` and then `b`; its faults; in `EXACT` it completes when its registers and
elements hold values; elements outside the range are as before. -/
def Obligations.FilterBuffer : Prop :=
  ∀ (s t t₂ : State) (v : Fin 8) (start : BitVec 16) (a b n : BitVec 32),
    let f := s.voices[v].flt
    encode (.fltProcbuf v start n) = 0x45#8 ++ BitVec.ofNat 4 v ++ 0#4 ++ start ++ n ∧
    Completes (.fltProcbuf v start 0) s .none s ∧
    (0 < n.toNat → f.p = none ∨ f.drive = none → Traps (.fltProcbuf v start n) s .unset 0) ∧
    (∀ len x y f', s.bufLen = some len → start.toNat < len.val → Memory.get s.buf start.toNat = some x →
      f.sample s.num x = .ok (y, f') →
      ∃ b', Completes (.fltProcbuf v start 1) s .none { s.setFlt v f' with buf := b' } ∧
        StoredAt s.buf b' start.toNat y) ∧
    (start.toNat + a.toNat < 2 ^ 16 → a.toNat + b.toNat < 2 ^ 32 →
      Completes (.fltProcbuf v start a) s .none t →
      Completes (.fltProcbuf v (start + a.setWidth 16) b) t .none t₂ →
      Completes (.fltProcbuf v start (a + b)) s .none t₂) ∧
    (s.num = .exact → f.p.isSome → f.k.isSome → f.drive.isSome →
      (∀ len, s.bufLen = some len →
        (∀ j, start.toNat ≤ j → j < start.toNat + n.toNat → j < len.val → (Memory.get s.buf j).isSome) →
        (start.toNat + n.toNat ≤ len.val →
          ∃ f' b', Completes (.fltProcbuf v start n) s .none { s.setFlt v f' with buf := b' } ∧
            ∀ j, j < start.toNat ∨ start.toNat + n.toNat ≤ j → Memory.get b' j = Memory.get s.buf j) ∧
        (0 < n.toNat → len.val < start.toNat + n.toNat →
          Traps (.fltProcbuf v start n) s .bufRange (BitVec.ofNat 64 (max start.toNat len.val)))) ∧
      (0 < n.toNat → s.bufLen = none → Traps (.fltProcbuf v start n) s .unset 0))

/-- R203's consequence, in `EXACT` (an inference the spec marks as its own): with constant coefficients whose impulse
response from `u` to `y4` has an absolute sum of at most `g`, and history starting at 0, every output is below `g` in
magnitude, whatever the drive, the inputs and their number. The coefficients R194 derives from a cutoff in
[20, 9/20 × fs] and a resonance in [0,1] are such for `g = CEIL_G`, by `LADDER_STABLE` (log 2). -/
def Obligations.FilterOutputIsBounded : Prop :=
  (∀ (p k g drive : Rat) (f : Flt), 0 < p → LadderGainAtMost p k g →
    f.p = some p → f.k = some k → f.drive = some drive →
    f.y1 = 0 → f.y2 = 0 → f.y3 = 0 → f.y4 = 0 →
    ∀ xs : List Rat, ∃ ys, Flt.outputs .exact xs f = .ok ys ∧ ys.length = xs.length ∧ ∀ y ∈ ys, |y| < g) ∧
  (∀ (fs drive : Rat) (f : Flt), Flt.recompute .exact f = .ok f → f.sr = some fs →
    20 ≤ f.cutoff → f.cutoff ≤ 9 / 20 * fs → 0 ≤ f.res → f.res ≤ 1 → f.drive = some drive →
    f.y1 = 0 → f.y2 = 0 → f.y3 = 0 → f.y4 = 0 →
    ∀ xs : List Rat, ∃ ys, Flt.outputs .exact xs f = .ok ys ∧ ys.length = xs.length ∧
      ∀ y ∈ ys, |y| < ceilG .exact)

/-! ## Router -/

/-- R222, R223, R224, R225: MOD.ADD, MOD.REMOVE, MOD.CLEAR and MOD.HAS on the cells of the connection matrix; MOD.ADD
leaves one cell for the pair, with the amount it gives, whatever was there. -/
def Obligations.RouterConnections : Prop :=
  ∀ (s : State) (v : Fin 8) (src : Source) (d : Dest) (imm : Imm),
    let r := s.voices[v].router
    encode (.modAdd v src d imm) = cmdWord 0x50#8 v 0 src.code d.code imm ∧
    encode (.modRemove v src d) = cmdWord 0x51#8 v 0 src.code d.code 0 ∧
    encode (.modClear v) = cmdWord 0x52#8 v 0 0 0 0 ∧
    encode (.modHas v src d) = cmdWord 0x53#8 v 0 src.code d.code 0 ∧
    (∀ a b : BitVec 8, 7 < a.toNat ∨ 4 < b.toNat →
      decode (cmdWord 0x50#8 v 0 a b imm) = .error .illegalCmd ∧
      decode (cmdWord 0x51#8 v 0 a b 0) = .error .illegalCmd ∧
      decode (cmdWord 0x53#8 v 0 a b 0) = .error .illegalCmd) ∧
    (f32Value imm = none → Traps (.modAdd v src d imm) s .badOperand (imm.setWidth 64)) ∧
    (∀ x, f32Value imm = some x →
      ∃ conn, Completes (.modAdd v src d imm) s .none (s.setRouter v { r with conn := conn }) ∧
        ∀ s' d', Router.cell { r with conn := conn } s' d' =
          if s' = src ∧ d' = d then some x else r.cell s' d') ∧
    (∃ conn, Completes (.modRemove v src d) s .none (s.setRouter v { r with conn := conn }) ∧
      ∀ s' d', Router.cell { r with conn := conn } s' d' = if s' = src ∧ d' = d then none else r.cell s' d') ∧
    (∃ conn, Completes (.modClear v) s .none (s.setRouter v { r with conn := conn }) ∧
      ∀ s' d', Router.cell { r with conn := conn } s' d' = none) ∧
    Completes (.modHas v src d) s (.bool (r.cell src d).isSome) s

/-- R226, R227, R234, R235: MOD.SETBASE, MOD.GETDEST, MOD.SETSCALAR, MOD.REGISTER. -/
def Obligations.RouterValues : Prop :=
  ∀ (s : State) (v : Fin 8) (d : Dest) (c : ScalarSource) (o : ObjSource) (b : Bool) (imm : Imm),
    let r := s.voices[v].router
    encode (.modSetbase v d imm) = cmdWord 0x54#8 v 0 0 d.code imm ∧
    encode (.modGetdest v d) = cmdWord 0x55#8 v 0 0 d.code 0 ∧
    encode (.modSetscalar v c imm) = cmdWord 0x57#8 v 0 c.code 0 imm ∧
    encode (.modRegister v o b) = cmdWord 0x58#8 v 0 o.code (if b then 1 else 0) 0 ∧
    (∀ b : BitVec 8, 4 < b.toNat →
      decode (cmdWord 0x54#8 v 0 0 b imm) = .error .illegalCmd ∧
      decode (cmdWord 0x55#8 v 0 0 b 0) = .error .illegalCmd) ∧
    (∀ a : BitVec 8, a.toNat < 4 ∨ 7 < a.toNat → decode (cmdWord 0x57#8 v 0 a 0 imm) = .error .illegalCmd) ∧
    (∀ a b : BitVec 8, 3 < a.toNat ∨ 1 < b.toNat → decode (cmdWord 0x58#8 v 0 a b 0) = .error .illegalCmd) ∧
    (f32Value imm = none →
      Traps (.modSetbase v d imm) s .badOperand (imm.setWidth 64) ∧
      Traps (.modSetscalar v c imm) s .badOperand (imm.setWidth 64)) ∧
    (∀ x, f32Value imm = some x →
      (∃ base, Completes (.modSetbase v d imm) s .none (s.setRouter v { r with base := base }) ∧
        ∀ d' : Dest, base[d'.idx] = if d' = d then some x else r.base[d'.idx]) ∧
      (∃ scalar, Completes (.modSetscalar v c imm) s .none (s.setRouter v { r with scalar := scalar }) ∧
        ∀ c' : ScalarSource, scalar[c'.idx] =
          if c' = c then (if c = .velocity ∨ c = .modwheel then min (max x 0) 1 else x)
          else r.scalar[c'.idx])) ∧
    (∃ reg, Completes (.modRegister v o b) s .none (s.setRouter v { r with registered := reg }) ∧
      ∀ o' : ObjSource, reg[o'.idx] = if o' = o then b else r.registered[o'.idx]) ∧
    (r.mod[d.idx] = none → Traps (.modGetdest v d) s .unset 0) ∧
    (∀ x, r.mod[d.idx] = some x → Completes (.modGetdest v d) s (.num x) s)

/-- R228, R231, R232: the value of a source, the ranges, and MOD.PROCBLK with `n ≥ 1` in `EXACT`: the clamped
`base + Σ sourceValue × amount`; a destination without a base has no value. Also R229 and R230: with `n = 0` each
destination is at its clamped base; the additions are made in source code order; MOD.PROCBLK n is MOD.PROCBLK 1 (an
inference the spec marks as its own). -/
def Obligations.RouterEvaluation : Prop :=
  (∀ (w : Voice),
    (w.sourceValue (.obj .lfo1) = if w.router.registered[0] then w.lfo[0].lastOut else 0) ∧
    (w.sourceValue (.obj .lfo2) = if w.router.registered[1] then w.lfo[1].lastOut else 0) ∧
    (w.sourceValue (.obj .env1) = if w.router.registered[2] then w.env[0].level else 0) ∧
    (w.sourceValue (.obj .env2) = if w.router.registered[3] then w.env[1].level else 0) ∧
    w.sourceValue (.scalar .velocity) = w.router.scalar[0] ∧
    w.sourceValue (.scalar .modwheel) = w.router.scalar[1] ∧
    w.sourceValue (.scalar .aftertouch) = w.router.scalar[2] ∧
    w.sourceValue (.scalar .pitchbend) = w.router.scalar[3]) ∧
  (Dest.lo .cutoff = 20 ∧ Dest.hi .cutoff = 20000 ∧ Dest.lo .resonance = 0 ∧ Dest.hi .resonance = 1 ∧
    Dest.lo .pwm = 0 ∧ Dest.hi .pwm = 1 ∧ Dest.lo .level = 0 ∧ Dest.hi .level = 1 ∧
    Dest.lo .pitch = -12 ∧ Dest.hi .pitch = 12) ∧
  allSources = [.obj .lfo1, .obj .lfo2, .obj .env1, .obj .env2,
    .scalar .velocity, .scalar .modwheel, .scalar .aftertouch, .scalar .pitchbend] ∧
  (∀ (m : NumInst) (w : Voice) (d : Dest) (base : Rat), w.router.base[d.idx] = some base →
    w.evalDest m d = do
      let acc ← allSources.foldlM (fun acc src => match w.router.cell src d with
        | none => (.ok acc : Res Rat)
        | some amount => do
          let t ← numMul m (w.sourceValue src) amount
          numAdd m acc t) base
      .ok (some (min (max acc (Dest.lo d)) (Dest.hi d)))) ∧
  (∀ (s t : State) (v : Fin 8) (n : BitVec 32),
    let w := s.voices[v]
    encode (.modProcblk v n) = cmdWord 0x56#8 v 0 0 0 n ∧
    (∃ mod, Completes (.modProcblk v 0) s .none (s.setRouter v { w.router with mod := mod }) ∧
      ∀ d : Dest, mod[d.idx] = (w.router.base[d.idx]).map fun b => min (max b (Dest.lo d)) (Dest.hi d)) ∧
    (1 ≤ n.toNat → Completes (.modProcblk v 1) s .none t → Completes (.modProcblk v n) s .none t) ∧
    (s.num = .exact → 1 ≤ n.toNat →
      ∃ mod, Completes (.modProcblk v n) s .none (s.setRouter v { w.router with mod := mod }) ∧
        ∀ d : Dest, mod[d.idx] =
          (w.router.base[d.idx]).map fun b => min (max (w.exactSum d b) (Dest.lo d)) (Dest.hi d)))

/-! ## Voice -/

/-- R252, R253: VOICE.NOTEON; both envelopes restart in Attack from their levels, both LFOs are reset. The numbering of
the six draws, free inputs of R12, is that of log 5. -/
def Obligations.VoiceNoteOn : Prop :=
  ∀ (s : State) (v : Fin 8) (note : Fin 128) (imm : Imm),
    let w := s.voices[v]
    let tune := (paramGet s.param .oscTune).getD 0
    encode (.voiceNoteon v note imm) = cmdWord 0x60#8 v 0 (BitVec.ofNat 8 note) 0 imm ∧
    (∀ a : BitVec 8, 127 < a.toNat → decode (cmdWord 0x60#8 v 0 a 0 imm) = .error .illegalCmd) ∧
    (f32Value imm = none → Traps (.voiceNoteon v note imm) s .badOperand (imm.setWidth 64)) ∧
    (∀ x a pitch hz o, f32Value imm = some x → numAdd s.num ((note.val : Nat) : Rat) tune = .ok a →
      numAdd s.num a w.bend = .ok pitch → noteHz s.num pitch = .ok hz → w.osc.setFreq s.num hz = .ok o →
      Completes (.voiceNoteon v note imm) s .none
        { s.setVoice v { w with
            osc := o
            env := #v[{ w.env[0] with stage := .attack }, { w.env[1] with stage := .attack }]
            lfo := #v[
              { w.lfo[0] with
                phase := 0, held := draw s.num s.draws, sPrev := draw s.num (s.draws + 1)
                sTarget := draw s.num (s.draws + 2) },
              { w.lfo[1] with
                phase := 0, held := draw s.num (s.draws + 3), sPrev := draw s.num (s.draws + 4)
                sTarget := draw s.num (s.draws + 5) }]
            router := { w.router with scalar := w.router.scalar.set 0 (min (max x 0) 1) }
            note := some note
            vel := min (max x 0) 1
            playing := true
            tailOff := false } with
          draws := s.draws + 6 }) ∧
    (∀ x, f32Value imm = some x → s.num = .exact →
      ∃ t, Completes (.voiceNoteon v note imm) s .none t ∧ t.voices[v].playing = true ∧
        t.voices[v].note = some note)

/-- R255, R256: VOICE.NOTEOFF and Free. -/
def Obligations.VoiceNoteOff : Prop :=
  ∀ (s : State) (v : Fin 8) (allow : Bool),
    let w := s.voices[v]
    encode (.voiceNoteoff v allow) = cmdWord 0x61#8 v 0 (if allow then 1 else 0) 0 0 ∧
    (∀ a : BitVec 8, 1 < a.toNat → decode (cmdWord 0x61#8 v 0 a 0 0) = .error .illegalCmd) ∧
    (w.playing = false → Completes (.voiceNoteoff v allow) s .none s) ∧
    (∀ e₀ e₁, w.playing = true → w.env[0].noteOff s.num = .ok e₀ → w.env[1].noteOff s.num = .ok e₁ →
      Completes (.voiceNoteoff v true) s .none
        (s.setVoice v { w with env := #v[e₀, e₁], tailOff := true })) ∧
    (w.playing = true →
      Completes (.voiceNoteoff v false) s .none
        (s.setVoice v { w with
          playing := false, tailOff := false, note := none
          env := #v[{ w.env[0] with stage := .idle, level := 0 },
            { w.env[1] with stage := .idle, level := 0 }] })) ∧
    (s.num = .exact → ∃ t, Completes (.voiceNoteoff v allow) s .none t ∧
      (w.playing = true → t.voices[v].lifecycle = if allow then .releasing else .free))

/-- R257, R258, R268, R269, R270: the controllers and the queries of a voice. -/
def Obligations.VoiceControllersAndQueries : Prop :=
  ∀ (s : State) (v : Fin 8) (imm : Imm),
    let w := s.voices[v]
    encode (.voicePitchbend v imm) = cmdWord 0x64#8 v 0 0 0 imm ∧
    encode (.voiceModwheel v imm) = cmdWord 0x65#8 v 0 0 0 imm ∧
    encode (.voiceIsactive v) = cmdWord 0x63#8 v 0 0 0 0 ∧
    encode (.voiceNote v) = cmdWord 0x66#8 v 0 0 0 0 ∧
    encode (.voiceVelocity v) = cmdWord 0x67#8 v 0 0 0 0 ∧
    (f32Value imm = none →
      Traps (.voicePitchbend v imm) s .badOperand (imm.setWidth 64) ∧
      Traps (.voiceModwheel v imm) s .badOperand (imm.setWidth 64)) ∧
    (∀ x, f32Value imm = some x →
      (w.note = none → Completes (.voicePitchbend v imm) s .none
        (s.setVoice v { w with
          bend := x, router := { w.router with scalar := w.router.scalar.set 3 x } })) ∧
      (∀ note a pitch hz o, w.note = some note →
        numAdd s.num ((note.val : Nat) : Rat) ((paramGet s.param .oscTune).getD 0) = .ok a →
        numAdd s.num a x = .ok pitch → noteHz s.num pitch = .ok hz → w.osc.setFreq s.num hz = .ok o →
        Completes (.voicePitchbend v imm) s .none
          (s.setVoice v { w with
            osc := o, bend := x, router := { w.router with scalar := w.router.scalar.set 3 x } })) ∧
      Completes (.voiceModwheel v imm) s .none
        (s.setVoice v { w with
          wheel := min (max x 0) 1
          router := { w.router with scalar := w.router.scalar.set 1 (min (max x 0) 1) } })) ∧
    Completes (.voiceIsactive v) s (.bool w.playing) s ∧
    (w.note = none → Completes (.voiceNote v) s (.int 0xFFFFFFFF#32) s) ∧
    (∀ note : Fin 128, w.note = some note → Completes (.voiceNote v) s (.int (BitVec.ofNat 32 note)) s) ∧
    Completes (.voiceVelocity v) s (.num w.vel) s

/-- R262: ApplyParams, register by register: a parameter that is set reaches its register through the clamp of the
setter it is applied through, one that is unset changes nothing, and so does every other register but the derived
ones (`inc`, the rates, `p`, `k`); in `EXACT` it always succeeds. -/
def Obligations.ApplyParamsWritesTheUnits : Prop :=
  (∀ (x : Rat) (top : Nat),
    choiceCode x top ≤ top ∧ (x < 0 → choiceCode x top = 0) ∧
    (0 ≤ x → (choiceCode x top : Rat) ≤ x ∧ (x < choiceCode x top + 1 ∨ choiceCode x top = top))) ∧
  (∀ x : Rat, (oscChoice x).code.toNat = choiceCode x 3 ∧ (lfoChoice x).code.toNat = choiceCode x 5) ∧
  (∀ (file : Vector (Option Rat) 25) (w : Voice), ∃ w', w.applyParams .exact file = .ok w') ∧
  (∀ (m : NumInst) (file : Vector (Option Rat) 25) (w w' : Voice), w.applyParams m file = .ok w' →
    let set (p : Param) (f : Rat → Rat) (old : Rat) : Rat := ((paramGet file p).map f).getD old
    w'.osc.wave = ((paramGet file .oscWaveform).map oscChoice).getD w.osc.wave ∧
    (w.note = none → w'.osc.freq = w.osc.freq) ∧
    (∀ note, w.note = some note → ∃ a x hz,
      numAdd m ((note.val : Nat) : Rat) ((paramGet file .oscTune).getD 0) = .ok a ∧ numAdd m a w.bend = .ok x ∧
      noteHz m x = .ok hz ∧ w'.osc.freq = some hz) ∧
    w'.osc.phase = w.osc.phase ∧ w'.osc.sr = w.osc.sr ∧
    (∀ d : Dest, w'.router.base[d.idx] =
      match d with
      | .pwm => (paramGet file .oscPwm).or w.router.base[d.idx]
      | .cutoff => (paramGet file .fltCutoff).or w.router.base[d.idx]
      | .resonance | .level | .pitch => w.router.base[d.idx]) ∧
    (∀ (src : Source) (d : Dest), w'.router.cell src d =
      match src, d with
      | .obj .env2, .cutoff => (paramGet file .fltEnvAmount).or (w.router.cell src d)
      | .obj .lfo1, .cutoff => (paramGet file .lfo1ToFilter).or (w.router.cell src d)
      | .obj .lfo2, .cutoff => (paramGet file .lfo2ToFilter).or (w.router.cell src d)
      | .scalar .modwheel, .cutoff => (paramGet file .modwheelAmount).or (w.router.cell src d)
      | .scalar .velocity, .cutoff => (paramGet file .velToFilter).or (w.router.cell src d)
      | _, _ => w.router.cell src d) ∧
    w'.router.mod = w.router.mod ∧ w'.router.scalar = w.router.scalar ∧ w'.router.registered = w.router.registered ∧
    w'.flt.res = set .fltResonance (fun x => min (max x 0) 1) w.flt.res ∧
    w'.flt.drive = ((paramGet file .fltDrive).map fun x => max x 0).or w.flt.drive ∧
    (w'.flt.y1 = w.flt.y1 ∧ w'.flt.y2 = w.flt.y2 ∧ w'.flt.y3 = w.flt.y3 ∧ w'.flt.y4 = w.flt.y4 ∧
      w'.flt.h1 = w.flt.h1 ∧ w'.flt.h2 = w.flt.h2 ∧ w'.flt.cutoff = w.flt.cutoff ∧ w'.flt.sr = w.flt.sr) ∧
    (w'.env[0].atkMs = set .ampAttack (max · (envMinMs m)) w.env[0].atkMs ∧
      w'.env[0].decMs = set .ampDecay (max · (envMinMs m)) w.env[0].decMs ∧
      w'.env[0].sus = set .ampSustain (fun x => min (max x 0) 1) w.env[0].sus ∧
      w'.env[0].relMs = set .ampRelease (max · (envMinMs m)) w.env[0].relMs) ∧
    (w'.env[1].atkMs = set .fenvAttack (max · (envMinMs m)) w.env[1].atkMs ∧
      w'.env[1].decMs = set .fenvDecay (max · (envMinMs m)) w.env[1].decMs ∧
      w'.env[1].sus = set .fenvSustain (fun x => min (max x 0) 1) w.env[1].sus ∧
      w'.env[1].relMs = set .fenvRelease (max · (envMinMs m)) w.env[1].relMs) ∧
    (∀ i : Fin 2, w'.env[i].stage = w.env[i].stage ∧ w'.env[i].level = w.env[i].level ∧
      w'.env[i].relFrom = w.env[i].relFrom ∧ w'.env[i].sr = w.env[i].sr) ∧
    (w'.lfo[0].freq = ((paramGet file .lfo1Rate).map fun x => min (max x (lit m (1 / 100))) 100).or w.lfo[0].freq ∧
      w'.lfo[1].freq = ((paramGet file .lfo2Rate).map fun x => min (max x (lit m (1 / 100))) 100).or w.lfo[1].freq ∧
      w'.lfo[0].wave = ((paramGet file .lfo1Waveform).map lfoChoice).or w.lfo[0].wave ∧
      w'.lfo[1].wave = ((paramGet file .lfo2Waveform).map lfoChoice).or w.lfo[1].wave) ∧
    (∀ i : Fin 2, w'.lfo[i].phase = w.lfo[i].phase ∧ w'.lfo[i].bipolar = w.lfo[i].bipolar ∧
      w'.lfo[i].sr = w.lfo[i].sr ∧ w'.lfo[i].held = w.lfo[i].held ∧ w'.lfo[i].sPrev = w.lfo[i].sPrev ∧
      w'.lfo[i].sTarget = w.lfo[i].sTarget ∧ w'.lfo[i].lastOut = w.lfo[i].lastOut) ∧
    w'.note = w.note ∧ w'.vel = w.vel ∧ w'.bend = w.bend ∧ w'.wheel = w.wheel ∧ w'.playing = w.playing ∧
    w'.tailOff = w.tailOff)

/-- R263 (an inference the spec marks as its own, from R262): ApplyParams is idempotent; a VOICE.RENDER with `n = 0`
before a VOICE.RENDER changes nothing (but for a voice that the first one frees, R267). -/
def Obligations.ApplyingParametersIsIdempotent : Prop :=
  (∀ (m : NumInst) (file : Vector (Option Rat) 25) (w w' : Voice),
    w.applyParams m file = .ok w' → w'.applyParams m file = .ok w') ∧
  (∀ (s t t₂ : State) (v : Fin 8) (start₀ start : BitVec 16) (n : BitVec 32),
    Completes (.voiceRender v start₀ 0) s .none t → t.voices[v].playing = s.voices[v].playing →
    (Completes (.voiceRender v start n) t .none t₂ ↔ Completes (.voiceRender v start n) s .none t₂))

/-- R264, R265, R267: VOICE.RENDER of no sample and of one sample, step by step in the order of R265; and its faults
(R304, R306, R307, R308): one in applying the parameters, and in each step of its first sample, whatever `n`. A fault in a
later sample is the first one of the rest of the render (`RenderMayBeCut`). The fault reported is the first reached in
the order written (R310); that `y × a` comes before the read of VEL_TO_AMP, the second product before the read of
MASTER_VOLUME, and the whole of `s` before the read of the element is the model's reading of that order (log 10). -/
def Obligations.VoiceRenderOneSample : Prop :=
  ∀ (s : State) (v : Fin 8) (start : BitVec 16) (n : BitVec 32),
    let traps (code : FaultCode) (info : BitVec 64) : Prop := Traps (.voiceRender v start n) s code info
    encode (.voiceRender v start n) = 0x62#8 ++ BitVec.ofNat 4 v ++ 0#4 ++ start ++ n ∧
    (∀ e, s.voices[v].applyParams s.num s.param = .error e → traps e.code e.info) ∧
    ∀ w : Voice, s.voices[v].applyParams s.num s.param = .ok w →
    (w.playing = false → Completes (.voiceRender v start n) s .none (s.setVoice v w)) ∧
    (w.playing = true → (w.tailOff = false ∨ w.env[0].stage ≠ .idle) →
      Completes (.voiceRender v start 0) s .none (s.setVoice v w)) ∧
    (w.tailOff = true → w.env[0].stage = .idle → w.playing = true →
      Completes (.voiceRender v start 0) s .none (s.setVoice v w.free)) ∧
    (∀ o osc a e₀ b e₁ x₀ n₀ l₀ x₁ n₁ l₁ w₂ c f y f' t₁ amount g t₂ volume smp len old sum,
      w.playing = true →
      w.osc.proc s.num = .ok (o, osc) →
      w.env[0].tick s.num = .ok (a, e₀) → w.env[1].tick s.num = .ok (b, e₁) →
      w.lfo[0].next s.num s.draws = .ok (x₀, n₀, l₀) → w.lfo[1].next s.num n₀ = .ok (x₁, n₁, l₁) →
      Voice.processBlock s.num 1 { w with osc := osc, env := #v[e₀, e₁], lfo := #v[l₀, l₁] } = .ok w₂ →
      w₂.router.mod[Dest.cutoff.idx] = some c →
      w₂.flt.setCut s.num c = .ok f → f.sample s.num o = .ok (y, f') →
      numMul s.num y a = .ok t₁ →
      paramGet s.param .velToAmp = some amount → velGain s.num w.vel amount = .ok g →
      numMul s.num t₁ g = .ok t₂ →
      paramGet s.param .masterVolume = some volume → numMul s.num t₂ volume = .ok smp →
      s.bufLen = some len → start.toNat < len.val → Memory.get s.buf start.toNat = some old →
      numAdd s.num old smp = .ok sum →
      ∃ b', StoredAt s.buf b' start.toNat sum ∧
        Completes (.voiceRender v start 1) s .none
          { s.setVoice v
              (if w.tailOff = true ∧ e₀.stage = .idle then Voice.free { w₂ with flt := f' }
                else { w₂ with flt := f' }) with
            draws := n₁, buf := b' }) ∧
    (0 < n.toNat → w.playing = true →
      (∀ e, w.osc.proc s.num = .error e → traps e.code e.info) ∧
      ∀ o osc, w.osc.proc s.num = .ok (o, osc) →
      (∀ e, w.env[0].tick s.num = .error e → traps e.code e.info) ∧
      ∀ a e₀, w.env[0].tick s.num = .ok (a, e₀) →
      (∀ e, w.env[1].tick s.num = .error e → traps e.code e.info) ∧
      ∀ b e₁, w.env[1].tick s.num = .ok (b, e₁) →
      (∀ e, w.lfo[0].next s.num s.draws = .error e → traps e.code e.info) ∧
      ∀ x₀ n₀ l₀, w.lfo[0].next s.num s.draws = .ok (x₀, n₀, l₀) →
      (∀ e, w.lfo[1].next s.num n₀ = .error e → traps e.code e.info) ∧
      ∀ x₁ n₁ l₁, w.lfo[1].next s.num n₀ = .ok (x₁, n₁, l₁) →
      let w₁ := { w with osc := osc, env := #v[e₀, e₁], lfo := #v[l₀, l₁] }
      (∀ e, w₁.processBlock s.num 1 = .error e → traps e.code e.info) ∧
      ∀ w₂, w₁.processBlock s.num 1 = .ok w₂ →
      (w₂.router.mod[Dest.cutoff.idx] = none → traps .unset 0) ∧
      ∀ c, w₂.router.mod[Dest.cutoff.idx] = some c →
      (∀ e, w₂.flt.setCut s.num c = .error e → traps e.code e.info) ∧
      ∀ f, w₂.flt.setCut s.num c = .ok f →
      (∀ e, f.sample s.num o = .error e → traps e.code e.info) ∧
      ∀ y f', f.sample s.num o = .ok (y, f') →
      (∀ e, numMul s.num y a = .error e → traps .numeric 0) ∧
      ∀ t₁, numMul s.num y a = .ok t₁ →
      (paramGet s.param .velToAmp = none → traps .unset 0) ∧
      ∀ amount, paramGet s.param .velToAmp = some amount →
      (∀ e, velGain s.num w.vel amount = .error e → traps .numeric 0) ∧
      ∀ g, velGain s.num w.vel amount = .ok g →
      (∀ e, numMul s.num t₁ g = .error e → traps .numeric 0) ∧
      ∀ t₂, numMul s.num t₁ g = .ok t₂ →
      (paramGet s.param .masterVolume = none → traps .unset 0) ∧
      ∀ volume, paramGet s.param .masterVolume = some volume →
      (∀ e, numMul s.num t₂ volume = .error e → traps .numeric 0) ∧
      ∀ smp, numMul s.num t₂ volume = .ok smp →
      (s.bufLen = none → traps .unset 0) ∧
      ∀ len, s.bufLen = some len →
      (len.val ≤ start.toNat → traps .bufRange (BitVec.ofNat 64 start.toNat)) ∧
      (start.toNat < len.val →
        (Memory.get s.buf start.toNat = none → traps .unset 0) ∧
        ∀ old, Memory.get s.buf start.toNat = some old →
          ∀ e, numAdd s.num old smp = .error e → traps .numeric 0))

/-- From R265, R263, R267: a render cut in two renders the same, unless the first part ends the voice, and a fault of the
second part is the fault of the whole. This is what lets the host cut a block at its events (R288). -/
def Obligations.RenderMayBeCut : Prop :=
  ∀ (s t t₂ : State) (v : Fin 8) (start : BitVec 16) (a b : BitVec 32),
    start.toNat + a.toNat < 2 ^ 16 → a.toNat + b.toNat < 2 ^ 32 →
    Completes (.voiceRender v start a) s .none t → t.voices[v].playing = s.voices[v].playing →
    (Completes (.voiceRender v (start + a.setWidth 16) b) t .none t₂ →
      Completes (.voiceRender v start (a + b)) s .none t₂) ∧
    (∀ (code : FaultCode) (info : BitVec 64), Traps (.voiceRender v (start + a.setWidth 16) b) t code info →
      Traps (.voiceRender v start (a + b)) s code info)

/-- R266, in `EXACT` (an inference the spec marks as its own, from R265 and R48): a sounding voice whose units hold what
R266 lists renders any number of samples into elements that hold values, and only those elements change. Where it is
Playing its faults are those of R304 and R307: `F_UNSET` without a buffer length or for an unset element of the range,
`F_BUF_RANGE` with `max(start, BUF_LEN)` for a range that ends beyond the buffer; and one that lacks something R266
lists faults with `F_UNSET`, an unset parameter before the buffer is checked (R310, in the reading of log 10). -/
def Obligations.ReadyVoiceRenders : Prop :=
  ∀ (s : State) (v : Fin 8) (start : BitVec 16) (n : BitVec 32), s.num = .exact →
    ((∀ w, s.voices[v].applyParams .exact s.param = .ok w → w.Ready s.param) →
      (∀ len : Fin 65536, s.bufLen = some len →
        (∀ j, start.toNat ≤ j → j < start.toNat + n.toNat → j < len.val → (Memory.get s.buf j).isSome) →
        (start.toNat + n.toNat ≤ len.val →
          ∃ w d b, Completes (.voiceRender v start n) s .none { s.setVoice v w with draws := d, buf := b } ∧
            (∀ j, j < start.toNat ∨ start.toNat + n.toNat ≤ j → Memory.get b j = Memory.get s.buf j) ∧
            (∀ j, (Memory.get s.buf j).isSome → (Memory.get b j).isSome)) ∧
        (0 < n.toNat → s.voices[v].playing = true → len.val < start.toNat + n.toNat →
          Traps (.voiceRender v start n) s .bufRange (BitVec.ofNat 64 (max start.toNat len.val)))) ∧
      (∀ (len : Fin 65536) (j : Nat), s.bufLen = some len → s.voices[v].playing = true → start.toNat ≤ j →
        j < start.toNat + n.toNat → j < len.val → Memory.get s.buf j = none →
        Traps (.voiceRender v start n) s .unset 0) ∧
      (0 < n.toNat → s.voices[v].playing = true → s.bufLen = none → Traps (.voiceRender v start n) s .unset 0)) ∧
    (∀ w, 0 < n.toNat → s.voices[v].applyParams .exact s.param = .ok w → w.playing = true → w.IncsInRange →
      w.Lacking s.param → Traps (.voiceRender v start n) s .unset 0)

/-! ## Engine -/

/-- R281, R290: ENG.PREPARE and ENG.SETPARAM. -/
def Obligations.EnginePrepareAndParameters : Prop :=
  ∀ (s : State) (size : BitVec 16) (id : Param) (imm : Imm),
    encode (.engPrepare size imm) = 0x70#8 ++ 0#8 ++ size ++ imm ∧
    encode (.engSetparam id imm) = cmdWord 0x74#8 0 0 id.code 0 imm ∧
    (∀ a : BitVec 8, 24 < a.toNat → decode (cmdWord 0x74#8 0 0 a 0 imm) = .error .illegalCmd) ∧
    (f32Value imm = none →
      Traps (.engPrepare size imm) s .badOperand (imm.setWidth 64) ∧
      Traps (.engSetparam id imm) s .badOperand (imm.setWidth 64)) ∧
    (∀ x, f32Value imm = some x →
      (x ≤ 0 → Traps (.engPrepare size imm) s .srRange (imm.setWidth 64)) ∧
      (∀ top, 0 < x → numMul s.num (lit s.num (9 / 20)) x = .ok top → top < 20 →
        Traps (.engPrepare size imm) s .srRange (imm.setWidth 64)) ∧
      (∀ top (vs : Vector Voice 8), 0 < x → numMul s.num (lit s.num (9 / 20)) x = .ok top → 20 ≤ top →
        (∀ v : Fin 8, ∃ o e₀ e₁ l₀ l₁ f,
          s.voices[v].osc.setSr s.num imm x = .ok o ∧
          s.voices[v].env[0].setSr s.num imm x = .ok e₀ ∧ s.voices[v].env[1].setSr s.num imm x = .ok e₁ ∧
          s.voices[v].lfo[0].setSr s.num imm x = .ok l₀ ∧ s.voices[v].lfo[1].setSr s.num imm x = .ok l₁ ∧
          s.voices[v].flt.setSr s.num imm x = .ok f ∧
          vs[v] = { s.voices[v] with osc := o, env := #v[e₀, e₁], lfo := #v[l₀, l₁], flt := f }) →
        Completes (.engPrepare size imm) s .none
          { s with engSr := some x, bufLen := some ⟨size.toNat, size.isLt⟩, buf := [], voices := vs }) ∧
      (s.num = .exact → 400 / 9 ≤ x → ∃ t, Completes (.engPrepare size imm) s .none t ∧
        t.engSr = some x ∧ t.bufLen = some ⟨size.toNat, size.isLt⟩ ∧ ∀ j, Memory.get t.buf j = none) ∧
      ∃ file, Completes (.engSetparam id imm) s .none { s with param := file } ∧
        ∀ p : Param, paramGet file p = if p = id then some x else paramGet s.param p)

/-- R282, R283, R284: ENG.NOTEON is VOICE.NOTEON on the Free voice of lowest index, or, when none is Free, on the voice
whose amplitude level is lowest, of equal ones the lowest index. -/
def Obligations.EngineNoteOnTakesTheTargetVoice : Prop :=
  ∀ (s : State) (note : Fin 128) (imm : Imm),
    encode (.engNoteon note imm) = cmdWord 0x71#8 0 0 (BitVec.ofNat 8 note) 0 imm ∧
    (∀ a : BitVec 8, 127 < a.toNat → decode (cmdWord 0x71#8 0 0 a 0 imm) = .error .illegalCmd) ∧
    (f32Value imm = none → Traps (.engNoteon note imm) s .badOperand (imm.setWidth 64)) ∧
    ∃ u : Fin 8, exec (.engNoteon note imm) s = exec (.voiceNoteon u note imm) s ∧
      ((∃ k : Fin 8, s.voices[k].playing = false) →
        s.voices[u].playing = false ∧ ∀ k : Fin 8, k < u → s.voices[k].playing = true) ∧
      ((∀ k : Fin 8, s.voices[k].playing = true) →
        ∀ k : Fin 8, (s.voices[u].env[0]).level ≤ (s.voices[k].env[0]).level ∧
          (k < u → (s.voices[u].env[0]).level < (s.voices[k].env[0]).level)) ∧
      (∀ x, f32Value imm = some x → s.num = .exact →
        ∃ t, Completes (.engNoteon note imm) s .none t ∧ t.voices[u].note = some note ∧
          (t.voices[u].env[0]).stage = .attack ∧ ∀ k : Fin 8, k ≠ u → t.voices[k] = s.voices[k])

/-- R286: ENG.NOTEOFF releases, with the tail, every voice that is Playing and holds the note, and no other. -/
def Obligations.EngineNoteOffReleasesTheNote : Prop :=
  ∀ (s : State) (note : Fin 128),
    encode (.engNoteoff note) = cmdWord 0x72#8 0 0 (BitVec.ofNat 8 note) 0 0 ∧
    (∀ a : BitVec 8, 127 < a.toNat → decode (cmdWord 0x72#8 0 0 a 0 0) = .error .illegalCmd) ∧
    (∀ vs : Vector Voice 8,
      (∀ v : Fin 8,
        if s.voices[v].playing = true ∧ s.voices[v].tailOff = false ∧ s.voices[v].note = some note then
          s.voices[v].noteOff s.num true = .ok vs[v]
        else vs[v] = s.voices[v]) →
      Completes (.engNoteoff note) s .none { s with voices := vs }) ∧
    (s.num = .exact → ∃ t, Completes (.engNoteoff note) s .none t)

/-- R287: ENG.RENDER is the eight voices' renders in index order, and the first fault of one is its fault. The last
clause, that in `EXACT` it completes when every sounding voice is ready and the elements hold values, rests on R266,
an inference the spec marks as its own. -/
def Obligations.EngineRenderIsEightVoiceRenders : Prop :=
  ∀ (s : State) (start : BitVec 16) (n : BitVec 32),
    encode (.engRender start n) = 0x73#8 ++ 0#8 ++ start ++ n ∧
    (∀ st : Fin 9 → State, st 0 = s →
      (∀ v : Fin 8, Completes (.voiceRender v start n) (st v.castSucc) .none (st v.succ)) →
      Completes (.engRender start n) s .none (st 8)) ∧
    (∀ (st : Fin 9 → State) (k : Fin 8) (code : FaultCode) (info : BitVec 64), st 0 = s →
      (∀ v : Fin 8, v < k → Completes (.voiceRender v start n) (st v.castSucc) .none (st v.succ)) →
      Traps (.voiceRender k start n) (st k.castSucc) code info → Traps (.engRender start n) s code info) ∧
    (∀ len : Fin 65536, s.num = .exact →
      (∀ (v : Fin 8) (w : Voice), s.voices[v].applyParams .exact s.param = .ok w → w.playing = true →
        w.Ready s.param) →
      s.bufLen = some len → start.toNat + n.toNat ≤ len.val →
      (∀ j, start.toNat ≤ j → j < start.toNat + n.toNat → (Memory.get s.buf j).isSome) →
      ∃ vs d b, Completes (.engRender start n) s .none { s with voices := vs, draws := d, buf := b } ∧
        ∀ j, j < start.toNat ∨ start.toNat + n.toNat ≤ j → Memory.get b j = Memory.get s.buf j)

/-! ## What commands leave alone -/

/-- The frame: a command changes no voice and no unit but the one it addresses; the engine's registers change by
ENG.PREPARE only and a parameter by its own ENG.SETPARAM only (R36, R48, R41). -/
def Obligations.CommandsTouchOnlyTheirUnit : Prop :=
  ∀ (i : Instr) (s t : State), exec i s = .next t →
    OnlyTargetChanged (target i) s t ∧
    t.num = s.num ∧ t.stream = s.stream ∧
    ((∀ size imm, i ≠ .engPrepare size imm) → t.engSr = s.engSr ∧ t.bufLen = s.bufLen) ∧
    (∀ p : Param, (∀ imm, i ≠ .engSetparam p imm) → paramGet t.param p = paramGet s.param p)

/-- R75, R67: a command changes no buffer element but those it stores to (ENG.PREPARE unsets all); a Free voice's
render changes none. -/
def Obligations.BufferChangesOnlyWhereStored : Prop :=
  ∀ (i : Instr) (s t : State), exec i s = .next t → (∀ size imm, i ≠ .engPrepare size imm) →
    (∀ j, ¬StoresAt i j → Memory.get t.buf j = Memory.get s.buf j) ∧
    (∀ v start n, i = .voiceRender v start n → s.voices[v].playing = false → t.buf = s.buf)

/-- R250, R35: a voice changes its lifecycle state only by the table's events. -/
def Obligations.VoiceLifecycleFollowsTheTable : Prop :=
  ∀ (i : Instr) (s t : State) (v : Fin 8), exec i s = .next t →
    (s.voices[v].lifecycle = .free → t.voices[v].lifecycle ≠ .free →
      t.voices[v].lifecycle = .playing ∧
        ((∃ note imm, i = .voiceNoteon v note imm) ∨ ∃ note imm, i = .engNoteon note imm)) ∧
    (s.voices[v].lifecycle = .playing → t.voices[v].lifecycle = .releasing →
      i = .voiceNoteoff v true ∨ ∃ note, i = .engNoteoff note ∧ s.voices[v].note = some note) ∧
    (s.voices[v].lifecycle = .playing → t.voices[v].lifecycle = .free → i = .voiceNoteoff v false) ∧
    (s.voices[v].lifecycle = .releasing → t.voices[v].lifecycle = .playing →
      (∃ note imm, i = .voiceNoteon v note imm) ∨ ∃ note imm, i = .engNoteon note imm) ∧
    (s.voices[v].lifecycle = .releasing → t.voices[v].lifecycle = .free →
      i = .voiceNoteoff v false ∨ (∃ start n, i = .voiceRender v start n) ∨ ∃ start n, i = .engRender start n)

/-! ## Invariants -/

/-- Every step keeps the buffer in its one form, below `BUF_LEN` (R37, R60). -/
def Obligations.StepKeepsBufferForm : Prop :=
  ∀ s t : State, s.BufferOk → step s = .next t → t.BufferOk

/-- Every step keeps the derived registers derived (R25, R27, R29, R31), in both number domains. -/
def Obligations.StepKeepsDerivedRegisters : Prop :=
  ∀ s t : State, s.Derived → step s = .next t → t.Derived

/-- Every step keeps the router values in their ranges (R33) and the voice registers consistent (R34, R35), in
both number domains. -/
def Obligations.StepKeepsRoutersAndVoices : Prop :=
  (∀ s t : State, s.RoutersInRange → step s = .next t → t.RoutersInRange) ∧
  (∀ s t : State, s.VoicesConsistent → step s = .next t → t.VoicesConsistent)

/-- In `EXACT` every step keeps the phases wrapped into [0,1) and the LFO registers in range (R25, R29). -/
def Obligations.StepKeepsPhasesWrapped : Prop :=
  (∀ s t : State, s.num = .exact → s.OscsInRange → step s = .next t → t.OscsInRange) ∧
  (∀ s t : State, s.num = .exact → s.LfosInRange → step s = .next t → t.LfosInRange)

/-- In `EXACT` every step keeps the envelope registers in range, an Idle envelope at level 0 (R27, R141), and the
filter registers in range: the cutoff within its clamp interval, the resonance in [0,1], the coefficient `p` in
(0,1) (R31). -/
def Obligations.StepKeepsEnvelopesAndFilters : Prop :=
  (∀ s t : State, s.num = .exact → s.EnvsInRange → step s = .next t → t.EnvsInRange) ∧
  (∀ s t : State, s.num = .exact → s.FltsInRange → step s = .next t → t.FltsInRange)

/-- The state after reset meets every invariant above (R40). -/
def Obligations.ResetMeetsTheInvariants : Prop :=
  State.reset.BufferOk ∧ State.reset.Derived ∧ State.reset.RoutersInRange ∧ State.reset.VoicesConsistent ∧
  State.reset.num = .exact ∧ State.reset.OscsInRange ∧ State.reset.LfosInRange ∧ State.reset.EnvsInRange ∧
  State.reset.FltsInRange ∧
  (State.resetIn .f32).BufferOk ∧ (State.resetIn .f32).Derived ∧ (State.resetIn .f32).RoutersInRange ∧
  (State.resetIn .f32).VoicesConsistent

/-- R330, R331 (the latter an inference the spec marks as its own, from the tables of R24 to R48): the registers after
reset. The number domain, the stream and the count of draws are the model's own fields (logs 1, 5, 6) and not stated. -/
def Obligations.ResetValues : Prop :=
  State.reset.pc = 0 ∧ State.reset.fault = none ∧ State.reset.engSr = none ∧ State.reset.bufLen = none ∧
  (∀ j, Memory.get State.reset.buf j = none) ∧
  (∀ v : Fin 8,
    let w := State.reset.voices[v]
    w.osc = { phase := 0, inc := none, wave := .sine, freq := none, sr := none } ∧
    (∀ i : Fin 2, w.env[i] =
      { stage := .idle, level := 0, atkMs := 50, decMs := 100, sus := 7 / 10, relMs := 200, sr := none
        atkRate := none, decRate := none, relRate := none, relFrom := 0 }) ∧
    (∀ i : Fin 2, ∃ held sPrev sTarget : Rat,
      w.lfo[i] = { phase := 0, inc := none, wave := none, bipolar := true, freq := none, sr := none
                   held := held, sPrev := sPrev, sTarget := sTarget, lastOut := 0 } ∧
      -1 ≤ held ∧ held ≤ 1 ∧ -1 ≤ sPrev ∧ sPrev ≤ 1 ∧ -1 ≤ sTarget ∧ sTarget ≤ 1) ∧
    w.flt = { y1 := 0, y2 := 0, y3 := 0, y4 := 0, h1 := 0, h2 := 0, p := none, k := none, cutoff := 1000
              res := 1 / 10, drive := none, sr := none } ∧
    (∀ s d, w.router.cell s d = none) ∧
    (∀ d : Dest, w.router.base[d.idx] = none ∧ w.router.mod[d.idx] = none) ∧
    (∀ c : ScalarSource, w.router.scalar[c.idx] = 0) ∧ (∀ o : ObjSource, w.router.registered[o.idx] = true) ∧
    w.note = none ∧ w.vel = 0 ∧ w.bend = 0 ∧ w.wheel = 0 ∧ w.playing = false ∧ w.tailOff = false) ∧
  (∀ p : Param, paramGet State.reset.param p =
    match p with
    | .oscWaveform => some 0
    | .fltCutoff => some 1000
    | .fltResonance => some (1 / 10)
    | .ampAttack | .fenvAttack => some 50
    | .ampDecay | .fenvDecay => some 100
    | .ampSustain | .fenvSustain => some (7 / 10)
    | .ampRelease | .fenvRelease => some 200
    | .oscTune | .oscPwm | .fltDrive | .fltEnvAmount | .lfo1Rate | .lfo1Waveform | .lfo1ToFilter
    | .lfo2Rate | .lfo2Waveform | .lfo2ToFilter | .modwheelAmount | .velToFilter | .velToAmp
    | .masterVolume => none)
end

