-- ==== Sys2Proof/Laws/Decode.lean ====
section
/-! SUPPORT. Fields, codes, selectors, formats and the decoder: what each gives back of the other. -/

set_option Elab.async false

namespace Sys2Proof

/-! ## Fields (R81) -/

theorem Fields.ofWord_word (f : Fields) : Fields.ofWord f.word = f := by
  obtain ⟨opc, voice, inst, a, b, imm⟩ := f
  simp only [Fields.ofWord, Fields.word, Fields.mk.injEq]
  refine ⟨?_, ?_, ?_, ?_, ?_, ?_⟩ <;>
    (apply BitVec.eq_of_getElem_eq; intro i hi
     simp only [← BitVec.getLsbD_eq_getElem]
     grind)

theorem Fields.word_ofWord (w : Cmd) : (Fields.ofWord w).word = w := by
  simp only [Fields.ofWord, Fields.word]
  apply BitVec.eq_of_getElem_eq; intro i hi
  simp only [BitVec.getElem_append, BitVec.getElem_extractLsb']
  grind

theorem hiByte_append_loByte (x : BitVec 16) : hiByte x ++ loByte x = x := by
  apply BitVec.eq_of_getElem_eq; intro i hi
  simp only [hiByte, loByte, BitVec.getElem_append, BitVec.getElem_extractLsb']
  grind

theorem hiByte_append (a b : BitVec 8) : hiByte (a ++ b) = a := by
  apply BitVec.eq_of_getElem_eq; intro i hi
  simp only [hiByte, BitVec.getElem_extractLsb', BitVec.getLsbD_append]
  grind

theorem loByte_append (a b : BitVec 8) : loByte (a ++ b) = b := by
  apply BitVec.eq_of_getElem_eq; intro i hi
  simp only [loByte, BitVec.getElem_extractLsb', BitVec.getLsbD_append]
  grind

/-! ## Codes (R39, R88): a field holds a code exactly if it is that member's -/

theorem oscWave_ofCode (c : BitVec 8) (x : OscWave) : OscWave.ofCode c = some x ↔ c = x.code := by
  revert c; cases x <;> decide +kernel

theorem lfoWave_ofCode (c : BitVec 8) (x : LfoWave) : LfoWave.ofCode c = some x ↔ c = x.code := by
  revert c; cases x <;> decide +kernel

theorem objSource_ofCode (c : BitVec 8) (x : ObjSource) : ObjSource.ofCode c = some x ↔ c = x.code := by
  revert c; cases x <;> decide +kernel

theorem scalarSource_ofCode (c : BitVec 8) (x : ScalarSource) :
    ScalarSource.ofCode c = some x ↔ c = x.code := by
  revert c; cases x <;> decide +kernel

theorem source_ofCode (c : BitVec 8) (x : Source) : Source.ofCode c = some x ↔ c = x.code := by
  revert c; rcases x with x | x <;> cases x <;> decide +kernel

theorem dest_ofCode (c : BitVec 8) (x : Dest) : Dest.ofCode c = some x ↔ c = x.code := by
  revert c; cases x <;> decide +kernel

theorem param_ofCode (c : BitVec 8) (x : Param) : Param.ofCode c = some x ↔ c = x.code := by
  revert c; cases x <;> decide +kernel

theorem bool_ofCode (c : BitVec 8) (x : Bool) : boolOfCode c = some x ↔ c = boolCode x := by
  revert c; cases x <;> decide +kernel

theorem note_ofCode (c : BitVec 8) (x : Fin 128) : noteOfCode c = some x ↔ c = noteCode x := by
  have hx : (noteCode x).toNat = x.val := by
    simp only [noteCode, BitVec.toNat_ofNat]; omega
  unfold noteOfCode
  split
  · rename_i h
    rw [Option.some.injEq, Fin.ext_iff, ← BitVec.toNat_inj, hx]
  · rename_i h
    constructor
    · intro h'; cases h'
    · rintro rfl; rw [hx] at h; omega

theorem voiceCode_toNat (v : Fin 8) : (voiceCode v).toNat = v.val := by
  simp only [voiceCode, BitVec.toNat_ofNat]; omega

theorem instCode_toNat (i : Fin 2) : (instCode i).toNat = i.val := by
  simp only [instCode, BitVec.toNat_ofNat]; omega

/-! ## Selectors (R85) -/

theorem Fields.global_eq_some (f : Fields) (k : Option Instr) (i : Instr) :
    f.global k = some i ↔ f.voice = 0 ∧ f.inst = 0 ∧ k = some i := by
  unfold Fields.global
  split <;> simp_all

theorem Fields.onVoice_eq_some (f : Fields) (k : Fin 8 → Option Instr) (i : Instr) :
    f.onVoice k = some i ↔ ∃ v, f.voice = voiceCode v ∧ f.inst = 0 ∧ k v = some i := by
  unfold Fields.onVoice
  split
  · rename_i h
    split
    · rename_i h0
      constructor
      · intro hk
        exact ⟨_, BitVec.eq_of_toNat_eq (by rw [voiceCode_toNat]), h0, hk⟩
      · rintro ⟨v, hv, _, hk⟩
        have : (⟨f.voice.toNat, h⟩ : Fin 8) = v := by
          exact Fin.ext (show f.voice.toNat = v.val by rw [hv, voiceCode_toNat])
        rw [this]; exact hk
    · rename_i h0
      simp only [reduceCtorEq, false_iff, not_exists, not_and]
      intro _ _ h1; exact absurd h1 h0
  · rename_i h
    simp only [reduceCtorEq, false_iff, not_exists, not_and]
    rintro v hv
    rw [hv, voiceCode_toNat] at h
    omega

theorem Fields.onUnit_eq_some (f : Fields) (k : Fin 8 → Fin 2 → Option Instr) (i : Instr) :
    f.onUnit k = some i ↔ ∃ v j, f.voice = voiceCode v ∧ f.inst = instCode j ∧ k v j = some i := by
  unfold Fields.onUnit
  split
  · rename_i h
    split
    · rename_i h0
      constructor
      · intro hk
        exact ⟨_, _, BitVec.eq_of_toNat_eq (by rw [voiceCode_toNat]),
          BitVec.eq_of_toNat_eq (by rw [instCode_toNat]), hk⟩
      · rintro ⟨v, j, hv, hj, hk⟩
        have h1 : (⟨f.voice.toNat, h⟩ : Fin 8) = v := by
          exact Fin.ext (show f.voice.toNat = v.val by rw [hv, voiceCode_toNat])
        have h2 : (⟨f.inst.toNat, h0⟩ : Fin 2) = j := by
          exact Fin.ext (show f.inst.toNat = j.val by rw [hj, instCode_toNat])
        rw [h1, h2]; exact hk
    · rename_i h0
      simp only [reduceCtorEq, false_iff, not_exists, not_and]
      rintro _ j _ hj
      rw [hj, instCode_toNat] at h0
      omega
  · rename_i h
    simp only [reduceCtorEq, false_iff, not_exists, not_and]
    rintro v _ hv
    rw [hv, voiceCode_toNat] at h
    omega

/-! ## Formats (R82) -/

variable {α β : Type}

theorem Fields.fmtN_eq_some (f : Fields) (k i : Instr) :
    f.fmtN k = some i ↔ f.a = 0 ∧ f.b = 0 ∧ f.imm = 0 ∧ k = i := by
  unfold Fields.fmtN; split <;> simp_all

theorem Fields.fmtV_eq_some (f : Fields) (k : Imm → Instr) (i : Instr) :
    f.fmtV k = some i ↔ f.a = 0 ∧ f.b = 0 ∧ k f.imm = i := by
  unfold Fields.fmtV; split <;> simp_all

theorem Fields.fmtI_eq_some (f : Fields) (k : BitVec 32 → Instr) (i : Instr) :
    f.fmtI k = some i ↔ f.a = 0 ∧ f.b = 0 ∧ k f.imm = i := by
  unfold Fields.fmtI; split <;> simp_all

theorem Fields.fmtK_eq_some (f : Fields) (dec : BitVec 8 → Option α) (k : α → Instr) (i : Instr) :
    f.fmtK dec k = some i ↔ f.b = 0 ∧ f.imm = 0 ∧ ∃ x, dec f.a = some x ∧ k x = i := by
  unfold Fields.fmtK; split <;> simp_all [Option.map_eq_some_iff]

theorem Fields.fmtAV_eq_some (f : Fields) (dec : BitVec 8 → Option α) (k : α → Imm → Instr) (i : Instr) :
    f.fmtAV dec k = some i ↔ f.b = 0 ∧ ∃ x, dec f.a = some x ∧ k x f.imm = i := by
  unfold Fields.fmtAV; split <;> simp_all [Option.map_eq_some_iff]

theorem Fields.fmtAB_eq_some (f : Fields) (decA : BitVec 8 → Option α) (decB : BitVec 8 → Option β)
    (k : α → β → Instr) (i : Instr) :
    f.fmtAB decA decB k = some i ↔
      f.imm = 0 ∧ ∃ x y, decA f.a = some x ∧ decB f.b = some y ∧ k x y = i := by
  unfold Fields.fmtAB; split
  · cases decA f.a <;> cases decB f.b <;> simp_all
  · simp_all

theorem Fields.fmtABV_eq_some (f : Fields) (decA : BitVec 8 → Option α) (decB : BitVec 8 → Option β)
    (k : α → β → Imm → Instr) (i : Instr) :
    f.fmtABV decA decB k = some i ↔ ∃ x y, decA f.a = some x ∧ decB f.b = some y ∧ k x y f.imm = i := by
  unfold Fields.fmtABV
  cases decA f.a <;> cases decB f.b <;> simp_all

theorem Fields.fmtBV_eq_some (f : Fields) (dec : BitVec 8 → Option β) (k : β → Imm → Instr) (i : Instr) :
    f.fmtBV dec k = some i ↔ f.a = 0 ∧ ∃ y, dec f.b = some y ∧ k y f.imm = i := by
  unfold Fields.fmtBV; split <;> simp_all [Option.map_eq_some_iff]

theorem Fields.fmtB_eq_some (f : Fields) (dec : BitVec 8 → Option β) (k : β → Instr) (i : Instr) :
    f.fmtB dec k = some i ↔ f.a = 0 ∧ f.imm = 0 ∧ ∃ y, dec f.b = some y ∧ k y = i := by
  unfold Fields.fmtB; split <;> simp_all [Option.map_eq_some_iff]

theorem Fields.fmtXV_eq_some (f : Fields) (k : BitVec 16 → Imm → Instr) (i : Instr) :
    f.fmtXV k = some i ↔ ∃ x, f.a = hiByte x ∧ f.b = loByte x ∧ k x f.imm = i := by
  unfold Fields.fmtXV
  simp only [Option.some.injEq]
  constructor
  · exact fun h => ⟨f.ab, (hiByte_append _ _).symm, (loByte_append _ _).symm, h⟩
  · rintro ⟨x, ha, hb, h⟩
    rw [Fields.ab, ha, hb, hiByte_append_loByte]; exact h

theorem Fields.fmtXI_eq_some (f : Fields) (k : BitVec 16 → BitVec 32 → Instr) (i : Instr) :
    f.fmtXI k = some i ↔ ∃ x, f.a = hiByte x ∧ f.b = loByte x ∧ k x f.imm = i := f.fmtXV_eq_some k i

theorem Fields.fmtX_eq_some (f : Fields) (k : BitVec 16 → Instr) (i : Instr) :
    f.fmtX k = some i ↔ f.imm = 0 ∧ ∃ x, f.a = hiByte x ∧ f.b = loByte x ∧ k x = i := by
  rw [← f.fmtXV_eq_some fun x _ => k x]
  unfold Fields.fmtX Fields.fmtXV; split <;> simp_all

/-! ## What is refused -/

theorem Fields.global_none (f : Fields) (k : Option Instr) (h : k = none) : f.global k = none := by
  unfold Fields.global; split <;> simp [h]

theorem Fields.onVoice_none (f : Fields) (k : Fin 8 → Option Instr) (h : ∀ v, k v = none) : f.onVoice k = none := by
  unfold Fields.onVoice
  split
  · split
    · exact h _
    · rfl
  · rfl

theorem Fields.onUnit_none (f : Fields) (k : Fin 8 → Fin 2 → Option Instr) (h : ∀ v i, k v i = none) :
    f.onUnit k = none := by
  unfold Fields.onUnit
  split
  · split
    · exact h _ _
    · rfl
  · rfl

/-- A code above every member's code is no member's (R88). -/
theorem ofCode_none {dec : BitVec 8 → Option α} {code : α → BitVec 8} (hd : ∀ c x, dec c = some x ↔ c = code x)
    {n : Nat} (hn : ∀ x, (code x).toNat ≤ n) {c : BitVec 8} (h : n < c.toNat) : dec c = none := by
  rw [Option.eq_none_iff_forall_ne_some]
  intro x hx
  rw [hd] at hx; subst hx
  have := hn x; omega

/-- Fields that steps 1 to 4 of R105 refuse make an illegal word. -/
theorem Fields.decode_word_of_legal_none (f : Fields) (h : f.legal = none) : decode f.word = .error .illegalCmd := by
  unfold decode; rw [Fields.ofWord_word, h]

/-! ## The decoder -/

/-- Fields that steps 1 to 4 of R105 accept are those of the command they answer. -/
theorem Fields.legal_fields (f : Fields) (i : Instr) (h : f.legal = some i) : f = encodeFields i := by
  obtain ⟨opc, voice, inst, a, b, imm⟩ := f
  unfold Fields.legal at h
  split at h <;>
    first
    | cases h
    | (simp only [Fields.global_eq_some, Fields.onVoice_eq_some, Fields.onUnit_eq_some, Fields.fmtN_eq_some,
        Fields.fmtV_eq_some, Fields.fmtI_eq_some, Fields.fmtK_eq_some, Fields.fmtAV_eq_some,
        Fields.fmtAB_eq_some, Fields.fmtABV_eq_some, Fields.fmtBV_eq_some, Fields.fmtB_eq_some,
        Fields.fmtXV_eq_some, Fields.fmtXI_eq_some, Fields.fmtX_eq_some, oscWave_ofCode, lfoWave_ofCode,
        objSource_ofCode, scalarSource_ofCode, source_ofCode, dest_ofCode, param_ofCode, bool_ofCode,
        note_ofCode] at h
       simp only at *
       subst_vars
       first
        | (obtain ⟨rfl, rfl, rfl, rfl, x, rfl, rfl⟩ := h; rfl)
        | (obtain ⟨rfl, rfl, rfl, x, rfl, rfl⟩ := h; rfl)
        | (obtain ⟨rfl, rfl, rfl, x, rfl, rfl, rfl⟩ := h; rfl)
        | (obtain ⟨rfl, rfl, x, rfl, rfl, rfl⟩ := h; rfl)
        | (obtain ⟨v, rfl, rfl, rfl, rfl, rfl, rfl⟩ := h; rfl)
        | (obtain ⟨v, rfl, rfl, rfl, rfl, x, rfl, rfl⟩ := h; rfl)
        | (obtain ⟨v, rfl, rfl, rfl, x, rfl, rfl⟩ := h; rfl)
        | (obtain ⟨v, rfl, rfl, rfl, x, y, rfl, rfl, rfl⟩ := h; rfl)
        | (obtain ⟨v, rfl, rfl, x, y, rfl, rfl, rfl⟩ := h; rfl)
        | (obtain ⟨v, rfl, rfl, x, rfl, rfl, rfl⟩ := h; rfl)
        | (obtain ⟨v, j, rfl, rfl, rfl, rfl, rfl, rfl⟩ := h; rfl)
        | (obtain ⟨v, j, rfl, rfl, rfl, rfl, x, rfl, rfl⟩ := h; rfl))

/-- Steps 1 to 4 of R105 accept every command's fields. -/
theorem Fields.legal_encodeFields (i : Instr) : (encodeFields i).legal = some i := by
  cases i <;>
    simp only [encodeFields, Fields.legal, Fields.global_eq_some, Fields.onVoice_eq_some, Fields.onUnit_eq_some,
      Fields.fmtN_eq_some,        Fields.fmtV_eq_some, Fields.fmtI_eq_some, Fields.fmtK_eq_some, Fields.fmtAV_eq_some,
        Fields.fmtAB_eq_some, Fields.fmtABV_eq_some, Fields.fmtBV_eq_some, Fields.fmtB_eq_some,
        Fields.fmtXV_eq_some, Fields.fmtXI_eq_some, Fields.fmtX_eq_some, oscWave_ofCode, lfoWave_ofCode,
        objSource_ofCode, scalarSource_ofCode, source_ofCode, dest_ofCode, param_ofCode, bool_ofCode,
        note_ofCode, true_and] <;>
    first
    | exact ⟨_, rfl, rfl⟩
    | exact ⟨_, _, rfl, rfl, rfl⟩
    | exact ⟨_, rfl, rfl, rfl⟩
    | exact ⟨_, rfl, rfl⟩
    | exact ⟨_, rfl, _, rfl, rfl⟩
    | exact ⟨_, rfl, _, _, rfl, rfl, rfl⟩
    | exact ⟨_, rfl, _, rfl, rfl, rfl⟩
    | exact ⟨_, _, rfl, rfl, rfl⟩
    | exact ⟨_, _, rfl, rfl, _, rfl, rfl⟩

/-- Steps 1 to 4 of R105 accept the fields of exactly the commands. -/
theorem Fields.legal_eq_some (f : Fields) (i : Instr) : f.legal = some i ↔ f = encodeFields i :=
  ⟨f.legal_fields i, fun h => h ▸ Fields.legal_encodeFields i⟩

/-- A word selects a command in steps 1 to 4 exactly if it is that command's word. -/
theorem legal_ofWord (w : Cmd) (i : Instr) : (Fields.ofWord w).legal = some i ↔ encode i = w := by
  rw [Fields.legal_eq_some, encode]
  constructor
  · intro h; rw [← h, Fields.word_ofWord]
  · rintro rfl; rw [Fields.ofWord_word]

theorem legal_ofWord_none (w : Cmd) : (Fields.ofWord w).legal = none ↔ ∀ i : Instr, encode i ≠ w := by
  rw [Option.eq_none_iff_forall_ne_some]
  exact forall_congr' fun i => (legal_ofWord w i).not

/-- The binary32 operand is `cmd[31:0]` of the command's word. -/
theorem encode_imm (i : Instr) (imm : Imm) (h : i.valueOperand = some imm) :
    (encode i).extractLsb' 0 32 = imm := by
  have hf : (Fields.ofWord (encode i)).imm = (encodeFields i).imm := by rw [encode, Fields.ofWord_word]
  change (Fields.ofWord (encode i)).imm = imm
  rw [hf]
  cases i <;> simp_all [Instr.valueOperand, encodeFields]

/-- A word of given fields under a mask, field by field. -/
theorem Fields.word_and_eq (f : Fields) (m c : Cmd) :
    f.word &&& m = c ↔ f.opc &&& m.extractLsb' 56 8 = c.extractLsb' 56 8 ∧
      f.voice &&& m.extractLsb' 52 4 = c.extractLsb' 52 4 ∧ f.inst &&& m.extractLsb' 48 4 = c.extractLsb' 48 4 ∧
      f.a &&& m.extractLsb' 40 8 = c.extractLsb' 40 8 ∧ f.b &&& m.extractLsb' 32 8 = c.extractLsb' 32 8 ∧
      f.imm &&& m.extractLsb' 0 32 = c.extractLsb' 0 32 := by
  have key : f.word &&& m = c ↔ Fields.ofWord (f.word &&& m) = Fields.ofWord c :=
    ⟨fun h => by rw [h], fun h => by rw [← Fields.word_ofWord (f.word &&& m), h, Fields.word_ofWord]⟩
  have h1 : f.word.extractLsb' 56 8 = f.opc := congrArg Fields.opc f.ofWord_word
  have h2 : f.word.extractLsb' 52 4 = f.voice := congrArg Fields.voice f.ofWord_word
  have h3 : f.word.extractLsb' 48 4 = f.inst := congrArg Fields.inst f.ofWord_word
  have h4 : f.word.extractLsb' 40 8 = f.a := congrArg Fields.a f.ofWord_word
  have h5 : f.word.extractLsb' 32 8 = f.b := congrArg Fields.b f.ofWord_word
  have h6 : f.word.extractLsb' 0 32 = f.imm := congrArg Fields.imm f.ofWord_word
  rw [key]
  simp only [Fields.ofWord, Fields.mk.injEq, BitVec.extractLsb'_and, h1, h2, h3, h4, h5, h6]

end Sys2Proof
end

