-- ==== Sys2Proof/Laws/State.lean ====
section
/-! SUPPORT. What each update of the state leaves in each field: one lemma per field per update, true by
unfolding once, so that later proofs never unfold an update. -/

namespace Sys2Proof.Machine

/-! ## setVoice -/

@[simp] theorem State.setVoice_num (s : State) (v : Fin 8) (w : Voice) : (s.setVoice v w).num = s.num := rfl
@[simp] theorem State.setVoice_pc (s : State) (v : Fin 8) (w : Voice) : (s.setVoice v w).pc = s.pc := rfl
@[simp] theorem State.setVoice_stream (s : State) (v : Fin 8) (w : Voice) : (s.setVoice v w).stream = s.stream := rfl
@[simp] theorem State.setVoice_fault (s : State) (v : Fin 8) (w : Voice) : (s.setVoice v w).fault = s.fault := rfl
@[simp] theorem State.setVoice_engSr (s : State) (v : Fin 8) (w : Voice) : (s.setVoice v w).engSr = s.engSr := rfl
@[simp] theorem State.setVoice_bufLen (s : State) (v : Fin 8) (w : Voice) : (s.setVoice v w).bufLen = s.bufLen := rfl
@[simp] theorem State.setVoice_param (s : State) (v : Fin 8) (w : Voice) : (s.setVoice v w).param = s.param := rfl
@[simp] theorem State.setVoice_buf (s : State) (v : Fin 8) (w : Voice) : (s.setVoice v w).buf = s.buf := rfl
@[simp] theorem State.setVoice_responses (s : State) (v : Fin 8) (w : Voice) : (s.setVoice v w).responses = s.responses := rfl
@[simp] theorem State.setVoice_draws (s : State) (v : Fin 8) (w : Voice) : (s.setVoice v w).draws = s.draws := rfl

/-! ## setOsc -/

@[simp] theorem State.setOsc_num (s : State) (v : Fin 8) (o : Osc) : (s.setOsc v o).num = s.num := rfl
@[simp] theorem State.setOsc_pc (s : State) (v : Fin 8) (o : Osc) : (s.setOsc v o).pc = s.pc := rfl
@[simp] theorem State.setOsc_stream (s : State) (v : Fin 8) (o : Osc) : (s.setOsc v o).stream = s.stream := rfl
@[simp] theorem State.setOsc_fault (s : State) (v : Fin 8) (o : Osc) : (s.setOsc v o).fault = s.fault := rfl
@[simp] theorem State.setOsc_engSr (s : State) (v : Fin 8) (o : Osc) : (s.setOsc v o).engSr = s.engSr := rfl
@[simp] theorem State.setOsc_bufLen (s : State) (v : Fin 8) (o : Osc) : (s.setOsc v o).bufLen = s.bufLen := rfl
@[simp] theorem State.setOsc_param (s : State) (v : Fin 8) (o : Osc) : (s.setOsc v o).param = s.param := rfl
@[simp] theorem State.setOsc_buf (s : State) (v : Fin 8) (o : Osc) : (s.setOsc v o).buf = s.buf := rfl
@[simp] theorem State.setOsc_responses (s : State) (v : Fin 8) (o : Osc) : (s.setOsc v o).responses = s.responses := rfl
@[simp] theorem State.setOsc_draws (s : State) (v : Fin 8) (o : Osc) : (s.setOsc v o).draws = s.draws := rfl

/-! ## setEnv -/

@[simp] theorem State.setEnv_num (s : State) (v : Fin 8) (i : Fin 2) (e : Env) : (s.setEnv v i e).num = s.num := rfl
@[simp] theorem State.setEnv_pc (s : State) (v : Fin 8) (i : Fin 2) (e : Env) : (s.setEnv v i e).pc = s.pc := rfl
@[simp] theorem State.setEnv_stream (s : State) (v : Fin 8) (i : Fin 2) (e : Env) : (s.setEnv v i e).stream = s.stream := rfl
@[simp] theorem State.setEnv_fault (s : State) (v : Fin 8) (i : Fin 2) (e : Env) : (s.setEnv v i e).fault = s.fault := rfl
@[simp] theorem State.setEnv_engSr (s : State) (v : Fin 8) (i : Fin 2) (e : Env) : (s.setEnv v i e).engSr = s.engSr := rfl
@[simp] theorem State.setEnv_bufLen (s : State) (v : Fin 8) (i : Fin 2) (e : Env) : (s.setEnv v i e).bufLen = s.bufLen := rfl
@[simp] theorem State.setEnv_param (s : State) (v : Fin 8) (i : Fin 2) (e : Env) : (s.setEnv v i e).param = s.param := rfl
@[simp] theorem State.setEnv_buf (s : State) (v : Fin 8) (i : Fin 2) (e : Env) : (s.setEnv v i e).buf = s.buf := rfl
@[simp] theorem State.setEnv_responses (s : State) (v : Fin 8) (i : Fin 2) (e : Env) : (s.setEnv v i e).responses = s.responses := rfl
@[simp] theorem State.setEnv_draws (s : State) (v : Fin 8) (i : Fin 2) (e : Env) : (s.setEnv v i e).draws = s.draws := rfl

/-! ## setLfo -/

@[simp] theorem State.setLfo_num (s : State) (v : Fin 8) (i : Fin 2) (l : Lfo) : (s.setLfo v i l).num = s.num := rfl
@[simp] theorem State.setLfo_pc (s : State) (v : Fin 8) (i : Fin 2) (l : Lfo) : (s.setLfo v i l).pc = s.pc := rfl
@[simp] theorem State.setLfo_stream (s : State) (v : Fin 8) (i : Fin 2) (l : Lfo) : (s.setLfo v i l).stream = s.stream := rfl
@[simp] theorem State.setLfo_fault (s : State) (v : Fin 8) (i : Fin 2) (l : Lfo) : (s.setLfo v i l).fault = s.fault := rfl
@[simp] theorem State.setLfo_engSr (s : State) (v : Fin 8) (i : Fin 2) (l : Lfo) : (s.setLfo v i l).engSr = s.engSr := rfl
@[simp] theorem State.setLfo_bufLen (s : State) (v : Fin 8) (i : Fin 2) (l : Lfo) : (s.setLfo v i l).bufLen = s.bufLen := rfl
@[simp] theorem State.setLfo_param (s : State) (v : Fin 8) (i : Fin 2) (l : Lfo) : (s.setLfo v i l).param = s.param := rfl
@[simp] theorem State.setLfo_buf (s : State) (v : Fin 8) (i : Fin 2) (l : Lfo) : (s.setLfo v i l).buf = s.buf := rfl
@[simp] theorem State.setLfo_responses (s : State) (v : Fin 8) (i : Fin 2) (l : Lfo) : (s.setLfo v i l).responses = s.responses := rfl
@[simp] theorem State.setLfo_draws (s : State) (v : Fin 8) (i : Fin 2) (l : Lfo) : (s.setLfo v i l).draws = s.draws := rfl

/-! ## setFlt -/

@[simp] theorem State.setFlt_num (s : State) (v : Fin 8) (f : Flt) : (s.setFlt v f).num = s.num := rfl
@[simp] theorem State.setFlt_pc (s : State) (v : Fin 8) (f : Flt) : (s.setFlt v f).pc = s.pc := rfl
@[simp] theorem State.setFlt_stream (s : State) (v : Fin 8) (f : Flt) : (s.setFlt v f).stream = s.stream := rfl
@[simp] theorem State.setFlt_fault (s : State) (v : Fin 8) (f : Flt) : (s.setFlt v f).fault = s.fault := rfl
@[simp] theorem State.setFlt_engSr (s : State) (v : Fin 8) (f : Flt) : (s.setFlt v f).engSr = s.engSr := rfl
@[simp] theorem State.setFlt_bufLen (s : State) (v : Fin 8) (f : Flt) : (s.setFlt v f).bufLen = s.bufLen := rfl
@[simp] theorem State.setFlt_param (s : State) (v : Fin 8) (f : Flt) : (s.setFlt v f).param = s.param := rfl
@[simp] theorem State.setFlt_buf (s : State) (v : Fin 8) (f : Flt) : (s.setFlt v f).buf = s.buf := rfl
@[simp] theorem State.setFlt_responses (s : State) (v : Fin 8) (f : Flt) : (s.setFlt v f).responses = s.responses := rfl
@[simp] theorem State.setFlt_draws (s : State) (v : Fin 8) (f : Flt) : (s.setFlt v f).draws = s.draws := rfl

/-! ## setRouter -/

@[simp] theorem State.setRouter_num (s : State) (v : Fin 8) (r : Router) : (s.setRouter v r).num = s.num := rfl
@[simp] theorem State.setRouter_pc (s : State) (v : Fin 8) (r : Router) : (s.setRouter v r).pc = s.pc := rfl
@[simp] theorem State.setRouter_stream (s : State) (v : Fin 8) (r : Router) : (s.setRouter v r).stream = s.stream := rfl
@[simp] theorem State.setRouter_fault (s : State) (v : Fin 8) (r : Router) : (s.setRouter v r).fault = s.fault := rfl
@[simp] theorem State.setRouter_engSr (s : State) (v : Fin 8) (r : Router) : (s.setRouter v r).engSr = s.engSr := rfl
@[simp] theorem State.setRouter_bufLen (s : State) (v : Fin 8) (r : Router) : (s.setRouter v r).bufLen = s.bufLen := rfl
@[simp] theorem State.setRouter_param (s : State) (v : Fin 8) (r : Router) : (s.setRouter v r).param = s.param := rfl
@[simp] theorem State.setRouter_buf (s : State) (v : Fin 8) (r : Router) : (s.setRouter v r).buf = s.buf := rfl
@[simp] theorem State.setRouter_responses (s : State) (v : Fin 8) (r : Router) : (s.setRouter v r).responses = s.responses := rfl
@[simp] theorem State.setRouter_draws (s : State) (v : Fin 8) (r : Router) : (s.setRouter v r).draws = s.draws := rfl

/-! ## respond -/

@[simp] theorem State.respond_num (s : State) (r : Response) : (s.respond r).num = s.num := rfl
@[simp] theorem State.respond_stream (s : State) (r : Response) : (s.respond r).stream = s.stream := rfl
@[simp] theorem State.respond_fault (s : State) (r : Response) : (s.respond r).fault = s.fault := rfl
@[simp] theorem State.respond_voices (s : State) (r : Response) : (s.respond r).voices = s.voices := rfl
@[simp] theorem State.respond_engSr (s : State) (r : Response) : (s.respond r).engSr = s.engSr := rfl
@[simp] theorem State.respond_bufLen (s : State) (r : Response) : (s.respond r).bufLen = s.bufLen := rfl
@[simp] theorem State.respond_param (s : State) (r : Response) : (s.respond r).param = s.param := rfl
@[simp] theorem State.respond_buf (s : State) (r : Response) : (s.respond r).buf = s.buf := rfl
@[simp] theorem State.respond_draws (s : State) (r : Response) : (s.respond r).draws = s.draws := rfl

/-! ## takeFault -/

@[simp] theorem State.takeFault_num (s : State) (t : Trap) : (s.takeFault t).num = s.num := rfl
@[simp] theorem State.takeFault_stream (s : State) (t : Trap) : (s.takeFault t).stream = s.stream := rfl
@[simp] theorem State.takeFault_voices (s : State) (t : Trap) : (s.takeFault t).voices = s.voices := rfl
@[simp] theorem State.takeFault_engSr (s : State) (t : Trap) : (s.takeFault t).engSr = s.engSr := rfl
@[simp] theorem State.takeFault_bufLen (s : State) (t : Trap) : (s.takeFault t).bufLen = s.bufLen := rfl
@[simp] theorem State.takeFault_param (s : State) (t : Trap) : (s.takeFault t).param = s.param := rfl
@[simp] theorem State.takeFault_buf (s : State) (t : Trap) : (s.takeFault t).buf = s.buf := rfl
@[simp] theorem State.takeFault_responses (s : State) (t : Trap) : (s.takeFault t).responses = s.responses := rfl
@[simp] theorem State.takeFault_draws (s : State) (t : Trap) : (s.takeFault t).draws = s.draws := rfl

/-! ## loadWord -/

@[simp] theorem State.loadWord_num (s : State) (w : Cmd) : (s.loadWord w).num = s.num := rfl
@[simp] theorem State.loadWord_pc (s : State) (w : Cmd) : (s.loadWord w).pc = s.pc := rfl
@[simp] theorem State.loadWord_voices (s : State) (w : Cmd) : (s.loadWord w).voices = s.voices := rfl
@[simp] theorem State.loadWord_engSr (s : State) (w : Cmd) : (s.loadWord w).engSr = s.engSr := rfl
@[simp] theorem State.loadWord_bufLen (s : State) (w : Cmd) : (s.loadWord w).bufLen = s.bufLen := rfl
@[simp] theorem State.loadWord_param (s : State) (w : Cmd) : (s.loadWord w).param = s.param := rfl
@[simp] theorem State.loadWord_buf (s : State) (w : Cmd) : (s.loadWord w).buf = s.buf := rfl
@[simp] theorem State.loadWord_responses (s : State) (w : Cmd) : (s.loadWord w).responses = s.responses := rfl
@[simp] theorem State.loadWord_draws (s : State) (w : Cmd) : (s.loadWord w).draws = s.draws := rfl

@[simp] theorem State.respond_pc (s : State) (r : Response) : (s.respond r).pc = s.pc + 1 := rfl
@[simp] theorem State.respond_responses (s : State) (r : Response) :
    (s.respond r).responses = s.responses ++ [r] := rfl
@[simp] theorem State.takeFault_pc (s : State) (t : Trap) : (s.takeFault t).pc = s.pc + 1 := rfl
@[simp] theorem State.takeFault_fault (s : State) (t : Trap) :
    (s.takeFault t).fault = some { code := t.code, info := t.info, pc := s.pc } := rfl
@[simp] theorem State.loadWord_fault (s : State) (w : Cmd) : (s.loadWord w).fault = none := rfl
@[simp] theorem State.loadWord_stream (s : State) (w : Cmd) :
    (s.loadWord w).stream = streamPut s.stream s.pc w := rfl

/-! ## The voices after an update -/

theorem State.setVoice_voices (s : State) (v : Fin 8) (w : Voice) :
    (s.setVoice v w).voices = s.voices.set v w := rfl

theorem State.setVoice_get (s : State) (v u : Fin 8) (w : Voice) :
    (s.setVoice v w).voices[u] = if u = v then w else s.voices[u] := by
  have : (v.val = u.val) ↔ u = v := by rw [Fin.ext_iff]; exact eq_comm
  simp [State.setVoice, Vector.getElem_set, this]

@[simp] theorem State.setVoice_same (s : State) (v : Fin 8) (w : Voice) :
    (s.setVoice v w).voices[v] = w := by rw [State.setVoice_get, if_pos rfl]

theorem State.setVoice_other (s : State) (v u : Fin 8) (w : Voice) (h : u ≠ v) :
    (s.setVoice v w).voices[u] = s.voices[u] := by rw [State.setVoice_get, if_neg h]

@[simp] theorem State.setVoice_self (s : State) (v : Fin 8) : s.setVoice v s.voices[v] = s := by
  simp [State.setVoice]

@[simp] theorem State.setVoice_setVoice (s : State) (v : Fin 8) (w w' : Voice) :
    (s.setVoice v w).setVoice v w' = s.setVoice v w' := by
  simp [State.setVoice]

@[simp] theorem Voice.setEnv_self (w : Voice) (i : Fin 2) : w.setEnv i w.env[i] = w := by
  simp [Voice.setEnv]

@[simp] theorem Voice.setLfo_self (w : Voice) (i : Fin 2) : w.setLfo i w.lfo[i] = w := by
  simp [Voice.setLfo]

@[simp] theorem State.setEnv_self (s : State) (v : Fin 8) (i : Fin 2) :
    s.setEnv v i s.voices[v].env[i] = s := by rw [State.setEnv, Voice.setEnv_self, State.setVoice_self]

@[simp] theorem State.setLfo_self (s : State) (v : Fin 8) (i : Fin 2) :
    s.setLfo v i s.voices[v].lfo[i] = s := by rw [State.setLfo, Voice.setLfo_self, State.setVoice_self]

@[simp] theorem State.setOsc_self (s : State) (v : Fin 8) : s.setOsc v s.voices[v].osc = s :=
  State.setVoice_self s v

@[simp] theorem State.setFlt_self (s : State) (v : Fin 8) : s.setFlt v s.voices[v].flt = s :=
  State.setVoice_self s v

@[simp] theorem State.setRouter_self (s : State) (v : Fin 8) : s.setRouter v s.voices[v].router = s :=
  State.setVoice_self s v

@[simp] theorem Voice.setEnv_osc (w : Voice) (i : Fin 2) (e : Env) : (w.setEnv i e).osc = w.osc := rfl
@[simp] theorem Voice.setEnv_lfo (w : Voice) (i : Fin 2) (e : Env) : (w.setEnv i e).lfo = w.lfo := rfl
@[simp] theorem Voice.setEnv_flt (w : Voice) (i : Fin 2) (e : Env) : (w.setEnv i e).flt = w.flt := rfl
@[simp] theorem Voice.setEnv_router (w : Voice) (i : Fin 2) (e : Env) :
    (w.setEnv i e).router = w.router := rfl
@[simp] theorem Voice.setEnv_note (w : Voice) (i : Fin 2) (e : Env) : (w.setEnv i e).note = w.note := rfl
@[simp] theorem Voice.setEnv_vel (w : Voice) (i : Fin 2) (e : Env) : (w.setEnv i e).vel = w.vel := rfl
@[simp] theorem Voice.setEnv_bend (w : Voice) (i : Fin 2) (e : Env) : (w.setEnv i e).bend = w.bend := rfl
@[simp] theorem Voice.setEnv_wheel (w : Voice) (i : Fin 2) (e : Env) : (w.setEnv i e).wheel = w.wheel := rfl
@[simp] theorem Voice.setEnv_playing (w : Voice) (i : Fin 2) (e : Env) :
    (w.setEnv i e).playing = w.playing := rfl
@[simp] theorem Voice.setEnv_tailOff (w : Voice) (i : Fin 2) (e : Env) :
    (w.setEnv i e).tailOff = w.tailOff := rfl
@[simp] theorem Voice.setLfo_osc (w : Voice) (i : Fin 2) (l : Lfo) : (w.setLfo i l).osc = w.osc := rfl
@[simp] theorem Voice.setLfo_env (w : Voice) (i : Fin 2) (l : Lfo) : (w.setLfo i l).env = w.env := rfl
@[simp] theorem Voice.setLfo_flt (w : Voice) (i : Fin 2) (l : Lfo) : (w.setLfo i l).flt = w.flt := rfl
@[simp] theorem Voice.setLfo_router (w : Voice) (i : Fin 2) (l : Lfo) :
    (w.setLfo i l).router = w.router := rfl
@[simp] theorem Voice.setLfo_note (w : Voice) (i : Fin 2) (l : Lfo) : (w.setLfo i l).note = w.note := rfl
@[simp] theorem Voice.setLfo_vel (w : Voice) (i : Fin 2) (l : Lfo) : (w.setLfo i l).vel = w.vel := rfl
@[simp] theorem Voice.setLfo_bend (w : Voice) (i : Fin 2) (l : Lfo) : (w.setLfo i l).bend = w.bend := rfl
@[simp] theorem Voice.setLfo_wheel (w : Voice) (i : Fin 2) (l : Lfo) : (w.setLfo i l).wheel = w.wheel := rfl
@[simp] theorem Voice.setLfo_playing (w : Voice) (i : Fin 2) (l : Lfo) :
    (w.setLfo i l).playing = w.playing := rfl
@[simp] theorem Voice.setLfo_tailOff (w : Voice) (i : Fin 2) (l : Lfo) :
    (w.setLfo i l).tailOff = w.tailOff := rfl

theorem Voice.setEnv_get (w : Voice) (i j : Fin 2) (e : Env) :
    (w.setEnv i e).env[j] = if j = i then e else w.env[j] := by
  have : (i.val = j.val) ↔ j = i := by rw [Fin.ext_iff]; exact eq_comm
  simp [Voice.setEnv, Vector.getElem_set, this]

theorem Voice.setLfo_get (w : Voice) (i j : Fin 2) (l : Lfo) :
    (w.setLfo i l).lfo[j] = if j = i then l else w.lfo[j] := by
  have : (i.val = j.val) ↔ j = i := by rw [Fin.ext_iff]; exact eq_comm
  simp [Voice.setLfo, Vector.getElem_set, this]

theorem State.setOsc_get (s : State) (v u : Fin 8) (o : Osc) :
    (s.setOsc v o).voices[u] = if u = v then { s.voices[v] with osc := o } else s.voices[u] :=
  State.setVoice_get s v u _

theorem State.setEnv_get (s : State) (v u : Fin 8) (i : Fin 2) (e : Env) :
    (s.setEnv v i e).voices[u] = if u = v then s.voices[v].setEnv i e else s.voices[u] :=
  State.setVoice_get s v u _

theorem State.setLfo_get (s : State) (v u : Fin 8) (i : Fin 2) (l : Lfo) :
    (s.setLfo v i l).voices[u] = if u = v then s.voices[v].setLfo i l else s.voices[u] :=
  State.setVoice_get s v u _

theorem State.setFlt_get (s : State) (v u : Fin 8) (f : Flt) :
    (s.setFlt v f).voices[u] = if u = v then { s.voices[v] with flt := f } else s.voices[u] :=
  State.setVoice_get s v u _

theorem State.setRouter_get (s : State) (v u : Fin 8) (r : Router) :
    (s.setRouter v r).voices[u] = if u = v then { s.voices[v] with router := r } else s.voices[u] :=
  State.setVoice_get s v u _

/-- A pair of envelopes is its two members. -/
theorem vector_pair_eta {α : Type} (x : Vector α 2) : #v[x[0], x[1]] = x := by
  ext i hi
  match i, hi with
  | 0, _ => rfl
  | 1, _ => rfl

/-! ## Stage codes (R39), both ways -/

@[simp] theorem Stage.ofCode_code (st : Stage) : Stage.ofCode st.code = some st := by cases st <;> rfl

theorem Stage.code_of_ofCode {c : BitVec 8} {st : Stage} (h : Stage.ofCode c = some st) : st.code = c := by
  unfold Stage.ofCode at h
  split at h <;> cases h <;> (apply BitVec.eq_of_toNat_eq; rw [‹c.toNat = _›]; rfl)

end Sys2Proof.Machine
end

