-- ==== Sys2Proof/Laws/Res.lean ====
section
/-! SUPPORT. Computations that may fault: what a sequence that succeeded says of its parts, and what `finish` makes of
a result. -/

namespace Sys2Proof.Machine

variable {α β : Type}

@[simp] theorem res_ok_bind (a : α) (f : α → Res β) : (Except.ok a >>= f) = f a := rfl

@[simp] theorem res_error_bind (t : Trap) (f : α → Res β) :
    ((Except.error t : Res α) >>= f) = Except.error t := rfl

/-- A sequence succeeds exactly if its first part does and the rest does on what that gave. -/
theorem bind_eq_ok (x : Res α) (f : α → Res β) (b : β) : x >>= f = .ok b ↔ ∃ a, x = .ok a ∧ f a = .ok b := by
  cases x <;> simp

/-- A sequence faults exactly if its first part does, or the rest does on what the first part gave. -/
theorem bind_eq_error (x : Res α) (f : α → Res β) (t : Trap) :
    x >>= f = .error t ↔ x = .error t ∨ ∃ a, x = .ok a ∧ f a = .error t := by
  cases x <;> simp

@[simp] theorem readOpt_some (a : α) : readOpt (some a) = .ok a := rfl

@[simp] theorem readOpt_none : (readOpt (none : Option α)) = .error Trap.unset := rfl

theorem readOpt_eq_ok (o : Option α) (a : α) : readOpt o = .ok a ↔ o = some a := by
  cases o <;> simp [readOpt]

theorem readOpt_eq_error (o : Option α) (t : Trap) : readOpt o = .error t ↔ o = none ∧ t = Trap.unset := by
  cases o <;> simp [readOpt, eq_comm]

@[simp] theorem finish_ok (s : State) (r : Response) (t : State) :
    finish s (.ok (r, t)) = .next (t.respond r) := rfl

@[simp] theorem finish_error (s : State) (t : Trap) : finish s (.error t) = .next (s.takeFault t) := rfl

/-- Everything `finish` can do: complete the command, or take its fault. -/
theorem finish_cases (s : State) (x : Res (Response × State)) :
    (∃ r t, x = .ok (r, t) ∧ finish s x = .next (t.respond r)) ∨
    (∃ t, x = .error t ∧ finish s x = .next (s.takeFault t)) := by
  cases x with
  | ok p => exact .inl ⟨p.1, p.2, rfl, rfl⟩
  | error t => exact .inr ⟨t, rfl, rfl⟩

/-- The state a completing command leaves, seen from the state it names. -/
theorem respond_eq (s t u : State) (r r' : Response) (hpc : t.pc = s.pc) (hresp : t.responses = s.responses)
    (h : t.respond r = { u with pc := s.pc + 1, responses := s.responses ++ [r'] }) :
    r = r' ∧ t = { u with pc := s.pc, responses := s.responses } := by
  cases s; cases t; cases u
  simp only [State.respond, State.mk.injEq] at h hpc hresp
  obtain ⟨h0, h1, h2, h3, h4, h5, h6, h7, h8, h9, h10⟩ := h
  subst hpc; subst hresp
  simp at h9
  refine ⟨h9, ?_⟩
  simp_all

/-- A fault answers nothing, so it is no completion. -/
theorem takeFault_ne (s u : State) (t : Trap) (r : Response) :
    s.takeFault t ≠ { u with pc := s.pc + 1, responses := s.responses ++ [r] } := by
  intro h
  have : s.responses = s.responses ++ [r] := congrArg State.responses h
  simp at this

/-- A command over `finish` completes as `Completes` says exactly if its body gives that response and that
state. The body leaves `pc` and the responses alone. -/
theorem finish_completes (s u : State) (x : Res (Response × State)) (r : Response)
    (hx : ∀ r' t, x = .ok (r', t) → t.pc = s.pc ∧ t.responses = s.responses) :
    finish s x = .next { u with pc := s.pc + 1, responses := s.responses ++ [r] } ↔
      x = .ok (r, { u with pc := s.pc, responses := s.responses }) := by
  constructor
  · intro h
    cases x with
    | error t => simp only [finish_error, Host.Outcome.next.injEq] at h; exact absurd h (takeFault_ne s u t r)
    | ok p =>
      obtain ⟨r', t⟩ := p
      obtain ⟨hp, hr⟩ := hx r' t rfl
      simp only [finish_ok, Host.Outcome.next.injEq] at h
      obtain ⟨rfl, rfl⟩ := respond_eq s t u r' r hp hr h
      rfl
  · rintro rfl
    simp [State.respond]

/-- The fault `Traps` names is the one the body raised. -/
theorem finish_traps (s : State) (x : Res (Response × State)) (code : FaultCode) (info : BitVec 64)
    (hx : ∀ r' t, x = .ok (r', t) → t.pc = s.pc ∧ t.responses = s.responses) :
    finish s x = .next { s with fault := some { code := code, info := info, pc := s.pc }, pc := s.pc + 1 } ↔
      x = .error { code := code, info := info } := by
  constructor
  · intro h
    cases x with
    | ok p =>
      obtain ⟨r', t⟩ := p
      obtain ⟨_, hr⟩ := hx r' t rfl
      simp only [finish_ok, Host.Outcome.next.injEq] at h
      have := congrArg State.responses h
      simp [hr] at this
    | error t =>
      simp only [finish_error, Host.Outcome.next.injEq] at h
      have := congrArg State.fault h
      simp only [State.takeFault_fault, Option.some.injEq, FaultRecord.mk.injEq] at this
      obtain ⟨h1, h2, _⟩ := this
      cases t; simp_all
  · rintro rfl
    rfl

end Sys2Proof.Machine
end

