-- ==== Sys2Proof/Laws/Effect.lean ====
section
/-! SUPPORT. Everything a command can do, said once: `exec` completes with an `Effect` or takes a fault. Later
proofs take a step apart with `exec_cases` and never unfold a meaning. -/

namespace Sys2Proof.Machine

/-- `valueOp` gives the operand's value, or the fault R303 names. -/
theorem valueOp_eq_ok (imm : Imm) (x : Rat) : valueOp imm = .ok x ↔ f32Value imm = some x := by
  unfold valueOp; cases f32Value imm <;> simp

theorem valueOp_of_some {imm : Imm} {x : Rat} (h : f32Value imm = some x) : valueOp imm = .ok x :=
  (valueOp_eq_ok imm x).2 h

theorem valueOp_of_none {imm : Imm} (h : f32Value imm = none) : valueOp imm = .error (Trap.badOperand imm) := by
  unfold valueOp; rw [h]

/-- What a command that completes answers and leaves, before `pc` and the response port move. -/
inductive Effect : Instr → State → Response → State → Prop
  | bufSt {idx imm s x b} (hx : f32Value imm = some x) (h : bufWrite s.bufLen s.buf (indexOp idx) x = .ok b) :
    Effect (.bufSt idx imm) s .none { s with buf := b }
  | bufLd {idx s x} (h : bufRead s.bufLen s.buf (indexOp idx) = .ok x) : Effect (.bufLd idx) s (.num x) s
  | oscSetfreq {v imm s x o} (hx : f32Value imm = some x) (h : s.voices[v].osc.setFreq s.num x = .ok o) :
    Effect (.oscSetfreq v imm) s .none (s.setOsc v o)
  | oscSetsr {v imm s x o} (hx : f32Value imm = some x) (h : s.voices[v].osc.setSr s.num imm x = .ok o) :
    Effect (.oscSetsr v imm) s .none (s.setOsc v o)
  | oscSetwave {v kind s} :
    Effect (.oscSetwave v kind) s .none (s.setOsc v { s.voices[v].osc with wave := kind })
  | oscProc {v s x o} (h : s.voices[v].osc.proc s.num = .ok (x, o)) :
    Effect (.oscProc v) s (.num x) (s.setOsc v o)
  | envNoteon {v i s} : Effect (.envNoteon v i) s .none (s.setEnv v i s.voices[v].env[i].noteOn)
  | envNoteoff {v i s e} (h : s.voices[v].env[i].noteOff s.num = .ok e) :
    Effect (.envNoteoff v i) s .none (s.setEnv v i e)
  | envSetatk {v i imm s x e} (hx : f32Value imm = some x) (h : s.voices[v].env[i].setAtk s.num x = .ok e) :
    Effect (.envSetatk v i imm) s .none (s.setEnv v i e)
  | envSetdec {v i imm s x e} (hx : f32Value imm = some x) (h : s.voices[v].env[i].setDec s.num x = .ok e) :
    Effect (.envSetdec v i imm) s .none (s.setEnv v i e)
  | envSetsus {v i imm s x e} (hx : f32Value imm = some x) (h : s.voices[v].env[i].setSus s.num x = .ok e) :
    Effect (.envSetsus v i imm) s .none (s.setEnv v i e)
  | envSetrel {v i imm s x e} (hx : f32Value imm = some x) (h : s.voices[v].env[i].setRel s.num x = .ok e) :
    Effect (.envSetrel v i imm) s .none (s.setEnv v i e)
  | envSetsr {v i imm s x e} (hx : f32Value imm = some x) (h : s.voices[v].env[i].setSr s.num imm x = .ok e) :
    Effect (.envSetsr v i imm) s .none (s.setEnv v i e)
  | envTick {v i s x e} (h : s.voices[v].env[i].tick s.num = .ok (x, e)) :
    Effect (.envTick v i) s (.num x) (s.setEnv v i e)
  | envIsactive {v i s} : Effect (.envIsactive v i) s (.bool s.voices[v].env[i].isActive) s
  | lfoSetfreq {v i imm s x l} (hx : f32Value imm = some x) (h : s.voices[v].lfo[i].setFreq s.num x = .ok l) :
    Effect (.lfoSetfreq v i imm) s .none (s.setLfo v i l)
  | lfoSetsr {v i imm s x l} (hx : f32Value imm = some x) (h : s.voices[v].lfo[i].setSr s.num imm x = .ok l) :
    Effect (.lfoSetsr v i imm) s .none (s.setLfo v i l)
  | lfoSetwave {v i kind s} :
    Effect (.lfoSetwave v i kind) s .none (s.setLfo v i { s.voices[v].lfo[i] with wave := some kind })
  | lfoSetbip {v i b s} :
    Effect (.lfoSetbip v i b) s .none (s.setLfo v i { s.voices[v].lfo[i] with bipolar := b })
  | lfoNext {v i s x n l} (h : s.voices[v].lfo[i].next s.num s.draws = .ok (x, n, l)) :
    Effect (.lfoNext v i) s (.num x) { s.setLfo v i l with draws := n }
  | lfoSkip {v i k s n l} (h : s.voices[v].lfo[i].skip s.num (countOp k) s.draws = .ok (n, l)) :
    Effect (.lfoSkip v i k) s .none { s.setLfo v i l with draws := n }
  | lfoReset {v i s} :
    Effect (.lfoReset v i) s .none
      { s.setLfo v i (s.voices[v].lfo[i].rewind s.num s.draws).2 with
        draws := (s.voices[v].lfo[i].rewind s.num s.draws).1 }
  | fltSetsr {v imm s x f} (hx : f32Value imm = some x) (h : s.voices[v].flt.setSr s.num imm x = .ok f) :
    Effect (.fltSetsr v imm) s .none (s.setFlt v f)
  | fltSetcut {v imm s x f} (hx : f32Value imm = some x) (h : s.voices[v].flt.setCut s.num x = .ok f) :
    Effect (.fltSetcut v imm) s .none (s.setFlt v f)
  | fltSetres {v imm s x f} (hx : f32Value imm = some x) (h : s.voices[v].flt.setRes s.num x = .ok f) :
    Effect (.fltSetres v imm) s .none (s.setFlt v f)
  | fltSetdrv {v imm s x} (hx : f32Value imm = some x) :
    Effect (.fltSetdrv v imm) s .none (s.setFlt v (s.voices[v].flt.setDrv x))
  | fltProc1 {v imm s x y f} (hx : f32Value imm = some x) (h : s.voices[v].flt.sample s.num x = .ok (y, f)) :
    Effect (.fltProc1 v imm) s (.num y) (s.setFlt v f)
  | fltProcbuf {v start n s f b}
    (h : s.voices[v].flt.process s.num s.bufLen (indexOp start) (countOp n) s.buf = .ok (f, b)) :
    Effect (.fltProcbuf v start n) s .none { s.setFlt v f with buf := b }
  | fltReset {v s} : Effect (.fltReset v) s .none (s.setFlt v s.voices[v].flt.clear)
  | modAdd {v src d imm s x} (hx : f32Value imm = some x) :
    Effect (.modAdd v src d imm) s .none (s.setRouter v (s.voices[v].router.setConn src d (some x)))
  | modRemove {v src d s} :
    Effect (.modRemove v src d) s .none (s.setRouter v (s.voices[v].router.setConn src d none))
  | modClear {v s} : Effect (.modClear v) s .none (s.setRouter v s.voices[v].router.clear)
  | modHas {v src d s} : Effect (.modHas v src d) s (.bool (s.voices[v].router.present src d)) s
  | modSetbase {v d imm s x} (hx : f32Value imm = some x) :
    Effect (.modSetbase v d imm) s .none (s.setRouter v (s.voices[v].router.setBase d x))
  | modGetdest {v s x} {d : Dest} (h : s.voices[v].router.mod[d.idx] = some x) :
    Effect (.modGetdest v d) s (.num x) s
  | modProcblk {v n s w} (h : s.voices[v].processBlock s.num (countOp n) = .ok w) :
    Effect (.modProcblk v n) s .none (s.setVoice v w)
  | modSetscalar {v c imm s x} (hx : f32Value imm = some x) :
    Effect (.modSetscalar v c imm) s .none (s.setRouter v (s.voices[v].router.putScalar c x))
  | modRegister {v o b s} :
    Effect (.modRegister v o b) s .none (s.setRouter v (s.voices[v].router.setRegistered o b))
  | voiceNoteon {v note imm s x n w} (hx : f32Value imm = some x)
    (h : s.voices[v].noteOn s.num s.param note x s.draws = .ok (n, w)) :
    Effect (.voiceNoteon v note imm) s .none { s.setVoice v w with draws := n }
  | voiceNoteoff {v allow s w} (h : s.voices[v].noteOff s.num allow = .ok w) :
    Effect (.voiceNoteoff v allow) s .none (s.setVoice v w)
  | voiceRender {v start n s d w b}
    (h : s.voices[v].render s.num s.param s.bufLen (indexOp start) (countOp n) s.draws s.buf = .ok (d, w, b)) :
    Effect (.voiceRender v start n) s .none { s.setVoice v w with draws := d, buf := b }
  | voiceIsactive {v s} : Effect (.voiceIsactive v) s (.bool s.voices[v].playing) s
  | voicePitchbend {v imm s x w} (hx : f32Value imm = some x)
    (h : s.voices[v].pitchBend s.num s.param x = .ok w) :
    Effect (.voicePitchbend v imm) s .none (s.setVoice v w)
  | voiceModwheel {v imm s x} (hx : f32Value imm = some x) :
    Effect (.voiceModwheel v imm) s .none (s.setVoice v (s.voices[v].modWheel x))
  | voiceNote {v s k} (h : k = match s.voices[v].note with
      | some note => BitVec.ofNat 32 note.val
      | none => 0xFFFFFFFF#32) : Effect (.voiceNote v) s (.int k) s
  | voiceVelocity {v s} : Effect (.voiceVelocity v) s (.num s.voices[v].vel) s
  | engPrepare {size imm s x t} (hx : f32Value imm = some x) (h : prepare imm (sizeOp size) x s = .ok t) :
    Effect (.engPrepare size imm) s .none t
  | engNoteon {note imm s x n w} (hx : f32Value imm = some x)
    (h : s.voices[noteTarget s.voices].noteOn s.num s.param note x s.draws = .ok (n, w)) :
    Effect (.engNoteon note imm) s .none { s.setVoice (noteTarget s.voices) w with draws := n }
  | engNoteoff {note s vs} (h : releaseVoices s.num note allVoices s.voices = .ok vs) :
    Effect (.engNoteoff note) s .none { s with voices := vs }
  | engRender {start n s d vs b}
    (h : renderVoices s.num s.param s.bufLen (indexOp start) (countOp n) allVoices s.draws s.voices s.buf =
      .ok (d, vs, b)) :
    Effect (.engRender start n) s .none { s with draws := d, voices := vs, buf := b }
  | engSetparam {id imm s x} (hx : f32Value imm = some x) :
    Effect (.engSetparam id imm) s .none { s with param := s.param.set id.idx (some x) }

/-- ENG.PREPARE changes the engine's registers, the buffer and the voices, and nothing else. -/
theorem prepare_ok {imm : Imm} {size : Fin 65536} {x : Rat} {s t : State} (h : prepare imm size x s = .ok t) :
    ∃ top vs, 0 < x ∧ numMul s.num (lit s.num (9 / 20)) x = .ok top ∧ 20 ≤ top ∧
      prepareVoices s.num imm x allVoices s.voices = .ok vs ∧
      t = { s with engSr := some x, bufLen := some size, buf := [], voices := vs } := by
  unfold prepare at h
  split at h
  · cases h
  · rename_i hx
    rw [bind_eq_ok] at h
    obtain ⟨top, htop, h⟩ := h
    split at h
    · cases h
    · rename_i h20
      rw [bind_eq_ok] at h
      obtain ⟨vs, hvs, h⟩ := h
      cases h
      exact ⟨top, vs, not_le.1 hx, htop, not_lt.1 h20, hvs, rfl⟩

/-- What no effect touches. -/
theorem Effect.frame {i : Instr} {s t : State} {r : Response} (h : Effect i s r t) :
    t.pc = s.pc ∧ t.stream = s.stream ∧ t.num = s.num ∧ t.fault = s.fault ∧ t.responses = s.responses := by
  cases h
  case engPrepare hx h =>
    obtain ⟨_, _, _, _, _, _, rfl⟩ := prepare_ok h
    exact ⟨rfl, rfl, rfl, rfl, rfl⟩
  all_goals exact ⟨rfl, rfl, rfl, rfl, rfl⟩

/-- A command is its body run by `finish`; the body succeeds exactly with an `Effect`. -/
theorem exec_eq_finish (i : Instr) (s : State) :
    ∃ x : Res (Response × State), exec i s = finish s x ∧ ∀ r t, x = .ok (r, t) ↔ Effect i s r t := by
  cases i <;>
  simp only [exec, execBufSt, execBufLd, execOscSetfreq, execOscSetsr, execOscSetwave, execOscProc,
    execEnvNoteon, execEnvNoteoff, execEnvSetatk, execEnvSetdec, execEnvSetsus, execEnvSetrel,
    execEnvSetsr, execEnvTick, execEnvIsactive, execLfoSetfreq, execLfoSetsr, execLfoSetwave,
    execLfoSetbip, execLfoNext, execLfoSkip, execLfoReset, execFltSetsr, execFltSetcut, execFltSetres,
    execFltSetdrv, execFltProc1, execFltProcbuf, execFltReset, execModAdd, execModRemove, execModClear,
    execModHas, execModSetbase, execModGetdest, execModProcblk, execModSetscalar, execModRegister,
    execVoiceNoteon, execVoiceNoteoff, execVoiceRender, execVoiceIsactive, execVoicePitchbend,
    execVoiceModwheel, execVoiceNote, execVoiceVelocity, execEngPrepare, execEngNoteon, execEngNoteoff,
    execEngRender, execEngSetparam] <;>
    refine ⟨_, rfl, ?_⟩ <;> intro r t <;> constructor
  all_goals first
    | (intro h
       simp only [bind_eq_ok, valueOp_eq_ok, readOpt_eq_ok, Except.ok.injEq, Prod.mk.injEq] at h
       obtain ⟨rfl, rfl⟩ := h
       first | exact .voiceNote rfl | constructor)
    | (intro h
       simp only [bind_eq_ok, valueOp_eq_ok, readOpt_eq_ok, Except.ok.injEq, Prod.mk.injEq] at h
       obtain ⟨_, hx, rfl, rfl⟩ := h
       constructor; assumption)
    | (intro h
       simp only [bind_eq_ok, valueOp_eq_ok, Except.ok.injEq, Prod.mk.injEq] at h
       obtain ⟨_, hx, _, hy, rfl, rfl⟩ := h
       constructor <;> assumption)
    | (rintro ⟨⟩
       simp only [bind_eq_ok, valueOp_eq_ok, readOpt_eq_ok]
       first
         | exact ⟨_, by assumption, _, by assumption, rfl⟩
         | exact ⟨_, by assumption, rfl⟩)
    | (rintro ⟨⟩
       rfl)
    | (rintro ⟨⟩
       rename_i h
       subst h
       rfl)

/-- Everything `exec` can do: complete with an effect, or take a fault (R300). -/
theorem exec_cases (i : Instr) (s : State) :
    (∃ r t, Effect i s r t ∧ exec i s = .next (t.respond r)) ∨ ∃ t, exec i s = .next (s.takeFault t) := by
  obtain ⟨x, hx, hE⟩ := exec_eq_finish i s
  rcases finish_cases s x with ⟨r, t, h, hf⟩ | ⟨t, _, hf⟩
  · exact .inl ⟨r, t, (hE r t).1 h, hx.trans hf⟩
  · exact .inr ⟨t, hx.trans hf⟩

/-- A step of `exec` taken apart. -/
theorem exec_next {i : Instr} {s u : State} (h : exec i s = .next u) :
    (∃ r t, Effect i s r t ∧ u = t.respond r) ∨ ∃ t, u = s.takeFault t := by
  rcases exec_cases i s with ⟨r, t, hE, h'⟩ | ⟨t, h'⟩
  · exact .inl ⟨r, t, hE, by rw [h] at h'; exact Host.Outcome.next.inj h'⟩
  · exact .inr ⟨t, by rw [h] at h'; exact Host.Outcome.next.inj h'⟩

/-- A step of the block taken apart: nothing while halted, or the fault of the fetched word, or its command. -/
theorem step_next {s u : State} (h : step s = .next u) :
    u = s ∨ (∃ t, u = s.takeFault t) ∨ ∃ i, exec i s = .next u := by
  unfold step at h
  split at h
  · exact .inl (Host.Outcome.next.inj h).symm
  · split at h
    · cases h
    · split at h
      · exact .inr (.inl ⟨_, (Host.Outcome.next.inj h).symm⟩)
      · exact .inr (.inr ⟨_, h⟩)

/-- `Completes` is an effect, up to `pc` and the response port. -/
theorem completes_iff {i : Instr} {s t : State} {r : Response} :
    Completes i s r t ↔ Effect i s r { t with pc := s.pc, responses := s.responses } := by
  obtain ⟨x, hx, hE⟩ := exec_eq_finish i s
  rw [Completes, hx, finish_completes, hE]
  intro r' t' h
  have := ((hE r' t').1 h).frame
  exact ⟨this.1, this.2.2.2.2⟩

/-- An effect is a completion. -/
theorem Effect.completes {i : Instr} {s t : State} {r : Response} (h : Effect i s r t) : Completes i s r t := by
  rw [completes_iff]
  have hf := h.frame
  rw [← hf.1, ← hf.2.2.2.2]
  exact h

/-- A fault taken is the one the command's body raised; it is not a completion. -/
theorem traps_not_completes {i : Instr} {s t : State} {r : Response} {code : FaultCode} {info : BitVec 64}
    (h : Traps i s code info) : ¬Completes i s r t := by
  intro hc
  rw [Completes, h] at hc
  have := congrArg State.responses (Host.Outcome.next.inj hc)
  simp at this

/-- A command completes or takes a fault. -/
theorem completes_or_traps (i : Instr) (s : State) :
    (∃ r t, Completes i s r t) ∨ ∃ code info, Traps i s code info := by
  rcases exec_cases i s with ⟨r, t, hE, _⟩ | ⟨t, h⟩
  · exact .inl ⟨r, t, hE.completes⟩
  · exact .inr ⟨t.code, t.info, h⟩

end Sys2Proof.Machine
end

