-- ==== Sys2Proof/Laws/Memory.lean ====
section
/-! SUPPORT. The sample buffer: read after write, and that every write keeps the one form. -/

namespace Sys2Proof.Machine

@[simp] theorem Memory.get_nil (i : Nat) : Memory.get [] i = none := rfl

theorem Memory.get_put (b : Memory) (i j : Nat) (x : Rat) :
    Memory.get (Memory.put b i x) j = if j = i then some x else Memory.get b j := by
  induction b with
  | nil => simp [Memory.put, Memory.get]
  | cons e rest ih =>
    obtain ⟨k, y⟩ := e
    simp only [Memory.put]
    split
    · simp only [Memory.get]
    · split
      · rename_i h; subst h
        simp only [Memory.get]
        split <;> rfl
      · simp only [Memory.get, ih]
        split
        · rename_i h1 h2 h3; subst h3; rw [if_neg (fun h => h2 h.symm)]
        · rfl

@[simp] theorem Memory.get_put_same (b : Memory) (i : Nat) (x : Rat) :
    Memory.get (Memory.put b i x) i = some x := by rw [Memory.get_put, if_pos rfl]

theorem Memory.get_put_other (b : Memory) {i j : Nat} (x : Rat) (h : j ≠ i) :
    Memory.get (Memory.put b i x) j = Memory.get b j := by rw [Memory.get_put, if_neg h]

theorem Memory.put_stored (b : Memory) (i : Nat) (x : Rat) : StoredAt b (Memory.put b i x) i x :=
  ⟨Memory.get_put_same b i x, fun _ h => Memory.get_put_other b x h⟩

/-- A written buffer lists the written element and what was listed before. -/
theorem Memory.mem_put {b : Memory} {i : Nat} {x : Rat} {e : Nat × Rat} (h : e ∈ Memory.put b i x) :
    e = (i, x) ∨ e ∈ b := by
  induction b with
  | nil => simpa [Memory.put] using h
  | cons e' rest ih =>
    obtain ⟨k, y⟩ := e'
    simp only [Memory.put] at h
    split at h
    · simp only [List.mem_cons] at h ⊢; tauto
    · split at h
      · simp only [List.mem_cons] at h ⊢; tauto
      · simp only [List.mem_cons] at h ⊢
        rcases h with h | h
        · tauto
        · rcases ih h with h | h <;> tauto

theorem Memory.put_wf {b : Memory} (h : Memory.wf b) (i : Nat) (x : Rat) : Memory.wf (Memory.put b i x) := by
  induction b with
  | nil => simp [Memory.put, Memory.wf]
  | cons e rest ih =>
    obtain ⟨k, y⟩ := e
    rw [Memory.wf, List.pairwise_cons] at h
    simp only [Memory.put]
    split
    · rename_i hik
      refine List.pairwise_cons.2 ⟨fun e he => ?_, List.pairwise_cons.2 h⟩
      rcases List.mem_cons.1 he with rfl | he
      · exact hik
      · exact hik.trans (h.1 e he)
    · split
      · rename_i hik; subst hik
        exact List.pairwise_cons.2 h
      · rename_i h1 h2
        refine List.pairwise_cons.2 ⟨fun e he => ?_, ih h.2⟩
        rcases Memory.mem_put he with rfl | he
        · show k < i; omega
        · exact h.1 e he

/-- The reset buffer has the one form. -/
theorem Memory.reset_wf : Memory.wf State.reset.buf := List.Pairwise.nil

/-! ## The primitives (R62) -/

@[simp] theorem bufCheck_none (i : Nat) : bufCheck none i = .error Trap.unset := rfl

theorem bufCheck_beyond {n : Fin 65536} {i : Nat} (h : n.val ≤ i) :
    bufCheck (some n) i = .error (Trap.bufRange i) := by simp [bufCheck, h]

theorem bufCheck_within {n : Fin 65536} {i : Nat} (h : i < n.val) : bufCheck (some n) i = .ok () := by
  simp [bufCheck, Nat.not_le.2 h]

theorem bufCheck_eq_ok {len : Option (Fin 65536)} {i : Nat} {u : Unit} :
    bufCheck len i = .ok u ↔ ∃ n, len = some n ∧ i < n.val := by
  cases len with
  | none => simp
  | some n =>
    by_cases h : n.val ≤ i
    · simp [bufCheck_beyond h, Nat.not_lt.2 h]
    · simp [bufCheck_within (Nat.not_le.1 h), Nat.not_le.1 h]

theorem bufCheck_error {len : Option (Fin 65536)} {i : Nat} {t : Trap} (h : bufCheck len i = .error t) :
    t = Trap.unset ∨ ∃ n, len = some n ∧ n.val ≤ i ∧ t = Trap.bufRange i := by
  cases len with
  | none => cases h; exact .inl rfl
  | some n =>
    by_cases hn : n.val ≤ i
    · rw [bufCheck_beyond hn] at h; cases h; exact .inr ⟨n, rfl, hn, rfl⟩
    · rw [bufCheck_within (Nat.not_le.1 hn)] at h; cases h

theorem bufRead_eq_ok {len : Option (Fin 65536)} {b : Memory} {i : Nat} {x : Rat} :
    bufRead len b i = .ok x ↔ (∃ n, len = some n ∧ i < n.val) ∧ Memory.get b i = some x := by
  rw [bufRead, bind_eq_ok]
  simp only [bufCheck_eq_ok, readOpt_eq_ok]
  exact ⟨fun ⟨_, h⟩ => h, fun h => ⟨(), h⟩⟩

theorem bufWrite_eq_ok {len : Option (Fin 65536)} {b b' : Memory} {i : Nat} {x : Rat} :
    bufWrite len b i x = .ok b' ↔ (∃ n, len = some n ∧ i < n.val) ∧ b' = Memory.put b i x := by
  rw [bufWrite, bind_eq_ok]
  simp only [bufCheck_eq_ok, Except.ok.injEq]
  exact ⟨fun ⟨_, h, h'⟩ => ⟨h, h'.symm⟩, fun ⟨h, h'⟩ => ⟨(), h, h'.symm⟩⟩

theorem bufRead_error {len : Option (Fin 65536)} {b : Memory} {i : Nat} {t : Trap}
    (h : bufRead len b i = .error t) :
    t = Trap.unset ∨ ∃ n, len = some n ∧ n.val ≤ i ∧ t = Trap.bufRange i := by
  rw [bufRead, bind_eq_error] at h
  rcases h with h | ⟨_, _, h⟩
  · exact bufCheck_error h
  · exact .inl ((readOpt_eq_error _ _).1 h).2

theorem bufWrite_error {len : Option (Fin 65536)} {b : Memory} {i : Nat} {x : Rat} {t : Trap}
    (h : bufWrite len b i x = .error t) :
    t = Trap.unset ∨ ∃ n, len = some n ∧ n.val ≤ i ∧ t = Trap.bufRange i := by
  rw [bufWrite, bind_eq_error] at h
  rcases h with h | ⟨_, _, h⟩
  · exact bufCheck_error h
  · cases h

end Sys2Proof.Machine
end

