-- ==== Sys2Proof/Laws/MemoryOps.lean ====
section
/-! SUPPORT. Every operation that writes the sample buffer keeps its one form, up to a whole step. -/

namespace Sys2Proof.Machine

theorem bufWrite_wf {len : Option (Fin 65536)} {b b' : Memory} {i : Nat} {x : Rat}
    (h : bufWrite len b i x = .ok b') (hb : Memory.wf b) : Memory.wf b' := by
  obtain ⟨_, rfl⟩ := bufWrite_eq_ok.1 h
  exact Memory.put_wf hb i x

/-- One round of the loop of FLT.PROCBUF (R201). -/
theorem Flt.processFrom_succ {m : NumInst} {len : Option (Fin 65536)} {n i : Nat} {f g : Flt} {b c : Memory} :
    Flt.processFrom m len (n + 1) i f b = .ok (g, c) ↔
      ∃ x y f' b', bufRead len b i = .ok x ∧ f.sample m x = .ok (y, f') ∧ bufWrite len b i y = .ok b' ∧
        Flt.processFrom m len n (i + 1) f' b' = .ok (g, c) := by
  rw [Flt.processFrom]
  simp only [bind_eq_ok, Prod.exists]
  constructor
  · rintro ⟨x, hx, y, f', hs, b', hw, h⟩
    exact ⟨x, y, f', b', hx, hs, hw, h⟩
  · rintro ⟨x, y, f', b', hx, hs, hw, h⟩
    exact ⟨x, hx, y, f', hs, b', hw, h⟩

/-- What the loop of FLT.PROCBUF leaves of the buffer: its form, and every element outside the range. -/
theorem Flt.processFrom_buf {m : NumInst} {len : Option (Fin 65536)} {n i : Nat} {f g : Flt} {b c : Memory}
    (h : Flt.processFrom m len n i f b = .ok (g, c)) :
    (Memory.wf b → Memory.wf c) ∧ ∀ j, j < i ∨ i + n ≤ j → Memory.get c j = Memory.get b j := by
  induction n generalizing i f b with
  | zero => cases h; exact ⟨id, fun _ _ => rfl⟩
  | succ n ih =>
    obtain ⟨x, y, f', b', hx, hs, hw, h⟩ := Flt.processFrom_succ.1 h
    have hwf := fun hb => bufWrite_wf hw hb
    obtain ⟨_, rfl⟩ := bufWrite_eq_ok.1 hw
    refine ⟨fun hb => (ih h).1 (hwf hb), fun j hj => ?_⟩
    rw [(ih h).2 j (by omega), Memory.get_put_other _ _ (by omega)]

theorem Flt.process_buf {m : NumInst} {len : Option (Fin 65536)} {n i : Nat} {f g : Flt} {b c : Memory}
    (h : f.process m len i n b = .ok (g, c)) :
    (Memory.wf b → Memory.wf c) ∧ ∀ j, j < i ∨ i + n ≤ j → Memory.get c j = Memory.get b j := by
  unfold Flt.process at h
  split at h
  · cases h
  · exact Flt.processFrom_buf h

/-- One round of the sample loop of `RenderVoice` (R265). -/
theorem Voice.renderFrom_succ {m : NumInst} {file : Vector (Option Rat) 25} {len : Option (Fin 65536)}
    {n i d d' : Nat} {w w' : Voice} {b c : Memory} :
    Voice.renderFrom m file len (n + 1) i d w b = .ok (d', w', c) ↔
      ∃ y a e u x old sum b', w.chain m d = .ok (y, a, e, u) ∧ finalSample m file w.vel y a = .ok x ∧
        bufRead len b i = .ok old ∧ numAdd m old x = .ok sum ∧ bufWrite len b i sum = .ok b' ∧
        Voice.renderFrom m file len n (i + 1) e u b' = .ok (d', w', c) := by
  rw [Voice.renderFrom]
  simp only [bind_eq_ok, Prod.exists]
  constructor
  · rintro ⟨y, a, e, u, hc, x, hx, old, ho, sum, hs, b', hw, h⟩
    exact ⟨y, a, e, u, x, old, sum, b', hc, hx, ho, hs, hw, h⟩
  · rintro ⟨y, a, e, u, x, old, sum, b', hc, hx, ho, hs, hw, h⟩
    exact ⟨y, a, e, u, hc, x, hx, old, ho, sum, hs, b', hw, h⟩

/-- What the sample loop leaves of the buffer: its form, and every element outside the range. -/
theorem Voice.renderFrom_buf {m : NumInst} {file : Vector (Option Rat) 25} {len : Option (Fin 65536)}
    {n i d d' : Nat} {w w' : Voice} {b c : Memory}
    (h : Voice.renderFrom m file len n i d w b = .ok (d', w', c)) :
    (Memory.wf b → Memory.wf c) ∧ ∀ j, j < i ∨ i + n ≤ j → Memory.get c j = Memory.get b j := by
  induction n generalizing i d w b with
  | zero => cases h; exact ⟨id, fun _ _ => rfl⟩
  | succ n ih =>
    obtain ⟨y, a, e, u, x, old, sum, b', hc, hx, ho, hs, hw, h⟩ := Voice.renderFrom_succ.1 h
    have hwf := fun hb => bufWrite_wf hw hb
    obtain ⟨_, rfl⟩ := bufWrite_eq_ok.1 hw
    refine ⟨fun hb => (ih h).1 (hwf hb), fun j hj => ?_⟩
    rw [(ih h).2 j (by omega), Memory.get_put_other _ _ (by omega)]

/-- `RenderVoice` (R265) taken apart: the parameters are applied, and a Playing voice renders its range. -/
theorem Voice.render_eq_ok {m : NumInst} {file : Vector (Option Rat) 25} {len : Option (Fin 65536)}
    {start n d d' : Nat} {w w' : Voice} {b c : Memory} :
    w.render m file len start n d b = .ok (d', w', c) ↔
      ∃ u, w.applyParams m file = .ok u ∧
        ((u.playing = true ∧ ∃ w1, Voice.renderFrom m file len n start d u b = .ok (d', w1, c) ∧
            w' = w1.endOfRender) ∨
         (u.playing = false ∧ d' = d ∧ w' = u ∧ c = b)) := by
  rw [Voice.render, bind_eq_ok]
  refine exists_congr fun u => and_congr_right fun _ => ?_
  cases hp : u.playing with
  | false =>
    simp only [Bool.false_eq_true, if_false, Except.ok.injEq, Prod.mk.injEq, false_and, true_and, false_or]
    exact ⟨fun ⟨h1, h2, h3⟩ => ⟨h1.symm, h2.symm, h3.symm⟩, fun ⟨h1, h2, h3⟩ => ⟨h1.symm, h2.symm, h3.symm⟩⟩
  | true =>
    simp only [if_true, bind_eq_ok, Prod.exists, Except.ok.injEq, Prod.mk.injEq, true_and, Bool.true_eq_false,
      false_and, or_false]
    constructor
    · rintro ⟨e, w1, b1, h, rfl, rfl, rfl⟩
      exact ⟨w1, h, rfl⟩
    · rintro ⟨w1, h, rfl⟩
      exact ⟨_, w1, _, h, rfl, rfl, rfl⟩

/-- `RenderVoice` (R265) faults in applying the parameters, or in the sample loop of a Playing voice. -/
theorem Voice.render_eq_error {m : NumInst} {file : Vector (Option Rat) 25} {len : Option (Fin 65536)}
    {start n d : Nat} {w : Voice} {b : Memory} {e : Trap} :
    w.render m file len start n d b = .error e ↔
      w.applyParams m file = .error e ∨ ∃ u, w.applyParams m file = .ok u ∧ u.playing = true ∧
        Voice.renderFrom m file len n start d u b = .error e := by
  rw [Voice.render, bind_eq_error]
  refine or_congr_right (exists_congr fun u => and_congr_right fun _ => ?_)
  cases u.playing with
  | false => simp
  | true =>
    rw [if_pos rfl, bind_eq_error]
    simp

/-- The sample loop of `a + b` samples is that of `a` and then that of `b`, faults included. -/
theorem Voice.renderFrom_add {m : NumInst} {file : Vector (Option Rat) 25} {len : Option (Fin 65536)}
    (a b i d : Nat) (w : Voice) (c : Memory) :
    Voice.renderFrom m file len (a + b) i d w c =
      (Voice.renderFrom m file len a i d w c >>= fun r => Voice.renderFrom m file len b (i + a) r.1 r.2.1 r.2.2) := by
  induction a generalizing i d w c with
  | zero => rw [Nat.zero_add]; rfl
  | succ a ih =>
    rw [show a + 1 + b = a + b + 1 by omega, Voice.renderFrom, Voice.renderFrom]
    simp only [bind_assoc]
    refine bind_congr fun _ => bind_congr fun _ => bind_congr fun _ => bind_congr fun _ => bind_congr fun _ => ?_
    rw [ih, show i + 1 + a = i + (a + 1) by omega]

/-- A fault of `RenderVoice` is VOICE.RENDER's. -/
theorem traps_voiceRender {s : State} {v : Fin 8} {start : BitVec 16} {n : BitVec 32} {e : Trap}
    (h : s.voices[v].render s.num s.param s.bufLen (indexOp start) (countOp n) s.draws s.buf = .error e) :
    Traps (.voiceRender v start n) s e.code e.info := by
  show execVoiceRender v start n s = _
  rw [execVoiceRender, h]
  rfl

theorem Voice.render_buf {m : NumInst} {file : Vector (Option Rat) 25} {len : Option (Fin 65536)}
    {start n d d' : Nat} {w w' : Voice} {b c : Memory}
    (h : w.render m file len start n d b = .ok (d', w', c)) :
    (Memory.wf b → Memory.wf c) ∧ ∀ j, j < start ∨ start + n ≤ j → Memory.get c j = Memory.get b j := by
  obtain ⟨u, _, ⟨_, w1, h, _⟩ | ⟨_, _, _, rfl⟩⟩ := Voice.render_eq_ok.1 h
  · exact Voice.renderFrom_buf h
  · exact ⟨id, fun _ _ => rfl⟩

theorem renderVoices_buf {m : NumInst} {file : Vector (Option Rat) 25} {len : Option (Fin 65536)}
    {start n : Nat} {l : List (Fin 8)} {d d' : Nat} {vs vs' : Vector Voice 8} {b c : Memory}
    (h : renderVoices m file len start n l d vs b = .ok (d', vs', c)) :
    (Memory.wf b → Memory.wf c) ∧ ∀ j, j < start ∨ start + n ≤ j → Memory.get c j = Memory.get b j := by
  induction l generalizing d vs b with
  | nil => cases h; exact ⟨id, fun _ _ => rfl⟩
  | cons v rest ih =>
    rw [renderVoices, bind_eq_ok] at h
    obtain ⟨⟨e, w, b1⟩, hr, h⟩ := h
    have h1 := Voice.render_buf hr
    have h2 := ih h
    exact ⟨fun hb => h2.1 (h1.1 hb), fun j hj => (h2.2 j hj).trans (h1.2 j hj)⟩

/-- Every command's effect keeps the buffer's one form. -/
theorem Effect.buf_wf {i : Instr} {s t : State} {r : Response} (h : Effect i s r t) (hb : Memory.wf s.buf) :
    Memory.wf t.buf := by
  cases h
  case bufSt hw => exact bufWrite_wf hw hb
  case fltProcbuf hp => exact (Flt.process_buf hp).1 hb
  case voiceRender hr => exact (Voice.render_buf hr).1 hb
  case engRender hr => exact (renderVoices_buf hr).1 hb
  case engPrepare hx hp =>
    obtain ⟨_, _, _, _, _, _, rfl⟩ := prepare_ok hp
    exact List.Pairwise.nil
  all_goals exact hb

/-- Running a command, or faulting, keeps the buffer's one form. -/
theorem exec_buf_wf {i : Instr} {s u : State} (h : exec i s = .next u) (hb : Memory.wf s.buf) :
    Memory.wf u.buf := by
  rcases exec_next h with ⟨r, t, hE, rfl⟩ | ⟨t, rfl⟩
  · exact hE.buf_wf hb
  · exact hb

end Sys2Proof.Machine
end

