-- ==== Sys2Proof/Laws/Num.lean ====
section
/-! SUPPORT. The number domain and the configuration functions: what they give, once and for all. -/

namespace Sys2Proof.Machine

/-! ## Operations of EXACT -/

@[simp] theorem numResult_exact (q : Rat) : numResult .exact q = .ok q := rfl
@[simp] theorem numAdd_exact (a b : Rat) : numAdd .exact a b = .ok (a + b) := rfl
@[simp] theorem numSub_exact (a b : Rat) : numSub .exact a b = .ok (a - b) := rfl
@[simp] theorem numMul_exact (a b : Rat) : numMul .exact a b = .ok (a * b) := rfl
@[simp] theorem numDiv_exact (a b : Rat) : numDiv .exact a b = .ok (a / b) := rfl
@[simp] theorem lit_exact (q : Rat) : lit .exact q = q := rfl
@[simp] theorem inDomain_exact (d x : Rat) : inDomain .exact d x = x := rfl

/-- A result outside the domain is `F_NUMERIC`, and in EXACT there is none (R308). -/
theorem numResult_error {m : NumInst} {q : Rat} {t : Trap} (h : numResult m q = .error t) :
    t = Trap.numeric ∧ m = .f32 := by
  unfold numResult at h
  split at h
  · cases h
  · split at h
    · cases h
    · cases h; exact ⟨rfl, rfl⟩

theorem numAdd_error {m : NumInst} {a b : Rat} {t : Trap} (h : numAdd m a b = .error t) :
    t = Trap.numeric ∧ m = .f32 := numResult_error h

theorem numSub_error {m : NumInst} {a b : Rat} {t : Trap} (h : numSub m a b = .error t) :
    t = Trap.numeric ∧ m = .f32 := numResult_error h

theorem numMul_error {m : NumInst} {a b : Rat} {t : Trap} (h : numMul m a b = .error t) :
    t = Trap.numeric ∧ m = .f32 := numResult_error h

theorem numDiv_error {m : NumInst} {a b : Rat} {t : Trap} (h : numDiv m a b = .error t) :
    t = Trap.numeric ∧ m = .f32 := by
  unfold numDiv at h
  split at h
  · cases h
  · split at h
    · cases h; exact ⟨rfl, rfl⟩
    · exact numResult_error h

theorem Rises.le {m : NumInst} {a b : Rat} (h : Rises m a b) : a ≤ b := by
  cases m with
  | exact => exact le_of_lt (show a < b from h)
  | f32 => exact (show a ≤ b from h)

/-! ## clamp -/

theorem clamp_lo {v lo hi : Rat} (h : lo ≤ hi) : lo ≤ clamp v lo hi := le_min (le_max_right _ _) h
theorem clamp_hi (v lo hi : Rat) : clamp v lo hi ≤ hi := min_le_right _ _
theorem clamp_of_mem {v lo hi : Rat} (h : lo ≤ v) (h' : v ≤ hi) : clamp v lo hi = v := by
  rw [clamp, max_eq_left h, min_eq_left h']
theorem clamp_clamp {v lo hi : Rat} (h : lo ≤ hi) : clamp (clamp v lo hi) lo hi = clamp v lo hi :=
  clamp_of_mem (clamp_lo h) (clamp_hi v lo hi)

/-! ## within -/

theorem within_mem (m : NumInst) {lo hi d : Rat} (x : Rat) (hl : lo ≤ d) (hh : d ≤ hi) :
    lo ≤ within m lo hi d x ∧ within m lo hi d x ≤ hi := by
  unfold within
  simp only
  split
  · assumption
  · exact ⟨hl, hh⟩

/-! ## SINE01, TRI01, TANH (R11) -/

theorem sineHalf_mem (m : NumInst) (t : Rat) : -1 ≤ sineHalf m t ∧ sineHalf m t ≤ 1 := by
  unfold sineHalf
  split
  · norm_num
  · split
    · norm_num
    · exact within_mem m _ (by norm_num) (by norm_num)

theorem sine01_mem (m : NumInst) (t : Rat) : -1 ≤ sine01 m t ∧ sine01 m t ≤ 1 := by
  unfold sine01
  split
  · exact sineHalf_mem m t
  · have := sineHalf_mem m (t - 1 / 2)
    constructor <;> linarith

theorem sine01_quarters (m : NumInst) :
    sine01 m 0 = 0 ∧ sine01 m (1 / 4) = 1 ∧ sine01 m (1 / 2) = 0 ∧ sine01 m (3 / 4) = -1 := by
  refine ⟨?_, ?_, ?_, ?_⟩ <;> norm_num [sine01, sineHalf]

theorem sine01_half_period (m : NumInst) (t : Rat) (h0 : 0 ≤ t) (h1 : t < 1 / 2) :
    sine01 m (t + 1 / 2) = -sine01 m t := by
  unfold sine01
  rw [if_neg (by linarith), if_pos h1]
  congr 2
  ring

theorem tri01_mem (m : NumInst) (t : Rat) : -1 ≤ tri01 m t ∧ tri01 m t ≤ 1 :=
  within_mem m _ (by norm_num) (by norm_num)

theorem tanhFn_eq (m : NumInst) (x : Rat) : tanhFn m x = (Config.tanh m).val x := by
  unfold tanhFn
  split
  · subst x; exact (Config.tanh m).zero.symm
  · rfl

theorem tanhFn_zero (m : NumInst) : tanhFn m 0 = 0 := rfl

theorem tanhFn_neg (m : NumInst) (x : Rat) : tanhFn m (-x) = -tanhFn m x := by
  simp only [tanhFn_eq, (Config.tanh m).odd]

theorem tanhFn_pos (m : NumInst) {x : Rat} (h : 0 < x) : 0 < tanhFn m x ∧ tanhFn m x < 1 := by
  rw [tanhFn_eq]
  exact ⟨(Config.tanh m).pos x h, (Config.tanh m).lt_one x⟩

theorem tanhFn_mem (m : NumInst) (x : Rat) : -1 < tanhFn m x ∧ tanhFn m x < 1 := by
  have h := (Config.tanh m).lt_one (-x)
  rw [(Config.tanh m).odd] at h
  rw [tanhFn_eq]
  exact ⟨by linarith, (Config.tanh m).lt_one x⟩

theorem tanhFn_rises (m : NumInst) {x y : Rat} (h : x < y) : Rises m (tanhFn m x) (tanhFn m y) := by
  rw [tanhFn_eq, tanhFn_eq]
  exact (Config.tanh m).rises x y h

/-! ## COEF_P (R11) -/

theorem coefP_eq (m : NumInst) (c fs : Rat) : coefP m c fs = (Config.coefP m).val c fs := by
  unfold coefP
  split
  · obtain rfl : c = fs / 4 := by linarith
    exact ((Config.coefP m).quarter fs).symm
  · rfl

theorem coefP_mem (m : NumInst) (c fs : Rat) : 0 < coefP m c fs ∧ coefP m c fs < 1 := by
  rw [coefP_eq]
  exact ⟨(Config.coefP m).pos c fs, (Config.coefP m).lt_one c fs⟩

theorem coefP_quarter (m : NumInst) (fs : Rat) : coefP m (fs / 4) fs = 1 / 2 := by
  rw [coefP_eq]
  exact (Config.coefP m).quarter fs

theorem coefP_below (m : NumInst) {c fs : Rat} (h0 : 0 < fs) (h : 4 * c < fs) : coefP m c fs < 1 / 2 := by
  rw [coefP_eq]
  exact (Config.coefP m).below c fs h0 h

theorem coefP_rises (m : NumInst) {c d fs : Rat} (hc : 0 < c) (h : c < d) (hd : 2 * d < fs) :
    Rises m (coefP m c fs) (coefP m d fs) := by
  rw [coefP_eq, coefP_eq]
  exact (Config.coefP m).rises c d fs hc h hd

theorem coefP_stable (m : NumInst) {c fs : Rat} (hc : 20 ≤ c) (h : c ≤ 9 / 20 * fs) :
    LadderStableAt (ceilG m) (coefP m c fs) := by
  rw [coefP_eq]
  exact (Config.coefP m).stable c fs hc h

theorem coefP_le_top (m : NumInst) {c fs : Rat} (h : c ≤ 9 / 20 * fs) (hfs : 0 < fs) :
    coefP m c fs ≤ coefP m (9 / 20 * fs) fs := by
  rcases h.eq_or_lt with rfl | h
  · exact le_rfl
  rcases le_or_gt c 0 with hc | hc
  · have hq := coefP_rises m (c := fs / 4) (d := 9 / 20 * fs) (fs := fs) (by linarith) (by linarith) (by linarith)
    rw [coefP_quarter] at hq
    exact (coefP_below m hfs (by linarith)).le.trans hq.le
  · exact (coefP_rises m hc h (by linarith)).le

/-! ## Powers of two, NOTE_HZ (R11) -/

theorem pow2_eq_zpow (k : Int) : pow2 k = (2 : Rat) ^ k := by
  unfold pow2
  split
  · rename_i h
    obtain ⟨n, rfl⟩ := Int.eq_ofNat_of_zero_le h
    simp
  · rename_i h
    obtain ⟨n, hn⟩ := Int.eq_ofNat_of_zero_le (show 0 ≤ -k by omega)
    obtain rfl : k = -(n : Int) := by omega
    simp

theorem pow2_pos (k : Int) : 0 < pow2 k := by rw [pow2_eq_zpow]; positivity

theorem pow2_succ (k : Int) : pow2 (k + 1) = 2 * pow2 k := by
  rw [pow2_eq_zpow, pow2_eq_zpow, zpow_add_one₀ (by norm_num), mul_comm]

theorem octave_offset (x : Rat) : 0 ≤ x - 69 - 12 * (octave x : Rat) ∧ x - 69 - 12 * (octave x : Rat) < 12 := by
  have h1 : ((octave x : Int) : Rat) ≤ (x - 69) / 12 := Int.floor_le _
  have h2 : (x - 69) / 12 < (octave x : Int) + 1 := Int.lt_floor_add_one _
  constructor <;> linarith

theorem octave_add_twelve (x : Rat) : octave (x + 12) = octave x + 1 := by
  have : (x + 12 - 69) / 12 = (x - 69) / 12 + 1 := by ring
  show ⌊(x + 12 - 69) / 12⌋ = ⌊(x - 69) / 12⌋ + 1
  rw [this, Int.floor_add_one]

theorem octaveHz_zero (m : NumInst) : octaveHz m 0 = 440 := rfl

theorem octaveHz_eq (m : NumInst) (f : Rat) : octaveHz m f = (Config.noteHz m).val f := by
  unfold octaveHz
  split
  · subst f; exact (Config.noteHz m).a4.symm
  · rfl

theorem octaveHz_rises (m : NumInst) {f g : Rat} (h0 : 0 ≤ f) (h : f < g) (h1 : g < 12) :
    Rises m (octaveHz m f) (octaveHz m g) := by
  rw [octaveHz_eq, octaveHz_eq]
  exact (Config.noteHz m).rises f g h0 h h1

theorem octaveHz_top (m : NumInst) {f : Rat} (h0 : 0 ≤ f) (h1 : f < 12) : Rises m (octaveHz m f) 880 := by
  rw [octaveHz_eq]
  exact (Config.noteHz m).top f h0 h1

theorem octaveHz_mem (m : NumInst) {f : Rat} (h0 : 0 ≤ f) (h1 : f < 12) :
    440 ≤ octaveHz m f ∧ octaveHz m f ≤ 880 := by
  refine ⟨?_, (octaveHz_top m h0 h1).le⟩
  rcases h0.eq_or_lt with rfl | h0
  · rw [octaveHz_zero]
  · have := (octaveHz_rises m le_rfl h0 h1).le
    rwa [octaveHz_zero] at this

theorem octaveHz_pos (m : NumInst) {f : Rat} (h0 : 0 ≤ f) (h1 : f < 12) : 0 < octaveHz m f :=
  lt_of_lt_of_le (by norm_num) (octaveHz_mem m h0 h1).1

/-- At note 69 the frequency is 440 Hz. -/
theorem noteHz_a4 (m : NumInst) : noteHz m 69 = .ok 440 := by cases m <;> decide +kernel

theorem noteHz_exact (x : Rat) :
    noteHz .exact x = .ok (octaveHz .exact (x - 69 - 12 * (octave x : Rat)) * pow2 (octave x)) := rfl

theorem noteHz_exact_add_twelve (x : Rat) :
    ∃ hz, noteHz .exact x = .ok hz ∧ noteHz .exact (x + 12) = .ok (2 * hz) := by
  refine ⟨_, noteHz_exact x, ?_⟩
  rw [noteHz_exact, octave_add_twelve, pow2_succ]
  have : x + 12 - 69 - 12 * ((octave x + 1 : Int) : Rat) = x - 69 - 12 * (octave x : Rat) := by
    push_cast; ring
  rw [this]
  congr 1
  ring

theorem f32Least_pos : 0 < f32Least := pow2_pos _

theorem noteHz_pos {m : NumInst} {x hz : Rat} (h : noteHz m x = .ok hz) : 0 < hz := by
  have hb := octaveHz_pos m (octave_offset x).1 (octave_offset x).2
  cases m with
  | exact =>
    rw [noteHz_exact, Except.ok.injEq] at h
    rw [← h]
    exact mul_pos hb (pow2_pos _)
  | f32 =>
    unfold noteHz at h
    simp only at h
    split at h
    · cases h
    · split at h
      · cases h; exact f32Least_pos
      · split at h
        · cases h
        · cases h
          split
          · assumption
          · exact f32Least_pos

theorem noteHz_error {m : NumInst} {x : Rat} {t : Trap} (h : noteHz m x = .error t) :
    t = Trap.numeric ∧ m = .f32 := by
  cases m with
  | exact => cases h
  | f32 =>
    unfold noteHz at h
    simp only at h
    split at h
    · cases h; exact ⟨rfl, rfl⟩
    · split at h
      · cases h
      · split at h
        · cases h; exact ⟨rfl, rfl⟩
        · cases h

/-! ## Rounding to binary32 does not change the order (R309) -/

theorem pow2_le_pow2 {i j : Int} (h : i ≤ j) : pow2 i ≤ pow2 j := by
  rw [pow2_eq_zpow, pow2_eq_zpow]
  exact zpow_le_zpow_right₀ (by norm_num) h

theorem lt_of_pow2_lt {i j : Int} (h : pow2 i < pow2 j) : i < j := by
  by_contra hc
  exact absurd (pow2_le_pow2 (not_lt.1 hc)) (not_le.2 h)

theorem pow2_add (i j : Int) : pow2 (i + j) = pow2 i * pow2 j := by
  simp only [pow2_eq_zpow]
  exact zpow_add₀ (by norm_num) i j

theorem ilog2_spec {a : Rat} (h : 0 < a) : pow2 (ilog2 a) ≤ a ∧ a < pow2 (ilog2 a + 1) := by
  have hn : 0 < a.num := Rat.num_pos.2 h
  have hn' : a.num.natAbs ≠ 0 := by omega
  have hd : a.den ≠ 0 := a.den_nz
  have ha : a = (a.num.natAbs : Rat) / (a.den : Rat) := by
    conv_lhs => rw [← Rat.num_div_den a]
    congr 1
    rw [← Int.cast_natCast, Int.natAbs_of_nonneg hn.le]
  have n1 : ((2 ^ Nat.log2 a.num.natAbs : Nat) : Rat) ≤ (a.num.natAbs : Rat) := by
    exact_mod_cast Nat.log2_self_le hn'
  have n2 : (a.num.natAbs : Rat) < ((2 ^ (Nat.log2 a.num.natAbs + 1) : Nat) : Rat) := by
    exact_mod_cast Nat.lt_log2_self
  have d1 : ((2 ^ Nat.log2 a.den : Nat) : Rat) ≤ (a.den : Rat) := by exact_mod_cast Nat.log2_self_le hd
  have d2 : (a.den : Rat) < ((2 ^ (Nat.log2 a.den + 1) : Nat) : Rat) := by exact_mod_cast Nat.lt_log2_self
  have hden : (0 : Rat) < a.den := by exact_mod_cast Nat.pos_of_ne_zero hd
  have hp : ∀ k : Nat, ((2 ^ k : Nat) : Rat) = (2 : Rat) ^ (k : Int) := fun k => by push_cast; rw [zpow_natCast]
  rw [hp] at n1 n2 d1 d2
  unfold ilog2
  generalize Nat.log2 a.num.natAbs = i at *
  generalize Nat.log2 a.den = j at *
  have hj : (0 : Rat) < (2 : Rat) ^ (j : Int) := by positivity
  have hi : (0 : Rat) < (2 : Rat) ^ (i : Int) := by positivity
  have up : a < pow2 ((i : Int) - j + 1) := by
    rw [ha, pow2_eq_zpow, div_lt_iff₀ hden]
    refine n2.trans_le ?_
    have : (2 : Rat) ^ ((i + 1 : Nat) : Int) = (2 : Rat) ^ ((i : Int) - j + 1) * (2 : Rat) ^ (j : Int) := by
      rw [← zpow_add₀ (by norm_num)]
      congr 1
      push_cast
      ring
    rw [this]
    exact mul_le_mul_of_nonneg_left d1 (by positivity)
  have low : pow2 ((i : Int) - j - 1) ≤ a := by
    rw [ha, pow2_eq_zpow, le_div_iff₀ hden]
    refine le_trans ?_ n1
    have : (2 : Rat) ^ (i : Int) = (2 : Rat) ^ ((i : Int) - j - 1) * (2 : Rat) ^ ((j + 1 : Nat) : Int) := by
      rw [← zpow_add₀ (by norm_num)]
      congr 1
      push_cast
      ring
    rw [this]
    exact mul_le_mul_of_nonneg_left d2.le (by positivity)
  simp only
  split
  · exact ⟨‹_›, up⟩
  · rename_i hc
    refine ⟨low, ?_⟩
    rw [sub_add_cancel]
    exact not_le.1 hc

theorem roundHalfEven_mem (q : Rat) : q.floor ≤ roundHalfEven q ∧ roundHalfEven q ≤ q.floor + 1 := by
  unfold roundHalfEven
  simp only
  split_ifs <;> constructor <;> omega

theorem roundHalfEven_mono {a b : Rat} (h : a ≤ b) : roundHalfEven a ≤ roundHalfEven b := by
  have hf : a.floor ≤ b.floor := Int.floor_le_floor h
  rcases hf.lt_or_eq with hlt | heq
  · have := (roundHalfEven_mem a).2
    have := (roundHalfEven_mem b).1
    omega
  · unfold roundHalfEven
    rw [heq]
    have hr : a - (b.floor : Rat) ≤ b - (b.floor : Rat) := by linarith
    simp only
    split_ifs <;> first | omega | (exfalso; linarith)

theorem roundHalfEven_intCast (n : Int) : roundHalfEven (n : Rat) = n := by
  have : (n : Rat).floor = n := Rat.floor_intCast n
  unfold roundHalfEven
  simp [this]

/-- The value `f32Round` gives where it is finite. -/
def f32Nearest (q : Rat) : Rat := (roundHalfEven (q / f32Ulp q) : Rat) * f32Ulp q

theorem f32Round_eq_some {q r : Rat} (h0 : q ≠ 0) (h : f32Round q = some r) :
    r = f32Nearest q ∧ absQ r < pow2 128 := by
  unfold f32Round at h
  rw [if_neg h0] at h
  simp only at h
  split at h
  · cases h; exact ⟨rfl, ‹_›⟩
  · cases h

theorem f32Ulp_of_pos {q : Rat} (h : 0 < q) : f32Ulp q = pow2 (max (ilog2 q) (-126) - 23) := by
  unfold f32Ulp
  rw [absQ_eq_abs, abs_of_pos h]

theorem f32Ulp_pos (q : Rat) : 0 < f32Ulp q := pow2_pos _

theorem f32Nearest_mono {a b : Rat} (h0 : 0 < a) (h : a ≤ b) : f32Nearest a ≤ f32Nearest b := by
  have hb : 0 < b := h0.trans_le h
  obtain ⟨a1, a2⟩ := ilog2_spec h0
  obtain ⟨b1, b2⟩ := ilog2_spec hb
  have hlog : ilog2 a ≤ ilog2 b := by
    have := lt_of_pow2_lt (a1.trans_lt (h.trans_lt b2))
    omega
  have hua := f32Ulp_of_pos h0
  have hub := f32Ulp_of_pos hb
  rcases (show max (ilog2 a) (-126) ≤ max (ilog2 b) (-126) by omega).lt_or_eq with hlt | heq
  · have he : max (ilog2 b) (-126) = ilog2 b := by omega
    rw [he] at hlt hub
    -- both sides of the power of two below `b`
    refine le_trans (b := pow2 (ilog2 b)) ?_ ?_
    · obtain ⟨n, hn⟩ := Int.eq_ofNat_of_zero_le (show 0 ≤ ilog2 b - max (ilog2 a) (-126) + 23 by omega)
      have hint : pow2 (ilog2 b) = (((2 ^ n : Nat) : Int) : Rat) * f32Ulp a := by
        rw [hua, show ilog2 b = (n : Int) + (max (ilog2 a) (-126) - 23) by omega, pow2_add]
        congr 1
      have hle : a / f32Ulp a ≤ (((2 ^ n : Nat) : Int) : Rat) := by
        rw [div_le_iff₀ (f32Ulp_pos a), ← hint]
        exact a2.le.trans (pow2_le_pow2 (by omega))
      have hr := roundHalfEven_mono hle
      rw [roundHalfEven_intCast] at hr
      rw [f32Nearest, hint]
      exact mul_le_mul_of_nonneg_right (by exact_mod_cast hr) (f32Ulp_pos a).le
    · have hint : pow2 (ilog2 b) = (((2 ^ 23 : Nat) : Int) : Rat) * f32Ulp b := by
        rw [hub, show ilog2 b = 23 + (ilog2 b - 23) by omega, pow2_add]
        simp [pow2]
      have hle : (((2 ^ 23 : Nat) : Int) : Rat) ≤ b / f32Ulp b := by
        rw [le_div_iff₀ (f32Ulp_pos b), ← hint]
        exact b1
      have hr := roundHalfEven_mono hle
      rw [roundHalfEven_intCast] at hr
      rw [f32Nearest, hint]
      exact mul_le_mul_of_nonneg_right (by exact_mod_cast hr) (f32Ulp_pos b).le
  · have hu : f32Ulp a = f32Ulp b := by rw [hua, hub, heq]
    have hr := roundHalfEven_mono (div_le_div_of_nonneg_right h (f32Ulp_pos b).le)
    rw [f32Nearest, f32Nearest, hu]
    exact mul_le_mul_of_nonneg_right (by exact_mod_cast hr) (f32Ulp_pos b).le

/-- What does not round to 0 rounds to at least the least positive binary32. -/
theorem f32Least_le_nearest {q : Rat} (h : 0 < q) (hr : 0 < f32Nearest q) : f32Least ≤ f32Nearest q := by
  have hu : f32Least ≤ f32Ulp q := by
    rw [f32Ulp_of_pos h]
    exact pow2_le_pow2 (by omega)
  have hn : (0 : Int) < roundHalfEven (q / f32Ulp q) := by
    have := pos_of_mul_pos_left hr (f32Ulp_pos q).le
    exact_mod_cast this
  have h1 : (1 : Rat) ≤ (roundHalfEven (q / f32Ulp q) : Rat) := by exact_mod_cast hn
  refine hu.trans ?_
  rw [f32Nearest]
  exact le_mul_of_one_le_left (f32Ulp_pos q).le h1

/-! ## NOTE_HZ increases (R11) -/

theorem Rises.trans_le {m : NumInst} {a b c : Rat} (h : Rises m a b) (h' : b ≤ c) : Rises m a c := by
  cases m with
  | exact => exact lt_of_lt_of_le h h'
  | f32 => exact le_trans h h'

theorem Rises.mul_pos {m : NumInst} {a b c : Rat} (h : Rises m a b) (hc : 0 < c) : Rises m (a * c) (b * c) := by
  cases m with
  | exact => exact mul_lt_mul_of_pos_right h hc
  | f32 => exact mul_le_mul_of_nonneg_right h hc.le

theorem octave_mono {x y : Rat} (h : x ≤ y) : octave x ≤ octave y :=
  Int.floor_le_floor (show (x - 69) / 12 ≤ (y - 69) / 12 by linarith)

/-- Before any rounding NOTE_HZ increases: inside an octave by `octaveHz_rises`, across octaves because every
value of the lower one is at most 880 doublings of it and every value of the higher at least 440. -/
theorem octaveHz_mul_pow2_rises (m : NumInst) {x y : Rat} (h : x < y) :
    Rises m (octaveHz m (x - 69 - 12 * (octave x : Rat)) * pow2 (octave x))
      (octaveHz m (y - 69 - 12 * (octave y : Rat)) * pow2 (octave y)) := by
  obtain ⟨x0, x1⟩ := octave_offset x
  obtain ⟨y0, y1⟩ := octave_offset y
  rcases (octave_mono h.le).lt_or_eq with ho | ho
  · refine ((octaveHz_top m x0 x1).mul_pos (pow2_pos _)).trans_le ?_
    calc 880 * pow2 (octave x) = 440 * pow2 (octave x + 1) := by rw [pow2_succ]; ring
      _ ≤ 440 * pow2 (octave y) := mul_le_mul_of_nonneg_left (pow2_le_pow2 (by omega)) (by norm_num)
      _ ≤ _ := mul_le_mul_of_nonneg_right (octaveHz_mem m y0 y1).1 (pow2_pos _).le
  · rw [← ho] at y1 ⊢
    exact (octaveHz_rises m x0 (by linarith) y1).mul_pos (pow2_pos _)

/-- In `F32` NOTE_HZ gives a value above the least positive binary32 only by rounding. -/
theorem noteHz_f32_ok {x hz : Rat} (h : noteHz .f32 x = .ok hz) :
    octave x ≤ 200 ∧ hz = if octave x < -200 then f32Least else
      max f32Least (f32Nearest (octaveHz .f32 (x - 69 - 12 * (octave x : Rat)) * pow2 (octave x))) := by
  have hpos : 0 < octaveHz .f32 (x - 69 - 12 * (octave x : Rat)) * pow2 (octave x) :=
    mul_pos (octaveHz_pos _ (octave_offset x).1 (octave_offset x).2) (pow2_pos _)
  unfold noteHz at h
  simp only at h
  split at h
  · cases h
  · rename_i ho
    refine ⟨not_lt.1 ho, ?_⟩
    split at h
    · cases h; rw [if_pos ‹_›]
    · rw [if_neg ‹_›]
      split at h
      · cases h
      · rename_i r hr
        obtain ⟨rfl, -⟩ := f32Round_eq_some hpos.ne' hr
        cases h
        split
        · rw [max_eq_right]
          exact f32Least_le_nearest hpos ‹_›
        · rw [max_eq_left]
          exact (not_lt.1 ‹_›).trans f32Least_pos.le

theorem noteHz_rises {m : NumInst} {x y hx hy : Rat} (h : x < y) (ex : noteHz m x = .ok hx)
    (ey : noteHz m y = .ok hy) : Rises m hx hy := by
  have hr := octaveHz_mul_pow2_rises m h
  cases m with
  | exact =>
    rw [noteHz_exact, Except.ok.injEq] at ex ey
    rwa [← ex, ← ey]
  | f32 =>
    obtain ⟨-, rfl⟩ := noteHz_f32_ok ex
    obtain ⟨-, rfl⟩ := noteHz_f32_ok ey
    have ho := octave_mono h.le
    have hpos := mul_pos (octaveHz_pos .f32 (octave_offset x).1 (octave_offset x).2) (pow2_pos (octave x))
    show _ ≤ _
    split_ifs
    · exact le_rfl
    · exact le_max_left _ _
    · omega
    · exact max_le_max le_rfl (f32Nearest_mono hpos hr)

/-! ## VEL_GAIN, ENV_MIN_MS, SQ_HALF, the draws -/

theorem velGain_one_left (m : NumInst) (a : Rat) : velGain m 1 a = .ok 1 := by simp [velGain]

theorem velGain_zero_right (m : NumInst) (v : Rat) : velGain m v 0 = .ok 1 := by simp [velGain]

theorem velGain_exact (v a : Rat) : ∃ g, velGain .exact v a = .ok g := by
  unfold velGain
  split
  · exact ⟨_, rfl⟩
  · exact ⟨_, rfl⟩

theorem velGain_error {m : NumInst} {v a : Rat} {t : Trap} (h : velGain m v a = .error t) :
    t = Trap.numeric ∧ m = .f32 := by
  unfold velGain at h
  split at h
  · cases h
  · exact numResult_error h

theorem envMinMs_mem (m : NumInst) : 0 < envMinMs m ∧ envMinMs m ≤ 50 := by
  unfold envMinMs
  simp only
  split
  · assumption
  · norm_num

theorem sqHalf_mem : sqHalf = -1 ∨ sqHalf = 0 ∨ sqHalf = 1 := by
  unfold sqHalf
  cases Config.sqHalf <;> simp

theorem draw_mem (m : NumInst) (n : Nat) : -1 ≤ draw m n ∧ draw m n ≤ 1 :=
  within_mem m _ (by norm_num) (by norm_num)

theorem drawOther_mem (m : NumInst) (n : Nat) (h : Rat) :
    drawOther m n h ≠ h ∧ -1 ≤ drawOther m n h ∧ drawOther m n h ≤ 1 := by
  unfold drawOther
  simp only
  split
  · split
    · rename_i h0; subst h0; norm_num
    · rename_i h0; exact ⟨fun h' => h0 h'.symm, by norm_num, by norm_num⟩
  · rename_i hne; exact ⟨hne, draw_mem m n⟩

/-- Where the free draw already differs from the held value it is taken as it is. -/
theorem drawOther_eq (m : NumInst) (n : Nat) {h : Rat} (hne : draw m n ≠ h) : drawOther m n h = draw m n := by
  unfold drawOther
  rw [if_neg hne]

end Sys2Proof.Machine
end

