-- ==== Sys2Proof/Laws/Router.lean ====
section
/-! SUPPORT. The named places of the router's arrays and the parameter file, and what each update leaves in each
place. -/

namespace Sys2Proof

theorem Source.idx_inj {s t : Source} : s.idx.val = t.idx.val ↔ s = t := by
  rcases s with s | s <;> rcases t with t | t <;> cases s <;> cases t <;> decide

theorem Dest.idx_inj {s t : Dest} : s.idx.val = t.idx.val ↔ s = t := by
  cases s <;> cases t <;> decide

theorem ScalarSource.idx_inj {s t : ScalarSource} : s.idx.val = t.idx.val ↔ s = t := by
  cases s <;> cases t <;> decide

theorem ObjSource.idx_inj {s t : ObjSource} : s.idx.val = t.idx.val ↔ s = t := by
  cases s <;> cases t <;> decide

theorem Param.idx_inj {s t : Param} : s.idx.val = t.idx.val ↔ s = t := by
  cases s <;> cases t <;> decide

theorem Source.exists_idx (i : Fin 8) : ∃ s : Source, s.idx = i := by
  match i with
  | 0 => exact ⟨.obj .lfo1, rfl⟩
  | 1 => exact ⟨.obj .lfo2, rfl⟩
  | 2 => exact ⟨.obj .env1, rfl⟩
  | 3 => exact ⟨.obj .env2, rfl⟩
  | 4 => exact ⟨.scalar .velocity, rfl⟩
  | 5 => exact ⟨.scalar .modwheel, rfl⟩
  | 6 => exact ⟨.scalar .aftertouch, rfl⟩
  | 7 => exact ⟨.scalar .pitchbend, rfl⟩

theorem Dest.exists_idx (i : Fin 5) : ∃ d : Dest, d.idx = i := by
  match i with
  | 0 => exact ⟨.cutoff, rfl⟩
  | 1 => exact ⟨.resonance, rfl⟩
  | 2 => exact ⟨.pwm, rfl⟩
  | 3 => exact ⟨.level, rfl⟩
  | 4 => exact ⟨.pitch, rfl⟩

namespace Machine

/-- What an update at one named place leaves at another. -/
theorem get_set_place {α : Type} {n : Nat} (x : Vector α n) (i j : Fin n) (a : α) :
    (x.set i a)[j] = if j.val = i.val then a else x[j] := by
  simp [Vector.getElem_set, eq_comm]

theorem Router.cell_setConn (r : Router) (s t : Source) (d e : Dest) (c : Option Rat) :
    (r.setConn s d c).cell t e = if t = s ∧ e = d then c else r.cell t e := by
  unfold Router.cell Router.setConn
  simp only [get_set_place, Source.idx_inj]
  by_cases h : t = s
  · subst h
    simp only [if_true, get_set_place, Dest.idx_inj, true_and]
  · simp only [h, if_false, false_and]

theorem Router.cell_clear (r : Router) (s : Source) (d : Dest) : r.clear.cell s d = none := by
  simp [Router.cell, Router.clear]

theorem Router.base_setBase (r : Router) (d e : Dest) (x : Rat) :
    (r.setBase d x).base[e.idx] = if e = d then some x else r.base[e.idx] := by
  unfold Router.setBase
  simp only [get_set_place, Dest.idx_inj]

theorem Router.scalar_setScalar (r : Router) (c e : ScalarSource) (x : Rat) :
    (r.setScalar c x).scalar[e.idx] = if e = c then x else r.scalar[e.idx] := by
  unfold Router.setScalar
  simp only [get_set_place, ScalarSource.idx_inj]

theorem Router.registered_setRegistered (r : Router) (o e : ObjSource) (b : Bool) :
    (r.setRegistered o b).registered[e.idx] = if e = o then b else r.registered[e.idx] := by
  unfold Router.setRegistered
  simp only [get_set_place, ObjSource.idx_inj]

theorem paramGet_set (file : Vector (Option Rat) 25) (p q : Param) (x : Option Rat) :
    paramGet (file.set p.idx x) q = if q = p then x else paramGet file q := by
  unfold paramGet
  simp only [get_set_place, Param.idx_inj]

@[simp] theorem Router.setConn_base (r : Router) (s : Source) (d : Dest) (c : Option Rat) :
    (r.setConn s d c).base = r.base := rfl
@[simp] theorem Router.setConn_mod (r : Router) (s : Source) (d : Dest) (c : Option Rat) :
    (r.setConn s d c).mod = r.mod := rfl
@[simp] theorem Router.setConn_scalar (r : Router) (s : Source) (d : Dest) (c : Option Rat) :
    (r.setConn s d c).scalar = r.scalar := rfl
@[simp] theorem Router.setConn_registered (r : Router) (s : Source) (d : Dest) (c : Option Rat) :
    (r.setConn s d c).registered = r.registered := rfl
@[simp] theorem Router.setBase_cell (r : Router) (d : Dest) (x : Rat) (s : Source) (e : Dest) :
    (r.setBase d x).cell s e = r.cell s e := rfl
@[simp] theorem Router.setBase_mod (r : Router) (d : Dest) (x : Rat) : (r.setBase d x).mod = r.mod := rfl
@[simp] theorem Router.setBase_scalar (r : Router) (d : Dest) (x : Rat) : (r.setBase d x).scalar = r.scalar := rfl
@[simp] theorem Router.setBase_registered (r : Router) (d : Dest) (x : Rat) :
    (r.setBase d x).registered = r.registered := rfl

/-- A router is its cells, bases, modulated values, scalars and flags. -/
theorem Router.ext_cells {r q : Router} (hc : ∀ s d, r.cell s d = q.cell s d)
    (hb : ∀ d : Dest, r.base[d.idx] = q.base[d.idx]) (hm : r.mod = q.mod) (hs : r.scalar = q.scalar)
    (hr : r.registered = q.registered) : r = q := by
  obtain ⟨conn, base, mod, scalar, registered⟩ := r
  obtain ⟨conn', base', mod', scalar', registered'⟩ := q
  simp only at hb hm hs hr
  subst hm hs hr
  have h1 : conn = conn' := by
    ext i hi j hj : 2
    obtain ⟨s, hs⟩ := Source.exists_idx ⟨i, hi⟩
    obtain ⟨d, hd⟩ := Dest.exists_idx ⟨j, hj⟩
    have := hc s d
    simp only [Router.cell, hs, hd] at this
    exact this
  have h2 : base = base' := by
    ext j hj : 1
    obtain ⟨d, hd⟩ := Dest.exists_idx ⟨j, hj⟩
    have := hb d
    simp only [hd] at this
    exact this
  rw [h1, h2]

end Machine

end Sys2Proof
end

