-- ==== Sys2Proof/Laws/Steps.lean ====
section
/-! SUPPORT. Everything a command can do to a voice, as a sequence of unit operations. An invariant of the voices is
proved by `VoiceStep`'s cases, one unit operation at a time. -/

namespace Sys2Proof.Machine

/-- What a command can do to an oscillator. -/
inductive OscStep (m : NumInst) (o : Osc) : Osc → Prop
  | freq {x o'} (h : o.setFreq m x = .ok o') : OscStep m o o'
  | sr {imm x o'} (h : o.setSr m imm x = .ok o') : OscStep m o o'
  | wave (k : OscWave) : OscStep m o { o with wave := k }
  | proc {x o'} (h : o.proc m = .ok (x, o')) : OscStep m o o'

/-- What a command can do to an envelope. -/
inductive EnvStep (m : NumInst) (e : Env) : Env → Prop
  | noteOn : EnvStep m e e.noteOn
  | noteOff {e'} (h : e.noteOff m = .ok e') : EnvStep m e e'
  | atk {x e'} (h : e.setAtk m x = .ok e') : EnvStep m e e'
  | dec {x e'} (h : e.setDec m x = .ok e') : EnvStep m e e'
  | sus {x e'} (h : e.setSus m x = .ok e') : EnvStep m e e'
  | rel {x e'} (h : e.setRel m x = .ok e') : EnvStep m e e'
  | sr {imm x e'} (h : e.setSr m imm x = .ok e') : EnvStep m e e'
  | tick {x e'} (h : e.tick m = .ok (x, e')) : EnvStep m e e'
  | idle : EnvStep m e { e with stage := .idle, level := 0 }

/-- What a command can do to an LFO. -/
inductive LfoStep (m : NumInst) (l : Lfo) : Lfo → Prop
  | freq {x l'} (h : l.setFreq m x = .ok l') : LfoStep m l l'
  | sr {imm x l'} (h : l.setSr m imm x = .ok l') : LfoStep m l l'
  | wave (k : LfoWave) : LfoStep m l { l with wave := some k }
  | bipolar (b : Bool) : LfoStep m l { l with bipolar := b }
  | next {n x n' l'} (h : l.next m n = .ok (x, n', l')) : LfoStep m l l'
  | advance {n n' l'} (h : l.advance m n = .ok (n', l')) : LfoStep m l l'
  | rewind (n : Nat) : LfoStep m l (l.rewind m n).2

/-- What a command can do to a filter. -/
inductive FltStep (m : NumInst) (f : Flt) : Flt → Prop
  | sr {imm x f'} (h : f.setSr m imm x = .ok f') : FltStep m f f'
  | cut {x f'} (h : f.setCut m x = .ok f') : FltStep m f f'
  | res {x f'} (h : f.setRes m x = .ok f') : FltStep m f f'
  | drv (x : Rat) : FltStep m f (f.setDrv x)
  | sample {x y f'} (h : f.sample m x = .ok (y, f')) : FltStep m f f'
  | clear : FltStep m f f.clear

/-- What a command can do to a router. -/
inductive RouterStep (r : Router) : Router → Prop
  | conn (s : Source) (d : Dest) (c : Option Rat) : RouterStep r (r.setConn s d c)
  | clear : RouterStep r r.clear
  | base (d : Dest) (x : Rat) : RouterStep r (r.setBase d x)
  | scalar (c : ScalarSource) (x : Rat) (h : c = .velocity ∨ c = .modwheel → 0 ≤ x ∧ x ≤ 1) :
    RouterStep r (r.setScalar c x)
  | registered (o : ObjSource) (b : Bool) : RouterStep r (r.setRegistered o b)
  | mod (x : Vector (Option Rat) 5)
    (h : ∀ (d : Dest) (q : Rat), x[d.idx] = some q → Dest.lo d ≤ q ∧ q ≤ Dest.hi d) :
    RouterStep r { r with mod := x }

/-- What a command can do to a voice: unit operations and writes of the voice registers, one after the other. -/
inductive VoiceStep (m : NumInst) : Voice → Voice → Prop
  | refl (w : Voice) : VoiceStep m w w
  | trans {u v w : Voice} (h : VoiceStep m u v) (h' : VoiceStep m v w) : VoiceStep m u w
  | osc {w : Voice} {o : Osc} (h : OscStep m w.osc o) : VoiceStep m w { w with osc := o }
  | env {w : Voice} (i : Fin 2) {e : Env} (h : EnvStep m w.env[i] e) : VoiceStep m w (w.setEnv i e)
  | lfo {w : Voice} (i : Fin 2) {l : Lfo} (h : LfoStep m w.lfo[i] l) : VoiceStep m w (w.setLfo i l)
  | flt {w : Voice} {f : Flt} (h : FltStep m w.flt f) : VoiceStep m w { w with flt := f }
  | router {w : Voice} {r : Router} (h : RouterStep w.router r) : VoiceStep m w { w with router := r }
  | start (w : Voice) (note : Fin 128) (vel : Rat) (h : 0 ≤ vel ∧ vel ≤ 1) :
    VoiceStep m w { w with note := some note, vel := vel, playing := true, tailOff := false }
  | stop (w : Voice) : VoiceStep m w { w with playing := false, tailOff := false, note := none }
  | tail {w : Voice} (h : w.playing = true) : VoiceStep m w { w with tailOff := true }
  | bend (w : Voice) (x : Rat) : VoiceStep m w { w with bend := x }
  | wheel (w : Voice) (x : Rat) (h : 0 ≤ x ∧ x ≤ 1) : VoiceStep m w { w with wheel := x }

variable {m : NumInst}

/-! ## Pairs -/

theorem Voice.setEnv_setEnv (w : Voice) (a b : Env) : (w.setEnv 0 a).setEnv 1 b = { w with env := #v[a, b] } := by
  unfold Voice.setEnv
  congr 1
  ext j hj
  match j, hj with
  | 0, _ => simp
  | 1, _ => simp

theorem Voice.setLfo_setLfo (w : Voice) (a b : Lfo) : (w.setLfo 0 a).setLfo 1 b = { w with lfo := #v[a, b] } := by
  unfold Voice.setLfo
  congr 1
  ext j hj
  match j, hj with
  | 0, _ => simp
  | 1, _ => simp

theorem VoiceStep.envs {w : Voice} {a b : Env} (ha : EnvStep m w.env[0] a) (hb : EnvStep m w.env[1] b) :
    VoiceStep m w { w with env := #v[a, b] } := by
  rw [← Voice.setEnv_setEnv]
  exact (VoiceStep.env 0 ha).trans (.env 1 (by rw [Voice.setEnv_get, if_neg (by decide)]; exact hb))

theorem VoiceStep.lfos {w : Voice} {a b : Lfo} (ha : LfoStep m w.lfo[0] a) (hb : LfoStep m w.lfo[1] b) :
    VoiceStep m w { w with lfo := #v[a, b] } := by
  rw [← Voice.setLfo_setLfo]
  exact (VoiceStep.lfo 0 ha).trans (.lfo 1 (by rw [Voice.setLfo_get, if_neg (by decide)]; exact hb))

/-! ## Parts of commands -/

theorem clamp_unit (x : Rat) : 0 ≤ clamp x 0 1 ∧ clamp x 0 1 ≤ 1 := ⟨clamp_lo (by norm_num), clamp_hi _ _ _⟩

theorem Dest.lo_le_hi (d : Dest) : Dest.lo d ≤ Dest.hi d := by cases d <;> norm_num [Dest.lo, Dest.hi]

theorem RouterStep.putScalar (r : Router) (c : ScalarSource) (x : Rat) : RouterStep r (r.putScalar c x) := by
  cases c
  · exact .scalar _ _ fun _ => clamp_unit x
  · exact .scalar _ _ fun _ => clamp_unit x
  · exact .scalar _ _ fun h => by simp at h
  · exact .scalar _ _ fun h => by simp at h

theorem setPitch_step {file : Vector (Option Rat) 25} {w w' : Voice} (h : w.setPitch m file = .ok w') :
    VoiceStep m w w' := by
  unfold Voice.setPitch at h
  split at h
  · cases h; exact .refl _
  · simp only [bind_eq_ok, Except.ok.injEq] at h
    obtain ⟨_, _, _, _, _, _, o, ho, rfl⟩ := h
    exact .osc (.freq ho)

theorem noteOn_step {file : Vector (Option Rat) 25} {note : Fin 128} {x : Rat} {n n' : Nat} {w w' : Voice}
    (h : w.noteOn m file note x n = .ok (n', w')) : VoiceStep m w w' := by
  simp only [Voice.noteOn, bind_eq_ok, Except.ok.injEq, Prod.mk.injEq] at h
  obtain ⟨u, hu, -, rfl⟩ := h
  have h1 : VoiceStep m w { w with
      note := some note, vel := clamp x 0 1, playing := true, tailOff := false
      router := w.router.setScalar .velocity (clamp x 0 1) } :=
    (VoiceStep.start w note _ (clamp_unit x)).trans (.router (.scalar _ _ fun _ => clamp_unit x))
  have h2 : ∃ o, u = { w with
      note := some note, vel := clamp x 0 1, osc := o
      router := w.router.setScalar .velocity (clamp x 0 1) } ∧ OscStep m w.osc o := by
    simp only [Voice.setPitch, bind_eq_ok, Except.ok.injEq] at hu
    obtain ⟨_, _, _, _, _, _, o, ho, rfl⟩ := hu
    exact ⟨o, rfl, .freq ho⟩
  obtain ⟨o, rfl, ho⟩ := h2
  simp only [Voice.setEnv_setEnv, Voice.setLfo_setLfo]
  exact ((h1.trans (.osc ho)).trans (.envs .noteOn .noteOn)).trans (.lfos (.rewind _) (.rewind _))

theorem free_step (w : Voice) : VoiceStep m w w.free :=
  (VoiceStep.envs .idle .idle).trans (.stop _)

theorem noteOff_step {allow : Bool} {w w' : Voice} (h : w.noteOff m allow = .ok w') : VoiceStep m w w' := by
  unfold Voice.noteOff at h
  split at h
  · rename_i hp
    split at h
    · simp only [bind_eq_ok, Except.ok.injEq] at h
      obtain ⟨e0, h0, e1, h1, rfl⟩ := h
      exact (VoiceStep.envs (.noteOff h0) (.noteOff h1)).trans (.tail hp)
    · cases h; exact free_step w
  · cases h; exact .refl _

theorem pitchBend_step {file : Vector (Option Rat) 25} {x : Rat} {w w' : Voice}
    (h : w.pitchBend m file x = .ok w') : VoiceStep m w w' :=
  ((VoiceStep.bend w x).trans (.router (.scalar .pitchbend x fun h => by simp at h))).trans (setPitch_step h)

theorem modWheel_step (x : Rat) (w : Voice) : VoiceStep m w (w.modWheel x) :=
  (VoiceStep.wheel w _ (clamp_unit x)).trans (.router (.scalar .modwheel _ fun _ => clamp_unit x))

/-- A line of `ApplyParams` (R262) taken apart: the parameter is unset and nothing happens, or its value is applied. -/
theorem apply_eq_ok {file : Vector (Option Rat) 25} {p : Param} {f : Rat → Voice → Res Voice} {w w' : Voice} :
    w.apply file p f = .ok w' ↔
      (paramGet file p = none ∧ w' = w) ∨ ∃ x, paramGet file p = some x ∧ f x w = .ok w' := by
  unfold Voice.apply
  cases paramGet file p <;> simp [eq_comm]

theorem apply_step {file : Vector (Option Rat) 25} {p : Param} {f : Rat → Voice → Res Voice} {w w' : Voice}
    (h : w.apply file p f = .ok w') (hf : ∀ x, f x w = .ok w' → VoiceStep m w w') : VoiceStep m w w' := by
  rcases apply_eq_ok.1 h with ⟨_, rfl⟩ | ⟨x, _, h⟩
  · exact .refl _
  · exact hf x h

theorem onEnv_step {i : Fin 2} {f : Rat → Env → Res Env} {x : Rat} {w w' : Voice}
    (h : Voice.onEnv i f x w = .ok w') (hf : ∀ e, f x w.env[i] = .ok e → EnvStep m w.env[i] e) :
    VoiceStep m w w' := by
  simp only [Voice.onEnv, bind_eq_ok, Except.ok.injEq] at h
  obtain ⟨e, he, rfl⟩ := h
  exact .env i (hf e he)

theorem lfoRate_step {i : Fin 2} {x : Rat} {w w' : Voice} (h : Voice.lfoRate m i x w = .ok w') :
    VoiceStep m w w' := by
  simp only [Voice.lfoRate, bind_eq_ok, Except.ok.injEq] at h
  obtain ⟨l, hl, rfl⟩ := h
  exact .lfo i (.freq hl)

theorem lfoWave_step {i : Fin 2} {x : Rat} {w w' : Voice} (h : Voice.lfoWave i x w = .ok w') :
    VoiceStep m w w' := by
  cases h; exact .lfo i (.wave _)

theorem toCutoff_step {s : Source} {x : Rat} {w w' : Voice} (h : Voice.toCutoff s x w = .ok w') :
    VoiceStep m w w' := by
  cases h; exact .router (.conn _ _ _)

theorem toBase_step {d : Dest} {x : Rat} {w w' : Voice} (h : Voice.toBase d x w = .ok w') :
    VoiceStep m w w' := by
  cases h; exact .router (.base _ _)

theorem applyParams_step {file : Vector (Option Rat) 25} {w w' : Voice} (h : w.applyParams m file = .ok w') :
    VoiceStep m w w' := by
  simp only [Voice.applyParams, bind_eq_ok] at h
  obtain ⟨a1, h1, a2, h2, a3, h3, a4, h4, a5, h5, a6, h6, a7, h7, a8, h8, a9, h9, a10, h10, a11, h11, a12, h12,
    a13, h13, a14, h14, a15, h15, a16, h16, a17, h17, a18, h18, a19, h19, a20, h20, a21, h21, a22, h22, h23⟩ := h
  refine .trans (apply_step h1 fun x h => by cases h; exact .osc (.wave _)) (.trans (setPitch_step h2) ?_)
  refine .trans (apply_step h3 fun _ => toBase_step) (.trans (apply_step h4 fun _ => toBase_step) ?_)
  refine .trans (apply_step h5 fun x h => ?_) (.trans (apply_step h6 fun x h => by cases h; exact .flt (.drv _)) ?_)
  · simp only [bind_eq_ok, Except.ok.injEq] at h
    obtain ⟨f, hf, rfl⟩ := h
    exact .flt (.res hf)
  refine .trans (apply_step h7 fun _ => toCutoff_step) ?_
  refine .trans (apply_step h8 fun _ h => onEnv_step h fun _ => .atk) ?_
  refine .trans (apply_step h9 fun _ h => onEnv_step h fun _ => .dec) ?_
  refine .trans (apply_step h10 fun _ h => onEnv_step h fun _ => .sus) ?_
  refine .trans (apply_step h11 fun _ h => onEnv_step h fun _ => .rel) ?_
  refine .trans (apply_step h12 fun _ h => onEnv_step h fun _ => .atk) ?_
  refine .trans (apply_step h13 fun _ h => onEnv_step h fun _ => .dec) ?_
  refine .trans (apply_step h14 fun _ h => onEnv_step h fun _ => .sus) ?_
  refine .trans (apply_step h15 fun _ h => onEnv_step h fun _ => .rel) ?_
  refine .trans (apply_step h16 fun _ => lfoRate_step) (.trans (apply_step h17 fun _ => lfoWave_step) ?_)
  refine .trans (apply_step h18 fun _ => toCutoff_step) ?_
  refine .trans (apply_step h19 fun _ => lfoRate_step) (.trans (apply_step h20 fun _ => lfoWave_step) ?_)
  refine .trans (apply_step h21 fun _ => toCutoff_step) (.trans (apply_step h22 fun _ => toCutoff_step) ?_)
  exact apply_step h23 fun _ => toCutoff_step

/-- A modulated value lies in its destination's range (R229, R232). -/
theorem evalDest_mem {w : Voice} {d : Dest} {c : Option Rat} (h : w.evalDest m d = .ok c) {q : Rat}
    (hq : c = some q) : Dest.lo d ≤ q ∧ q ≤ Dest.hi d := by
  unfold Voice.evalDest at h
  split at h
  · cases h; cases hq
  · simp only [bind_eq_ok, Except.ok.injEq] at h
    obtain ⟨acc, _, rfl⟩ := h
    cases hq
    exact ⟨clamp_lo (Dest.lo_le_hi d), clamp_hi _ _ _⟩

/-- `Evaluate()` (R229) taken apart. -/
theorem evaluate_eq_ok {w w' : Voice} : w.evaluate m = .ok w' ↔
    ∃ c r p l t, w.evalDest m .cutoff = .ok c ∧ w.evalDest m .resonance = .ok r ∧ w.evalDest m .pwm = .ok p ∧
      w.evalDest m .level = .ok l ∧ w.evalDest m .pitch = .ok t ∧
      w' = { w with router := { w.router with mod := #v[c, r, p, l, t] } } := by
  simp only [Voice.evaluate, bind_eq_ok, Except.ok.injEq]
  constructor
  · rintro ⟨c, hc, r, hr, p, hp, l, hl, t, ht, rfl⟩
    exact ⟨c, r, p, l, t, hc, hr, hp, hl, ht, rfl⟩
  · rintro ⟨c, r, p, l, t, hc, hr, hp, hl, ht, rfl⟩
    exact ⟨c, hc, r, hr, p, hp, l, hl, t, ht, rfl⟩

theorem evaluate_step {w w' : Voice} (h : w.evaluate m = .ok w') : VoiceStep m w w' := by
  obtain ⟨c, r, p, l, t, hc, hr, hp, hl, ht, rfl⟩ := evaluate_eq_ok.1 h
  refine .router (.mod _ fun d q hq => ?_)
  cases d
  · exact evalDest_mem hc hq
  · exact evalDest_mem hr hq
  · exact evalDest_mem hp hq
  · exact evalDest_mem hl hq
  · exact evalDest_mem ht hq

theorem evaluateN_step {n : Nat} {w w' : Voice} (h : w.evaluateN m n = .ok w') : VoiceStep m w w' := by
  induction n generalizing w with
  | zero => cases h; exact .refl _
  | succ n ih =>
    rw [Voice.evaluateN, bind_eq_ok] at h
    obtain ⟨u, hu, h⟩ := h
    exact (evaluate_step hu).trans (ih h)

theorem resetMod_step (r : Router) : RouterStep r r.resetMod := by
  refine .mod _ fun d q hq => ?_
  have key : ∀ (d : Dest), ((r.base[d.idx]).map fun b => clamp b (Dest.lo d) (Dest.hi d)) = some q →
      Dest.lo d ≤ q ∧ q ≤ Dest.hi d := by
    intro d h
    obtain ⟨b, _, rfl⟩ := Option.map_eq_some_iff.1 h
    exact ⟨clamp_lo (Dest.lo_le_hi d), clamp_hi _ _ _⟩
  cases d <;> exact key _ hq

theorem processBlock_step {n : Nat} {w w' : Voice} (h : w.processBlock m n = .ok w') : VoiceStep m w w' :=
  (VoiceStep.router (resetMod_step _)).trans (evaluateN_step h)

theorem processFrom_step {len : Option (Fin 65536)} {n i : Nat} {w : Voice} {g : Flt} {b c : Memory}
    (h : w.flt.processFrom m len n i b = .ok (g, c)) : VoiceStep m w { w with flt := g } := by
  induction n generalizing i w b with
  | zero => cases h; exact .refl _
  | succ n ih =>
    obtain ⟨x, y, f', b', _, hs, _, h⟩ := Flt.processFrom_succ.1 h
    exact (VoiceStep.flt (.sample hs)).trans (ih (w := { w with flt := f' }) h)

theorem process_step {len : Option (Fin 65536)} {n i : Nat} {w : Voice} {g : Flt} {b c : Memory}
    (h : w.flt.process m len i n b = .ok (g, c)) : VoiceStep m w { w with flt := g } := by
  unfold Flt.process at h
  split at h
  · cases h
  · exact processFrom_step h

theorem lfo_advanceN_step {k n n' : Nat} {w : Voice} {i : Fin 2} {l : Lfo}
    (h : w.lfo[i].advanceN m k n = .ok (n', l)) : VoiceStep m w (w.setLfo i l) := by
  have key : ∀ (k n : Nat) (w : Voice), w.lfo[i].advanceN m k n = .ok (n', l) →
      ∀ u : Voice, (∀ x, w.setLfo i x = u.setLfo i x) → VoiceStep m u w → VoiceStep m u (u.setLfo i l) := by
    intro k
    induction k with
    | zero =>
      intro n w h u hu hs
      cases h
      rw [← hu]
      have : w.setLfo i w.lfo[i] = w := by simp [Voice.setLfo]
      rw [this]; exact hs
    | succ k ih =>
      intro n w h u hu hs
      rw [Lfo.advanceN, bind_eq_ok] at h
      obtain ⟨⟨n1, l1⟩, h1, h⟩ := h
      refine ih n1 (w.setLfo i l1) (by rw [Voice.setLfo_get, if_pos rfl]; exact h) u (fun x => ?_)
        (hs.trans (.lfo i (.advance h1)))
      rw [← hu]
      simp [Voice.setLfo]
  exact key k n w h w (fun _ => rfl) (.refl w)

theorem lfo_skip_step {k n n' : Nat} {w : Voice} {i : Fin 2} {l : Lfo}
    (h : w.lfo[i].skip m k n = .ok (n', l)) : VoiceStep m w (w.setLfo i l) := by
  unfold Lfo.skip at h
  split at h
  · cases h
  · exact lfo_advanceN_step h

/-- The units' part of one sample (R265) taken apart. -/
theorem chain_eq_ok {n n' : Nat} {w w' : Voice} {y a : Rat} :
    w.chain m n = .ok (y, a, n', w') ↔
      ∃ out osc e0 x1 e1 x2 d0 l0 x3 l1 u c f g, w.osc.proc m = .ok (out, osc) ∧
        w.env[0].tick m = .ok (a, e0) ∧ w.env[1].tick m = .ok (x1, e1) ∧
        w.lfo[0].next m n = .ok (x2, d0, l0) ∧ w.lfo[1].next m d0 = .ok (x3, n', l1) ∧
        Voice.processBlock m 1 { w with osc := osc, env := #v[e0, e1], lfo := #v[l0, l1] } = .ok u ∧
        u.router.mod[Dest.cutoff.idx] = some c ∧ u.flt.setCut m c = .ok f ∧ f.sample m out = .ok (y, g) ∧
        w' = { u with flt := g } := by
  simp only [Voice.chain, bind_eq_ok, readOpt_eq_ok, Except.ok.injEq, Prod.mk.injEq, Prod.exists]
  constructor
  · rintro ⟨out, osc, ho, a, e0, he0, x1, e1, he1, x2, d0, l0, hl0, x3, d1, l1, hl1, u, hu, c, hc, f, hf, y, g, hg,
      rfl, rfl, rfl, rfl⟩
    exact ⟨out, osc, e0, x1, e1, x2, d0, l0, x3, l1, u, c, f, g, ho, he0, he1, hl0, hl1, hu, hc, hf, hg, rfl⟩
  · rintro ⟨out, osc, e0, x1, e1, x2, d0, l0, x3, l1, u, c, f, g, ho, he0, he1, hl0, hl1, hu, hc, hf, hg, rfl⟩
    exact ⟨out, osc, ho, a, e0, he0, x1, e1, he1, x2, d0, l0, hl0, x3, n', l1, hl1, u, hu, c, hc, f, hf, y, g, hg,
      rfl, rfl, rfl, rfl⟩

theorem chain_step {n n' : Nat} {w w' : Voice} {y a : Rat} (h : w.chain m n = .ok (y, a, n', w')) :
    VoiceStep m w w' := by
  obtain ⟨out, osc, e0, x1, e1, x2, d0, l0, x3, l1, u, c, f, g, ho, he0, he1, hl0, hl1, hu, hc, hf, hg, rfl⟩ :=
    chain_eq_ok.1 h
  refine .trans (.osc (.proc ho)) (.trans (.envs (.tick he0) (.tick he1))
    (.trans (.lfos (.next hl0) (.next hl1)) (.trans (processBlock_step hu) ?_)))
  exact .trans (.flt (.cut hf)) (.flt (w := { u with flt := f }) (.sample hg))

theorem renderFrom_step {file : Vector (Option Rat) 25} {len : Option (Fin 65536)} {n i d d' : Nat} {w w' : Voice}
    {b c : Memory} (h : Voice.renderFrom m file len n i d w b = .ok (d', w', c)) : VoiceStep m w w' := by
  induction n generalizing i d w b with
  | zero => cases h; exact .refl _
  | succ n ih =>
    obtain ⟨y, a, e, u, x, old, sum, b', hc, _, _, _, _, h⟩ := Voice.renderFrom_succ.1 h
    exact (chain_step hc).trans (ih h)

theorem endOfRender_step (w : Voice) : VoiceStep m w w.endOfRender := by
  unfold Voice.endOfRender
  split
  · exact free_step w
  · exact .refl w

theorem render_step {file : Vector (Option Rat) 25} {len : Option (Fin 65536)} {start n d d' : Nat} {w w' : Voice}
    {b c : Memory} (h : w.render m file len start n d b = .ok (d', w', c)) : VoiceStep m w w' := by
  obtain ⟨u, hu, ⟨_, w1, hr, rfl⟩ | ⟨_, _, rfl, _⟩⟩ := Voice.render_eq_ok.1 h
  · exact ((applyParams_step hu).trans (renderFrom_step hr)).trans (endOfRender_step w1)
  · exact applyParams_step hu

/-- The six sample-rate setters of R281 taken apart. -/
theorem setRates_eq_ok {imm : Imm} {x : Rat} {w w' : Voice} :
    w.setRates m imm x = .ok w' ↔
      ∃ o e0 e1 l0 l1 f, w.osc.setSr m imm x = .ok o ∧ w.env[0].setSr m imm x = .ok e0 ∧
        w.env[1].setSr m imm x = .ok e1 ∧ w.lfo[0].setSr m imm x = .ok l0 ∧ w.lfo[1].setSr m imm x = .ok l1 ∧
        w.flt.setSr m imm x = .ok f ∧ w' = { w with osc := o, env := #v[e0, e1], lfo := #v[l0, l1], flt := f } := by
  simp only [Voice.setRates, bind_eq_ok, Except.ok.injEq]
  constructor
  · rintro ⟨o, ho, e0, h0, e1, h1, l0, h2, l1, h3, f, hf, rfl⟩
    exact ⟨o, e0, e1, l0, l1, f, ho, h0, h1, h2, h3, hf, rfl⟩
  · rintro ⟨o, e0, e1, l0, l1, f, ho, h0, h1, h2, h3, hf, rfl⟩
    exact ⟨o, ho, e0, h0, e1, h1, l0, h2, l1, h3, f, hf, rfl⟩

theorem setRates_step {imm : Imm} {x : Rat} {w w' : Voice} (h : w.setRates m imm x = .ok w') : VoiceStep m w w' := by
  obtain ⟨o, e0, e1, l0, l1, f, ho, h0, h1, h2, h3, hf, rfl⟩ := setRates_eq_ok.1 h
  exact .trans (.osc (.sr ho)) (.trans (.envs (.sr h0) (.sr h1)) (.trans (.lfos (.sr h2) (.sr h3)) (.flt (.sr hf))))

/-! ## The engine's loops over the voices -/

theorem set_get (vs : Vector Voice 8) (v u : Fin 8) (w : Voice) : (vs.set v w)[u] = if u = v then w else vs[u] := by
  have : (v.val = u.val) ↔ u = v := by rw [Fin.ext_iff]; exact eq_comm
  simp [Vector.getElem_set, this]

theorem prepareVoices_step {imm : Imm} {x : Rat} {l : List (Fin 8)} {vs vs' : Vector Voice 8}
    (h : prepareVoices m imm x l vs = .ok vs') (u : Fin 8) : VoiceStep m vs[u] vs'[u] := by
  induction l generalizing vs with
  | nil => cases h; exact .refl _
  | cons v rest ih =>
    rw [prepareVoices, bind_eq_ok] at h
    obtain ⟨w, hw, h⟩ := h
    refine .trans ?_ (ih h)
    rw [set_get]
    split
    · rename_i hu; subst hu; exact setRates_step hw
    · exact .refl _

theorem releaseVoices_step {note : Fin 128} {l : List (Fin 8)} {vs vs' : Vector Voice 8}
    (h : releaseVoices m note l vs = .ok vs') (u : Fin 8) : VoiceStep m vs[u] vs'[u] := by
  induction l generalizing vs with
  | nil => cases h; exact .refl _
  | cons v rest ih =>
    unfold releaseVoices at h
    split at h
    · rw [bind_eq_ok] at h
      obtain ⟨w, hw, h⟩ := h
      refine .trans ?_ (ih h)
      rw [set_get]
      split
      · rename_i hu; subst hu; exact noteOff_step hw
      · exact .refl _
    · exact ih h

theorem renderVoices_step {file : Vector (Option Rat) 25} {len : Option (Fin 65536)} {start n : Nat}
    {l : List (Fin 8)} {d d' : Nat} {vs vs' : Vector Voice 8} {b c : Memory}
    (h : renderVoices m file len start n l d vs b = .ok (d', vs', c)) (u : Fin 8) : VoiceStep m vs[u] vs'[u] := by
  induction l generalizing d vs b with
  | nil => cases h; exact .refl _
  | cons v rest ih =>
    rw [renderVoices, bind_eq_ok] at h
    obtain ⟨⟨e, w, b1⟩, hr, h⟩ := h
    refine .trans ?_ (ih h)
    rw [set_get]
    split
    · rename_i hu; subst hu; exact render_step hr
    · exact .refl _

/-! ## Commands and steps -/

theorem setVoice_step {s : State} {v : Fin 8} {w : Voice} (h : VoiceStep m s.voices[v] w) (u : Fin 8) :
    VoiceStep m s.voices[u] (s.setVoice v w).voices[u] := by
  rw [State.setVoice_get]
  split
  · rename_i hu; subst hu; exact h
  · exact .refl _

/-- Every command takes every voice by unit operations. -/
theorem Effect.voiceStep {i : Instr} {s t : State} {r : Response} (h : Effect i s r t) (u : Fin 8) :
    VoiceStep s.num s.voices[u] t.voices[u] := by
  cases h
  case oscSetfreq hx h => exact setVoice_step (.osc (.freq h)) u
  case oscSetsr hx h => exact setVoice_step (.osc (.sr h)) u
  case oscSetwave => exact setVoice_step (.osc (.wave _)) u
  case oscProc h => exact setVoice_step (.osc (.proc h)) u
  case envNoteon => exact setVoice_step (.env _ .noteOn) u
  case envNoteoff h => exact setVoice_step (.env _ (.noteOff h)) u
  case envSetatk hx h => exact setVoice_step (.env _ (.atk h)) u
  case envSetdec hx h => exact setVoice_step (.env _ (.dec h)) u
  case envSetsus hx h => exact setVoice_step (.env _ (.sus h)) u
  case envSetrel hx h => exact setVoice_step (.env _ (.rel h)) u
  case envSetsr hx h => exact setVoice_step (.env _ (.sr h)) u
  case envTick h => exact setVoice_step (.env _ (.tick h)) u
  case lfoSetfreq hx h => exact setVoice_step (.lfo _ (.freq h)) u
  case lfoSetsr hx h => exact setVoice_step (.lfo _ (.sr h)) u
  case lfoSetwave => exact setVoice_step (.lfo _ (.wave _)) u
  case lfoSetbip => exact setVoice_step (.lfo _ (.bipolar _)) u
  case lfoNext h => exact setVoice_step (.lfo _ (.next h)) u
  case lfoSkip h => exact setVoice_step (lfo_skip_step h) u
  case lfoReset => exact setVoice_step (.lfo _ (.rewind _)) u
  case fltSetsr hx h => exact setVoice_step (.flt (.sr h)) u
  case fltSetcut hx h => exact setVoice_step (.flt (.cut h)) u
  case fltSetres hx h => exact setVoice_step (.flt (.res h)) u
  case fltSetdrv hx => exact setVoice_step (.flt (.drv _)) u
  case fltProc1 hx h => exact setVoice_step (.flt (.sample h)) u
  case fltProcbuf h => exact setVoice_step (process_step h) u
  case fltReset => exact setVoice_step (.flt .clear) u
  case modAdd hx => exact setVoice_step (.router (.conn _ _ _)) u
  case modRemove => exact setVoice_step (.router (.conn _ _ _)) u
  case modClear => exact setVoice_step (.router .clear) u
  case modSetbase hx => exact setVoice_step (.router (.base _ _)) u
  case modProcblk h => exact setVoice_step (processBlock_step h) u
  case modSetscalar hx => exact setVoice_step (.router (.putScalar _ _ _)) u
  case modRegister => exact setVoice_step (.router (.registered _ _)) u
  case voiceNoteon hx h => exact setVoice_step (noteOn_step h) u
  case voiceNoteoff h => exact setVoice_step (noteOff_step h) u
  case voiceRender h => exact setVoice_step (render_step h) u
  case voicePitchbend hx h => exact setVoice_step (pitchBend_step h) u
  case voiceModwheel hx => exact setVoice_step (modWheel_step _ _) u
  case engPrepare hx h =>
    obtain ⟨_, _, _, _, _, hv, rfl⟩ := prepare_ok h
    exact prepareVoices_step hv u
  case engNoteon hx h => exact setVoice_step (noteOn_step h) u
  case engNoteoff h => exact releaseVoices_step h u
  case engRender h => exact renderVoices_step h u
  all_goals exact .refl _

/-- Every step takes every voice by unit operations. -/
theorem step_voiceStep {s t : State} (h : step s = .next t) (u : Fin 8) :
    VoiceStep s.num s.voices[u] t.voices[u] := by
  rcases step_next h with rfl | ⟨e, rfl⟩ | ⟨i, hi⟩
  · exact .refl _
  · exact .refl _
  · rcases exec_next hi with ⟨r, t, hE, rfl⟩ | ⟨e, rfl⟩
    · exact hE.voiceStep u
    · exact .refl _

/-- No step changes the number domain. -/
theorem step_num {s t : State} (h : step s = .next t) : t.num = s.num := by
  rcases step_next h with rfl | ⟨e, rfl⟩ | ⟨i, hi⟩
  · rfl
  · rfl
  · rcases exec_next hi with ⟨r, t, hE, rfl⟩ | ⟨e, rfl⟩
    · exact hE.frame.2.2.1
    · rfl

end Sys2Proof.Machine
end

