-- ==== Sys2Proof/Laws/Params.lean ====
section
/-! SUPPORT. `ApplyParams` (R262) taken apart by unit: each unit's registers come from that unit's lines alone. -/

namespace Sys2Proof.Machine

variable {m : NumInst} {file : Vector (Option Rat) 25} {α : Type}

/-- A line that runs only if its parameter holds a value, on one unit. -/
def optLine (o : Option Rat) (f : Rat → α → Res α) (a : α) : Res α :=
  match o with
  | none => .ok a
  | some x => f x a

@[simp] theorem optLine_none (f : Rat → α → Res α) (a : α) : optLine none f a = .ok a := rfl
@[simp] theorem optLine_some (x : Rat) (f : Rat → α → Res α) (a : α) : optLine (some x) f a = f x a := rfl

/-- The oscillator's lines: the waveform, then the pitch of the voice's note. -/
def paramOsc (m : NumInst) (file : Vector (Option Rat) 25) (note : Option (Fin 128)) (bend : Rat) (o : Osc) : Res Osc :=
  let o1 := { o with wave := ((paramGet file .oscWaveform).map oscChoice).getD o.wave }
  match note with
  | none => .ok o1
  | some note => do
    let a ← numAdd m ((note.val : Nat) : Rat) ((paramGet file .oscTune).getD 0)
    let x ← numAdd m a bend
    let hz ← noteHz m x
    o1.setFreq m hz

/-- The filter's lines. -/
def paramFlt (m : NumInst) (file : Vector (Option Rat) 25) (f : Flt) : Res Flt := do
  let f1 ← optLine (paramGet file .fltResonance) (Flt.setRes m) f
  .ok { f1 with drive := ((paramGet file .fltDrive).map fun x => max x 0).or f1.drive }

/-- One envelope's lines, with its four parameters. -/
def paramEnv (m : NumInst) (atk dec sus rel : Option Rat) (e : Env) : Res Env := do
  let e ← optLine atk (Env.setAtk m) e
  let e ← optLine dec (Env.setDec m) e
  let e ← optLine sus (Env.setSus m) e
  optLine rel (Env.setRel m) e

/-- One LFO's lines, with its two parameters. -/
def paramLfo (m : NumInst) (rate wave : Option Rat) (l : Lfo) : Res Lfo := do
  let l ← optLine rate (Lfo.setFreq m) l
  .ok { l with wave := (wave.map lfoChoice).or l.wave }

/-- A base value from a parameter. -/
def Router.optBase (r : Router) (d : Dest) (o : Option Rat) : Router :=
  match o with
  | none => r
  | some x => r.setBase d x

/-- A connection into CUTOFF from a parameter. -/
def Router.optConn (r : Router) (s : Source) (o : Option Rat) : Router :=
  match o with
  | none => r
  | some x => r.setConn s .cutoff (some x)

/-- The router's lines. -/
def paramRouter (file : Vector (Option Rat) 25) (r : Router) : Router :=
  ((((((r.optBase .pwm (paramGet file .oscPwm)).optBase .cutoff (paramGet file .fltCutoff)).optConn (.obj .env2)
    (paramGet file .fltEnvAmount)).optConn (.obj .lfo1) (paramGet file .lfo1ToFilter)).optConn (.obj .lfo2)
    (paramGet file .lfo2ToFilter)).optConn (.scalar .modwheel) (paramGet file .modwheelAmount)).optConn
    (.scalar .velocity) (paramGet file .velToFilter)

/-! ## Each line on its unit -/

theorem ok_iff_eq (a b : α) : (Except.ok a : Res α) = .ok b ↔ b = a := by rw [Except.ok.injEq, eq_comm]

theorem bind_ok_iff {β : Type} (x : Res α) (f : α → β) (b : β) :
    (do let a ← x; .ok (f a)) = (.ok b : Res β) ↔ ∃ a, x = .ok a ∧ b = f a := by
  rw [bind_eq_ok]
  exact exists_congr fun a => and_congr_right fun _ => ok_iff_eq _ _

theorem apply_wave {w w' : Voice} :
    (w.apply file .oscWaveform fun x w => .ok { w with osc := { w.osc with wave := oscChoice x } }) = .ok w' ↔
      w' = { w with
        osc := { w.osc with wave := ((paramGet file .oscWaveform).map oscChoice).getD w.osc.wave } } := by
  unfold Voice.apply
  cases paramGet file .oscWaveform <;> exact ok_iff_eq _ _

theorem setPitch_eq_ok {w w' : Voice} :
    w.setPitch m file = .ok w' ↔
      ∃ o, (match w.note with
        | none => .ok w.osc
        | some note => do
          let a ← numAdd m ((note.val : Nat) : Rat) ((paramGet file .oscTune).getD 0)
          let x ← numAdd m a w.bend
          let hz ← noteHz m x
          w.osc.setFreq m hz) = (.ok o : Res Osc) ∧ w' = { w with osc := o } := by
  unfold Voice.setPitch
  cases hn : w.note
  · simp only [Except.ok.injEq, exists_eq_left']
    rw [eq_comm, ← hn]
  · simp only [bind_eq_ok, Except.ok.injEq]
    constructor
    · rintro ⟨a, ha, x, hx, hz, hh, o, ho, rfl⟩
      exact ⟨o, ⟨a, ha, x, hx, hz, hh, ho⟩, by rw [← hn]⟩
    · rintro ⟨o, ⟨a, ha, x, hx, hz, hh, ho⟩, rfl⟩
      exact ⟨a, ha, x, hx, hz, hh, o, ho, by rw [← hn]⟩

theorem apply_base {p : Param} {d : Dest} {w w' : Voice} :
    w.apply file p (Voice.toBase d) = .ok w' ↔ w' = { w with router := w.router.optBase d (paramGet file p) } := by
  unfold Voice.apply
  cases paramGet file p <;> exact ok_iff_eq _ _

theorem apply_conn {p : Param} {s : Source} {w w' : Voice} :
    w.apply file p (Voice.toCutoff s) = .ok w' ↔
      w' = { w with router := w.router.optConn s (paramGet file p) } := by
  unfold Voice.apply
  cases paramGet file p <;> exact ok_iff_eq _ _

theorem apply_res {w w' : Voice} :
    (w.apply file .fltResonance fun x w => do
      let f ← w.flt.setRes m x
      .ok { w with flt := f }) = .ok w' ↔
      ∃ f, optLine (paramGet file .fltResonance) (Flt.setRes m) w.flt = .ok f ∧ w' = { w with flt := f } := by
  unfold Voice.apply
  cases paramGet file .fltResonance with
  | none => simp only [optLine_none, Except.ok.injEq, exists_eq_left']; exact eq_comm
  | some x => exact bind_ok_iff _ _ _

theorem apply_drive {w w' : Voice} :
    (w.apply file .fltDrive fun x w => .ok { w with flt := w.flt.setDrv x }) = .ok w' ↔
      w' = { w with
        flt := { w.flt with drive := ((paramGet file .fltDrive).map fun x => max x 0).or w.flt.drive } } := by
  unfold Voice.apply
  cases paramGet file .fltDrive <;> exact ok_iff_eq _ _

theorem apply_env {p : Param} {i : Fin 2} {f : Rat → Env → Res Env} {w w' : Voice} :
    w.apply file p (Voice.onEnv i f) = .ok w' ↔
      ∃ e, optLine (paramGet file p) f w.env[i] = .ok e ∧ w' = w.setEnv i e := by
  unfold Voice.apply
  cases paramGet file p with
  | none => simp only [optLine_none, Except.ok.injEq, exists_eq_left', Voice.setEnv_self]; exact eq_comm
  | some x => exact bind_ok_iff _ _ _

theorem apply_rate {p : Param} {i : Fin 2} {w w' : Voice} :
    w.apply file p (Voice.lfoRate m i) = .ok w' ↔
      ∃ l, optLine (paramGet file p) (Lfo.setFreq m) w.lfo[i] = .ok l ∧ w' = w.setLfo i l := by
  unfold Voice.apply
  cases paramGet file p with
  | none => simp only [optLine_none, Except.ok.injEq, exists_eq_left', Voice.setLfo_self]; exact eq_comm
  | some x => exact bind_ok_iff _ _ _

theorem apply_lfoWave {p : Param} {i : Fin 2} {w w' : Voice} :
    w.apply file p (Voice.lfoWave i) = .ok w' ↔
      w' = w.setLfo i { w.lfo[i] with wave := ((paramGet file p).map lfoChoice).or w.lfo[i].wave } := by
  unfold Voice.apply
  cases paramGet file p with
  | none => rw [ok_iff_eq]; exact iff_of_eq (congrArg (w' = ·) (Voice.setLfo_self w i).symm)
  | some x => exact ok_iff_eq _ _

/-! ## The whole -/

theorem Voice.setEnv_eq0 (w : Voice) (e : Env) : w.setEnv 0 e = { w with env := #v[e, w.env[1]] } := by
  rw [← Voice.setEnv_setEnv, ← show (w.setEnv 0 e).env[(1 : Fin 2)] = w.env[1] by
    rw [Voice.setEnv_get, if_neg (by decide)]; rfl, Voice.setEnv_self]

theorem Voice.setEnv_eq1 (w : Voice) (e : Env) : w.setEnv 1 e = { w with env := #v[w.env[0], e] } := by
  rw [← Voice.setEnv_setEnv, show w.setEnv 0 w.env[0] = w from Voice.setEnv_self w 0]

theorem Voice.setLfo_eq0 (w : Voice) (l : Lfo) : w.setLfo 0 l = { w with lfo := #v[l, w.lfo[1]] } := by
  rw [← Voice.setLfo_setLfo, ← show (w.setLfo 0 l).lfo[(1 : Fin 2)] = w.lfo[1] by
    rw [Voice.setLfo_get, if_neg (by decide)]; rfl, Voice.setLfo_self]

theorem Voice.setLfo_eq1 (w : Voice) (l : Lfo) : w.setLfo 1 l = { w with lfo := #v[w.lfo[0], l] } := by
  rw [← Voice.setLfo_setLfo, show w.setLfo 0 w.lfo[0] = w from Voice.setLfo_self w 0]

/-- `ApplyParams` unit by unit. -/
theorem applyParams_eq_ok {w w' : Voice} :
    w.applyParams m file = .ok w' ↔
      ∃ o f e0 e1 l0 l1, paramOsc m file w.note w.bend w.osc = .ok o ∧ paramFlt m file w.flt = .ok f ∧
        paramEnv m (paramGet file .ampAttack) (paramGet file .ampDecay) (paramGet file .ampSustain)
          (paramGet file .ampRelease) w.env[0] = .ok e0 ∧
        paramEnv m (paramGet file .fenvAttack) (paramGet file .fenvDecay) (paramGet file .fenvSustain)
          (paramGet file .fenvRelease) w.env[1] = .ok e1 ∧
        paramLfo m (paramGet file .lfo1Rate) (paramGet file .lfo1Waveform) w.lfo[0] = .ok l0 ∧
        paramLfo m (paramGet file .lfo2Rate) (paramGet file .lfo2Waveform) w.lfo[1] = .ok l1 ∧
        w' = { w with
          osc := o, flt := f, env := #v[e0, e1], lfo := #v[l0, l1], router := paramRouter file w.router } := by
  simp only [Voice.applyParams, bind_eq_ok, apply_wave, setPitch_eq_ok, apply_base, apply_conn, apply_res,
    apply_drive, apply_env, apply_rate, apply_lfoWave, paramOsc, paramFlt, paramEnv, paramLfo, Except.ok.injEq]
  constructor
  · rintro ⟨_, rfl, _, ⟨o, ho, rfl⟩, h⟩
    dsimp only at h ho
    obtain ⟨_, rfl, _, rfl, _, ⟨f, hf, rfl⟩, h⟩ := h
    dsimp only at h hf
    obtain ⟨_, rfl, _, rfl, h⟩ := h
    simp only [Voice.setEnv_eq0, Voice.setEnv_eq1, Voice.setLfo_eq0, Voice.setLfo_eq1] at h
    obtain ⟨_, ⟨a1, h1, rfl⟩, _, ⟨a2, h2, rfl⟩, h⟩ := h
    dsimp only at h h1 h2
    obtain ⟨_, ⟨a3, h3, rfl⟩, _, ⟨a4, h4, rfl⟩, h⟩ := h
    dsimp only at h h3 h4
    obtain ⟨_, ⟨b1, k1, rfl⟩, _, ⟨b2, k2, rfl⟩, h⟩ := h
    dsimp only at h k1 k2
    obtain ⟨_, ⟨b3, k3, rfl⟩, _, ⟨b4, k4, rfl⟩, h⟩ := h
    dsimp only at h k3 k4
    obtain ⟨_, ⟨l0, hl0, rfl⟩, _, rfl, _, rfl, h⟩ := h
    dsimp only at h hl0
    obtain ⟨_, ⟨l1, hl1, rfl⟩, _, rfl, _, rfl, h⟩ := h
    dsimp only at h hl1
    obtain ⟨_, rfl, rfl⟩ := h
    exact ⟨o, _, a4, b4, _, _, ho, ⟨f, hf, rfl⟩, ⟨a1, h1, a2, h2, a3, h3, h4⟩, ⟨b1, k1, b2, k2, b3, k3, k4⟩,
      ⟨l0, hl0, rfl⟩, ⟨l1, hl1, rfl⟩, rfl⟩
  · rintro ⟨o, _, a4, b4, _, _, ho, ⟨f, hf, rfl⟩, ⟨a1, h1, a2, h2, a3, h3, h4⟩, ⟨b1, k1, b2, k2, b3, k3, k4⟩,
      ⟨l0, hl0, rfl⟩, ⟨l1, hl1, rfl⟩, rfl⟩
    refine ⟨_, rfl, _, ⟨o, ho, rfl⟩, _, rfl, _, rfl, _, ⟨f, hf, rfl⟩, _, rfl, _, rfl, _, ⟨a1, h1, rfl⟩,
      _, ⟨a2, ?_, rfl⟩, _, ⟨a3, ?_, rfl⟩, _, ⟨a4, ?_, rfl⟩, _, ⟨b1, ?_, rfl⟩, _, ⟨b2, ?_, rfl⟩, _, ⟨b3, ?_, rfl⟩,
      _, ⟨b4, ?_, rfl⟩, _, ⟨l0, ?_, rfl⟩, _, rfl, _, rfl, _, ⟨l1, ?_, rfl⟩, _, rfl, _, rfl, _, rfl, ?_⟩
    all_goals simp only [Voice.setEnv_eq0, Voice.setEnv_eq1, Voice.setLfo_eq0, Voice.setLfo_eq1]
    all_goals first | assumption | rfl

/-! ## What the lines leave in each register -/

/-- Re-deriving (R134) changes the three rates alone, and re-deriving again changes nothing. -/
theorem rederive_frame {e e' : Env} (h : Env.rederive m e = .ok e') :
    Env.rederive m e' = .ok e' ∧ e'.sr = e.sr ∧ e'.atkMs = e.atkMs ∧ e'.decMs = e.decMs ∧ e'.sus = e.sus ∧
      e'.relMs = e.relMs ∧ e'.stage = e.stage ∧ e'.level = e.level ∧ e'.relFrom = e.relFrom := by
  unfold Env.rederive at h
  split at h
  · rename_i hs; cases h
    exact ⟨by unfold Env.rederive; rw [hs], rfl, rfl, rfl, rfl, rfl, rfl, rfl, rfl⟩
  · rename_i sr hs
    simp only [bind_eq_ok, Except.ok.injEq] at h
    obtain ⟨a, ha, d, hd, b, hb, r, hr, rfl⟩ := h
    refine ⟨?_, rfl, rfl, rfl, rfl, rfl, rfl, rfl, rfl⟩
    unfold Env.rederive
    simp only [hs, ha, hd, hb, hr, res_ok_bind]

theorem Router.cell_optConn (r : Router) (s t : Source) (o : Option Rat) (d : Dest) :
    (r.optConn s o).cell t d = if t = s ∧ d = .cutoff then o.or (r.cell t d) else r.cell t d := by
  cases o with
  | none => simp [Router.optConn]
  | some x => simp [Router.optConn, Router.cell_setConn]

theorem Router.base_optBase (r : Router) (d e : Dest) (o : Option Rat) :
    (r.optBase d o).base[e.idx] = if e = d then o.or r.base[e.idx] else r.base[e.idx] := by
  cases o with
  | none => simp [Router.optBase]
  | some x => simp only [Router.optBase, Router.base_setBase, Option.some_or]

@[simp] theorem Router.optBase_cell (r : Router) (d : Dest) (o : Option Rat) (s : Source) (e : Dest) :
    (r.optBase d o).cell s e = r.cell s e := by cases o <;> rfl
@[simp] theorem Router.optBase_mod (r : Router) (d : Dest) (o : Option Rat) : (r.optBase d o).mod = r.mod := by
  cases o <;> rfl
@[simp] theorem Router.optBase_scalar (r : Router) (d : Dest) (o : Option Rat) :
    (r.optBase d o).scalar = r.scalar := by cases o <;> rfl
@[simp] theorem Router.optBase_registered (r : Router) (d : Dest) (o : Option Rat) :
    (r.optBase d o).registered = r.registered := by cases o <;> rfl
@[simp] theorem Router.optConn_base (r : Router) (s : Source) (o : Option Rat) :
    (r.optConn s o).base = r.base := by cases o <;> rfl
@[simp] theorem Router.optConn_mod (r : Router) (s : Source) (o : Option Rat) : (r.optConn s o).mod = r.mod := by
  cases o <;> rfl
@[simp] theorem Router.optConn_scalar (r : Router) (s : Source) (o : Option Rat) :
    (r.optConn s o).scalar = r.scalar := by cases o <;> rfl
@[simp] theorem Router.optConn_registered (r : Router) (s : Source) (o : Option Rat) :
    (r.optConn s o).registered = r.registered := by cases o <;> rfl

end Sys2Proof.Machine
end

