-- ==== Sys2Proof/Laws/PerInstr.lean ====
section
/-! SUPPORT. One lemma per command: its word under its opcode-table row's `mask` is the row's `match` (R106). -/

set_option Elab.async false

namespace Sys2Proof.Laws.TableMatch

/-- The command's word selects the command's row of spec/opcode_table.json by `mask` and `match`. -/
def Statement (i : Instr) : Prop := encode i &&& tableMask i = tableMatch i

/-! The codes stay below their row's don't-care width. -/

theorem voiceCode_and (v : Fin 8) : voiceCode v &&& 8#4 = 0#4 := by revert v; decide
theorem instCode_and (i : Fin 2) : instCode i &&& 14#4 = 0#4 := by revert i; decide
theorem noteCode_and (n : Fin 128) : noteCode n &&& 128#8 = 0#8 := by
  apply BitVec.eq_of_toNat_eq; revert n; decide +kernel
theorem boolCode_and (b : Bool) : boolCode b &&& 254#8 = 0#8 := by cases b <;> decide
theorem oscWave_and (x : OscWave) : x.code &&& 252#8 = 0#8 := by cases x <;> decide
theorem lfoWave_and (x : LfoWave) : x.code &&& 248#8 = 0#8 := by cases x <;> decide
theorem source_and (x : Source) : x.code &&& 248#8 = 0#8 := by rcases x with x | x <;> cases x <;> decide
theorem dest_and (x : Dest) : x.code &&& 248#8 = 0#8 := by cases x <;> decide
theorem objSource_and (x : ObjSource) : x.code &&& 252#8 = 0#8 := by cases x <;> decide
theorem scalarSource_and (x : ScalarSource) : x.code &&& 252#8 = 4#8 := by cases x <;> decide
theorem param_and (x : Param) : x.code &&& 224#8 = 0#8 := by cases x <;> decide

theorem bufSt : ∀ x y, Statement (.bufSt x y) := by
  intro x y; rw [Statement, encode, Fields.word_and_eq, encodeFields, tableMask, tableMatch]; simp

theorem bufLd : ∀ x, Statement (.bufLd x) := by
  intro x; rw [Statement, encode, Fields.word_and_eq, encodeFields, tableMask, tableMatch]; simp

theorem oscSetfreq : ∀ x y, Statement (.oscSetfreq x y) := by
  intro x y; rw [Statement, encode, Fields.word_and_eq, encodeFields, tableMask, tableMatch]; simp [voiceCode_and]

theorem oscSetsr : ∀ x y, Statement (.oscSetsr x y) := by
  intro x y; rw [Statement, encode, Fields.word_and_eq, encodeFields, tableMask, tableMatch]; simp [voiceCode_and]

theorem oscSetwave : ∀ x y, Statement (.oscSetwave x y) := by
  intro x y; rw [Statement, encode, Fields.word_and_eq, encodeFields, tableMask, tableMatch]; simp [voiceCode_and, oscWave_and]

theorem oscProc : ∀ x, Statement (.oscProc x) := by
  intro x; rw [Statement, encode, Fields.word_and_eq, encodeFields, tableMask, tableMatch]; simp [voiceCode_and]

theorem envNoteon : ∀ x y, Statement (.envNoteon x y) := by
  intro x y; rw [Statement, encode, Fields.word_and_eq, encodeFields, tableMask, tableMatch]; simp [voiceCode_and, instCode_and]

theorem envNoteoff : ∀ x y, Statement (.envNoteoff x y) := by
  intro x y; rw [Statement, encode, Fields.word_and_eq, encodeFields, tableMask, tableMatch]; simp [voiceCode_and, instCode_and]

theorem envSetatk : ∀ x y z, Statement (.envSetatk x y z) := by
  intro x y z; rw [Statement, encode, Fields.word_and_eq, encodeFields, tableMask, tableMatch]; simp [voiceCode_and, instCode_and]

theorem envSetdec : ∀ x y z, Statement (.envSetdec x y z) := by
  intro x y z; rw [Statement, encode, Fields.word_and_eq, encodeFields, tableMask, tableMatch]; simp [voiceCode_and, instCode_and]

theorem envSetsus : ∀ x y z, Statement (.envSetsus x y z) := by
  intro x y z; rw [Statement, encode, Fields.word_and_eq, encodeFields, tableMask, tableMatch]; simp [voiceCode_and, instCode_and]

theorem envSetrel : ∀ x y z, Statement (.envSetrel x y z) := by
  intro x y z; rw [Statement, encode, Fields.word_and_eq, encodeFields, tableMask, tableMatch]; simp [voiceCode_and, instCode_and]

theorem envSetsr : ∀ x y z, Statement (.envSetsr x y z) := by
  intro x y z; rw [Statement, encode, Fields.word_and_eq, encodeFields, tableMask, tableMatch]; simp [voiceCode_and, instCode_and]

theorem envTick : ∀ x y, Statement (.envTick x y) := by
  intro x y; rw [Statement, encode, Fields.word_and_eq, encodeFields, tableMask, tableMatch]; simp [voiceCode_and, instCode_and]

theorem envIsactive : ∀ x y, Statement (.envIsactive x y) := by
  intro x y; rw [Statement, encode, Fields.word_and_eq, encodeFields, tableMask, tableMatch]; simp [voiceCode_and, instCode_and]

theorem lfoSetfreq : ∀ x y z, Statement (.lfoSetfreq x y z) := by
  intro x y z; rw [Statement, encode, Fields.word_and_eq, encodeFields, tableMask, tableMatch]; simp [voiceCode_and, instCode_and]

theorem lfoSetsr : ∀ x y z, Statement (.lfoSetsr x y z) := by
  intro x y z; rw [Statement, encode, Fields.word_and_eq, encodeFields, tableMask, tableMatch]; simp [voiceCode_and, instCode_and]

theorem lfoSetwave : ∀ x y z, Statement (.lfoSetwave x y z) := by
  intro x y z; rw [Statement, encode, Fields.word_and_eq, encodeFields, tableMask, tableMatch]; simp [voiceCode_and, instCode_and, lfoWave_and]

theorem lfoSetbip : ∀ x y z, Statement (.lfoSetbip x y z) := by
  intro x y z; rw [Statement, encode, Fields.word_and_eq, encodeFields, tableMask, tableMatch]; simp [voiceCode_and, instCode_and, boolCode_and]

theorem lfoNext : ∀ x y, Statement (.lfoNext x y) := by
  intro x y; rw [Statement, encode, Fields.word_and_eq, encodeFields, tableMask, tableMatch]; simp [voiceCode_and, instCode_and]

theorem lfoSkip : ∀ x y z, Statement (.lfoSkip x y z) := by
  intro x y z; rw [Statement, encode, Fields.word_and_eq, encodeFields, tableMask, tableMatch]; simp [voiceCode_and, instCode_and]

theorem lfoReset : ∀ x y, Statement (.lfoReset x y) := by
  intro x y; rw [Statement, encode, Fields.word_and_eq, encodeFields, tableMask, tableMatch]; simp [voiceCode_and, instCode_and]

theorem fltSetsr : ∀ x y, Statement (.fltSetsr x y) := by
  intro x y; rw [Statement, encode, Fields.word_and_eq, encodeFields, tableMask, tableMatch]; simp [voiceCode_and]

theorem fltSetcut : ∀ x y, Statement (.fltSetcut x y) := by
  intro x y; rw [Statement, encode, Fields.word_and_eq, encodeFields, tableMask, tableMatch]; simp [voiceCode_and]

theorem fltSetres : ∀ x y, Statement (.fltSetres x y) := by
  intro x y; rw [Statement, encode, Fields.word_and_eq, encodeFields, tableMask, tableMatch]; simp [voiceCode_and]

theorem fltSetdrv : ∀ x y, Statement (.fltSetdrv x y) := by
  intro x y; rw [Statement, encode, Fields.word_and_eq, encodeFields, tableMask, tableMatch]; simp [voiceCode_and]

theorem fltProc1 : ∀ x y, Statement (.fltProc1 x y) := by
  intro x y; rw [Statement, encode, Fields.word_and_eq, encodeFields, tableMask, tableMatch]; simp [voiceCode_and]

theorem fltProcbuf : ∀ x y z, Statement (.fltProcbuf x y z) := by
  intro x y z; rw [Statement, encode, Fields.word_and_eq, encodeFields, tableMask, tableMatch]; simp [voiceCode_and]

theorem fltReset : ∀ x, Statement (.fltReset x) := by
  intro x; rw [Statement, encode, Fields.word_and_eq, encodeFields, tableMask, tableMatch]; simp [voiceCode_and]

theorem modAdd : ∀ x y z w, Statement (.modAdd x y z w) := by
  intro x y z w; rw [Statement, encode, Fields.word_and_eq, encodeFields, tableMask, tableMatch]; simp [voiceCode_and, source_and, dest_and]

theorem modRemove : ∀ x y z, Statement (.modRemove x y z) := by
  intro x y z; rw [Statement, encode, Fields.word_and_eq, encodeFields, tableMask, tableMatch]; simp [voiceCode_and, source_and, dest_and]

theorem modClear : ∀ x, Statement (.modClear x) := by
  intro x; rw [Statement, encode, Fields.word_and_eq, encodeFields, tableMask, tableMatch]; simp [voiceCode_and]

theorem modHas : ∀ x y z, Statement (.modHas x y z) := by
  intro x y z; rw [Statement, encode, Fields.word_and_eq, encodeFields, tableMask, tableMatch]; simp [voiceCode_and, source_and, dest_and]

theorem modSetbase : ∀ x y z, Statement (.modSetbase x y z) := by
  intro x y z; rw [Statement, encode, Fields.word_and_eq, encodeFields, tableMask, tableMatch]; simp [voiceCode_and, dest_and]

theorem modGetdest : ∀ x y, Statement (.modGetdest x y) := by
  intro x y; rw [Statement, encode, Fields.word_and_eq, encodeFields, tableMask, tableMatch]; simp [voiceCode_and, dest_and]

theorem modProcblk : ∀ x y, Statement (.modProcblk x y) := by
  intro x y; rw [Statement, encode, Fields.word_and_eq, encodeFields, tableMask, tableMatch]; simp [voiceCode_and]

theorem modSetscalar : ∀ x y z, Statement (.modSetscalar x y z) := by
  intro x y z; rw [Statement, encode, Fields.word_and_eq, encodeFields, tableMask, tableMatch]; simp [voiceCode_and, scalarSource_and]

theorem modRegister : ∀ x y z, Statement (.modRegister x y z) := by
  intro x y z; rw [Statement, encode, Fields.word_and_eq, encodeFields, tableMask, tableMatch]; simp [voiceCode_and, objSource_and, boolCode_and]

theorem voiceNoteon : ∀ x y z, Statement (.voiceNoteon x y z) := by
  intro x y z; rw [Statement, encode, Fields.word_and_eq, encodeFields, tableMask, tableMatch]; simp [voiceCode_and, noteCode_and]

theorem voiceNoteoff : ∀ x y, Statement (.voiceNoteoff x y) := by
  intro x y; rw [Statement, encode, Fields.word_and_eq, encodeFields, tableMask, tableMatch]; simp [voiceCode_and, boolCode_and]

theorem voiceRender : ∀ x y z, Statement (.voiceRender x y z) := by
  intro x y z; rw [Statement, encode, Fields.word_and_eq, encodeFields, tableMask, tableMatch]; simp [voiceCode_and]

theorem voiceIsactive : ∀ x, Statement (.voiceIsactive x) := by
  intro x; rw [Statement, encode, Fields.word_and_eq, encodeFields, tableMask, tableMatch]; simp [voiceCode_and]

theorem voicePitchbend : ∀ x y, Statement (.voicePitchbend x y) := by
  intro x y; rw [Statement, encode, Fields.word_and_eq, encodeFields, tableMask, tableMatch]; simp [voiceCode_and]

theorem voiceModwheel : ∀ x y, Statement (.voiceModwheel x y) := by
  intro x y; rw [Statement, encode, Fields.word_and_eq, encodeFields, tableMask, tableMatch]; simp [voiceCode_and]

theorem voiceNote : ∀ x, Statement (.voiceNote x) := by
  intro x; rw [Statement, encode, Fields.word_and_eq, encodeFields, tableMask, tableMatch]; simp [voiceCode_and]

theorem voiceVelocity : ∀ x, Statement (.voiceVelocity x) := by
  intro x; rw [Statement, encode, Fields.word_and_eq, encodeFields, tableMask, tableMatch]; simp [voiceCode_and]

theorem engPrepare : ∀ x y, Statement (.engPrepare x y) := by
  intro x y; rw [Statement, encode, Fields.word_and_eq, encodeFields, tableMask, tableMatch]; simp

theorem engNoteon : ∀ x y, Statement (.engNoteon x y) := by
  intro x y; rw [Statement, encode, Fields.word_and_eq, encodeFields, tableMask, tableMatch]; simp [noteCode_and]

theorem engNoteoff : ∀ x, Statement (.engNoteoff x) := by
  intro x; rw [Statement, encode, Fields.word_and_eq, encodeFields, tableMask, tableMatch]; simp [noteCode_and]

theorem engRender : ∀ x y, Statement (.engRender x y) := by
  intro x y; rw [Statement, encode, Fields.word_and_eq, encodeFields, tableMask, tableMatch]; simp

theorem engSetparam : ∀ x y, Statement (.engSetparam x y) := by
  intro x y; rw [Statement, encode, Fields.word_and_eq, encodeFields, tableMask, tableMatch]; simp [param_and]

end Sys2Proof.Laws.TableMatch
end

