-- ==== Sys2Proof/Laws/Raises.lean ====
section
/-! SUPPORT. Which faults a computation can raise: every operation raises only the faults R304 to R308 give it, with
the info word of R300. -/

namespace Sys2Proof.Machine

variable {α β : Type}

/-- Every fault `x` may raise satisfies `P`. -/
def Raises (P : Trap → Prop) (x : Res α) : Prop := ∀ t, x = .error t → P t

theorem Raises.ok {P : Trap → Prop} (a : α) : Raises P (.ok a : Res α) := fun _ h => by cases h

theorem Raises.error {P : Trap → Prop} {t : Trap} (h : P t) : Raises P (.error t : Res α) :=
  fun _ h' => by cases h'; exact h

theorem Raises.bind {P : Trap → Prop} {x : Res α} {f : α → Res β} (hx : Raises P x) (hf : ∀ a, Raises P (f a)) :
    Raises P (x >>= f) := by
  intro t h
  rcases (bind_eq_error x f t).1 h with h | ⟨a, _, h⟩
  · exact hx t h
  · exact hf a t h

/-- The second part may use that the first succeeded. -/
theorem Raises.bind_ok {P : Trap → Prop} {x : Res α} {f : α → Res β} (hx : Raises P x)
    (hf : ∀ a, x = .ok a → Raises P (f a)) : Raises P (x >>= f) := by
  intro t h
  rcases (bind_eq_error x f t).1 h with h | ⟨a, ha, h⟩
  · exact hx t h
  · exact hf a ha t h

theorem Raises.ite {P : Trap → Prop} {c : Prop} [Decidable c] {x y : Res α} (hx : Raises P x) (hy : Raises P y) :
    Raises P (if c then x else y) := by
  split
  · exact hx
  · exact hy

/-- The faults a command whose `IMM` is `imm` may raise after decoding, in the domain `m`: `F_UNSET`, `F_INC_RANGE`,
in F32 `F_NUMERIC`, `F_SR_RANGE` with the operand, `F_BUF_RANGE` with the first index it addresses beyond the buffer,
`out`. -/
def CmdTrap (m : NumInst) (imm : Imm) (out : Option Nat) (t : Trap) : Prop :=
  t = Trap.unset ∨ t = Trap.incRange ∨ (t = Trap.numeric ∧ m = .f32) ∨ t = Trap.srRange imm ∨
    ∃ k, out = some k ∧ t = Trap.bufRange k

/-- `out` is the first of the `n` indices from `i` that lies at or beyond the buffer's end (R307): what the loops of the
counted commands, which ascend, can fault on. -/
def FirstBeyond (len : Option (Fin 65536)) (out : Option Nat) (i n : Nat) : Prop :=
  ∀ l, len = some l → l.val < i + n → 0 < n → out = some (max i l.val)

/-- After the element `i` was found inside the buffer the rest of the range has the same first index beyond it. -/
theorem FirstBeyond.next {len : Option (Fin 65536)} {out : Option Nat} {i n : Nat} (h : FirstBeyond len out i (n + 1))
    (hi : ∃ l, len = some l ∧ i < l.val) : FirstBeyond len out (i + 1) n := by
  intro l hl hlt hn
  obtain ⟨l', hl', hlt'⟩ := hi
  obtain rfl : l = l' := Option.some.inj (hl.symm.trans hl')
  rw [h l hl (by omega) (by omega)]
  congr 1
  omega

variable {m : NumInst} {imm : Imm} {len : Option (Fin 65536)} {out : Option Nat}

theorem CmdTrap.unset : CmdTrap m imm out Trap.unset := .inl rfl
theorem CmdTrap.incRange : CmdTrap m imm out Trap.incRange := .inr (.inl rfl)
theorem CmdTrap.srRange : CmdTrap m imm out (Trap.srRange imm) := .inr (.inr (.inr (.inl rfl)))

theorem raises_readOpt (o : Option α) : Raises (CmdTrap m imm out) (readOpt o) :=
  fun t h => ((readOpt_eq_error o t).1 h).2 ▸ .unset

theorem raises_numAdd (a b : Rat) : Raises (CmdTrap m imm out) (numAdd m a b) :=
  fun _ h => .inr (.inr (.inl (numAdd_error h)))

theorem raises_numSub (a b : Rat) : Raises (CmdTrap m imm out) (numSub m a b) :=
  fun _ h => .inr (.inr (.inl (numSub_error h)))

theorem raises_numMul (a b : Rat) : Raises (CmdTrap m imm out) (numMul m a b) :=
  fun _ h => .inr (.inr (.inl (numMul_error h)))

theorem raises_numDiv (a b : Rat) : Raises (CmdTrap m imm out) (numDiv m a b) :=
  fun _ h => .inr (.inr (.inl (numDiv_error h)))

theorem raises_noteHz (x : Rat) : Raises (CmdTrap m imm out) (noteHz m x) :=
  fun _ h => .inr (.inr (.inl (noteHz_error h)))

theorem raises_velGain (v a : Rat) : Raises (CmdTrap m imm out) (velGain m v a) :=
  fun _ h => .inr (.inr (.inl (velGain_error h)))

theorem raises_bufRead {i n : Nat} (h : FirstBeyond len out i (n + 1)) (b : Memory) :
    Raises (CmdTrap m imm out) (bufRead len b i) := by
  intro t ht
  rcases bufRead_error ht with rfl | ⟨l, hl, hi, rfl⟩
  · exact .unset
  · exact .inr (.inr (.inr (.inr ⟨i, by rw [h l hl (by omega) (by omega), max_eq_left hi], rfl⟩)))

theorem raises_bufWrite {i n : Nat} (h : FirstBeyond len out i (n + 1)) (b : Memory) (x : Rat) :
    Raises (CmdTrap m imm out) (bufWrite len b i x) := by
  intro t ht
  rcases bufWrite_error ht with rfl | ⟨l, hl, hi, rfl⟩
  · exact .unset
  · exact .inr (.inr (.inr (.inr ⟨i, by rw [h l hl (by omega) (by omega), max_eq_left hi], rfl⟩)))

/-! ## Units -/

theorem raises_waveValue (k : OscWave) (t : Rat) : Raises (CmdTrap m imm out) (waveValue m k t) := by
  cases k
  · exact .ok _
  · exact .bind (raises_numMul _ _) fun _ => raises_numSub _ _
  · exact .ok _
  · exact .ok _

theorem raises_phaseStep (p i : Rat) : Raises (CmdTrap m imm out) (phaseStep m p i) := by
  unfold phaseStep
  exact .ite (.error .incRange) (.bind (raises_numAdd _ _) fun _ =>
    .ite (.bind (raises_numSub _ _) fun _ => .ok _) (.ok _))

theorem raises_oscSetFreq (x : Rat) (o : Osc) : Raises (CmdTrap m imm out) (o.setFreq m x) := by
  unfold Osc.setFreq
  split
  · exact .ok _
  · exact .bind (raises_numDiv _ _) fun _ => .ok _

theorem raises_oscSetSr (x : Rat) (o : Osc) : Raises (CmdTrap m imm out) (o.setSr m imm x) := by
  unfold Osc.setSr
  refine .ite (.error .srRange) ?_
  split
  · exact .ok _
  · exact .bind (raises_numDiv _ _) fun _ => .ok _

theorem raises_oscProc (o : Osc) : Raises (CmdTrap m imm out) (o.proc m) :=
  .bind (raises_readOpt _) fun _ => .bind (raises_waveValue _ _) fun _ => .bind (raises_phaseStep _ _) fun _ => .ok _

theorem raises_calcRate (d ms sr : Rat) : Raises (CmdTrap m imm out) (calcRate m d ms sr) := by
  unfold calcRate
  exact .ite (.ok _) (.bind (raises_numMul _ _) fun _ => .bind (raises_numMul _ _) fun _ => raises_numDiv _ _)

theorem raises_rederive (e : Env) : Raises (CmdTrap m imm out) (Env.rederive m e) := by
  unfold Env.rederive
  split
  · exact .ok _
  · exact .bind (raises_calcRate _ _ _) fun _ => .bind (raises_numSub _ _) fun _ =>
      .bind (raises_calcRate _ _ _) fun _ => .bind (raises_calcRate _ _ _) fun _ => .ok _

theorem raises_envSetSr (x : Rat) (e : Env) : Raises (CmdTrap m imm out) (e.setSr m imm x) := by
  unfold Env.setSr
  exact .ite (.error .srRange) (raises_rederive _)

theorem raises_envNoteOff (e : Env) : Raises (CmdTrap m imm out) (e.noteOff m) := by
  unfold Env.noteOff
  split
  · exact .ok _
  · exact .ok _
  all_goals exact .bind (raises_rederive _) fun _ => .ok _

theorem raises_envTick (e : Env) : Raises (CmdTrap m imm out) (e.tick m) := by
  unfold Env.tick
  split
  · exact .ok _
  · exact .bind (raises_readOpt _) fun _ => .bind (raises_numAdd _ _) fun _ => .ite (.ok _) (.ok _)
  · exact .bind (raises_readOpt _) fun _ => .bind (raises_numSub _ _) fun _ => .ite (.ok _) (.ok _)
  · exact .ok _
  · exact .bind (raises_readOpt _) fun _ => .bind (raises_numSub _ _) fun _ => .ite (.ok _) (.ok _)

theorem raises_lfoValue (k : LfoWave) (l : Lfo) : Raises (CmdTrap m imm out) (l.value m k) := by
  cases k
  case stepped => exact .ok _
  case smoothed =>
    exact .bind (raises_numSub _ _) fun _ => .bind (raises_numMul _ _) fun _ => raises_numAdd _ _
  all_goals (unfold Lfo.value; exact raises_waveValue _ _)

theorem raises_lfoAdvance (n : Nat) (l : Lfo) : Raises (CmdTrap m imm out) (l.advance m n) :=
  .bind (raises_readOpt _) fun _ => .bind (raises_phaseStep _ _) fun _ => .ok _

theorem raises_lfoSetFreq (x : Rat) (l : Lfo) : Raises (CmdTrap m imm out) (l.setFreq m x) := by
  unfold Lfo.setFreq
  simp only
  split
  · exact .ok _
  · exact .bind (raises_numDiv _ _) fun _ => .ok _

theorem raises_lfoSetSr (x : Rat) (l : Lfo) : Raises (CmdTrap m imm out) (l.setSr m imm x) := by
  unfold Lfo.setSr
  refine .ite (.error .srRange) ?_
  split
  · exact .ok _
  · exact .bind (raises_numDiv _ _) fun _ => .ok _

theorem raises_lfoOutput (k : LfoWave) (l : Lfo) : Raises (CmdTrap m imm out) (l.output m k) :=
  .bind (raises_lfoValue _ _) fun _ => .ite (.ok _) (.bind (raises_numAdd _ _) fun _ => raises_numMul _ _)

theorem raises_lfoNext (n : Nat) (l : Lfo) : Raises (CmdTrap m imm out) (l.next m n) :=
  .bind (raises_readOpt _) fun _ => .bind (raises_readOpt _) fun _ => .bind (raises_lfoOutput _ _) fun _ =>
    .bind (raises_lfoAdvance _ _) fun _ => .ok _

theorem raises_lfoAdvanceN (k n : Nat) (l : Lfo) : Raises (CmdTrap m imm out) (l.advanceN m k n) := by
  induction k generalizing n l with
  | zero => exact .ok _
  | succ k ih => exact .bind (raises_lfoAdvance _ _) fun r => ih r.1 r.2

theorem raises_lfoSkip (k n : Nat) (l : Lfo) : Raises (CmdTrap m imm out) (l.skip m k n) :=
  .ite (.error .unset) (raises_lfoAdvanceN _ _ _)

theorem raises_recompute (f : Flt) : Raises (CmdTrap m imm out) (f.recompute m) := by
  unfold Flt.recompute
  split
  · exact .ok _
  · exact .bind (raises_numMul _ _) fun _ => .bind (raises_numMul _ _) fun _ => .bind (raises_numMul _ _) fun _ =>
      .bind (raises_numMul _ _) fun _ => .bind (raises_numMul _ _) fun _ => .ok _

theorem raises_fltSetSr (x : Rat) (f : Flt) : Raises (CmdTrap m imm out) (f.setSr m imm x) := by
  unfold Flt.setSr
  exact .ite (.error .srRange) (.bind (raises_numMul _ _) fun _ => .ite (.error .srRange) (raises_recompute _))

theorem raises_fltSetCut (x : Rat) (f : Flt) : Raises (CmdTrap m imm out) (f.setCut m x) :=
  .bind (raises_readOpt _) fun _ => .bind (raises_numMul _ _) fun _ => raises_recompute _

theorem raises_fltSetRes (x : Rat) (f : Flt) : Raises (CmdTrap m imm out) (f.setRes m x) := raises_recompute _

theorem raises_ladderStage (p x y : Rat) : Raises (CmdTrap m imm out) (ladderStage m p x y) :=
  .bind (raises_numSub _ _) fun _ => .bind (raises_numMul _ _) fun _ => raises_numAdd _ _

theorem raises_fltSample (x : Rat) (f : Flt) : Raises (CmdTrap m imm out) (f.sample m x) :=
  .bind (raises_readOpt _) fun _ => .bind (raises_readOpt _) fun _ => .bind (raises_numMul _ _) fun _ =>
    .bind (raises_readOpt _) fun _ => .bind (raises_numMul _ _) fun _ => .bind (raises_numSub _ _) fun _ =>
    .bind (raises_ladderStage _ _ _) fun _ => .bind (raises_ladderStage _ _ _) fun _ =>
    .bind (raises_ladderStage _ _ _) fun _ => .bind (raises_ladderStage _ _ _) fun _ => .ok _

theorem raises_fltProcessFrom {n i : Nat} (h : FirstBeyond len out i n) (f : Flt) (b : Memory) :
    Raises (CmdTrap m imm out) (f.processFrom m len n i b) := by
  induction n generalizing i f b with
  | zero => exact .ok _
  | succ n ih =>
    exact .bind_ok (raises_bufRead h _) fun _ hr => .bind (raises_fltSample _ _) fun _ =>
      .bind (raises_bufWrite h _ _) fun _ => ih (h.next (bufRead_eq_ok.1 hr).1) _ _

theorem raises_fltProcess {start n : Nat} (h : FirstBeyond len out start n) (f : Flt) (b : Memory) :
    Raises (CmdTrap m imm out) (f.process m len start n b) :=
  .ite (.error .unset) (raises_fltProcessFrom h _ _)

theorem raises_sumInto (w : Voice) (d : Dest) (ss : List Source) (acc : Rat) :
    Raises (CmdTrap m imm out) (w.sumInto m d ss acc) := by
  induction ss generalizing acc with
  | nil => exact .ok _
  | cons s rest ih =>
    unfold Voice.sumInto
    split
    · exact ih _
    · exact .bind (raises_numMul _ _) fun _ => .bind (raises_numAdd _ _) fun _ => ih _

theorem raises_evalDest (w : Voice) (d : Dest) : Raises (CmdTrap m imm out) (w.evalDest m d) := by
  unfold Voice.evalDest
  split
  · exact .ok _
  · exact .bind (raises_sumInto _ _ _ _) fun _ => .ok _

theorem raises_evaluate (w : Voice) : Raises (CmdTrap m imm out) (w.evaluate m) :=
  .bind (raises_evalDest _ _) fun _ => .bind (raises_evalDest _ _) fun _ => .bind (raises_evalDest _ _) fun _ =>
    .bind (raises_evalDest _ _) fun _ => .bind (raises_evalDest _ _) fun _ => .ok _

theorem raises_evaluateN (n : Nat) (w : Voice) : Raises (CmdTrap m imm out) (w.evaluateN m n) := by
  induction n generalizing w with
  | zero => exact .ok _
  | succ n ih => exact .bind (raises_evaluate _) fun _ => ih _

theorem raises_processBlock (n : Nat) (w : Voice) : Raises (CmdTrap m imm out) (w.processBlock m n) :=
  raises_evaluateN _ _

/-! ## Voice and engine -/

theorem raises_setPitch (file : Vector (Option Rat) 25) (w : Voice) :
    Raises (CmdTrap m imm out) (w.setPitch m file) := by
  unfold Voice.setPitch
  split
  · exact .ok _
  · exact .bind (raises_numAdd _ _) fun _ => .bind (raises_numAdd _ _) fun _ => .bind (raises_noteHz _) fun _ =>
      .bind (raises_oscSetFreq _ _) fun _ => .ok _

theorem raises_noteOn (file : Vector (Option Rat) 25) (note : Fin 128) (x : Rat) (n : Nat) (w : Voice) :
    Raises (CmdTrap m imm out) (w.noteOn m file note x n) :=
  .bind (raises_setPitch _ _) fun _ => .ok _

theorem raises_voiceNoteOff (allow : Bool) (w : Voice) : Raises (CmdTrap m imm out) (w.noteOff m allow) := by
  unfold Voice.noteOff
  exact .ite (.ite (.bind (raises_envNoteOff _) fun _ => .bind (raises_envNoteOff _) fun _ => .ok _) (.ok _)) (.ok _)

theorem raises_apply (file : Vector (Option Rat) 25) (p : Param) {f : Rat → Voice → Res Voice}
    (hf : ∀ x w, Raises (CmdTrap m imm out) (f x w)) (w : Voice) :
    Raises (CmdTrap m imm out) (w.apply file p f) := by
  unfold Voice.apply
  split
  · exact .ok _
  · exact hf _ _

theorem raises_onEnv (i : Fin 2) {f : Rat → Env → Res Env} (hf : ∀ x e, Raises (CmdTrap m imm out) (f x e))
    (x : Rat) (w : Voice) : Raises (CmdTrap m imm out) (Voice.onEnv i f x w) :=
  .bind (hf _ _) fun _ => .ok _

theorem raises_lfoRate (i : Fin 2) (x : Rat) (w : Voice) : Raises (CmdTrap m imm out) (Voice.lfoRate m i x w) :=
  .bind (raises_lfoSetFreq _ _) fun _ => .ok _

theorem raises_applyParams (file : Vector (Option Rat) 25) (w : Voice) :
    Raises (CmdTrap m imm out) (w.applyParams m file) := by
  unfold Voice.applyParams
  refine .bind (raises_apply _ _ (fun _ _ => .ok _) _) fun _ => ?_
  refine .bind (raises_setPitch _ _) fun _ => ?_
  refine .bind (raises_apply _ _ (fun _ _ => .ok _) _) fun _ => ?_
  refine .bind (raises_apply _ _ (fun _ _ => .ok _) _) fun _ => ?_
  refine .bind (raises_apply _ _ (fun _ _ => .bind (raises_fltSetRes _ _) fun _ => .ok _) _) fun _ => ?_
  refine .bind (raises_apply _ _ (fun _ _ => .ok _) _) fun _ => ?_
  refine .bind (raises_apply _ _ (fun _ _ => .ok _) _) fun _ => ?_
  refine .bind (raises_apply _ _ (raises_onEnv _ fun _ _ => raises_rederive _) _) fun _ => ?_
  refine .bind (raises_apply _ _ (raises_onEnv _ fun _ _ => raises_rederive _) _) fun _ => ?_
  refine .bind (raises_apply _ _ (raises_onEnv _ fun _ _ => raises_rederive _) _) fun _ => ?_
  refine .bind (raises_apply _ _ (raises_onEnv _ fun _ _ => raises_rederive _) _) fun _ => ?_
  refine .bind (raises_apply _ _ (raises_onEnv _ fun _ _ => raises_rederive _) _) fun _ => ?_
  refine .bind (raises_apply _ _ (raises_onEnv _ fun _ _ => raises_rederive _) _) fun _ => ?_
  refine .bind (raises_apply _ _ (raises_onEnv _ fun _ _ => raises_rederive _) _) fun _ => ?_
  refine .bind (raises_apply _ _ (raises_onEnv _ fun _ _ => raises_rederive _) _) fun _ => ?_
  refine .bind (raises_apply _ _ (raises_lfoRate _) _) fun _ => ?_
  refine .bind (raises_apply _ _ (fun _ _ => .ok _) _) fun _ => ?_
  refine .bind (raises_apply _ _ (fun _ _ => .ok _) _) fun _ => ?_
  refine .bind (raises_apply _ _ (raises_lfoRate _) _) fun _ => ?_
  refine .bind (raises_apply _ _ (fun _ _ => .ok _) _) fun _ => ?_
  refine .bind (raises_apply _ _ (fun _ _ => .ok _) _) fun _ => ?_
  refine .bind (raises_apply _ _ (fun _ _ => .ok _) _) fun _ => ?_
  exact raises_apply _ _ (fun _ _ => .ok _) _

theorem raises_chain (n : Nat) (w : Voice) : Raises (CmdTrap m imm out) (w.chain m n) :=
  .bind (raises_oscProc _) fun _ => .bind (raises_envTick _) fun _ => .bind (raises_envTick _) fun _ =>
    .bind (raises_lfoNext _ _) fun _ => .bind (raises_lfoNext _ _) fun _ => .bind (raises_processBlock _ _) fun _ =>
    .bind (raises_readOpt _) fun _ => .bind (raises_fltSetCut _ _) fun _ => .bind (raises_fltSample _ _) fun _ => .ok _

theorem raises_finalSample (file : Vector (Option Rat) 25) (vel y a : Rat) :
    Raises (CmdTrap m imm out) (finalSample m file vel y a) :=
  .bind (raises_numMul _ _) fun _ => .bind (raises_readOpt _) fun _ => .bind (raises_velGain _ _) fun _ =>
    .bind (raises_numMul _ _) fun _ => .bind (raises_readOpt _) fun _ => raises_numMul _ _

theorem raises_renderFrom (file : Vector (Option Rat) 25) {n i : Nat} (h : FirstBeyond len out i n) (d : Nat) (w : Voice)
    (b : Memory) : Raises (CmdTrap m imm out) (Voice.renderFrom m file len n i d w b) := by
  induction n generalizing i d w b with
  | zero => exact .ok _
  | succ n ih =>
    exact .bind (raises_chain _ _) fun _ => .bind (raises_finalSample _ _ _ _) fun _ =>
      .bind_ok (raises_bufRead h _) fun _ hr => .bind (raises_numAdd _ _) fun _ =>
      .bind (raises_bufWrite h _ _) fun _ => ih (h.next (bufRead_eq_ok.1 hr).1) _ _ _

theorem raises_render (file : Vector (Option Rat) 25) {start n : Nat} (h : FirstBeyond len out start n) (d : Nat)
    (w : Voice) (b : Memory) : Raises (CmdTrap m imm out) (w.render m file len start n d b) :=
  .bind (raises_applyParams _ _) fun _ => .ite (.bind (raises_renderFrom _ h _ _ _) fun _ => .ok _) (.ok _)

theorem raises_pitchBend (file : Vector (Option Rat) 25) (x : Rat) (w : Voice) :
    Raises (CmdTrap m imm out) (w.pitchBend m file x) := raises_setPitch _ _

theorem raises_setRates (x : Rat) (w : Voice) : Raises (CmdTrap m imm out) (w.setRates m imm x) :=
  .bind (raises_oscSetSr _ _) fun _ => .bind (raises_envSetSr _ _) fun _ => .bind (raises_envSetSr _ _) fun _ =>
    .bind (raises_lfoSetSr _ _) fun _ => .bind (raises_lfoSetSr _ _) fun _ => .bind (raises_fltSetSr _ _) fun _ => .ok _

theorem raises_prepareVoices (x : Rat) (l : List (Fin 8)) (vs : Vector Voice 8) :
    Raises (CmdTrap m imm out) (prepareVoices m imm x l vs) := by
  induction l generalizing vs with
  | nil => exact .ok _
  | cons v rest ih => exact .bind (raises_setRates _ _) fun _ => ih _

theorem raises_prepare (size : Fin 65536) (x : Rat) (s : State) :
    Raises (CmdTrap s.num imm out) (prepare imm size x s) := by
  unfold prepare
  exact .ite (.error .srRange) (.bind (raises_numMul _ _) fun _ =>
    .ite (.error .srRange) (.bind (raises_prepareVoices _ _ _) fun _ => .ok _))

theorem raises_releaseVoices (note : Fin 128) (l : List (Fin 8)) (vs : Vector Voice 8) :
    Raises (CmdTrap m imm out) (releaseVoices m note l vs) := by
  induction l generalizing vs with
  | nil => exact .ok _
  | cons v rest ih =>
    unfold releaseVoices
    exact .ite (.bind (raises_voiceNoteOff _ _) fun _ => ih _) (ih _)

theorem raises_renderVoices (file : Vector (Option Rat) 25) {start n : Nat} (h : FirstBeyond len out start n)
    (l : List (Fin 8)) (d : Nat) (vs : Vector Voice 8) (b : Memory) :
    Raises (CmdTrap m imm out) (renderVoices m file len start n l d vs b) := by
  induction l generalizing d vs b with
  | nil => exact .ok _
  | cons v rest ih => exact .bind (raises_render _ h _ _ _) fun _ => ih _ _ _

/-! ## Commands -/

/-- A value operand raises nothing when it is finite. -/
theorem raises_valueOp {P : Trap → Prop} {w : Imm} (h : f32Value w = none → P (Trap.badOperand w)) :
    Raises P (valueOp w) := by
  intro t ht
  unfold valueOp at ht
  split at ht
  · cases ht
  · rename_i hn
    cases ht
    exact h hn

/-- The first index a command addresses at or beyond the buffer's end `len`, if it addresses one (spec/60_exceptions.md
R307): its index for BUF.ST and BUF.LD, `max(start, BUF_LEN)` for the counted commands. -/
def outOfRange (i : Instr) (len : Nat) : Option Nat :=
  match i with
  | .bufSt idx _ | .bufLd idx => if len ≤ indexOp idx then some (indexOp idx) else none
  | .fltProcbuf _ start n | .voiceRender _ start n | .engRender start n =>
    if 0 < countOp n ∧ len < indexOp start + countOp n then some (max (indexOp start) len) else none
  | _ => none

/-- The faults of a command: those of its body, or `F_BAD_OPERAND` when its operand is not finite (R303). -/
def InstrTrap (i : Instr) (s : State) (t : Trap) : Prop :=
  CmdTrap s.num ((encode i).extractLsb' 0 32) (s.bufLen.bind fun n => outOfRange i n.val) t ∨
    ∃ w, i.valueOperand = some w ∧ f32Value w = none ∧ t = Trap.badOperand w

theorem Raises.mono {P Q : Trap → Prop} {x : Res α} (h : Raises P x) (hPQ : ∀ t, P t → Q t) : Raises Q x :=
  fun t ht => hPQ t (h t ht)

/-- The first index beyond the buffer's end of a counted command (R307). -/
theorem firstBeyond_counted {i : Instr} {s : State} {start n : Nat}
    (h : ∀ l, outOfRange i l = if 0 < n ∧ l < start + n then some (max start l) else none) :
    FirstBeyond s.bufLen (s.bufLen.bind fun l => outOfRange i l.val) start n := by
  intro l hl hlt hn
  rw [hl, Option.bind_some, h, if_pos ⟨hn, hlt⟩]

/-- BUF.ST and BUF.LD address one index (R307). -/
theorem firstBeyond_one {i : Instr} {s : State} {k : Nat}
    (h : ∀ l, outOfRange i l = if l ≤ k then some k else none) :
    FirstBeyond s.bufLen (s.bufLen.bind fun l => outOfRange i l.val) k 1 := by
  intro l hl hlt _
  rw [hl, Option.bind_some, h, if_pos (by omega), max_eq_left (by omega)]

/-- A body that only computes. -/
theorem InstrTrap.body {i : Instr} {s : State} {imm : Imm} {x : Res α}
    (h : Raises (CmdTrap s.num imm (s.bufLen.bind fun n => outOfRange i n.val)) x)
    (himm : imm = (encode i).extractLsb' 0 32) : Raises (InstrTrap i s) x := by
  subst himm
  exact h.mono fun _ => .inl

/-- A body that reads its value operand and then computes. -/
theorem InstrTrap.value {i : Instr} {s : State} {imm : Imm} {f : Rat → Res β} (hi : i.valueOperand = some imm)
    (h : ∀ x, Raises (CmdTrap s.num imm (s.bufLen.bind fun n => outOfRange i n.val)) (f x)) : Raises (InstrTrap i s) (valueOp imm >>= f) :=
  .bind (raises_valueOp fun hn => .inr ⟨imm, hi, hn, rfl⟩) fun x => InstrTrap.body (h x) (encode_imm i imm hi).symm

/-- A command is its body run by `finish`, and the body raises only the command's faults. -/
theorem exec_raises (i : Instr) (s : State) :
    ∃ x : Res (Response × State), exec i s = finish s x ∧ Raises (InstrTrap i s) x := by
  cases i <;>
  simp only [exec, execBufSt, execBufLd, execOscSetfreq, execOscSetsr, execOscSetwave, execOscProc,
    execEnvNoteon, execEnvNoteoff, execEnvSetatk, execEnvSetdec, execEnvSetsus, execEnvSetrel,
    execEnvSetsr, execEnvTick, execEnvIsactive, execLfoSetfreq, execLfoSetsr, execLfoSetwave,
    execLfoSetbip, execLfoNext, execLfoSkip, execLfoReset, execFltSetsr, execFltSetcut, execFltSetres,
    execFltSetdrv, execFltProc1, execFltProcbuf, execFltReset, execModAdd, execModRemove, execModClear,
    execModHas, execModSetbase, execModGetdest, execModProcblk, execModSetscalar, execModRegister,
    execVoiceNoteon, execVoiceNoteoff, execVoiceRender, execVoiceIsactive, execVoicePitchbend,
    execVoiceModwheel, execVoiceNote, execVoiceVelocity, execEngPrepare, execEngNoteon, execEngNoteoff,
    execEngRender, execEngSetparam] <;>
    refine ⟨_, rfl, ?_⟩
  case bufSt => exact .value rfl fun _ => .bind (raises_bufWrite (n := 0) (firstBeyond_one fun _ => rfl) _ _) fun _ => .ok _
  case bufLd => exact .body (.bind (raises_bufRead (n := 0) (firstBeyond_one fun _ => rfl) _) fun _ => .ok _) rfl
  case oscSetfreq => exact .value rfl fun _ => .bind (raises_oscSetFreq _ _) fun _ => .ok _
  case oscSetsr => exact .value rfl fun _ => .bind (raises_oscSetSr _ _) fun _ => .ok _
  case oscProc => exact .body (.bind (raises_oscProc _) fun _ => .ok _) rfl
  case envNoteoff => exact .body (.bind (raises_envNoteOff _) fun _ => .ok _) rfl
  case envSetatk => exact .value rfl fun _ => .bind (raises_rederive _) fun _ => .ok _
  case envSetdec => exact .value rfl fun _ => .bind (raises_rederive _) fun _ => .ok _
  case envSetsus => exact .value rfl fun _ => .bind (raises_rederive _) fun _ => .ok _
  case envSetrel => exact .value rfl fun _ => .bind (raises_rederive _) fun _ => .ok _
  case envSetsr => exact .value rfl fun _ => .bind (raises_envSetSr _ _) fun _ => .ok _
  case envTick => exact .body (.bind (raises_envTick _) fun _ => .ok _) rfl
  case lfoSetfreq => exact .value rfl fun _ => .bind (raises_lfoSetFreq _ _) fun _ => .ok _
  case lfoSetsr => exact .value rfl fun _ => .bind (raises_lfoSetSr _ _) fun _ => .ok _
  case lfoNext => exact .body (.bind (raises_lfoNext _ _) fun _ => .ok _) rfl
  case lfoSkip => exact .body (.bind (raises_lfoSkip _ _ _) fun _ => .ok _) rfl
  case fltSetsr => exact .value rfl fun _ => .bind (raises_fltSetSr _ _) fun _ => .ok _
  case fltSetcut => exact .value rfl fun _ => .bind (raises_fltSetCut _ _) fun _ => .ok _
  case fltSetres => exact .value rfl fun _ => .bind (raises_fltSetRes _ _) fun _ => .ok _
  case fltSetdrv => exact .value rfl fun _ => .ok _
  case fltProc1 => exact .value rfl fun _ => .bind (raises_fltSample _ _) fun _ => .ok _
  case fltProcbuf => exact .body (.bind (raises_fltProcess (firstBeyond_counted fun _ => rfl) _ _) fun _ => .ok _) rfl
  case modAdd => exact .value rfl fun _ => .ok _
  case modSetbase => exact .value rfl fun _ => .ok _
  case modGetdest => exact .body (.bind (raises_readOpt _) fun _ => .ok _) rfl
  case modProcblk => exact .body (.bind (raises_processBlock _ _) fun _ => .ok _) rfl
  case modSetscalar => exact .value rfl fun _ => .ok _
  case voiceNoteon => exact .value rfl fun _ => .bind (raises_noteOn _ _ _ _ _) fun _ => .ok _
  case voiceNoteoff => exact .body (.bind (raises_voiceNoteOff _ _) fun _ => .ok _) rfl
  case voiceRender => exact .body (.bind (raises_render _ (firstBeyond_counted fun _ => rfl) _ _ _) fun _ => .ok _) rfl
  case voicePitchbend => exact .value rfl fun _ => .bind (raises_pitchBend _ _ _) fun _ => .ok _
  case voiceModwheel => exact .value rfl fun _ => .ok _
  case engPrepare => exact .value rfl fun _ => .bind (raises_prepare _ _ _) fun _ => .ok _
  case engNoteon => exact .value rfl fun _ => .bind (raises_noteOn _ _ _ _ _) fun _ => .ok _
  case engNoteoff => exact .body (.bind (raises_releaseVoices _ _ _) fun _ => .ok _) rfl
  case engRender => exact .body (.bind (raises_renderVoices _ (firstBeyond_counted fun _ => rfl) _ _ _ _) fun _ => .ok _) rfl
  case engSetparam => exact .value rfl fun _ => .ok _
  all_goals exact .ok _

end Sys2Proof.Machine
end

