-- ==== Sys2Proof/Laws/Ready.lean ====
section
/-! SUPPORT. Rendering in `EXACT`: each unit operation of one sample runs when the registers it reads hold values and
faults with `F_UNSET` when one does not, so a ready voice (R266) stays ready and renders. -/

namespace Sys2Proof.Machine

/-- A waveform function has a value at every phase (R114). -/
theorem waveValue_exact (k : OscWave) (t : Rat) : ∃ x, waveValue .exact k t = .ok x := by
  cases k <;> exact ⟨_, rfl⟩

/-- A phase advance with an increment in [0,1) runs (R115). -/
theorem phaseStep_exact (p : Rat) {q : Rat} (h0 : 0 ≤ q) (h1 : q < 1) : ∃ r, phaseStep .exact p q = .ok r := by
  unfold phaseStep
  rw [if_neg (by rintro (h | h) <;> linarith)]
  simp only [numAdd_exact, numSub_exact, res_ok_bind]
  split <;> exact ⟨_, rfl⟩

/-- OSC.PROC (R116) without an increment, and with one in [0,1). -/
theorem oscProc_exact (o : Osc) :
    (o.inc = none → o.proc .exact = .error Trap.unset) ∧
    (∀ q, o.inc = some q → 0 ≤ q → q < 1 → ∃ x t, o.proc .exact = .ok (x, { o with phase := t })) := by
  constructor
  · intro h; simp [Osc.proc, h]
  · intro q h h0 h1
    obtain ⟨x, hx⟩ := waveValue_exact o.wave o.phase
    obtain ⟨r, hr⟩ := phaseStep_exact o.phase h0 h1
    exact ⟨x, r.1, by simp [Osc.proc, h, hx, hr]⟩

/-- ENV.TICK (R139) without the rate it reads, and with it: only level and stage change. -/
theorem envTick_exact (e : Env) :
    (e.Lacking → e.tick .exact = .error Trap.unset) ∧
    (¬e.Lacking → ∃ x l st, e.tick .exact = .ok (x, { e with level := l, stage := st })) := by
  rcases e with ⟨st, l, am, dm, su, rm, sr, ar, dr, rr, rf⟩
  cases st
  · exact ⟨by simp [Env.Lacking], fun _ => ⟨_, l, .idle, rfl⟩⟩
  all_goals simp only [Env.Lacking, Env.tick]
  · cases ar with
    | none => simp
    | some r =>
      refine ⟨by simp, fun _ => ?_⟩
      simp only [readOpt_some, res_ok_bind, numAdd_exact]
      split <;> exact ⟨_, _, _, rfl⟩
  · cases dr with
    | none => simp
    | some r =>
      refine ⟨by simp, fun _ => ?_⟩
      simp only [readOpt_some, res_ok_bind, numSub_exact]
      split <;> exact ⟨_, _, _, rfl⟩
  · exact ⟨by simp, fun _ => ⟨_, su, .sustain, rfl⟩⟩
  · cases rr with
    | none => simp
    | some r =>
      refine ⟨by simp, fun _ => ?_⟩
      simp only [readOpt_some, res_ok_bind, numSub_exact]
      split <;> exact ⟨_, _, _, rfl⟩

/-- LFO.NEXT (R170) without waveform or increment, and with both: they stay. -/
theorem lfoNext_exact (l : Lfo) (n : Nat) :
    (l.wave = none ∨ l.inc = none → l.next .exact n = .error Trap.unset) ∧
    (∀ k q, l.wave = some k → l.inc = some q → 0 ≤ q → q < 1 →
      ∃ x n' l', l.next .exact n = .ok (x, n', l') ∧ l'.wave = l.wave ∧ l'.inc = l.inc) := by
  constructor
  · rintro (h | h)
    · simp [Lfo.next, h]
    · cases hw : l.wave <;> simp [Lfo.next, h, hw]
  · intro k q hw hq h0 h1
    obtain ⟨r, hr⟩ := phaseStep_exact l.phase h0 h1
    obtain ⟨x, hx⟩ : ∃ x, l.value .exact k = .ok x := by
      cases k
      case stepped => exact ⟨_, rfl⟩
      case smoothed => exact ⟨_, rfl⟩
      all_goals (simp only [Lfo.value]; exact waveValue_exact _ _)
    obtain ⟨y, hy⟩ : ∃ y, l.output .exact k = .ok y := by
      simp only [Lfo.output, hx, res_ok_bind]
      split <;> exact ⟨_, rfl⟩
    have hadv : ∃ n' l', l.advance .exact n = .ok (n', l') ∧ l'.wave = l.wave ∧ l'.inc = l.inc := by
      simp only [Lfo.advance, hq, readOpt_some, res_ok_bind, hr]
      split
      · refine ⟨_, _, rfl, ?_⟩
        simp only [Lfo.wrap, hw]
        cases k <;> simp [hw, hq]
      · exact ⟨_, _, rfl, rfl, hq.symm ▸ rfl⟩
    obtain ⟨n', l', ha, h1, h2⟩ := hadv
    exact ⟨y, n', { l' with lastOut := y }, by simp [Lfo.next, hw, hq, hy, ha], h1, h2⟩

/-- The sum over the connections has a value (R231). -/
theorem sumInto_exact (w : Voice) (d : Dest) (ss : List Source) (a : Rat) : ∃ x, w.sumInto .exact d ss a = .ok x := by
  induction ss generalizing a with
  | nil => exact ⟨_, rfl⟩
  | cons s r ih =>
    unfold Voice.sumInto
    split
    · exact ih _
    · exact ih _

/-- A destination gets a value exactly if its base has one (R229). -/
theorem evalDest_exact (w : Voice) (d : Dest) :
    ∃ c, w.evalDest .exact d = .ok c ∧ c.isSome = (w.router.base[d.idx]).isSome := by
  unfold Voice.evalDest
  cases h : w.router.base[d.idx] with
  | none => exact ⟨none, rfl, rfl⟩
  | some b =>
    obtain ⟨x, hx⟩ := sumInto_exact w d allSources b
    exact ⟨some (clamp x (Dest.lo d) (Dest.hi d)), by simp only [hx, res_ok_bind], rfl⟩

/-- MOD.PROCBLK 1 (R230) runs, and writes the modulated values only. -/
theorem processBlock_exact (w : Voice) :
    ∃ mod, w.processBlock .exact 1 = .ok { w with router := { w.router with mod := mod } } ∧
      (mod[Dest.cutoff.idx]).isSome = (w.router.base[Dest.cutoff.idx]).isSome := by
  unfold Voice.processBlock
  obtain ⟨c, hc, hi⟩ := evalDest_exact { w with router := w.router.resetMod } .cutoff
  obtain ⟨r, hr, _⟩ := evalDest_exact { w with router := w.router.resetMod } .resonance
  obtain ⟨p, hp, _⟩ := evalDest_exact { w with router := w.router.resetMod } .pwm
  obtain ⟨l, hl, _⟩ := evalDest_exact { w with router := w.router.resetMod } .level
  obtain ⟨t, ht, _⟩ := evalDest_exact { w with router := w.router.resetMod } .pitch
  refine ⟨#v[c, r, p, l, t], ?_, hi⟩
  simp only [Voice.evaluateN, Voice.evaluate, hc, hr, hp, hl, ht, res_ok_bind]
  rfl

/-- FLT.SETCUT then FLT.PROC1 (R193, R198): what each lacks, and that rate and drive stay. -/
theorem setCut_sample_exact (f : Flt) (c x : Rat) :
    (f.sr = none → f.setCut .exact c = .error Trap.unset) ∧
    (∀ r, f.sr = some r → ∃ g, f.setCut .exact c = .ok g ∧ g.sr = f.sr ∧ g.drive = f.drive ∧
      (f.drive = none → g.sample .exact x = .error Trap.unset) ∧
      (∀ d, f.drive = some d → ∃ y h, g.sample .exact x = .ok (y, h) ∧ h.sr = f.sr ∧ h.drive = f.drive)) := by
  constructor
  · intro h; simp [Flt.setCut, h]
  · intro r h
    let c' := clamp c 20 (lit NumInst.exact (9 / 20) * r)
    let p := coefP .exact c' r
    refine ⟨{ f with cutoff := c', p := some p, k := some (4 * f.res * p * p * p * p) }, ?_, rfl, rfl, ?_, ?_⟩
    · simp only [Flt.setCut, h, readOpt_some, res_ok_bind, numMul_exact, Flt.recompute, c', p]
    · intro hd; simp [Flt.sample, hd]
    · intro d hd
      simp only [Flt.sample, hd, readOpt_some, res_ok_bind, numMul_exact, numSub_exact, numAdd_exact, ladderStage]
      exact ⟨_, _, rfl, rfl, rfl⟩

/-- The final sample (R264) without one of its parameters, and with both. -/
theorem finalSample_exact (file : Vector (Option Rat) 25) (vel y a : Rat) :
    (paramGet file .velToAmp = none ∨ paramGet file .masterVolume = none →
      finalSample .exact file vel y a = .error Trap.unset) ∧
    (∀ p q, paramGet file .velToAmp = some p → paramGet file .masterVolume = some q →
      ∃ x, finalSample .exact file vel y a = .ok x) := by
  constructor
  · rintro (h | h)
    · simp [finalSample, h]
    · cases h1 : paramGet file .velToAmp with
      | none => simp [finalSample, h1]
      | some p => obtain ⟨g, hg⟩ := velGain_exact vel p; simp [finalSample, h, h1, hg]
  · intro p q h1 h2
    obtain ⟨g, hg⟩ := velGain_exact vel p
    exact ⟨y * a * g * q, by simp only [finalSample, h1, h2, hg, readOpt_some, res_ok_bind, numMul_exact]⟩

/-- One sample of a voice that lacks something R266 lists faults with `F_UNSET`, before the buffer is read. -/
theorem chain_of_lacking {file : Vector (Option Rat) 25} {w : Voice} (d : Nat) (hI : w.IncsInRange)
    (hL : w.Lacking file) :
    w.chain .exact d = .error Trap.unset ∨ ∃ y a d' u, w.chain .exact d = .ok (y, a, d', u) ∧
      finalSample .exact file w.vel y a = .error Trap.unset := by
  unfold Voice.chain
  cases ho : w.osc.inc with
  | none => left; simp only [(oscProc_exact w.osc).1 ho, res_error_bind]
  | some q =>
  obtain ⟨x, t, hp⟩ := (oscProc_exact w.osc).2 q ho (hI.1 q ho).1 (hI.1 q ho).2
  by_cases h0 : w.env[0].Lacking
  · left; simp only [hp, res_ok_bind, (envTick_exact w.env[0]).1 h0, res_error_bind]
  obtain ⟨xa, la, sa, ha⟩ := (envTick_exact w.env[0]).2 h0
  by_cases h1 : w.env[1].Lacking
  · left; simp only [hp, ha, res_ok_bind, (envTick_exact w.env[1]).1 h1, res_error_bind]
  obtain ⟨xb, lb, sb, hb⟩ := (envTick_exact w.env[1]).2 h1
  by_cases hl0 : w.lfo[0].wave = none ∨ w.lfo[0].inc = none
  · left; simp only [hp, ha, hb, res_ok_bind, (lfoNext_exact w.lfo[0] d).1 hl0, res_error_bind]
  rw [not_or] at hl0
  obtain ⟨k0, hk0⟩ := Option.ne_none_iff_exists'.1 hl0.1
  obtain ⟨q0, hq0⟩ := Option.ne_none_iff_exists'.1 hl0.2
  obtain ⟨x0, n0, l0, hn0, _⟩ := (lfoNext_exact w.lfo[0] d).2 k0 q0 hk0 hq0 (hI.2 0 q0 hq0).1 (hI.2 0 q0 hq0).2
  by_cases hl1 : w.lfo[1].wave = none ∨ w.lfo[1].inc = none
  · left; simp only [hp, ha, hb, hn0, res_ok_bind, (lfoNext_exact w.lfo[1] n0).1 hl1, res_error_bind]
  rw [not_or] at hl1
  obtain ⟨k1, hk1⟩ := Option.ne_none_iff_exists'.1 hl1.1
  obtain ⟨q1, hq1⟩ := Option.ne_none_iff_exists'.1 hl1.2
  obtain ⟨x1, n1, l1, hn1, _⟩ := (lfoNext_exact w.lfo[1] n0).2 k1 q1 hk1 hq1 (hI.2 1 q1 hq1).1 (hI.2 1 q1 hq1).2
  obtain ⟨mod, hm, hmi⟩ := processBlock_exact { w with
    osc := { w.osc with phase := t }
    env := #v[{ w.env[0] with level := la, stage := sa }, { w.env[1] with level := lb, stage := sb }]
    lfo := #v[l0, l1] }
  simp only [hp, ha, hb, hn0, hn1, res_ok_bind, hm]
  cases hc : mod[Dest.cutoff.idx] with
  | none => left; rfl
  | some c =>
  simp only [readOpt_some, res_ok_bind]
  cases hsr : w.flt.sr with
  | none => left; simp only [(setCut_sample_exact w.flt c x).1 hsr, res_error_bind]
  | some r =>
  obtain ⟨g, hg, _, _, hdn, hds⟩ := (setCut_sample_exact w.flt c x).2 r hsr
  simp only [hg, res_ok_bind]
  cases hd : w.flt.drive with
  | none => left; simp only [hdn hd, res_error_bind]
  | some dr =>
  obtain ⟨y, f', hy, _⟩ := hds dr hd
  simp only [hy, res_ok_bind]
  right
  refine ⟨_, _, _, _, rfl, (finalSample_exact file _ _ _).1 ?_⟩
  rcases hL with h | ⟨i, h⟩ | ⟨i, h⟩ | h | h | h | h | h
  · rw [ho] at h; cases h
  · exfalso; fin_cases i; exacts [h0 h, h1 h]
  · exfalso; fin_cases i
    · rcases h with h | h; exacts [hl0.1 h, hl0.2 h]
    · rcases h with h | h; exacts [hl1.1 h, hl1.2 h]
  · rw [hsr] at h; cases h
  · rw [hd] at h; cases h
  · exfalso; rw [hc] at hmi; simp only [h] at hmi; simp at hmi
  · exact .inl h
  · exact .inr h

/-- One sample of a ready voice (R266) runs and leaves it ready. -/
theorem chain_of_ready {file : Vector (Option Rat) 25} {w : Voice} (d : Nat) (hR : w.Ready file) :
    ∃ y a d' u x, w.chain .exact d = .ok (y, a, d', u) ∧ finalSample .exact file w.vel y a = .ok x ∧
      u.Ready file := by
  unfold Voice.chain
  obtain ⟨q, ho, hq0, hq1⟩ := hR.osc
  obtain ⟨x, t, hp⟩ := (oscProc_exact w.osc).2 q ho hq0 hq1
  have hE : ∀ i : Fin 2, ¬ w.env[i].Lacking := by
    intro i; obtain ⟨a1, a2, a3⟩ := hR.env i
    rintro (⟨_, h⟩ | ⟨_, h⟩ | ⟨_, h⟩)
    · rw [Option.isSome_iff_ne_none] at a1; exact a1 h
    · rw [Option.isSome_iff_ne_none] at a2; exact a2 h
    · rw [Option.isSome_iff_ne_none] at a3; exact a3 h
  obtain ⟨xa, la, sa, ha⟩ := (envTick_exact w.env[0]).2 (hE 0)
  obtain ⟨xb, lb, sb, hb⟩ := (envTick_exact w.env[1]).2 (hE 1)
  obtain ⟨hw0, q0, hi0, h00, h01⟩ := hR.lfo 0
  obtain ⟨hw1, q1, hi1, h10, h11⟩ := hR.lfo 1
  obtain ⟨k0, hk0⟩ := Option.isSome_iff_exists.1 hw0
  obtain ⟨k1, hk1⟩ := Option.isSome_iff_exists.1 hw1
  obtain ⟨x0, n0, l0, hn0, e01, e02⟩ := (lfoNext_exact w.lfo[0] d).2 k0 q0 hk0 hi0 h00 h01
  obtain ⟨x1, n1, l1, hn1, e11, e12⟩ := (lfoNext_exact w.lfo[1] n0).2 k1 q1 hk1 hi1 h10 h11
  obtain ⟨mod, hm, hmi⟩ := processBlock_exact { w with
    osc := { w.osc with phase := t }
    env := #v[{ w.env[0] with level := la, stage := sa }, { w.env[1] with level := lb, stage := sb }]
    lfo := #v[l0, l1] }
  simp only [hp, ha, hb, hn0, hn1, res_ok_bind, hm]
  have hbs : (mod[Dest.cutoff.idx]).isSome := by rw [hmi]; exact hR.base
  obtain ⟨c, hc⟩ := Option.isSome_iff_exists.1 hbs
  obtain ⟨r, hsr⟩ := Option.isSome_iff_exists.1 hR.flt.1
  obtain ⟨dr, hd⟩ := Option.isSome_iff_exists.1 hR.flt.2
  obtain ⟨g, hg, _, _, _, hds⟩ := (setCut_sample_exact w.flt c x).2 r hsr
  obtain ⟨y, f', hy, f1, f2⟩ := hds dr hd
  obtain ⟨am, ham⟩ := Option.isSome_iff_exists.1 hR.amount
  obtain ⟨vo, hvo⟩ := Option.isSome_iff_exists.1 hR.volume
  obtain ⟨z, hz⟩ := (finalSample_exact file w.vel y xa).2 am vo ham hvo
  have hc' : readOpt mod[Dest.cutoff.idx] = .ok c := by rw [hc]; rfl
  simp only [hc', hg, hy, res_ok_bind]
  refine ⟨_, _, _, _, z, rfl, hz, ?_⟩
  constructor
  · exact hR.osc
  · intro i; fin_cases i; exacts [hR.env 0, hR.env 1]
  · intro i
    fin_cases i
    · exact ⟨by show l0.wave.isSome; rw [e01]; exact hw0, q0, by show l0.inc = _; rw [e02]; exact hi0, h00, h01⟩
    · exact ⟨by show l1.wave.isSome; rw [e11]; exact hw1, q1, by show l1.inc = _; rw [e12]; exact hi1, h10, h11⟩
  · exact ⟨by show f'.sr.isSome; rw [f1]; exact hR.flt.1, by show f'.drive.isSome; rw [f2]; exact hR.flt.2⟩
  · exact hR.base
  · exact hR.amount
  · exact hR.volume

/-- The sample loop of a ready voice: it runs over elements that hold values, and otherwise faults at the first
element that does not or lies beyond the buffer. -/
theorem renderFrom_of_ready {file : Vector (Option Rat) 25} (len : Option (Fin 65536)) (n i d : Nat) {w : Voice}
    (b : Memory) (hR : w.Ready file) :
    (∀ l, len = some l → (∀ j, i ≤ j → j < i + n → j < l.val → (Memory.get b j).isSome) →
      (i + n ≤ l.val → ∃ r, Voice.renderFrom .exact file len n i d w b = .ok r ∧
        ∀ j, (Memory.get b j).isSome → (Memory.get r.2.2 j).isSome) ∧
      (0 < n → l.val < i + n →
        Voice.renderFrom .exact file len n i d w b = .error (Trap.bufRange (max i l.val)))) ∧
    (∀ l j, len = some l → i ≤ j → j < i + n → j < l.val → Memory.get b j = none →
      Voice.renderFrom .exact file len n i d w b = .error Trap.unset) ∧
    (0 < n → len = none → Voice.renderFrom .exact file len n i d w b = .error Trap.unset) := by
  induction n generalizing i d w b with
  | zero =>
    exact ⟨fun l hl _ => ⟨fun _ => ⟨_, rfl, fun _ h => h⟩, fun h => absurd h (lt_irrefl 0)⟩,
      fun l j _ h1 h2 => by omega, fun h => absurd h (lt_irrefl 0)⟩
  | succ n ih =>
    obtain ⟨y, a, d', u, x, hc, hf, hu⟩ := chain_of_ready d hR
    rw [Voice.renderFrom]
    simp only [hc, hf, res_ok_bind]
    have hr0 : ∀ l, len = some l → l.val ≤ i → bufRead len b i = .error (Trap.bufRange i) := by
      intro l hl h; simp [bufRead, hl, bufCheck_beyond h]
    have hrn : ∀ l, len = some l → i < l.val → Memory.get b i = none → bufRead len b i = .error Trap.unset := by
      intro l hl h hg; simp [bufRead, hl, bufCheck_within h, hg]
    have hrs : ∀ l v, len = some l → i < l.val → Memory.get b i = some v →
        bufRead len b i = .ok v ∧ bufWrite len b i (v + x) = .ok (Memory.put b i (v + x)) := by
      intro l v hl h hg; simp [bufRead, bufWrite, hl, bufCheck_within h, hg]
    have hput : ∀ (l : Fin 65536) (v : Rat), (∀ j, i ≤ j → j < i + (n + 1) → j < l.val → (Memory.get b j).isSome) →
        ∀ j, i + 1 ≤ j → j < i + 1 + n → j < l.val → (Memory.get (Memory.put b i v) j).isSome := by
      intro l v hj j h1 h2 h3
      rw [Memory.get_put_other _ _ (by omega)]
      exact hj j (by omega) (by omega) h3
    refine ⟨?_, ?_, ?_⟩
    · intro l hl hj
      constructor
      · intro hle
        obtain ⟨v, hv⟩ := Option.isSome_iff_exists.1 (hj i le_rfl (by omega) (by omega))
        obtain ⟨h1, h2⟩ := hrs l v hl (by omega) hv
        simp only [h1, numAdd_exact, h2, res_ok_bind]
        obtain ⟨r, hr, hk⟩ := ((ih (i + 1) d' (Memory.put b i (v + x)) hu).1 l hl (hput l _ hj)).1 (by omega)
        refine ⟨r, hr, fun j h => hk j ?_⟩
        by_cases hji : j = i
        · subst hji; simp
        · rw [Memory.get_put_other _ _ hji]; exact h
      · intro _ hlt
        rcases le_or_gt l.val i with h | h
        · simp only [hr0 l hl h, res_error_bind, max_eq_left h]
        · obtain ⟨v, hv⟩ := Option.isSome_iff_exists.1 (hj i le_rfl (by omega) (by omega))
          obtain ⟨h1, h2⟩ := hrs l v hl h hv
          simp only [h1, numAdd_exact, h2, res_ok_bind]
          rw [((ih (i + 1) d' (Memory.put b i (v + x)) hu).1 l hl (hput l _ hj)).2 (by omega) (by omega)]
          congr 2
          omega
    · intro l j hl h1 h2 h3 hg
      cases hv : Memory.get b i with
      | none => simp only [hrn l hl (by omega) hv, res_error_bind]
      | some v =>
        have hne : j ≠ i := by rintro rfl; rw [hg] at hv; cases hv
        obtain ⟨e1, e2⟩ := hrs l v hl (by omega) hv
        simp only [e1, numAdd_exact, e2, res_ok_bind]
        exact (ih (i + 1) d' (Memory.put b i (v + x)) hu).2.1 l j hl (by omega) (by omega) h3
          (by rw [Memory.get_put_other _ _ hne]; exact hg)
    · intro _ hl
      simp [bufRead, hl]

end Sys2Proof.Machine
end

