-- ==== Sys2Proof/Tests/Slice0.lean ====
section
/-! SUPPORT. Tests: the well-formedness smoke, a word of every command decoded, one step of every command, and a
witness for the hypotheses of every statement. Expected values are those of spec/95_test_vectors.md ("T<n>", "P<n>")
or are worked out by hand from the rule named. -/

set_option Elab.async false

namespace Sys2Proof.Tests

open Sys2Proof Sys2Proof.Machine

/-! ## Well-formedness -/

/-- An infinity and NaNs are no value operands (R86); a finite one, and a command without one, are fine. -/
theorem test_wellFormed_smoke :
    WellFormed (.oscSetfreq 0 0x7F800000#32) = false ∧ WellFormed (.bufSt 0 0xFF800000#32) = false ∧
    WellFormed (.modAdd 0 (.obj .lfo1) .cutoff 0x7FC00000#32) = false ∧
    WellFormed (.engSetparam .oscTune 0x7F800001#32) = false ∧
    WellFormed (.oscSetfreq 0 0x7F7FFFFF#32) = true ∧ WellFormed (.lfoSkip 0 0 0x7F800000#32) = true := by
  decide

/-! ## Decoding: a word of every command, written out from R90 to R97 -/

/-- R90. -/
theorem test_decode_buffer :
    decode 0x0100000300000000#64 = .ok (.bufSt 3 0) ∧
    decode 0x0200FFFF00000000#64 = .ok (.bufLd 0xFFFF#16) := by
  decide +kernel

/-- R91. -/
theorem test_decode_oscillator :
    decode 0x10000000447A0000#64 = .ok (.oscSetfreq 0 0x447A0000#32) ∧
    decode 0x1170000045FA0000#64 = .ok (.oscSetsr 7 0x45FA0000#32) ∧
    decode 0x1200030000000000#64 = .ok (.oscSetwave 0 .triangle) ∧
    decode 0x1350000000000000#64 = .ok (.oscProc 5) := by
  decide +kernel

/-- R92. -/
theorem test_decode_envelope :
    decode 0x2001000000000000#64 = .ok (.envNoteon 0 1) ∧
    decode 0x2170000000000000#64 = .ok (.envNoteoff 7 0) ∧
    decode 0x2221000042480000#64 = .ok (.envSetatk 2 1 0x42480000#32) ∧
    decode 0x2300000040000000#64 = .ok (.envSetdec 0 0 0x40000000#32) ∧
    decode 0x240000003F000000#64 = .ok (.envSetsus 0 0 0x3F000000#32) ∧
    decode 0x2531000040000000#64 = .ok (.envSetrel 3 1 0x40000000#32) ∧
    decode 0x26000000472C4400#64 = .ok (.envSetsr 0 0 0x472C4400#32) ∧
    decode 0x2771000000000000#64 = .ok (.envTick 7 1) ∧
    decode 0x2840000000000000#64 = .ok (.envIsactive 4 0) := by
  decide +kernel

/-- R93. -/
theorem test_decode_lfo :
    decode 0x3001000042C80000#64 = .ok (.lfoSetfreq 0 1 0x42C80000#32) ∧
    decode 0x31000000447A0000#64 = .ok (.lfoSetsr 0 0 0x447A0000#32) ∧
    decode 0x3200050000000000#64 = .ok (.lfoSetwave 0 0 .smoothed) ∧
    decode 0x3311010000000000#64 = .ok (.lfoSetbip 1 1 true) ∧
    decode 0x3400000000000000#64 = .ok (.lfoNext 0 0) ∧
    decode 0x35000000FFFFFFFF#64 = .ok (.lfoSkip 0 0 0xFFFFFFFF#32) ∧
    decode 0x3601000000000000#64 = .ok (.lfoReset 0 1) := by
  decide +kernel

/-- R94. -/
theorem test_decode_filter :
    decode 0x40000000457A0000#64 = .ok (.fltSetsr 0 0x457A0000#32) ∧
    decode 0x41600000447A0000#64 = .ok (.fltSetcut 6 0x447A0000#32) ∧
    decode 0x420000003F800000#64 = .ok (.fltSetres 0 0x3F800000#32) ∧
    decode 0x430000003F800000#64 = .ok (.fltSetdrv 0 0x3F800000#32) ∧
    decode 0x44000000BF800000#64 = .ok (.fltProc1 0 0xBF800000#32) ∧
    decode 0x4510010200000004#64 = .ok (.fltProcbuf 1 0x0102#16 4) ∧
    decode 0x4600000000000000#64 = .ok (.fltReset 0) := by
  decide +kernel

/-- R95. -/
theorem test_decode_router :
    decode 0x500007043F800000#64 = .ok (.modAdd 0 (.scalar .pitchbend) .pitch 0x3F800000#32) ∧
    decode 0x5100010200000000#64 = .ok (.modRemove 0 (.obj .lfo2) .pwm) ∧
    decode 0x5200000000000000#64 = .ok (.modClear 0) ∧
    decode 0x5300030100000000#64 = .ok (.modHas 0 (.obj .env2) .resonance) ∧
    decode 0x540000033F000000#64 = .ok (.modSetbase 0 .level 0x3F000000#32) ∧
    decode 0x5500000400000000#64 = .ok (.modGetdest 0 .pitch) ∧
    decode 0x5600000000000040#64 = .ok (.modProcblk 0 64) ∧
    decode 0x570006003F000000#64 = .ok (.modSetscalar 0 .aftertouch 0x3F000000#32) ∧
    decode 0x5800020100000000#64 = .ok (.modRegister 0 .env1 true) := by
  decide +kernel

/-- R96. -/
theorem test_decode_voice :
    decode 0x60707F003F000000#64 = .ok (.voiceNoteon 7 127 0x3F000000#32) ∧
    decode 0x6100010000000000#64 = .ok (.voiceNoteoff 0 true) ∧
    decode 0x6200000600000003#64 = .ok (.voiceRender 0 6 3) ∧
    decode 0x6330000000000000#64 = .ok (.voiceIsactive 3) ∧
    decode 0x6400000041400000#64 = .ok (.voicePitchbend 0 0x41400000#32) ∧
    decode 0x650000003FC00000#64 = .ok (.voiceModwheel 0 0x3FC00000#32) ∧
    decode 0x6610000000000000#64 = .ok (.voiceNote 1) ∧
    decode 0x6700000000000000#64 = .ok (.voiceVelocity 0) := by
  decide +kernel

/-- R97. -/
theorem test_decode_engine :
    decode 0x70000040472C4400#64 = .ok (.engPrepare 64 0x472C4400#32) ∧
    decode 0x71003C003F800000#64 = .ok (.engNoteon 60 0x3F800000#32) ∧
    decode 0x72003D0000000000#64 = .ok (.engNoteoff 61) ∧
    decode 0x7300000600000003#64 = .ok (.engRender 6 3) ∧
    decode 0x740018003F800000#64 = .ok (.engSetparam .masterVolume 0x3F800000#32) := by
  decide +kernel

/-- Words that are no command (T17, T26, T36, T54, T73, T80), the bad operand last (R105). -/
theorem test_decode_rejects :
    decode 0x0000000000000000#64 = .error .illegalCmd ∧ decode 0x1380000000000000#64 = .error .illegalCmd ∧
    decode 0x1300000000000001#64 = .error .illegalCmd ∧ decode 0x0210000000000000#64 = .error .illegalCmd ∧
    decode 0x1200040000000000#64 = .error .illegalCmd ∧ decode 0x2702000000000000#64 = .error .illegalCmd ∧
    decode 0x3200060000000000#64 = .error .illegalCmd ∧ decode 0x5000000500000000#64 = .error .illegalCmd ∧
    decode 0x500008007FC00000#64 = .error .illegalCmd ∧ decode 0x5700000000000000#64 = .error .illegalCmd ∧
    decode 0x5800040000000000#64 = .error .illegalCmd ∧ decode 0x6000800000000000#64 = .error .illegalCmd ∧
    decode 0x7400190000000000#64 = .error .illegalCmd ∧ decode 0x7500000000000000#64 = .error .illegalCmd ∧
    decode 0x100000007FC00000#64 = .error (.badOperand 0x7FC00000#32) := by
  decide +kernel

/-- The table's numbering of a word's bits, and the operand bits above `nbits` (there are none: 64 bits). -/
theorem test_decodeTableWord :
    decodeTableWord 64 0x222100004248_0000 = some (.envSetatk 2 1 0x42480000#32) ∧
    decodeTableWord 64 0 = none := by decide +kernel
/-! ## One step of every command -/

/-- The state after one step that fetches `w` in `s`. -/
def after (s : State) (w : Cmd) : State :=
  match step (s.loadWord w) with
  | .next t => t
  | .fault _ => s
  | .refused _ => s

/-- The reset state with voice 0 changed. -/
def withVoice (f : Voice → Voice) : State := State.reset.setVoice 0 (f State.reset.voices[0])

/-- The reset state with the oscillator of voice 0 changed. -/
def withOsc (f : Osc → Osc) : State := withVoice fun w => { w with osc := f w.osc }

/-- The reset state with the amplitude envelope of voice 0 changed. -/
def withEnv (f : Env → Env) : State := withVoice fun w => w.setEnv 0 (f w.env[0])

/-- The reset state with the first LFO of voice 0 changed. -/
def withLfo (f : Lfo → Lfo) : State := withVoice fun w => w.setLfo 0 (f w.lfo[0])

/-- The reset state with the filter of voice 0 changed. -/
def withFlt (f : Flt → Flt) : State := withVoice fun w => { w with flt := f w.flt }

/-- The reset state with the router of voice 0 changed. -/
def withRouter (f : Router → Router) : State := withVoice fun w => { w with router := f w.router }

/-- The reset state with a buffer of four elements, element 1 holding 1/2. -/
def withBuf : State := { State.reset with bufLen := some 4, buf := [(1, 1 / 2)] }

/-- The fault on record: its code's number, its info word and its `pc`. -/
def faultOf (s : State) : Option (Nat × BitVec 64 × Nat) := s.fault.map fun r => (r.code.number, r.info, r.pc)

/-- T81, R62: a store at the last index; one beyond it; one before ENG.PREPARE. -/
theorem test_bufSt :
    (after withBuf 0x0100000300000000#64).buf = [(1, 1 / 2), (3, 0)] ∧
    faultOf (after withBuf 0x0100000400000000#64) = some (6, 4, 0) ∧
    faultOf (after State.reset 0x0100000000000000#64) = some (3, 0, 0) := by decide +kernel

/-- R64, T81: a set element is answered; an unset one faults. -/
theorem test_bufLd :
    (after withBuf 0x0200000100000000#64).responses = [.num (1 / 2)] ∧
    faultOf (after withBuf 0x0200000000000000#64) = some (3, 0, 0) := by decide +kernel

/-- T10: the increment is derived when the rate is set, unset before. -/
theorem test_oscSetfreq :
    (after (withOsc fun o => { o with sr := some 8000 }) 0x10000000447A0000#64).voices[0].osc.inc = some (1 / 8) ∧
    (after State.reset 0x10000000447A0000#64).voices[0].osc.inc = none := by decide +kernel

/-- T10, T17: the other order; a rate that is not positive. -/
theorem test_oscSetsr :
    (after (withOsc fun o => { o with freq := some 1000 }) 0x11000000457A0000#64).voices[0].osc.inc = some (1 / 4) ∧
    faultOf (after State.reset 0x11000000BF800000#64) = some (4, 0xBF800000, 0) := by decide +kernel

/-- T11. -/
theorem test_oscSetwave : (after State.reset 0x1200010000000000#64).voices[0].osc.wave = .saw := by decide +kernel

/-- T15: a wrap that does not land on 0; T17: an increment of 1. -/
theorem test_oscProc :
    (after (withOsc fun o => { o with phase := 3 / 4, inc := some (1 / 2), wave := .saw })
      0x1300000000000000#64).responses = [.num (1 / 2)] ∧
    (after (withOsc fun o => { o with phase := 3 / 4, inc := some (1 / 2), wave := .saw })
      0x1300000000000000#64).voices[0].osc.phase = 1 / 4 ∧
    faultOf (after (withOsc fun o => { o with inc := some 1 }) 0x1300000000000000#64) = some (5, 0, 0) := by
  decide +kernel

/-- T14: the named points of SINE01. -/
theorem test_oscProc_sine :
    (after (withOsc fun o => { o with phase := 3 / 4, inc := some (1 / 4) }) 0x1300000000000000#64).responses =
      [.num (-1)] := by decide +kernel

/-- The envelope of T20. -/
def adsr : Env :=
  { stage := .idle, level := 0, atkMs := 4, decMs := 2, sus := 1 / 2, relMs := 2, sr := some 1000
    atkRate := some (1 / 4), decRate := some (1 / 4), relRate := some 0, relFrom := 0 }

/-- R39: 0 Idle, 1 Attack, 2 Decay, 3 Sustain, 4 Release, no other. -/
theorem test_stage_codes :
    [Stage.idle, .attack, .decay, .sustain, .release].map Stage.code = [0, 1, 2, 3, 4] ∧
    [0#8, 1, 2, 3, 4, 5].map Stage.ofCode =
      [some .idle, some .attack, some .decay, some .sustain, some .release, none] := by decide

/-- T24 (d): a retrigger keeps the level. -/
theorem test_envNoteon :
    (after (withEnv fun _ => { adsr with stage := .release, level := 1 / 4 }) 0x2000000000000000#64).voices[0].env[0]
      = { adsr with stage := .attack, level := 1 / 4 } := by decide +kernel

/-- T20. -/
theorem test_envNoteoff :
    (after (withEnv fun _ => { adsr with stage := .sustain, level := 1 / 2 }) 0x2100000000000000#64).voices[0].env[0]
      = { adsr with stage := .release, level := 1 / 2, relFrom := 1 / 2, relRate := some (1 / 4) } := by
  decide +kernel

/-- R135: the attack duration is at least `ENV_MIN_MS`, a free value. -/
theorem test_envSetatk :
    Completes (.envSetatk 0 0 0x40800000#32) State.reset .none
      (State.reset.setEnv 0 0 { Env.reset .exact with atkMs := max 4 (envMinMs .exact) }) :=
  (Effect.envSetatk (x := 4) (by decide +kernel) rfl).completes

/-- R145. -/
theorem test_envSetdec :
    Completes (.envSetdec 0 0 0x40000000#32) State.reset .none
      (State.reset.setEnv 0 0 { Env.reset .exact with decMs := max 2 (envMinMs .exact) }) :=
  (Effect.envSetdec (x := 2) (by decide +kernel) rfl).completes

/-- T24 (b): a new sustain level re-derives the decay rate; T23 (c): the clamp. -/
theorem test_envSetsus :
    (after (withEnv fun _ => { adsr with stage := .decay, level := 3 / 4 }) 0x240000003F800000#64).voices[0].env[0]
      = { adsr with stage := .decay, level := 3 / 4, sus := 1, decRate := some 0 } ∧
    (after State.reset 0x24000000BF800000#64).voices[0].env[0].sus = 0 := by decide +kernel

/-- R146. -/
theorem test_envSetrel :
    Completes (.envSetrel 0 1 0x40000000#32) State.reset .none
      (State.reset.setEnv 0 1 { Env.reset .exact with relMs := max 2 (envMinMs .exact) }) :=
  (Effect.envSetrel (x := 2) (by decide +kernel) rfl).completes

/-- T25: the rates at 44100 Hz; T26: a rate of 0. -/
theorem test_envSetsr :
    (after State.reset 0x26000000472C4400#64).voices[0].env[0].decRate = some (1 / 14700) ∧
    (after State.reset 0x26000000472C4400#64).voices[0].env[0].relRate = some 0 ∧
    faultOf (after State.reset 0x2600000000000000#64) = some (4, 0, 0) := by decide +kernel

/-- T20: the tick that ends the decay; T21: the tick that ends an attack it overshoots. -/
theorem test_envTick :
    (after (withEnv fun _ => { adsr with stage := .decay, level := 3 / 4 }) 0x2700000000000000#64).voices[0].env[0]
      = { adsr with stage := .sustain, level := 1 / 2 } ∧
    (after (withEnv fun _ => { adsr with stage := .attack, level := 4 / 5, atkRate := some (2 / 5) })
      0x2700000000000000#64).voices[0].env[0].level = 1 := by decide +kernel

/-- T26. -/
theorem test_envTick_idle :
    (after State.reset 0x2700000000000000#64).responses = [.num 0] ∧
    faultOf (after (withEnv fun e => { e with stage := .attack }) 0x2700000000000000#64) = some (3, 0, 0) := by
  decide +kernel

/-- T20: active in Release, not in Idle. -/
theorem test_envIsactive :
    (after (withEnv fun _ => { adsr with stage := .release }) 0x2800000000000000#64).responses = [.bool true] ∧
    (after State.reset 0x2800000000000000#64).responses = [.bool false] := by decide +kernel

/-- T30: the clamp at 100 Hz; 0.001 Hz. -/
theorem test_lfoSetfreq :
    (after (withLfo fun l => { l with sr := some 1000 }) 0x30000000437A0000#64).voices[0].lfo[0].inc = some (1 / 10) ∧
    (after (withLfo fun l => { l with sr := some 1000 }) 0x300000003A83126F#64).voices[0].lfo[0].inc =
      some (1 / 100000) := by decide +kernel

/-- T30. -/
theorem test_lfoSetsr :
    (after (withLfo fun l => { l with freq := some 100 }) 0x3100000043C80000#64).voices[0].lfo[0].inc = some (1 / 4) ∧
    faultOf (after State.reset 0x3100000000000000#64) = some (4, 0, 0) := by decide +kernel

/-- R164. -/
theorem test_lfoSetwave :
    (after State.reset 0x3200040000000000#64).voices[0].lfo[0].wave = some .stepped := by decide +kernel

/-- R165. -/
theorem test_lfoSetbip :
    (after State.reset 0x3300000000000000#64).voices[0].lfo[0].bipolar = false ∧
    (after State.reset 0x3300000000000000#64).voices[0].lfo[1].bipolar = true := by decide +kernel

/-- T31: the second value of a saw, unipolar, and its latch. -/
theorem test_lfoNext :
    (after (withLfo fun l => { l with phase := 1 / 4, inc := some (1 / 4), wave := some .saw, bipolar := false })
      0x3400000000000000#64).responses = [.num (1 / 4)] ∧
    (after (withLfo fun l => { l with phase := 1 / 4, inc := some (1 / 4), wave := some .saw, bipolar := false })
      0x3400000000000000#64).voices[0].lfo[0].lastOut = 1 / 4 := by decide +kernel

/-- T33: the wrap of a smoothed LFO moves the target to the previous value. -/
theorem test_lfoNext_smoothed :
    (after (withLfo fun l => { l with phase := 3 / 4, inc := some (1 / 4), wave := some .smoothed, sPrev := -1
                                      sTarget := 1 })
      0x3400000000000000#64).responses = [.num (1 / 2)] ∧
    (after (withLfo fun l => { l with phase := 3 / 4, inc := some (1 / 4), wave := some .smoothed, sPrev := -1
                                      sTarget := 1 })
      0x3400000000000000#64).voices[0].lfo[0].sPrev = 1 := by decide +kernel

/-- T34: six advances, one wrap, no draw, no latch; a skip of 0 from reset. -/
theorem test_lfoSkip :
    (after (withLfo fun l => { l with inc := some (1 / 4), wave := some .sine, lastOut := 1 / 8 })
      0x3500000000000006#64).voices[0].lfo[0].phase = 1 / 2 ∧
    (after (withLfo fun l => { l with inc := some (1 / 4), wave := some .sine, lastOut := 1 / 8 })
      0x3500000000000006#64).draws = 48 ∧
    (after State.reset 0x3500000000000000#64).responses = [.none] := by decide +kernel

/-- T35: three draws, the latch stays. -/
theorem test_lfoReset :
    (after (withLfo fun l => { l with phase := 1 / 4, lastOut := -1 }) 0x3600000000000000#64).voices[0].lfo[0].phase
      = 0 ∧
    (after (withLfo fun l => { l with phase := 1 / 4, lastOut := -1 }) 0x3600000000000000#64).voices[0].lfo[0].lastOut
      = -1 ∧
    (after State.reset 0x3600000000000000#64).draws = 51 := by decide +kernel

/-- The filter of T40 after FLT.SETSR 4000.0, with a drive of 1. -/
def ladder : Flt :=
  { y1 := 0, y2 := 0, y3 := 0, y4 := 0, h1 := 0, h2 := 0, p := some (1 / 2), k := some (1 / 40), cutoff := 1000
    res := 1 / 10, drive := some 1, sr := some 4000 }

/-- T40, T44: the coefficients, and a rate whose top cutoff is below 20. -/
theorem test_fltSetsr :
    (after State.reset 0x40000000457A0000#64).voices[0].flt = { ladder with drive := none } ∧
    faultOf (after State.reset 0x4000000042200000#64) = some (4, 0x42200000, 0) := by decide +kernel

/-- T40: the clamp; T44: the rate unset. -/
theorem test_fltSetcut :
    (after (withFlt fun _ => ladder) 0x4100000046EA6000#64).voices[0].flt.cutoff = 1800 ∧
    faultOf (after State.reset 0x41000000447A0000#64) = some (3, 0, 0) := by decide +kernel

/-- T40. -/
theorem test_fltSetres :
    (after (withFlt fun _ => ladder) 0x4200000040200000#64).voices[0].flt =
      { ladder with res := 1, k := some (1 / 4) } := by decide +kernel

/-- T40. -/
theorem test_fltSetdrv :
    (after State.reset 0x43000000BF800000#64).voices[0].flt.drive = some 0 := by decide +kernel

/-- R197 with `u = TANH(0) = 0`: the second row of T41's history passed on; T44: the drive unset. -/
theorem test_fltProc1 :
    (after (withFlt fun _ => { ladder with y1 := 1 / 2, y2 := 1 / 4, y3 := 1 / 8, y4 := 1 / 16 })
      0x4400000000000000#64).responses = [.num (1279 / 10240)] ∧
    faultOf (after (withFlt fun _ => { ladder with drive := none }) 0x4400000000000000#64) = some (3, 0, 0) := by
  decide +kernel

/-- R201: in place, ascending, the index of the first element that is beyond the buffer. -/
theorem test_fltProcbuf :
    (after { (withFlt fun _ => { ladder with y1 := 1 / 2, y2 := 1 / 4, y3 := 1 / 8, y4 := 1 / 16 }) with
      bufLen := some 4, buf := [(2, 0), (3, 0)] } 0x4500000200000001#64).buf = [(2, 1279 / 10240), (3, 0)] ∧
    faultOf (after { (withFlt fun _ => ladder) with bufLen := some 4, buf := [(2, 0), (3, 0)] }
      0x4500000200000003#64) = some (6, 4, 0) := by decide +kernel

/-- T42. -/
theorem test_fltReset :
    (after (withFlt fun _ => { ladder with y1 := 1, y2 := 2, y3 := 3, y4 := 4, h1 := 5, h2 := 6 })
      0x4600000000000000#64).voices[0].flt = ladder := by decide +kernel

/-- T50's matrix: LFO1 to CUTOFF 500. -/
def routed (r : Router) : Router := (r.setConn (.obj .lfo1) .cutoff (some 500)).setBase .cutoff 1000

/-- T51: the second amount replaces the first. -/
theorem test_modAdd :
    (after (withRouter routed) 0x5000000042C80000#64).voices[0].router.cell (.obj .lfo1) .cutoff = some 100 ∧
    (after (withRouter routed) 0x5000030044FA0000#64).voices[0].router.cell (.obj .lfo1) .cutoff = some 500 := by
  decide +kernel

/-- R223, T51: removed; removing what is not there. -/
theorem test_modRemove :
    (after (withRouter routed) 0x5100000000000000#64).voices[0].router.cell (.obj .lfo1) .cutoff = none ∧
    (after (withRouter routed) 0x5100010200000000#64).voices[0].router = routed .reset := by decide +kernel

/-- T53: bases survive a clear. -/
theorem test_modClear :
    (after (withRouter routed) 0x5200000000000000#64).voices[0].router = Router.reset.setBase .cutoff 1000 := by
  decide +kernel

/-- T51. -/
theorem test_modHas :
    (after (withRouter routed) 0x5300000000000000#64).responses = [.bool true] ∧
    (after (withRouter routed) 0x5300000400000000#64).responses = [.bool false] := by decide +kernel

/-- R226: a base is stored unclamped. -/
theorem test_modSetbase :
    (after State.reset 0x5400000046EA6000#64).voices[0].router.base[0] = some 30000 := by decide +kernel

/-- R227, T54. -/
theorem test_modGetdest :
    (after (withRouter fun r => { r with mod := r.mod.set 4 (some 12) }) 0x5500000400000000#64).responses =
      [.num 12] ∧
    faultOf (after State.reset 0x5500000000000000#64) = some (3, 0, 0) := by decide +kernel

/-- T50: the sum, over 64 samples as over one. -/
theorem test_modProcblk :
    (after (withVoice fun w => { (w.setLfo 0 { w.lfo[0] with lastOut := -1 / 2 }).setEnv 1
        { w.env[1] with level := 1 / 2 } with router := (routed w.router).setConn (.obj .env2) .cutoff (some 2000) })
      0x5600000000000040#64).voices[0].router.mod[0] = some 1750 ∧
    (after (withRouter fun r => (r.setBase .pitch 0).setConn (.scalar .pitchbend) .pitch (some 1))
      0x5600000000000000#64).voices[0].router.mod[4] = some 0 := by decide +kernel

/-- T52 (c), (d): velocity is clamped, pitch bend is not. -/
theorem test_modSetscalar :
    (after State.reset 0x570004003FC00000#64).voices[0].router.scalar[0] = 1 ∧
    (after State.reset 0x5700070041C00000#64).voices[0].router.scalar[3] = 24 := by decide +kernel

/-- T53. -/
theorem test_modRegister :
    (after State.reset 0x5800000000000000#64).voices[0].router.registered[0] = false ∧
    (after State.reset 0x5800020000000000#64).voices[0].router.registered[2] = false := by decide +kernel

/-- T61. -/
theorem test_voiceNoteon :
    (after State.reset 0x600045003F000000#64).voices[0].note = some 69 ∧
    (after State.reset 0x600045003F000000#64).voices[0].osc.freq = some 440 ∧
    (after State.reset 0x600045003F000000#64).voices[0].env[1].stage = .attack ∧
    (after State.reset 0x600045003F000000#64).draws = 54 := by decide +kernel

/-- A sounding voice. -/
def sounding (w : Voice) : Voice := { w with note := some 57, vel := 1 / 2, playing := true }

/-- T62: with the tail, without it. -/
theorem test_voiceNoteoff :
    (after (withVoice fun w => (sounding w).setEnv 0 { adsr with stage := .attack, level := 1 / 2 })
      0x6100010000000000#64).voices[0].env[0].relRate = some (1 / 4) ∧
    (after (withVoice fun w => (sounding w).setEnv 0 { adsr with stage := .attack, level := 1 / 2 })
      0x6100010000000000#64).voices[0].lifecycle = .releasing ∧
    (after (withVoice sounding) 0x6100000000000000#64).voices[0].note = none := by decide +kernel

/-- T61. -/
theorem test_voicePitchbend :
    (after (withVoice sounding) 0x6400000041400000#64).voices[0].osc.freq = some 440 ∧
    (after State.reset 0x6400000041400000#64).voices[0].osc.freq = none ∧
    (after State.reset 0x6400000041400000#64).voices[0].bend = 12 := by decide +kernel

/-- T61. -/
theorem test_voiceModwheel :
    (after State.reset 0x650000003FC00000#64).voices[0].wheel = 1 ∧
    (after State.reset 0x650000003FC00000#64).voices[0].router.scalar[1] = 1 := by decide +kernel

/-- T61. -/
theorem test_voiceNote :
    (after (withVoice sounding) 0x6600000000000000#64).responses = [.int 57] ∧
    (after State.reset 0x6610000000000000#64).responses = [.int 0xFFFFFFFF#32] := by decide +kernel

/-- T61. -/
theorem test_voiceVelocity :
    (after (withVoice sounding) 0x6700000000000000#64).responses = [.num (1 / 2)] := by decide +kernel

/-- R268. -/
theorem test_voiceIsactive :
    (after (withVoice sounding) 0x6300000000000000#64).responses = [.bool true] ∧
    (after (withVoice sounding) 0x6310000000000000#64).responses = [.bool false] := by decide +kernel

/-- The parameters of P4 that need no configuration function, the drive 0 so that TANH is taken at 0. -/
def renderParams : Vector (Option Rat) 25 :=
  #v[some 2, none, none, some 330, some (1 / 10), some 0, none, none, none, none, none, none, none, none, none,
    some 1, some 2, none, some 1, some 2, none, none, none, some 0, some 1]

/-- Voice 0 of P4 before command 14. -/
def renderVoice (w : Voice) : Voice :=
  { sounding w with
    note := some 69
    vel := 1
    osc := { w.osc with freq := some 440, sr := some 1320, inc := some (1 / 3) }
    env := #v[{ adsr with stage := .attack, atkRate := some (1 / 66) },
      { adsr with stage := .attack, atkRate := some (1 / 66) }]
    lfo := #v[{ w.lfo[0] with sr := some 1320 }, { w.lfo[1] with sr := some 1320 }]
    flt := { ladder with sr := some 1320, y4 := 1 } }

/-- P4 before command 14, with `renderParams`. -/
def renderState : State :=
  { (withVoice renderVoice) with param := renderParams, bufLen := some 8, buf := [(0, 1), (1, 0)] }

/-- P4, sample 0: the units after one sample. -/
theorem test_voiceRender :
    (after renderState 0x6200000000000001#64).voices[0].osc.phase = 1 / 3 ∧
    (after renderState 0x6200000000000001#64).voices[0].env[0].level = 1 / 66 ∧
    (after renderState 0x6200000000000001#64).voices[0].lfo[1].lastOut = -1 ∧
    (after renderState 0x6200000000000001#64).voices[0].flt.cutoff = 330 := by decide +kernel

/-- R197, R264, worked out by hand: with `u = 0` and `y4 = 1` before, `x = −1/40` and `y4` becomes `1 + 1/2 (y3 − 1)`
with `y3 = −1/320`, so 319/640; times `a = 1/66`; added to the 1 in the buffer. R265: out of range. -/
theorem test_voiceRender_sample :
    (after renderState 0x6200000000000001#64).buf = [(0, 1 + 319 / 640 / 66), (1, 0)] ∧
    faultOf (after renderState 0x6200000100000002#64) = some (3, 0, 0) := by decide +kernel

/-- P3, command 0; T44: 40 Hz is too low. -/
theorem test_engPrepare :
    (after withBuf 0x70000004457A0000#64).buf = [] ∧
    (after withBuf 0x70000004457A0000#64).bufLen = some 4 ∧
    (after withBuf 0x70000004457A0000#64).voices[7].flt = { ladder with drive := none } ∧
    (after withBuf 0x70000004457A0000#64).voices[7].env[1].decRate = some (3 / 4000) ∧
    faultOf (after withBuf 0x7000000442200000#64) = some (4, 0x42200000, 0) := by decide +kernel

/-- All eight voices sounding, the levels those of T71. -/
def fullState : State :=
  { State.reset with voices := Vector.ofFn fun v =>
      (sounding State.reset.voices[v]).setEnv 0 { adsr with stage := .attack, level := if v.val = 0 then 1 / 2205 else 0 } }

/-- T71: the lowest level of lowest index is stolen; T70: the lowest Free voice. -/
theorem test_engNoteon :
    (after fullState 0x710045003F800000#64).voices[1].note = some 69 ∧
    (after fullState 0x710045003F800000#64).voices[0].note = some 57 ∧
    (after (withVoice sounding) 0x710045003F800000#64).voices[1].note = some 69 := by decide +kernel

/-- T72: every holder is released; a voice that does not hold the note is not. -/
theorem test_engNoteoff :
    (after fullState 0x7200390000000000#64).voices[0].lifecycle = .releasing ∧
    (after fullState 0x7200390000000000#64).voices[7].lifecycle = .releasing ∧
    (after fullState 0x72003A0000000000#64).voices[7].lifecycle = .playing := by decide +kernel

/-- P4: voice 0 renders, the Free voices only take the parameters. -/
theorem test_engRender :
    (after renderState 0x7300000000000001#64).buf = [(0, 1 + 319 / 640 / 66), (1, 0)] ∧
    (after renderState 0x7300000000000001#64).voices[7].osc.wave = .square ∧
    (after renderState 0x7300000000000001#64).voices[7].osc.phase = 0 := by decide +kernel

/-- T73. -/
theorem test_engSetparam :
    (after State.reset 0x7400000040200000#64).param[0] = some (5 / 2) ∧
    (after State.reset 0x7400000040200000#64).voices[0].osc.wave = .sine := by decide +kernel

/-! ## The step itself, and `F32` -/

/-- P5: a halted block does nothing; the end of the stream is no step. -/
theorem test_step_halted :
    (step { after State.reset 0x1300000000000000#64 with stream := [0, 0x1200010000000000#64] } =
      .next { after State.reset 0x1300000000000000#64 with stream := [0, 0x1200010000000000#64] }) ∧
    step State.reset = .fault .endOfStream := ⟨rfl, rfl⟩

/-- T80, code 7: `2^127 ÷ 2^-126` has no finite binary32. -/
theorem test_f32_overflow :
    faultOf (after ((State.resetIn .f32).setOsc 0 { Osc.reset with sr := some (1 / 2 ^ 126) }) 0x100000007F000000#64) =
      some (7, 0, 0) := by decide +kernel

/-- P1: the answer of a saw at phase 3/4 in `F32`, as a response word; R86: the binary32 nearest to 1/10. -/
theorem test_f32_pattern :
    responseWord .f32 (.num (-3 / 4)) = some (1#2 ++ 0xBF400000#32) ∧
    lit .f32 (1 / 10) = 13421773 / 2 ^ 27 ∧ lit .f32 (7 / 10) = 11744051 / 16777216 := by decide +kernel
/-! ## Witnesses: for each statement with hypotheses, inputs that meet them, one per clause, at the ends of ranges -/

/-- The state `s` when the next word is `w`. -/
abbrev fed (s : State) (w : Cmd) : State := s.loadWord w

/-- The state a command leaves. -/
def next (i : Instr) (s : State) : State :=
  match exec i s with
  | .next t => t
  | .fault _ => s
  | .refused _ => s

/-- A command that leaves no fault on record completes. -/
theorem completes_of_faultless {i : Instr} {s : State} (h : (next i s).fault.isNone = true) :
    ∃ r t, Completes i s r t := by
  rcases completes_or_traps i s with h' | ⟨code, info, h'⟩
  · exact h'
  · rw [next, h'] at h; simp at h

/-- A command that puts a fault on record takes it. -/
theorem traps_of_fault {i : Instr} {s : State} (h0 : s.fault.isNone = true) (h : (next i s).fault.isSome = true) :
    ∃ code info, Traps i s code info := by
  rcases completes_or_traps i s with ⟨r, t, h'⟩ | h'
  · have hf : t.fault = s.fault := (completes_iff.1 h').frame.2.2.2.1
    rw [next, h'] at h
    rw [Option.isNone_iff_eq_none] at h0
    simp [hf, h0] at h
  · exact h'

/-- A computation checked to succeed with a value that meets `P` does. -/
theorem ok_of_check {α : Type} {x : Res α} {P : α → Bool}
    (h : (match x with
      | .ok a => P a
      | .error _ => false) = true) : ∃ a, x = .ok a ∧ P a = true := by
  cases x with
  | ok a => exact ⟨a, rfl, h⟩
  | error t => cases h

/-- A render that leaves no fault on record completes with the state it leaves. -/
theorem render_completes_next {v : Fin 8} {start : BitVec 16} {n : BitVec 32} {s : State}
    (h : (next (.voiceRender v start n) s).fault.isNone = true) :
    Completes (.voiceRender v start n) s .none (next (.voiceRender v start n) s) := by
  rcases exec_cases (.voiceRender v start n) s with ⟨r, t, hE, hx⟩ | ⟨t, hx⟩
  · have hf := hE.frame
    rw [next, hx]
    show exec _ s = _
    rw [hx, State.respond, hf.1, hf.2.2.2.2]
    cases hE
    rfl
  · rw [next, hx] at h; simp at h

theorem witness_DecodeOfEncodeIsTheCommand :
    WellFormed (.bufSt 0xFFFF#16 0xFF7FFFFF#32) = true ∧ WellFormed (.lfoSkip 7 1 0xFFFFFFFF#32) = true := by
  decide +kernel

theorem witness_DecodingAcceptsExactlyTheCommandWords :
    decode 0x10000000FF7FFFFF#64 = .ok (.oscSetfreq 0 0xFF7FFFFF#32) ∧
    decode 0x100000007F800000#64 = .error (.badOperand 0x7F800000#32) ∧
    decode 0x1300000000000001#64 = .error .illegalCmd := by decide +kernel

/-- The first code beyond each range (R88), the premises of the clauses on illegal codes. -/
theorem witness_illegal_codes :
    3 < (4#8).toNat ∧ 5 < (6#8).toNat ∧ 1 < (2#8).toNat ∧ 7 < (8#8).toNat ∧ 4 < (5#8).toNat ∧ (3#8).toNat < 4 ∧
    3 < (4#8).toNat ∧ 127 < (128#8).toNat ∧ 24 < (25#8).toNat := by decide

/-- The ends of the ranges R98 lists are reserved, the opcodes next to them are not. -/
theorem witness_ReservedOpcodesAreIllegal :
    ((fed State.reset 0#64).fault = none ∧ (fed State.reset 0#64).stream[(fed State.reset 0#64).pc]? = some 0#64) ∧
    (∀ o ∈ [0x00, 0x03, 0x0F, 0x14, 0x1F, 0x29, 0x2F, 0x37, 0x3F, 0x47, 0x4F, 0x59, 0x5F, 0x68, 0x6F, 0x75, 0x7F,
      0x80, 0xFF], ReservedOpcode o) ∧
    (∀ o ∈ [0x01, 0x02, 0x10, 0x13, 0x20, 0x28, 0x30, 0x36, 0x40, 0x46, 0x50, 0x58, 0x60, 0x67, 0x70, 0x74],
      ¬ReservedOpcode o) := by
  refine ⟨by decide +kernel, ?_, ?_⟩ <;> unfold ReservedOpcode <;> decide

/-- The largest code operands the constraints of R106 allow. -/
theorem witness_OpcodeTableSelectsTheCommand :
    SelectsRow 0x3200050000000000#64 (.lfoSetwave 0 0 .sine) ∧
    SelectsRow 0x7400180000000000#64 (.engSetparam .oscTune 0) ∧
    SelectsRow 0x5500000400000000#64 (.modGetdest 0 .cutoff) ∧
    decode 0x5500000400000000#64 = .ok (.modGetdest 0 .pitch) := by
  unfold SelectsRow TableConstraint; decide +kernel

/-- The all-zero word selects no row; a block that fetches it. -/
theorem witness_OpcodeTableSelectsTheCommand_illegal :
    (¬∃ i : Instr, SelectsRow 0 i) ∧ (fed State.reset 0).fault = none ∧
    (fed State.reset 0).stream[(fed State.reset 0).pc]? = some 0 := by
  refine ⟨?_, rfl, rfl⟩
  rintro ⟨i, h, -⟩
  cases i <;> simp [tableMask, tableMatch] at h

theorem witness_StepRunsTheFetchedWord :
    (∀ w : Cmd, (fed State.reset w).fault = none ∧ (fed State.reset w).stream[(fed State.reset w).pc]? = some w) ∧
    decode 0x0200000000000000#64 = .ok (.bufLd 0) ∧ decode 0#64 = .error .illegalCmd ∧
    decode 0x100000007F800000#64 = .error (.badOperand 0x7F800000#32) :=
  ⟨fun _ => ⟨rfl, rfl⟩, by decide +kernel⟩

theorem witness_HaltedBlockExecutesNothing : (after State.reset 0#64).fault ≠ none := by decide +kernel

theorem witness_OnlyTheEndOfTheStreamStops :
    State.reset.fault = none ∧ State.reset.stream.length ≤ State.reset.pc := by decide +kernel

/-- The block two words into its stream; the word before `pc` and the one after it stay. -/
theorem witness_LoadedWordIsTheNextCommand :
    decode 0x0200000000000000#64 = .ok (.bufLd 0) ∧
    ({ State.reset with pc := 1, stream := [5, 6, 7] } : State).stream[0]? = some 5 ∧
    ({ State.reset with pc := 1, stream := [5, 6, 7] } : State).stream[2]? = some 7 := by decide +kernel

theorem witness_NonFiniteOperandFaults :
    (Instr.oscSetfreq 0 0x7F800000#32).valueOperand = some 0x7F800000#32 ∧
    (0x7F800000#32).extractLsb' 23 8 = 255#8 ∧ (0x7F7FFFFF#32).extractLsb' 23 8 ≠ 255#8 ∧
    (Instr.lfoSkip 0 0 0x7F800000#32).valueOperand = none := by decide

/-- An infinity, the largest subnormal, the least normal and the largest finite pattern. -/
theorem witness_BinaryPatternValue :
    ((0xFF800000#32).extractLsb' 23 8).toNat = 255 ∧ ((0x007FFFFF#32).extractLsb' 23 8).toNat = 0 ∧
    ((0x00800000#32).extractLsb' 23 8).toNat = 1 ∧ ((0x7F7FFFFF#32).extractLsb' 23 8).toNat = 254 ∧
    f32Value 0x00800000#32 = some (1 / 2 ^ 126) := by decide +kernel

theorem witness_ResponseWordLayout :
    f32Value 0x80000001#32 = some (-1 / 2 ^ 149) ∧ f32Value 0x80000000#32 = some 0 := by decide +kernel

/-- A tie: `1 + 2^-24` lies half way between 1 and the next binary32, whose pattern is odd; a result that is not
finite; the largest magnitude that is. -/
theorem witness_F32OperationsRoundToNearestEven :
    numResult .f32 (1 + 1 / 2 ^ 24) = .ok 1 ∧ f32Value 0x3F800001#32 = some (1 + 1 / 2 ^ 23) ∧
    f32Value 0x3F800000#32 = some 1 ∧ (1 : Rat) ≠ 1 + 1 / 2 ^ 23 ∧ (2 : Rat) ≠ 0 ∧
    numResult .f32 (2 ^ 128 - 2 ^ 103) = .error Trap.numeric ∧
    numResult .f32 (2 ^ 128 - 2 ^ 104) = .ok (2 ^ 128 - 2 ^ 104) := by decide +kernel

/-- The ends of the ranges: a cutoff of 20 at the least sample rate it is legal at, one just below `fs/4`, two just below
`fs/2`; the resonances 0 and 1; two notes an octave apart. -/
theorem witness_ConfigurationFunctionsMeetTheirProperties :
    ((0 : Rat) ≤ 0 ∧ (0 : Rat) < 1 / 2) ∧ ((0 : Rat) < 1) ∧ (4 * (11025 : Rat) - 4 < 44100) ∧
    ((0 : Rat) < 22048 ∧ (22048 : Rat) < 22049 ∧ 2 * (22049 : Rat) < 44100) ∧
    ((20 : Rat) ≤ 20 ∧ (20 : Rat) ≤ 9 / 20 * (400 / 9) ∧ (0 : Rat) ≤ 0 ∧ (1 : Rat) ≤ 1) ∧
    ((69 : Rat) < 81 ∧ noteHz .exact 69 = .ok 440 ∧ noteHz .exact 81 = .ok 880 ∧
      noteHz .f32 69 = .ok 440 ∧ noteHz .f32 81 = .ok 880) ∧ ((18000 : Rat) ≤ 9 / 20 * 40000) := by
  decide +kernel

/-- Before a length is set; the last index, unset and set; the first index beyond. -/
theorem witness_BufferStoreAndLoad :
    f32Value 0x7F800000#32 = none ∧ f32Value 0#32 = some 0 ∧ State.reset.bufLen = none ∧
    (withBuf.bufLen = some 4 ∧ (3 : Fin 65536).val < (4 : Fin 65536).val ∧ Memory.get withBuf.buf 3 = none) ∧
    (Memory.get withBuf.buf 1 = some (1 / 2)) ∧ ((4 : Fin 65536).val ≤ (4#16).toNat) ∧
    ((0xFFFF#16).toNat = 65535) ∧ Memory.wf withBuf.buf := by
  refine ⟨?_, ?_, ?_, ?_, ?_, ?_, ?_, List.pairwise_singleton _ _⟩ <;> decide +kernel

/-- The rate unset and set, a quotient and an overflow in `F32`; a rate of 0, of −1, of 8000. -/
theorem witness_OscillatorFrequencyAndRate :
    f32Value 0x7F800000#32 = none ∧ f32Value 0x45FA0000#32 = some 8000 ∧ f32Value 0#32 = some 0 ∧
    f32Value 0xBF800000#32 = some (-1) ∧ State.reset.voices[0].osc.sr = none ∧
    State.reset.voices[0].osc.freq = none ∧
    (withOsc fun o => { o with sr := some 8000 }).voices[0].osc.sr = some 8000 ∧
    numDiv .exact 1000 8000 = .ok (1 / 8) ∧ numDiv .f32 (2 ^ 127) (1 / 2 ^ 126) = .error Trap.numeric ∧
    (withOsc fun o => { o with freq := some 1000 }).voices[0].osc.freq = some 1000 := by decide +kernel

/-- The increments 0, just below 1, 1 and −1; a sum just below 1 and one of 1; the saw at 0. -/
theorem witness_OscillatorProcess :
    (numMul .exact 2 0 = .ok 0 ∧ numSub .exact 0 1 = .ok (-1)) ∧ ((1 / 4 : Rat) < 1 / 2 ∧ (1 / 2 : Rat) < 3 / 4) ∧
    ((-1 : Rat) < 0 ∧ (1 : Rat) ≤ 1) ∧ ((0 : Rat) ≤ 7 / 8 ∧ (7 / 8 : Rat) < 1) ∧
    (numAdd .exact 0 (7 / 8) = .ok (7 / 8) ∧ numAdd .exact (1 / 8) (7 / 8) = .ok 1 ∧ numSub .exact 1 1 = .ok 0) ∧
    State.reset.voices[0].osc.inc = none ∧
    ((withOsc fun o => { o with inc := some 1 }).voices[0].osc.inc = some 1 ∧ waveValue .exact .sine 0 = .ok 0) ∧
    phaseStep .exact 0 (7 / 8) = .ok (7 / 8, false) ∧ phaseStep .exact (1 / 8) (7 / 8) = .ok (0, true) := by
  decide +kernel

/-- T11's oscillator: N = 8. -/
theorem witness_OscillatorIsPeriodic :
    let o : Osc := { phase := 7 / 8, inc := some (1 / 8), wave := .saw, freq := some 1000, sr := some 8000 }
    o.inc = some (1 / 8) ∧ (0 : Rat) ≤ 1 / 8 ∧ (1 / 8 : Rat) < 1 ∧ 0 ≤ o.phase ∧ o.phase < 1 ∧
    o.freq = some 1000 ∧ o.sr = some 8000 ∧ (0 : Rat) < 1000 ∧ (1 / 8 : Rat) = 1000 / 8000 ∧
    ((8 : Nat) : Rat) = 8000 / 1000 := by decide +kernel

theorem witness_EnvelopeRateDerivation :
    ((0 : Rat) ≤ 0) ∧ ((0 : Rat) < 4 ∧ (0 : Rat) < 1) ∧ numMul .exact 4 (lit .exact (1 / 1000)) = .ok (4 / 1000) ∧
    numMul .exact (4 / 1000) 1000 = .ok 4 ∧ numDiv .exact 1 4 = .ok (1 / 4) ∧ (Env.reset .exact).sr = none ∧
    adsr.sr = some 1000 ∧ calcRate .exact 1 adsr.atkMs 1000 = .ok (1 / 4) ∧ numSub .exact 1 adsr.sus = .ok (1 / 2) ∧
    calcRate .exact (1 / 2) adsr.decMs 1000 = .ok (1 / 4) ∧ calcRate .exact adsr.relFrom adsr.relMs 1000 = .ok 0 := by
  decide +kernel

/-- Setters with the rate unset, whatever `ENV_MIN_MS`; a rate of 1000 and of 0. -/
theorem witness_EnvelopeSettersRederive :
    f32Value 0x7F800000#32 = none ∧ f32Value 0x447A0000#32 = some 1000 ∧ f32Value 0#32 = some 0 ∧
    (∀ x y z, ∃ e', Env.rederive .exact { Env.reset .exact with atkMs := x, decMs := y, relMs := z } = .ok e') ∧
    (∃ e', Env.rederive .exact { Env.reset .exact with sus := 1 / 2 } = .ok e') ∧
    Env.rederive .exact { adsr with sus := 1 } = .ok { adsr with sus := 1, decRate := some 0 } :=
  ⟨by decide +kernel, by decide +kernel, by decide +kernel, fun _ _ _ => ⟨_, rfl⟩, ⟨_, rfl⟩, by decide +kernel⟩

theorem witness_EnvelopeNotes :
    ({ adsr with stage := .attack } : Env).stage = .attack ∧ ({ adsr with stage := .decay } : Env).stage = .decay ∧
    ({ adsr with stage := .sustain } : Env).stage = .sustain ∧
    Env.rederive .exact { adsr with stage := .sustain, level := 1 / 2, relFrom := 1 / 2 } =
      .ok { adsr with stage := .sustain, level := 1 / 2, relFrom := 1 / 2, relRate := some (1 / 4) } ∧
    adsr.stage = .idle := by decide +kernel

/-- Every stage; the rates unset and set; levels just short of a boundary and on it. -/
theorem witness_EnvelopeTick :
    adsr.stage = .idle ∧ (Env.reset .exact).atkRate = none ∧ (Env.reset .exact).decRate = none ∧
    (Env.reset .exact).relRate = none ∧
    (withEnv fun e => { e with stage := .attack }).voices[0].env[0].stage = .attack ∧
    (numAdd .exact (1 / 2) (1 / 4) = .ok (3 / 4) ∧ numAdd .exact (3 / 4) (1 / 4) = .ok 1) ∧
    (numSub .exact 1 (1 / 4) = .ok (3 / 4) ∧ adsr.sus < 3 / 4 ∧ numSub .exact (3 / 4) (1 / 4) = .ok (1 / 2) ∧
      1 / 2 ≤ adsr.sus) ∧
    (numSub .exact (1 / 2) (1 / 4) = .ok (1 / 4) ∧ numSub .exact (1 / 4) (1 / 4) = .ok 0) := by decide +kernel

/-- The three ends of a ramp, and ramps that meet the premises of R143. -/
theorem witness_EnvelopeRampsAreContinuousAndEnd :
    Env.tick .exact { adsr with stage := .attack, level := 3 / 4 } = .ok (1, { adsr with stage := .decay, level := 1 }) ∧
    Env.tick .exact { adsr with stage := .decay, level := 3 / 4 } =
      .ok (1 / 2, { adsr with stage := .sustain, level := 1 / 2 }) ∧
    Env.tick .exact { adsr with stage := .release, level := 1 / 4, relRate := some (1 / 4) } =
      .ok (0, { adsr with level := 0, relRate := some (1 / 4) }) ∧
    (adsr.atkRate = some (1 / 4) ∧ (0 : Rat) < 1 / 4 ∧ 0 ≤ adsr.level ∧ adsr.sus < 1 ∧ adsr.level ≤ 1) ∧
    (({ adsr with relFrom := 1 / 2, level := 1 / 2 } : Env).level ≤ 1 / 2 ∧ (0 : Rat) < 1 / 2) ∧
    (({ adsr with sus := 1 } : Env).sus = 1 ∧ adsr.level ≤ 0) := by decide +kernel

theorem witness_DefaultEnvelopeTiming : ∃ e, Env.setSr .exact 0x472C4400#32 44100 (Env.reset .exact) = .ok e :=
  ⟨{ Env.reset .exact with
      sr := some 44100, atkRate := some (1 / 2205), decRate := some (1 / 14700), relRate := some 0 },
    by decide +kernel⟩

theorem witness_LfoSetters :
    f32Value 0x7F800000#32 = none ∧ f32Value 0x437A0000#32 = some 250 ∧ f32Value 0#32 = some 0 ∧
    State.reset.voices[0].lfo[0].sr = none ∧ State.reset.voices[0].lfo[0].freq = none ∧
    (withLfo fun l => { l with sr := some 1000 }).voices[0].lfo[0].sr = some 1000 ∧
    numDiv .exact (min (max 250 (lit .exact (1 / 100))) 100) 1000 = .ok (1 / 10) ∧
    (withLfo fun l => { l with freq := some 100 }).voices[0].lfo[0].freq = some 100 ∧
    numDiv .exact 100 400 = .ok (1 / 4) := by decide +kernel

/-- An LFO with a saw at an increment of 1/4. -/
def sawLfo (l : Lfo) : Lfo := { l with wave := some .saw, inc := some (1 / 4) }

/-- The increment unset, −1, 1; an advance with and without a wrap, bipolar and not. -/
theorem witness_LfoNextAndReset :
    (numSub .exact 1 (-1) = .ok 2 ∧ numMul .exact 2 (1 / 4) = .ok (1 / 2) ∧ numAdd .exact (-1) (1 / 2) = .ok (-1 / 2)) ∧
    (phaseStep .exact (1 / 2) (1 / 4) = .ok (3 / 4, false) ∧ phaseStep .exact (3 / 4) (1 / 4) = .ok (0, true)) ∧
    State.reset.voices[0].lfo[0].wave = none ∧
    ((withLfo sawLfo).voices[0].lfo[0].value (withLfo sawLfo).num .saw = .ok (-1) ∧ (1 : Rat) ≤ 1 ∧ (-1 : Rat) < 0) ∧
    (withLfo sawLfo).voices[0].lfo[0].bipolar = true ∧
    (numAdd .exact (-1) 1 = .ok 0 ∧ numMul .exact 0 (1 / 2) = .ok 0) := by decide +kernel

/-- In `F32`, an increment of 1, not bipolar: the output has a value and the advance is out of range. -/
theorem witness_LfoNextAndReset_f32 :
    let l := { sawLfo (Lfo.reset .f32 0) with inc := some 1, bipolar := false }
    l.wave = some .saw ∧ l.inc = some 1 ∧ l.value .f32 .saw = .ok (-1) ∧ numAdd .f32 (-1) 1 = .ok 0 ∧
    numMul .f32 0 (1 / 2) = .ok 0 := by decide +kernel

theorem witness_LfoNextAndReset_advance :
    ∃ r, (withLfo sawLfo).voices[0].lfo[0].advance (withLfo sawLfo).num (withLfo sawLfo).draws = .ok r ∧ true :=
  ok_of_check (P := fun _ => true) (by decide +kernel)

theorem witness_LfoWrapAction :
    ({ Lfo.reset .exact 0 with wave := some .stepped } : Lfo).wave = some .stepped ∧
    ({ Lfo.reset .exact 0 with wave := some .smoothed } : Lfo).wave = some .smoothed ∧
    (Lfo.reset .exact 0).wave ≠ some .stepped ∧ (Lfo.reset .exact 0).wave ≠ some .smoothed := by decide +kernel

/-- The largest counts whose sum is a count; increments −1, 0 and 1; skips and a LFO.NEXT that complete. -/
theorem witness_LfoSkipLaws :
    (0 < (1#32).toNat ∧ State.reset.voices[0].lfo[0].wave = none) ∧
    ((withLfo sawLfo).voices[0].lfo[0].wave.isSome ∧ (withLfo sawLfo).voices[0].lfo[0].inc = some (1 / 4)) ∧
    ((0xFFFFFFFE#32).toNat + (1#32).toNat < 2 ^ 32) ∧
    ((withLfo sawLfo).num = .exact ∧ 0 ≤ (withLfo sawLfo).voices[0].lfo[0].phase ∧
      (withLfo sawLfo).voices[0].lfo[0].phase < 1) ∧
    (∃ r t, Completes (.lfoSkip 0 0 6) (withLfo sawLfo) r t) ∧
    (∃ r t, Completes (.lfoNext 0 0) (withLfo sawLfo) r t) :=
  ⟨by decide +kernel, by decide +kernel, by decide, by decide +kernel, completes_of_faultless (by decide +kernel),
    completes_of_faultless (by decide +kernel)⟩

theorem witness_OutputsStayInRange :
    (State.reset.num = .exact ∧ Osc.InRange (withOsc fun o => { o with inc := some 0 }).voices[0].osc) ∧
    (∃ r t, Completes (.oscProc 0) (withOsc fun o => { o with inc := some 0 }) r t) ∧
    (∃ r t, Completes (.lfoNext 0 0) (withLfo fun l => sawLfo { l with bipolar := false }) r t) :=
  ⟨⟨rfl, by unfold Osc.InRange; decide +kernel⟩, completes_of_faultless (by decide +kernel),
    completes_of_faultless (by decide +kernel)⟩

/-- A reset LFO is in range, whatever its draws. -/
theorem lfo_reset_inRange (n : Nat) : Lfo.InRange (Lfo.reset .exact n) where
  phase := ⟨le_refl 0, zero_lt_one⟩
  freq := fun _ h => nomatch h
  held := draw_mem _ _
  sPrev := draw_mem _ _
  sTarget := draw_mem _ _
  lastOut := ⟨by show (-1 : Rat) ≤ 0; norm_num, by show (0 : Rat) ≤ 1; norm_num⟩

theorem witness_OutputsStayInRange_lfo : Lfo.InRange (withLfo sawLfo).voices[0].lfo[0] where
  phase := ⟨le_refl 0, zero_lt_one⟩
  freq := fun _ h => nomatch h
  held := draw_mem _ _
  sPrev := draw_mem _ _
  sTarget := draw_mem _ _
  lastOut := (lfo_reset_inRange 0).lastOut

theorem witness_FilterCoefficients :
    (Flt.reset .exact).sr = none ∧ ladder.sr = some 4000 ∧ coefP .exact 1000 4000 = 1 / 2 ∧
    (numMul .exact 4 ladder.res = .ok (2 / 5) ∧ numMul .exact (2 / 5) (1 / 2) = .ok (1 / 5) ∧
      numMul .exact (1 / 5) (1 / 2) = .ok (1 / 10) ∧ numMul .exact (1 / 10) (1 / 2) = .ok (1 / 20) ∧
      numMul .exact (1 / 20) (1 / 2) = .ok (1 / 40)) ∧ 0 ≤ ladder.res ∧ ladder.res ≤ 1 := by decide +kernel

/-- Rates 0, 40 and 4000; the top cutoffs 18 and 1800. -/
theorem witness_FilterSetters :
    f32Value 0x7F800000#32 = none ∧ f32Value 0#32 = some 0 ∧ f32Value 0x42200000#32 = some 40 ∧
    f32Value 0x457A0000#32 = some 4000 ∧ numMul .exact (lit .exact (9 / 20)) 40 = .ok 18 ∧
    numMul .exact (lit .exact (9 / 20)) 4000 = .ok 1800 ∧
    Flt.recompute .exact { Flt.reset .exact with sr := some 4000, cutoff := min (max 1000 20) 1800 } =
      .ok { ladder with drive := none } ∧
    State.reset.voices[0].flt.sr = none ∧ (withFlt fun _ => ladder).voices[0].flt.sr = some 4000 ∧
    (∃ f', Flt.recompute .exact { ladder with res := min (max 1 0) 1 } = .ok f') :=
  ⟨by decide +kernel, by decide +kernel, by decide +kernel, by decide +kernel, by decide +kernel,
    by decide +kernel, by decide +kernel, by decide +kernel, by decide +kernel, ⟨_, rfl⟩⟩

/-- The registers unset and set; the chain with the input 0, at which TANH is 0. -/
theorem witness_FilterSample :
    (numSub .exact 1 0 = .ok 1 ∧ numMul .exact (1 / 2) 1 = .ok (1 / 2) ∧ numAdd .exact 0 (1 / 2) = .ok (1 / 2)) ∧
    f32Value 0x7F800000#32 = none ∧ f32Value 0#32 = some 0 ∧ State.reset.voices[0].flt.p = none ∧
    (withFlt fun _ => { ladder with drive := none }).voices[0].flt.drive = none ∧
    (ladder.p = some (1 / 2) ∧ ladder.k = some (1 / 40) ∧ ladder.drive = some 1) ∧
    (numMul .exact 1 0 = .ok 0 ∧ numMul .exact (1 / 40) 0 = .ok 0 ∧ numSub .exact (tanhFn .exact 0) 0 = .ok 0 ∧
      ladderStage .exact (1 / 2) 0 0 = .ok 0) := by decide +kernel

/-- The state of `test_fltProcbuf`. -/
def filterState : State := { (withFlt fun _ => ladder) with bufLen := some 4, buf := [(2, 0), (3, 0)] }

/-- The last two elements; the first index beyond the buffer; no buffer length. -/
theorem witness_FilterBuffer :
    (0 < (1#32).toNat ∧ State.reset.voices[0].flt.p = none) ∧
    (filterState.bufLen = some 4 ∧ (2#16).toNat < (4 : Fin 65536).val ∧ Memory.get filterState.buf 2 = some 0 ∧
      ladder.sample .exact 0 = .ok (0, ladder)) ∧
    ((2#16).toNat + (1#32).toNat < 2 ^ 16 ∧ (1#32).toNat + (1#32).toNat < 2 ^ 32) ∧
    (∃ r t, Completes (.fltProcbuf 0 2 1) filterState r t) ∧
    (∃ r t, Completes (.fltProcbuf 0 3 1) (next (.fltProcbuf 0 2 1) filterState) r t) ∧
    (filterState.num = .exact ∧ ladder.p.isSome ∧ ladder.k.isSome ∧ ladder.drive.isSome ∧
      (∀ j, j < 4 → 2 ≤ j → (Memory.get filterState.buf j).isSome) ∧ (2#16).toNat + (2#32).toNat ≤ (4 : Fin 65536).val ∧
      (4 : Fin 65536).val < (2#16).toNat + (3#32).toNat) ∧
    (withFlt fun _ => ladder).bufLen = none :=
  ⟨by decide +kernel, by decide +kernel, by decide, completes_of_faultless (by decide +kernel),
    completes_of_faultless (by decide +kernel), by decide +kernel, rfl⟩

/-- With `p = 1` and no feedback the absolute sum is at most 1; a filter at its least cutoff and greatest resonance, with the
coefficients derived from them. -/
theorem witness_FilterOutputIsBounded :
    ((0 : Rat) < 1 ∧ LadderGainAtMost 1 0 1 ∧ ({ ladder with p := some 1, k := some 0 } : Flt).p = some 1 ∧
      ({ ladder with p := some 1, k := some 0 } : Flt).k = some 0) ∧
    (Flt.recompute .exact { ladder with sr := some 80, cutoff := 20, res := 1, k := some (1 / 4) } =
        .ok { ladder with sr := some 80, cutoff := 20, res := 1, k := some (1 / 4) } ∧
      (20 : Rat) ≤ 20 ∧ (20 : Rat) ≤ 9 / 20 * 80 ∧ (1 : Rat) ≤ 1) ∧
    ladder.drive = some 1 ∧ ladder.y1 = 0 ∧ ladder.y2 = 0 ∧ ladder.y3 = 0 ∧ ladder.y4 = 0 := by
  refine ⟨⟨one_pos, ?_, rfl, rfl⟩, by decide +kernel, by decide +kernel⟩
  simpa using ladderGainAtMost_of_lt_one one_pos le_rfl le_rfl zero_lt_one

theorem witness_RouterConnections :
    f32Value 0x7F800000#32 = none ∧ f32Value 0x42C80000#32 = some 100 := by decide +kernel

theorem witness_RouterValues :
    f32Value 0x7F800000#32 = none ∧ f32Value 0x3FC00000#32 = some (3 / 2) ∧
    State.reset.voices[0].router.mod[Dest.pitch.idx] = none ∧
    (withRouter fun r => { r with mod := r.mod.set 4 (some 12) }).voices[0].router.mod[Dest.pitch.idx] = some 12 := by
  decide +kernel

theorem witness_RouterEvaluation :
    (withRouter routed).voices[0].router.base[Dest.cutoff.idx] = some 1000 ∧ 1 ≤ (1#32).toNat ∧
    1 ≤ (0xFFFFFFFF#32).toNat ∧ (withRouter routed).num = .exact ∧
    ∃ r t, Completes (.modProcblk 0 1) (withRouter routed) r t :=
  ⟨by decide +kernel, by decide, by decide, rfl, completes_of_faultless (by decide +kernel)⟩

theorem witness_VoiceNoteOn :
    f32Value 0x7F800000#32 = none ∧ f32Value 0x3F000000#32 = some (1 / 2) ∧
    numAdd .exact ((69 : Nat) : Rat) ((paramGet State.reset.param .oscTune).getD 0) = .ok 69 ∧
    numAdd .exact 69 State.reset.voices[0].bend = .ok 69 ∧ noteHz .exact 69 = .ok 440 ∧
    Osc.reset.setFreq .exact 440 = .ok { Osc.reset with freq := some 440 } ∧ State.reset.num = .exact := by
  decide +kernel

theorem witness_VoiceNoteOff :
    State.reset.voices[0].playing = false ∧ (withVoice sounding).voices[0].playing = true ∧
    (∃ e₀, (withVoice sounding).voices[0].env[0].noteOff .exact = .ok e₀) ∧
    (∃ e₁, (withVoice sounding).voices[0].env[1].noteOff .exact = .ok e₁) ∧ (withVoice sounding).num = .exact :=
  ⟨rfl, rfl, ⟨_, rfl⟩, ⟨_, rfl⟩, rfl⟩

theorem witness_VoiceControllersAndQueries :
    f32Value 0x7F800000#32 = none ∧ f32Value 0x41400000#32 = some 12 ∧ State.reset.voices[0].note = none ∧
    (withVoice sounding).voices[0].note = some 57 ∧
    numAdd .exact ((57 : Nat) : Rat) ((paramGet State.reset.param .oscTune).getD 0) = .ok 57 ∧
    numAdd .exact 57 12 = .ok 69 ∧ noteHz .exact 69 = .ok 440 ∧
    Osc.reset.setFreq .exact 440 = .ok { Osc.reset with freq := some 440 } := by
  decide +kernel

/-- A parameter unset, below its range, at its top and above it; a voice with a note and one without. -/
theorem witness_ApplyParamsWritesTheUnits :
    ((-1 : Rat) < 0 ∧ (0 : Rat) ≤ 0 ∧ choiceCode (5 / 2) 3 = 2 ∧ choiceCode 3 3 = 3 ∧ choiceCode 7 3 = 3) ∧
    (∃ w', renderState.voices[0].applyParams .exact renderParams = .ok w' ∧ true) ∧
    renderState.voices[0].note = some 69 ∧ renderState.voices[1].note = none :=
  ⟨by decide +kernel, ok_of_check (P := fun _ => true) (by decide +kernel), rfl, rfl⟩

/-- A sounding voice to which the parameters are applied, and which renders. -/
theorem witness_ApplyingParametersIsIdempotent :
    (∃ w', (Voice.reset .exact 0).applyParams .exact (Vector.replicate 25 none) = .ok w') ∧
    (∃ r t, Completes (.voiceRender 0 0 0) renderState r t) ∧
    (next (.voiceRender 0 0 0) renderState).voices[0].playing = renderState.voices[0].playing ∧
    (∃ r t, Completes (.voiceRender 0 0 1) (next (.voiceRender 0 0 0) renderState) r t) :=
  ⟨⟨_, rfl⟩, completes_of_faultless (by decide +kernel), by decide +kernel,
    completes_of_faultless (by decide +kernel)⟩

theorem witness_VoiceRenderOneSample :
    (∃ w, State.reset.voices[0].applyParams .exact (Vector.replicate 25 none) = .ok w ∧ (!w.playing) = true) ∧
    (∃ w, (withVoice sounding).voices[0].applyParams .exact (Vector.replicate 25 none) = .ok w ∧
      (w.playing && !w.tailOff) = true) ∧
    (∃ w, (withVoice fun w => { sounding w with tailOff := true }).voices[0].applyParams .exact
      (Vector.replicate 25 none) = .ok w ∧ (w.tailOff && decide (w.env[0].stage = .idle) && w.playing) = true) ∧
    renderState.bufLen = some 8 ∧ (7#16).toNat < (8 : Fin 65536).val :=
  ⟨ok_of_check (P := fun w : Voice => !w.playing) (by decide +kernel),
    ok_of_check (P := fun w : Voice => w.playing && !w.tailOff) (by decide +kernel),
    ok_of_check (P := fun w : Voice => w.tailOff && decide (w.env[0].stage = .idle) && w.playing) (by decide +kernel),
    rfl, by decide⟩

/-- A fault in applying the parameters (in `F32`, a tune of 4096 semitones); one in the first step; no buffer length, an
index at and below it, an unset element. -/
theorem witness_VoiceRenderOneSample_faults :
    (withVoice sounding).voices[0].applyParams .f32 ((Vector.replicate 25 none).set Param.oscTune.idx (some 4096)) =
      .error Trap.numeric ∧
    0 < (1#32).toNat ∧ (withVoice sounding).voices[0].osc.proc .exact = .error Trap.unset ∧
    (withVoice sounding).bufLen = none ∧ ((8 : Fin 65536).val ≤ (8#16).toNat) ∧
    ((2#16).toNat < (8 : Fin 65536).val ∧ Memory.get renderState.buf (2#16).toNat = none) := by decide +kernel

/-- The whole chain of one sample, on the state of P4. -/
theorem witness_VoiceRenderOneSample_chain :
    ∃ w o osc a e₀ b e₁ x₀ n₀ l₀ x₁ n₁ l₁ w₂ c f y f' t₁ amount g t₂ volume smp old sum,
      renderState.voices[0].applyParams .exact renderState.param = .ok w ∧ w.playing = true ∧
      w.osc.proc .exact = .ok (o, osc) ∧ w.env[0].tick .exact = .ok (a, e₀) ∧ w.env[1].tick .exact = .ok (b, e₁) ∧
      w.lfo[0].next .exact renderState.draws = .ok (x₀, n₀, l₀) ∧ w.lfo[1].next .exact n₀ = .ok (x₁, n₁, l₁) ∧
      Voice.processBlock .exact 1 { w with osc := osc, env := #v[e₀, e₁], lfo := #v[l₀, l₁] } = .ok w₂ ∧
      w₂.router.mod[Dest.cutoff.idx] = some c ∧ w₂.flt.setCut .exact c = .ok f ∧ f.sample .exact o = .ok (y, f') ∧
      numMul .exact y a = .ok t₁ ∧ paramGet renderState.param .velToAmp = some amount ∧
      velGain .exact w.vel amount = .ok g ∧ numMul .exact t₁ g = .ok t₂ ∧
      paramGet renderState.param .masterVolume = some volume ∧ numMul .exact t₂ volume = .ok smp ∧
      Memory.get renderState.buf (0#16).toNat = some old ∧ numAdd .exact old smp = .ok sum := by
  obtain ⟨w, hw, hp⟩ := ok_of_check (x := renderState.voices[0].applyParams .exact renderState.param)
    (P := fun w : Voice => w.playing && w.vel == 1) (by decide +kernel)
  rw [Bool.and_eq_true, beq_iff_eq] at hp
  obtain ⟨⟨y, a, n, w'⟩, hc, -⟩ := ok_of_check
    (x := renderState.voices[0].applyParams .exact renderState.param >>= fun w => w.chain .exact renderState.draws)
    (P := fun _ => true) (by decide +kernel)
  simp only [hw, res_ok_bind, Voice.chain, bind_eq_ok, readOpt_eq_ok, Except.ok.injEq] at hc
  obtain ⟨o, ho, a', ha, b, hb, l0, hl0, l1, hl1, w2, hw2, c, hc, f, hf, yf, hy, h⟩ := hc
  exact ⟨w, _, _, _, _, _, _, _, _, _, _, _, _, w2, c, f, _, _, _, 0, 1, _, 1, _, 1, _, hw, hp.1, ho, ha, hb, hl0,
    hl1, hw2, hc, hf, hy, rfl, rfl, velGain_zero_right _ _, rfl, rfl, rfl, rfl, rfl⟩

/-- The range's last index, the largest count, and a render in two parts. -/
theorem witness_RenderMayBeCut :
    ((0xFFFE#16).toNat + (1#32).toNat < 2 ^ 16 ∧ (1#32).toNat + (0xFFFFFFFE#32).toNat < 2 ^ 32) ∧
    (∃ r t, Completes (.voiceRender 0 0 1) renderState r t) ∧
    (next (.voiceRender 0 0 1) renderState).voices[0].playing = renderState.voices[0].playing ∧
    (∃ r t, Completes (.voiceRender 0 1 1) (next (.voiceRender 0 0 1) renderState) r t) :=
  ⟨by decide, completes_of_faultless (by decide +kernel), by decide +kernel,
    completes_of_faultless (by decide +kernel)⟩

/-- A second part that faults: its element is unset. -/
theorem witness_RenderMayBeCut_fault :
    (∃ r t, Completes (.voiceRender 0 0 2) renderState r t) ∧
    (next (.voiceRender 0 0 2) renderState).voices[0].playing = renderState.voices[0].playing ∧
    ∃ code info, Traps (.voiceRender 0 (0 + (2#32).setWidth 16) 1) (next (.voiceRender 0 0 2) renderState) code info :=
  ⟨completes_of_faultless (by decide +kernel), by decide +kernel, traps_of_fault (by decide +kernel) (by decide +kernel)⟩

/-- What R266 lists holds of the voice of P4 once the parameters are applied; the range ends at the buffer's end. -/
theorem ready_renderVoice (w : Voice) (hw : renderState.voices[0].applyParams .exact renderState.param = .ok w) :
    w.Ready renderState.param := by
  obtain ⟨w', hw', hp⟩ := ok_of_check (x := renderState.voices[0].applyParams .exact renderState.param)
    (P := fun w : Voice => decide (w.osc.inc = some (1 / 3)) &&
      decide (∀ i : Fin 2, w.env[i].atkRate.isSome ∧ w.env[i].decRate.isSome ∧ w.env[i].relRate.isSome) &&
      decide (∀ i : Fin 2, w.lfo[i].wave.isSome ∧ w.lfo[i].inc = some (1 / 1320)) && w.flt.sr.isSome &&
      w.flt.drive.isSome && w.router.base[Dest.cutoff.idx].isSome) (by decide +kernel)
  rw [hw, Except.ok.injEq] at hw'
  subst hw'
  simp only [Bool.and_eq_true, decide_eq_true_eq] at hp
  obtain ⟨⟨⟨⟨⟨ho, he⟩, hl⟩, hs⟩, hd⟩, hb⟩ := hp
  exact ⟨⟨_, ho, by norm_num, by norm_num⟩, he, fun i => ⟨(hl i).1, _, (hl i).2, by norm_num, by norm_num⟩,
    ⟨hs, hd⟩, hb, rfl, rfl⟩

theorem witness_ReadyVoiceRenders :
    renderState.num = .exact ∧
    (∀ w, renderState.voices[0].applyParams .exact renderState.param = .ok w → w.Ready renderState.param) ∧
    (∃ w, renderState.voices[0].applyParams .exact renderState.param = .ok w ∧ true) ∧
    renderState.bufLen = some 8 ∧ (0#16).toNat + (2#32).toNat ≤ (8 : Fin 65536).val ∧
    (∀ j, j < 2 → 0 ≤ j → (Memory.get renderState.buf j).isSome) :=
  ⟨rfl, ready_renderVoice, ok_of_check (P := fun _ => true) (by decide +kernel), rfl, by decide, by decide +kernel⟩

/-- No buffer length; a range one element beyond the buffer; an unset element; a Playing voice without an increment. -/
theorem witness_ReadyVoiceRenders_faults :
    0 < (3#32).toNat ∧ renderState.voices[0].playing = true ∧ (withVoice renderVoice).bufLen = none ∧
    ((2 : Fin 65536).val < (0#16).toNat + (3#32).toNat ∧ ∀ j, j < 2 → (Memory.get renderState.buf j).isSome) ∧
    ((0#16).toNat ≤ 2 ∧ 2 < (0#16).toNat + (3#32).toNat ∧ 2 < (8 : Fin 65536).val ∧
      Memory.get renderState.buf 2 = none) ∧
    ∃ w, (withVoice sounding).voices[0].applyParams .exact (Vector.replicate 25 none) = .ok w ∧ w.playing = true ∧
      w.IncsInRange ∧ w.Lacking (Vector.replicate 25 none) := by
  obtain ⟨w, hw, hp⟩ := ok_of_check
    (x := (withVoice sounding).voices[0].applyParams .exact (Vector.replicate 25 none))
    (P := fun w : Voice => w.playing && decide (w.osc.inc = none) && decide (∀ i : Fin 2, w.lfo[i].inc = none))
    (by decide +kernel)
  simp only [Bool.and_eq_true, decide_eq_true_eq] at hp
  obtain ⟨⟨hp, ho⟩, hl⟩ := hp
  refine ⟨by decide, rfl, rfl, by decide +kernel, by decide +kernel, w, hw, hp, ⟨fun q hq => ?_, fun i q hq => ?_⟩, .inl ho⟩
  · rw [ho] at hq; cases hq
  · rw [hl i] at hq; cases hq

/-- The rates 0, 40 (top cutoff 18) and 4000; the six setters of every voice of the reset state; 400/9 is the least
rate. -/
theorem witness_EnginePrepareAndParameters :
    f32Value 0x7F800000#32 = none ∧ f32Value 0#32 = some 0 ∧ f32Value 0x42200000#32 = some 40 ∧
    f32Value 0x457A0000#32 = some 4000 ∧ numMul .exact (lit .exact (9 / 20)) 40 = .ok 18 ∧
    numMul .exact (lit .exact (9 / 20)) 4000 = .ok 1800 ∧ (400 / 9 : Rat) ≤ 4000 ∧
    ∀ v : Fin 8, ∃ w, State.reset.voices[v].setRates .exact 0x457A0000#32 4000 = .ok w ∧ true := by
  refine ⟨by decide +kernel, by decide +kernel, by decide +kernel, by decide +kernel, by decide +kernel,
    by decide +kernel, by norm_num, fun v => ok_of_check (P := fun _ => true) ?_⟩
  revert v; decide +kernel

/-- Some voice Free; no voice Free, the lowest level not at index 0. -/
theorem witness_EngineNoteOnTakesTheTargetVoice :
    State.reset.voices[0].playing = false ∧ (∀ v : Fin 8, fullState.voices[v].playing = true) ∧
    noteTarget fullState.voices = 1 ∧ f32Value 0x3F800000#32 = some 1 ∧ fullState.num = .exact := by decide +kernel

/-- Every voice holds note 57 and is released. -/
theorem witness_EngineNoteOffReleasesTheNote :
    ∃ vs : Vector Voice 8, ∀ v : Fin 8,
      if fullState.voices[v].playing = true ∧ fullState.voices[v].tailOff = false ∧
          fullState.voices[v].note = some 57 then
        fullState.voices[v].noteOff fullState.num true = .ok vs[v]
      else vs[v] = fullState.voices[v] := by
  have h : ∀ v : Fin 8, ∃ w, fullState.voices[v].noteOff fullState.num true = .ok w ∧ true := by
    intro v; apply ok_of_check (P := fun _ => true); revert v; decide +kernel
  choose f hf using h
  refine ⟨Vector.ofFn f, fun v => ?_⟩
  rw [if_pos (by revert v; decide +kernel)]
  simpa using (hf v).1

/-- The states between the renders of ENG.RENDER 0, 0 in the state of P4. -/
def renderChain : Nat → State
  | 0 => renderState
  | k + 1 => next (.voiceRender (Fin.ofNat 8 k) 0 0) (renderChain k)

theorem renderChain_faultless : ∀ v : Fin 8, (renderChain (v.val + 1)).fault.isNone = true := by decide +kernel

/-- P4's render: voice 0 is ready, the others are Free. -/
theorem witness_EngineRenderIsEightVoiceRenders :
    (∃ st : Fin 9 → State, st 0 = renderState ∧
      ∀ v : Fin 8, Completes (.voiceRender v 0 0) (st v.castSucc) .none (st v.succ)) ∧
    renderState.num = .exact ∧
    (∀ (v : Fin 8) (w : Voice), renderState.voices[v].applyParams .exact renderState.param = .ok w →
      w.playing = true → w.Ready renderState.param) ∧
    renderState.bufLen = some 8 ∧ (0#16).toNat + (2#32).toNat ≤ (8 : Fin 65536).val ∧
    (∀ j, j < 2 → 0 ≤ j → (Memory.get renderState.buf j).isSome) := by
  refine ⟨?_, rfl, fun v w hw hp => ?_, rfl, by decide, by decide +kernel⟩
  · refine ⟨fun k => renderChain k.val, rfl, fun v => ?_⟩
    have h := render_completes_next (v := v) (start := 0) (n := 0) (s := renderChain v.val)
    have hv : (Fin.ofNat 8 v.val) = v := by simp
    have h' := renderChain_faultless v
    rw [renderChain, hv] at h'
    have h'' := h h'
    simp only [Fin.val_castSucc, Fin.val_succ, renderChain, hv]
    exact h''
  · by_cases h0 : v = 0
    · subst h0; exact ready_renderVoice w hw
    · exfalso
      have h : ∀ v : Fin 8, v ≠ 0 → ∃ w, renderState.voices[v].applyParams .exact renderState.param = .ok w ∧
          (!w.playing) = true := by
        intro v hv; apply ok_of_check (P := fun w : Voice => !w.playing); revert v; decide +kernel
      obtain ⟨w', hw', hp'⟩ := h v h0
      rw [hw, Except.ok.injEq] at hw'
      subst hw'
      simp [hp] at hp'

/-- A voice whose render faults: its increment is unset. -/
theorem witness_EngineRenderIsEightVoiceRenders_fault : ∃ code info, Traps (.voiceRender 0 0 1)
    { (withVoice sounding) with param := Vector.replicate 25 none } code info :=
  traps_of_fault (by decide +kernel) (by decide +kernel)

/-- A step that is a fault and one that is not: of a command that addresses a unit, and of a render. -/
theorem witness_CommandsTouchOnlyTheirUnit :
    (∃ t, exec (.oscProc 0) State.reset = .next t) ∧ (∃ t, exec (.voiceRender 0 0 1) renderState = .next t) ∧
    (∀ size imm, Instr.oscProc 0 ≠ .engPrepare size imm) ∧
    (∀ imm, Instr.engSetparam .oscPwm 0 ≠ .engSetparam .oscTune imm) :=
  ⟨⟨_, rfl⟩, by rcases exec_cases (.voiceRender 0 0 1) renderState with ⟨_, _, _, h⟩ | ⟨_, h⟩ <;> exact ⟨_, h⟩,
    by simp, by simp⟩

/-- The elements just outside a range and its ends; a Free voice that renders. -/
theorem witness_BufferChangesOnlyWhereStored :
    (∃ t, exec (.fltProcbuf 0 2 1) filterState = .next t) ∧ ¬StoresAt (.fltProcbuf 0 2 1) 1 ∧
    StoresAt (.fltProcbuf 0 2 1) 2 ∧ ¬StoresAt (.fltProcbuf 0 2 1) 3 ∧ ¬StoresAt (.bufSt 2 0) 3 ∧
    (∃ t, exec (.voiceRender 1 0 1) renderState = .next t) ∧ renderState.voices[1].playing = false := by
  refine ⟨?_, by unfold StoresAt; decide, by unfold StoresAt; decide, by unfold StoresAt; decide,
    by unfold StoresAt; decide, ?_, by decide +kernel⟩
  · rcases exec_cases (.fltProcbuf 0 2 1) filterState with ⟨_, _, _, h⟩ | ⟨_, h⟩ <;> exact ⟨_, h⟩
  · rcases exec_cases (.voiceRender 1 0 1) renderState with ⟨_, _, _, h⟩ | ⟨_, h⟩ <;> exact ⟨_, h⟩

/-- Each transition of the table is taken by some step. -/
theorem witness_VoiceLifecycleFollowsTheTable :
    (State.reset.voices[0].lifecycle = .free ∧
      (next (.voiceNoteon 0 69 0x3F000000#32) State.reset).voices[0].lifecycle = .playing) ∧
    ((withVoice sounding).voices[0].lifecycle = .playing ∧
      (next (.voiceNoteoff 0 true) (withVoice sounding)).voices[0].lifecycle = .releasing ∧
      (next (.engNoteoff 57) (withVoice sounding)).voices[0].lifecycle = .releasing ∧
      (next (.voiceNoteoff 0 false) (withVoice sounding)).voices[0].lifecycle = .free) ∧
    ((withVoice fun w => { sounding w with tailOff := true }).voices[0].lifecycle = .releasing ∧
      (next (.voiceNoteon 0 69 0x3F000000#32)
        (withVoice fun w => { sounding w with tailOff := true })).voices[0].lifecycle = .playing ∧
      (next (.voiceNoteoff 0 false)
        (withVoice fun w => { sounding w with tailOff := true })).voices[0].lifecycle = .free) ∧
    (next (.voiceRender 0 0 0) { (withVoice fun w => { sounding w with tailOff := true }) with
      param := Vector.replicate 25 none }).voices[0].lifecycle = .free := by decide +kernel

/-- The states the invariants' witnesses start from: the reset state with a program (a note on, a store) and its
step. -/
theorem witness_StepKeepsBufferForm :
    (∃ t, step (fed withBuf 0x0100000300000000#64) = .next t) ∧ (fed withBuf 0x0100000300000000#64).BufferOk :=
  ⟨⟨_, rfl⟩, List.pairwise_singleton _ _, fun e he => ⟨4, rfl, by rw [List.mem_singleton.1 he]; decide⟩⟩

/-- Every voice of the reset state is a voice at its reset values. -/
theorem reset_voice (v : Fin 8) : ∃ n, State.reset.voices[v] = Voice.reset .exact n := by
  refine ⟨6 * v.val, ?_⟩
  match v with
  | 0 => rfl
  | 1 => rfl
  | 2 => rfl
  | 3 => rfl
  | 4 => rfl
  | 5 => rfl
  | 6 => rfl
  | 7 => rfl

/-- A step of a block in its reset registers: ENG.PREPARE 4, 4000.0. -/
theorem prepare_steps : ∃ t, step (fed State.reset 0x70000004457A0000#64) = .next t := by
  have : step (fed State.reset 0x70000004457A0000#64) = exec (.engPrepare 4 0x457A0000#32)
      (fed State.reset 0x70000004457A0000#64) := rfl
  rw [this]
  rcases exec_cases (.engPrepare 4 0x457A0000#32) (fed State.reset 0x70000004457A0000#64) with ⟨_, _, _, h⟩ | ⟨_, h⟩ <;>
    exact ⟨_, h⟩

theorem witness_StepKeepsDerivedRegisters :
    (∃ t, step (fed State.reset 0x70000004457A0000#64) = .next t) ∧
    (fed State.reset 0x70000004457A0000#64).Derived := by
  refine ⟨prepare_steps, fun v => ?_⟩
  obtain ⟨n, hn⟩ := reset_voice v
  have hv : (fed State.reset 0x70000004457A0000#64).voices[v] = Voice.reset .exact n := hn
  rw [hv]
  refine ⟨rfl, fun i => ?_, fun i => ?_, rfl, fun _ => ⟨rfl, rfl⟩⟩
  · match i with
    | 0 => exact ⟨rfl, fun _ => ⟨rfl, rfl, rfl⟩⟩
    | 1 => exact ⟨rfl, fun _ => ⟨rfl, rfl, rfl⟩⟩
  · match i with
    | 0 => exact rfl
    | 1 => exact rfl

theorem witness_StepKeepsRoutersAndVoices :
    (∃ t, step (fed State.reset 0x70000004457A0000#64) = .next t) ∧
    (fed State.reset 0x70000004457A0000#64).RoutersInRange ∧
    (fed State.reset 0x70000004457A0000#64).VoicesConsistent := by
  refine ⟨prepare_steps, fun v => ?_, fun v => ?_⟩ <;> obtain ⟨n, hn⟩ := reset_voice v <;>
    have hv : (fed State.reset 0x70000004457A0000#64).voices[v] = Voice.reset .exact n := hn <;> rw [hv]
  · refine ⟨fun d x h => ?_, ⟨le_refl _, zero_le_one⟩, ⟨le_refl _, zero_le_one⟩⟩
    cases d <;> cases h
  · exact ⟨⟨le_refl _, zero_le_one⟩, ⟨le_refl _, zero_le_one⟩, fun _ => ⟨rfl, rfl⟩⟩

theorem witness_StepKeepsPhasesWrapped :
    (∃ t, step (fed State.reset 0x70000004457A0000#64) = .next t) ∧
    (fed State.reset 0x70000004457A0000#64).num = .exact ∧
    (fed State.reset 0x70000004457A0000#64).OscsInRange ∧ (fed State.reset 0x70000004457A0000#64).LfosInRange := by
  refine ⟨prepare_steps, rfl, fun v => ?_, fun v i => ?_⟩ <;> obtain ⟨n, hn⟩ := reset_voice v <;>
    have hv : (fed State.reset 0x70000004457A0000#64).voices[v] = Voice.reset .exact n := hn <;> rw [hv]
  · exact ⟨le_refl _, zero_lt_one⟩
  · match i with
    | 0 => exact lfo_reset_inRange n
    | 1 => exact lfo_reset_inRange (n + 3)

theorem witness_StepKeepsEnvelopesAndFilters :
    (∃ t, step (fed State.reset 0x70000004457A0000#64) = .next t) ∧
    (fed State.reset 0x70000004457A0000#64).num = .exact ∧
    (fed State.reset 0x70000004457A0000#64).EnvsInRange ∧ (fed State.reset 0x70000004457A0000#64).FltsInRange := by
  have he : Env.InRange (Env.reset .exact) :=
    { level := ⟨le_refl _, zero_le_one⟩
      sus := by show (0 : Rat) ≤ 7 / 10 ∧ (7 / 10 : Rat) ≤ 1; norm_num
      relFrom := ⟨le_refl _, zero_le_one⟩
      idle := fun _ => rfl
      atkMs := (envMinMs_mem _).2
      decMs := (envMinMs_mem _).2.trans (by show (50 : Rat) ≤ 100; norm_num)
      relMs := (envMinMs_mem _).2.trans (by show (50 : Rat) ≤ 200; norm_num)
      sr := fun _ h => nomatch h
      atkRate := fun _ h => nomatch h
      decRate := fun _ h => nomatch h
      relRate := fun _ h => nomatch h }
  refine ⟨prepare_steps, rfl, fun v i => ?_, fun v => ?_⟩ <;> obtain ⟨n, hn⟩ := reset_voice v <;>
    have hv : (fed State.reset 0x70000004457A0000#64).voices[v] = Voice.reset .exact n := hn <;> rw [hv]
  · match i with
    | 0 => exact he
    | 1 => exact he
  · exact
      { res := by show (0 : Rat) ≤ 1 / 10 ∧ (1 / 10 : Rat) ≤ 1; norm_num
        drive := fun _ h => nomatch h
        sr := fun _ h => nomatch h
        p := fun _ h => nomatch h
        k := fun _ h => nomatch h }


end Sys2Proof.Tests
end

section
/-! SUPPORT. Rounding to binary32 (R309, R308): `f32Nearest` against the values of all patterns, and the statements
about NUM and the configuration functions (spec/00_scope.md). -/

namespace Sys2Proof.Machine

/-! ## The integer nearest to a rational (R309) -/

/-- What makes an integer the one R309 rounds `x` to: at most half away, and even where half away. -/
def IsHalfEven (x : Rat) (n : Int) : Prop := |x - n| ≤ 1 / 2 ∧ (|x - n| = 1 / 2 → Even n)

theorem roundHalfEven_isHalfEven (x : Rat) : IsHalfEven x (roundHalfEven x) := by
  have h0 : (x.floor : Rat) ≤ x := Int.floor_le x
  have h1 : x < x.floor + 1 := Int.lt_floor_add_one x
  unfold IsHalfEven roundHalfEven
  simp only
  split_ifs with hlt hgt heven
  · rw [abs_of_nonneg (by linarith)]
    exact ⟨by linarith, fun h => by linarith⟩
  · push_cast
    rw [abs_of_nonpos (by linarith)]
    exact ⟨by linarith, fun h => by linarith⟩
  · rw [abs_of_nonneg (by linarith)]
    exact ⟨by linarith, fun _ => Int.even_iff.2 heven⟩
  · push_cast
    rw [abs_of_nonpos (by linarith)]
    exact ⟨by linarith, fun _ => Int.even_iff.2 (by omega)⟩

/-- Any other integer is at least as far away, and as far only from a tie, which goes to the even one. -/
theorem IsHalfEven.nearest {x : Rat} {n k : Int} (h : IsHalfEven x n) (hk : k ≠ n) :
    |x - n| ≤ |x - k| ∧ (|x - k| = |x - n| → Even n) := by
  obtain ⟨hhalf, heven⟩ := h
  have hstep : (1 : Rat) ≤ |(k : Rat) - n| := by
    exact_mod_cast Int.one_le_abs (sub_ne_zero.2 hk)
  have htri : |(k : Rat) - n| ≤ |x - n| + |x - k| := by
    rw [abs_sub_comm x k, add_comm]
    exact abs_sub_le _ _ _
  exact ⟨by linarith, fun h => heven (by linarith)⟩

theorem IsHalfEven.unique {x : Rat} {n k : Int} (hn : IsHalfEven x n) (hk : IsHalfEven x k) : n = k := by
  by_contra hne
  obtain ⟨hle, hevn⟩ := hn.nearest (Ne.symm hne)
  obtain ⟨hge, hevk⟩ := hk.nearest hne
  have htie : |x - k| = |x - n| := le_antisymm hge hle
  have hsum : |(n : Rat) - k| ≤ 1 := by
    have := abs_sub_le (n : Rat) x k
    rw [abs_sub_comm (n : Rat) x] at this
    linarith [hn.1, hk.1]
  have hint : |n - k| ≤ 1 := by exact_mod_cast hsum
  obtain ⟨a, rfl⟩ := hevn htie
  obtain ⟨b, rfl⟩ := hevk htie.symm
  rw [abs_le] at hint
  omega

theorem IsHalfEven.neg {x : Rat} {n : Int} (h : IsHalfEven x n) : IsHalfEven (-x) (-n) := by
  have habs : |-x - ((-n : Int) : Rat)| = |x - n| := by
    rw [← abs_neg]; congr 1; push_cast; ring
  unfold IsHalfEven
  rw [habs, even_neg]
  exact h

theorem roundHalfEven_neg (x : Rat) : roundHalfEven (-x) = -roundHalfEven x :=
  (roundHalfEven_isHalfEven _).unique (roundHalfEven_isHalfEven x).neg

theorem abs_roundHalfEven (x : Rat) : |roundHalfEven x| = roundHalfEven |x| := by
  have hnonneg : ∀ {z : Rat}, 0 ≤ z → 0 ≤ roundHalfEven z := fun h =>
    (roundHalfEven_intCast 0).symm.le.trans (roundHalfEven_mono (by exact_mod_cast h))
  rcases le_total 0 x with h | h
  · rw [abs_of_nonneg h, abs_of_nonneg (hnonneg h)]
  · rw [abs_of_nonpos h, ← abs_neg, ← roundHalfEven_neg, abs_of_nonneg (hnonneg (neg_nonneg.2 h))]

/-! ## The multiple of the unit in the last place nearest to a rational -/

theorem abs_f32Nearest (q : Rat) : |f32Nearest q| = f32Nearest |q| := by
  have hu : f32Ulp |q| = f32Ulp q := by simp only [f32Ulp, absQ_eq_abs, abs_abs]
  rw [f32Nearest, f32Nearest, hu, abs_mul, abs_of_pos (f32Ulp_pos q), ← Int.cast_abs, abs_roundHalfEven, abs_div,
    abs_of_pos (f32Ulp_pos q)]

theorem abs_sub_mul_f32Ulp (q : Rat) (k : Int) :
    |q - k * f32Ulp q| = |q / f32Ulp q - k| * f32Ulp q := by
  have hu := f32Ulp_pos q
  rw [← abs_of_pos hu, ← abs_mul, abs_of_pos hu, sub_mul, div_mul_cancel₀ _ hu.ne']

/-- Among the multiples of `f32Ulp q`, `f32Nearest q` is nearest to `q`; a tie went to the even multiple. -/
theorem f32Nearest_nearest_multiple (q : Rat) (k : Int) :
    |q - f32Nearest q| ≤ |q - k * f32Ulp q| ∧
    (k * f32Ulp q ≠ f32Nearest q → |q - k * f32Ulp q| = |q - f32Nearest q| →
      Even (roundHalfEven (q / f32Ulp q))) := by
  have hu := f32Ulp_pos q
  unfold f32Nearest
  rcases eq_or_ne k (roundHalfEven (q / f32Ulp q)) with hk | hk
  · rw [hk]
    exact ⟨le_rfl, fun h => absurd rfl h⟩
  · obtain ⟨hle, hev⟩ := (roundHalfEven_isHalfEven (q / f32Ulp q)).nearest hk
    rw [abs_sub_mul_f32Ulp, abs_sub_mul_f32Ulp]
    exact ⟨mul_le_mul_of_nonneg_right hle hu.le, fun _ h => hev (mul_right_cancel₀ hu.ne' h)⟩

/-! ## The values of binary32 patterns (R86) -/

/-- The pattern with sign `s`, exponent field `e` and fraction `m`. -/
def f32Word (s : BitVec 1) (e : BitVec 8) (m : BitVec 23) : Imm := s ++ e ++ m

theorem f32Word_toNat (s : BitVec 1) (e : BitVec 8) (m : BitVec 23) :
    (f32Word s e m).toNat = (s.toNat * 2 ^ 8 + e.toNat) * 2 ^ 23 + m.toNat := by
  rw [f32Word, BitVec.toNat_append, ← Nat.shiftLeft_add_eq_or_of_lt m.isLt, BitVec.toNat_append,
    ← Nat.shiftLeft_add_eq_or_of_lt e.isLt, Nat.shiftLeft_eq, Nat.shiftLeft_eq]

@[simp] theorem f32Word_exponent (s : BitVec 1) (e : BitVec 8) (m : BitVec 23) :
    (f32Word s e m).extractLsb' 23 8 = e := by
  apply BitVec.eq_of_toNat_eq
  rw [BitVec.extractLsb'_toNat, f32Word_toNat, Nat.shiftRight_eq_div_pow]
  have := e.isLt
  have := m.isLt
  omega

@[simp] theorem f32Word_fraction (s : BitVec 1) (e : BitVec 8) (m : BitVec 23) :
    (f32Word s e m).extractLsb' 0 23 = m := by
  apply BitVec.eq_of_toNat_eq
  rw [BitVec.extractLsb'_toNat, f32Word_toNat, Nat.shiftRight_zero]
  have := m.isLt
  omega

theorem f32Word_sign (s : BitVec 1) (e : BitVec 8) (m : BitVec 23) :
    (f32Word s e m).getLsbD 31 = s.getLsbD 0 := by
  rw [f32Word, BitVec.getLsbD_append, BitVec.getLsbD_append]
  rfl

theorem f32Word_lsb (s : BitVec 1) (e : BitVec 8) (m : BitVec 23) :
    (f32Word s e m).getLsbD 0 = m.getLsbD 0 := by
  rw [f32Word, BitVec.getLsbD_append]
  rfl

/-- The magnitude of a pattern with exponent field `e` and fraction `m`. -/
def f32Magnitude (e m : Nat) : Rat :=
  if e = 0 then (m : Rat) * pow2 (-149) else ((2 ^ 23 + m : Nat) : Rat) * pow2 ((e : Int) - 150)

theorem f32Value_eq_some {w : Imm} {y : Rat} : f32Value w = some y ↔
    (w.extractLsb' 23 8).toNat ≠ 255 ∧
    y = (if w.getLsbD 31 then -1 else 1) * f32Magnitude (w.extractLsb' 23 8).toNat (w.extractLsb' 0 23).toNat := by
  have hdef : f32Value w = if (w.extractLsb' 23 8).toNat = 255 then none else
      some (if w.getLsbD 31 then -f32Magnitude (w.extractLsb' 23 8).toNat (w.extractLsb' 0 23).toNat
        else f32Magnitude (w.extractLsb' 23 8).toNat (w.extractLsb' 0 23).toNat) := rfl
  rw [hdef]
  by_cases he : (w.extractLsb' 23 8).toNat = 255
  · simp [he]
  · rw [if_neg he, and_iff_right he, ite_mul, neg_one_mul, one_mul, Option.some.injEq, eq_comm]

theorem pow2_natCast_add (d : Nat) (i : Int) : pow2 (d + i) = 2 ^ d * pow2 i := by
  rw [pow2_add, pow2_eq_zpow d, zpow_natCast]

/-- A magnitude is a 24-bit significand times a power of two not below `2^-149`. -/
theorem f32Magnitude_eq (e : Nat) {m : Nat} (hm : m < 2 ^ 23) :
    ∃ (k : Nat) (i : Int), k < 2 ^ 24 ∧ -149 ≤ i ∧ f32Magnitude e m = k * pow2 i := by
  unfold f32Magnitude
  split_ifs with he
  · exact ⟨m, -149, by omega, le_rfl, rfl⟩
  · exact ⟨2 ^ 23 + m, (e : Int) - 150, by omega, by omega, rfl⟩

/-- A value is an integer of less than 24 bits times a power of two not below `2^-149`. -/
theorem f32Value_scaled {w : Imm} {y : Rat} (h : f32Value w = some y) :
    ∃ k i : Int, |k| < 2 ^ 24 ∧ -149 ≤ i ∧ y = k * pow2 i := by
  obtain ⟨-, rfl⟩ := f32Value_eq_some.1 h
  obtain ⟨k, i, hk, hi, heq⟩ := f32Magnitude_eq (w.extractLsb' 23 8).toNat (w.extractLsb' 0 23).isLt
  rw [heq]
  split_ifs
  · exact ⟨-k, i, by rw [abs_neg, Nat.abs_cast]; exact_mod_cast hk, hi, by push_cast; ring⟩
  · exact ⟨k, i, by rw [Nat.abs_cast]; exact_mod_cast hk, hi, by push_cast; ring⟩

/-- Conversely, a 24-bit significand with its leading bit set, or any shorter one at the exponent of the subnormals,
has a pattern, with the parity of the significand. -/
theorem exists_pattern_of_magnitude {k : Nat} {i : Int} (hk : k < 2 ^ 24) (hi : -149 ≤ i) (hi' : i ≤ 104)
    (hnorm : 2 ^ 23 ≤ k ∨ i = -149) :
    ∃ e m : Nat, e < 255 ∧ m < 2 ^ 23 ∧ f32Magnitude e m = k * pow2 i ∧ m % 2 = k % 2 := by
  rcases le_or_gt (2 ^ 23) k with hlead | hsub
  · refine ⟨(i + 150).toNat, k - 2 ^ 23, by omega, by omega, ?_, by omega⟩
    rw [f32Magnitude, if_neg (by omega), show 2 ^ 23 + (k - 2 ^ 23) = k by omega,
      show ((i + 150).toNat : Int) - 150 = i by omega]
  · obtain rfl : i = -149 := hnorm.resolve_left (by omega)
    exact ⟨0, k, by omega, hsub, rfl, rfl⟩

/-- The significand may be `2^24` too, which is `2^23` at the next exponent, if the value is below `2^128`. -/
theorem exists_pattern_of_significand {k : Nat} {i : Int} (hk : k ≤ 2 ^ 24) (hi : -149 ≤ i)
    (hnorm : 2 ^ 23 ≤ k ∨ i = -149) (hlt : (k : Rat) * pow2 i < pow2 128) :
    ∃ e m : Nat, e < 255 ∧ m < 2 ^ 23 ∧ f32Magnitude e m = k * pow2 i ∧ (Even k → Even m) := by
  have hexp : ∀ d : Nat, 2 ^ d ≤ k → (d : Int) + i < 128 := fun d hd => by
    refine lt_of_pow2_lt (lt_of_le_of_lt ?_ hlt)
    rw [pow2_natCast_add]
    exact mul_le_mul_of_nonneg_right (by exact_mod_cast hd) (pow2_pos i).le
  rcases hk.eq_or_lt with rfl | hk
  · obtain ⟨e, m, he, hm, hmag, hpar⟩ := exists_pattern_of_magnitude (k := 2 ^ 23) (i := i + 1) (by norm_num)
      (by omega) (by have := hexp 24 le_rfl; omega) (.inl le_rfl)
    refine ⟨e, m, he, hm, ?_, fun _ => Nat.even_iff.2 hpar⟩
    rw [hmag, pow2_succ]
    push_cast
    ring
  · have hi' : i ≤ 104 := by
      rcases hnorm with h | h
      · have := hexp 23 h; omega
      · omega
    obtain ⟨e, m, he, hm, hmag, hpar⟩ := exists_pattern_of_magnitude hk hi hi' hnorm
    exact ⟨e, m, he, hm, hmag, fun h => by rwa [Nat.even_iff, hpar, ← Nat.even_iff]⟩

theorem exists_pattern {n i : Int} (hn : |n| ≤ 2 ^ 24) (hi : -149 ≤ i) (hnorm : 2 ^ 23 ≤ |n| ∨ i = -149)
    (hlt : |n * pow2 i| < pow2 128) :
    ∃ w, f32Value w = some (n * pow2 i) ∧ (Even n → w.getLsbD 0 = false) := by
  rw [Int.abs_eq_natAbs] at hn hnorm
  rw [abs_mul, abs_of_pos (pow2_pos i), ← Int.cast_abs, ← Nat.cast_natAbs] at hlt
  obtain ⟨e, m, he, hm, hmag, hpar⟩ :=
    exists_pattern_of_significand (k := n.natAbs) (by omega) hi (by omega) hlt
  refine ⟨f32Word (BitVec.ofBool (n < 0)) (BitVec.ofNat 8 e) (BitVec.ofNat 23 m), ?_, fun hev => ?_⟩
  · have hsign : (n : Rat) = (if n < 0 then -1 else 1) * (n.natAbs : Rat) := by
      rw [Nat.cast_natAbs]
      split_ifs with h
      · rw [abs_of_neg h]; push_cast; ring
      · rw [abs_of_nonneg (not_lt.1 h)]; ring
    rw [f32Value_eq_some, f32Word_exponent, f32Word_fraction, f32Word_sign, BitVec.toNat_ofNat, BitVec.toNat_ofNat,
      Nat.mod_eq_of_lt (show e < 2 ^ 8 by omega), Nat.mod_eq_of_lt hm, hmag, hsign]
    exact ⟨by omega, by simp⟩
  · rw [f32Word_lsb, BitVec.getLsbD_ofNat, Nat.testBit_zero,
      Nat.even_iff.1 (hpar (Int.natAbs_even.2 hev))]
    rfl

/-! ## Rounding to binary32 (R309, R308) -/

theorem f32Ulp_eq (q : Rat) : f32Ulp q = pow2 (max (ilog2 |q|) (-126) - 23) := by
  rw [f32Ulp, absQ_eq_abs]

/-- The power of two below a normal `q` is `2^23` units in the last place. -/
theorem pow2_ilog2_eq_mul_f32Ulp {q : Rat} (h : -126 ≤ ilog2 |q|) : pow2 (ilog2 |q|) = 2 ^ 23 * f32Ulp q := by
  rw [f32Ulp_eq, max_eq_left h, ← pow2_natCast_add, Nat.cast_ofNat, add_sub_cancel]

/-- The significand may round up to the next power of two, never beyond it. -/
theorem abs_significand_le {q : Rat} (hq : q ≠ 0) : |roundHalfEven (q / f32Ulp q)| ≤ 2 ^ 24 := by
  have hu := f32Ulp_pos q
  have hle : |q / f32Ulp q| ≤ ((2 ^ 24 : Int) : Rat) := by
    rw [abs_div, abs_of_pos hu, div_le_iff₀ hu]
    calc |q| ≤ pow2 (ilog2 |q| + 1) := (ilog2_spec (abs_pos.2 hq)).2.le
      _ ≤ pow2 ((24 : Nat) + (max (ilog2 |q|) (-126) - 23)) := pow2_le_pow2 (by omega)
      _ = ((2 ^ 24 : Int) : Rat) * f32Ulp q := by rw [pow2_natCast_add, f32Ulp_eq, Int.cast_pow, Int.cast_ofNat]
  rw [abs_roundHalfEven, ← roundHalfEven_intCast (2 ^ 24)]
  exact roundHalfEven_mono hle

theorem le_abs_significand {q : Rat} (hq : q ≠ 0) (h : -126 ≤ ilog2 |q|) :
    2 ^ 23 ≤ |roundHalfEven (q / f32Ulp q)| := by
  have hu := f32Ulp_pos q
  have hle : ((2 ^ 23 : Int) : Rat) ≤ |q / f32Ulp q| := by
    rw [abs_div, abs_of_pos hu, le_div_iff₀ hu]
    rw [Int.cast_pow, Int.cast_ofNat, ← pow2_ilog2_eq_mul_f32Ulp h]
    exact (ilog2_spec (abs_pos.2 hq)).1
  rw [abs_roundHalfEven, ← roundHalfEven_intCast (2 ^ 23)]
  exact roundHalfEven_mono hle

/-- What `q` rounds to has a pattern if it is below `2^128`, an even one where the significand is even. -/
theorem exists_pattern_f32Nearest {q : Rat} (hq : q ≠ 0) (hlt : |f32Nearest q| < pow2 128) :
    ∃ w, f32Value w = some (f32Nearest q) ∧ (Even (roundHalfEven (q / f32Ulp q)) → w.getLsbD 0 = false) := by
  have hnorm : 2 ^ 23 ≤ |roundHalfEven (q / f32Ulp q)| ∨ max (ilog2 |q|) (-126) - 23 = -149 := by
    rcases le_or_gt (-126) (ilog2 |q|) with h | h
    · exact .inl (le_abs_significand hq h)
    · exact .inr (by omega)
  have hn := abs_significand_le hq
  rw [f32Nearest] at hlt ⊢
  generalize roundHalfEven (q / f32Ulp q) = n at *
  rw [f32Ulp_eq] at hlt ⊢
  exact exists_pattern hn (by omega) hnorm hlt

/-- A value of a pattern is a multiple of the unit in the last place of `q`, or smaller than the power of two below
a normal `q`. -/
theorem value_multiple_or_small {w : Imm} {y : Rat} (q : Rat) (hy : f32Value w = some y) :
    (∃ k : Int, y = k * f32Ulp q) ∨ (-126 ≤ ilog2 |q| ∧ |y| < pow2 (ilog2 |q|)) := by
  obtain ⟨k, i, hk, hi, rfl⟩ := f32Value_scaled hy
  rw [f32Ulp_eq]
  rcases le_or_gt (max (ilog2 |q|) (-126) - 23) i with h | h
  · obtain ⟨d, hd⟩ := Int.eq_ofNat_of_zero_le (sub_nonneg.2 h)
    refine .inl ⟨k * 2 ^ d, ?_⟩
    rw [show i = d + (max (ilog2 |q|) (-126) - 23) by omega, pow2_natCast_add, ← mul_assoc]
    norm_cast
  · refine .inr ⟨by omega, ?_⟩
    have hk' : |(k : Rat)| < 2 ^ 24 := by exact_mod_cast hk
    calc |k * pow2 i| = |(k : Rat)| * pow2 i := by rw [abs_mul, abs_of_pos (pow2_pos i)]
      _ < 2 ^ 24 * pow2 i := mul_lt_mul_of_pos_right hk' (pow2_pos i)
      _ = pow2 ((24 : Nat) + i) := (pow2_natCast_add 24 i).symm
      _ ≤ pow2 (ilog2 |q|) := pow2_le_pow2 (by omega)

/-- `f32Nearest q` is at most as far from `q` as the power of two below a normal `q`, a multiple of its unit. -/
theorem abs_sub_f32Nearest_le {q : Rat} (hq : q ≠ 0) (h : -126 ≤ ilog2 |q|) :
    |q - f32Nearest q| ≤ |q| - pow2 (ilog2 |q|) := by
  have hp := (ilog2_spec (abs_pos.2 hq)).1
  rw [pow2_ilog2_eq_mul_f32Ulp h] at hp ⊢
  rcases le_total 0 q with h0 | h0
  · have hn := (f32Nearest_nearest_multiple q (2 ^ 23)).1
    rw [Int.cast_pow, Int.cast_ofNat] at hn
    rw [abs_of_nonneg h0] at hp ⊢
    rwa [abs_of_nonneg (sub_nonneg.2 hp)] at hn
  · have hn := (f32Nearest_nearest_multiple q (-2 ^ 23)).1
    rw [Int.cast_neg, Int.cast_pow, Int.cast_ofNat, neg_mul, sub_neg_eq_add] at hn
    rw [abs_of_nonpos h0] at hp ⊢
    rw [abs_of_nonpos (show q + 2 ^ 23 * f32Ulp q ≤ 0 by linarith)] at hn
    linarith

/-- No value of a pattern is nearer to `q` than `f32Nearest q`; of two equally near it has the even significand. -/
theorem f32Nearest_nearest_value {q : Rat} (hq : q ≠ 0) {w : Imm} {y : Rat} (hy : f32Value w = some y) :
    |q - f32Nearest q| ≤ |q - y| ∧
    (y ≠ f32Nearest q → |q - y| = |q - f32Nearest q| → Even (roundHalfEven (q / f32Ulp q))) := by
  rcases value_multiple_or_small q hy with ⟨k, rfl⟩ | ⟨hnormal, hsmall⟩
  · exact f32Nearest_nearest_multiple q k
  · have hlt : |q - f32Nearest q| < |q - y| :=
      calc |q - f32Nearest q| ≤ |q| - pow2 (ilog2 |q|) := abs_sub_f32Nearest_le hq hnormal
        _ < |q| - |y| := sub_lt_sub_left hsmall _
        _ ≤ |q - y| := abs_sub_abs_le_abs_sub _ _
    exact ⟨hlt.le, fun _ h => absurd h hlt.ne'⟩

/-- Rounding reaches `2^128` from half a unit above the largest binary32 on (R308). -/
theorem pow2_128_le_f32Nearest {a : Rat} (h : 0 < a) : pow2 128 ≤ f32Nearest a ↔ 2 ^ 128 - 2 ^ 103 ≤ a := by
  have hhalf : f32Nearest (2 ^ 128 - 2 ^ 103) = pow2 128 := by decide +kernel
  have hmax : f32Nearest (2 ^ 128 - 2 ^ 104) = 2 ^ 128 - 2 ^ 104 := by decide +kernel
  have hval : f32Value 0x7F7FFFFF#32 = some (2 ^ 128 - 2 ^ 104) := by decide +kernel
  refine ⟨fun hge => ?_, fun hge => hhalf ▸ f32Nearest_mono (by norm_num) hge⟩
  have htop : pow2 128 = 2 ^ 128 := by rw [pow2_eq_zpow]; norm_num
  rw [htop] at hge
  rcases le_or_gt a (2 ^ 128 - 2 ^ 104) with hle | hgt
  · have := f32Nearest_mono h hle
    rw [hmax] at this
    linarith
  · have hnear := (f32Nearest_nearest_value h.ne' hval).1
    rw [abs_of_pos (sub_pos.2 hgt)] at hnear
    linarith [neg_abs_le (a - f32Nearest a)]

theorem f32Nearest_zero : f32Nearest 0 = 0 := by decide +kernel

theorem f32Round_eq (q : Rat) : f32Round q = if |f32Nearest q| < pow2 128 then some (f32Nearest q) else none := by
  rcases eq_or_ne q 0 with rfl | hq
  · rw [f32Nearest_zero, abs_zero, if_pos (pow2_pos _), f32Round, if_pos rfl]
  · rw [f32Round, if_neg hq, ← absQ_eq_abs]
    rfl

theorem numResult_f32_eq_ok {q r : Rat} :
    numResult .f32 q = .ok r ↔ r = f32Nearest q ∧ |f32Nearest q| < pow2 128 := by
  unfold numResult
  rw [f32Round_eq]
  split_ifs with h <;> simp [h, eq_comm]

theorem numResult_f32_eq_error {q : Rat} :
    numResult .f32 q = .error Trap.numeric ↔ 2 ^ 128 - 2 ^ 103 ≤ |q| := by
  have hover : numResult .f32 q = .error Trap.numeric ↔ pow2 128 ≤ |f32Nearest q| := by
    unfold numResult
    rw [f32Round_eq]
    split_ifs with h <;> simp [h, not_lt.1]
  rw [hover, abs_f32Nearest]
  rcases eq_or_ne q 0 with rfl | hq
  · rw [abs_zero, f32Nearest_zero]
    exact iff_of_false (pow2_pos _).not_ge (by norm_num)
  · exact pow2_128_le_f32Nearest (abs_pos.2 hq)

/-- A finite result in `F32` is the value of a pattern, no value is nearer to the exact one, and of two equally near
it has an even pattern (R309). -/
theorem numResult_f32_nearest_even {q r : Rat} (h : numResult .f32 q = .ok r) :
    (∃ w, f32Value w = some r) ∧
    (∀ w y, f32Value w = some y → |q - r| ≤ |q - y|) ∧
    (∀ w y, f32Value w = some y → y ≠ r → |q - y| = |q - r| →
      ∃ w', f32Value w' = some r ∧ w'.getLsbD 0 = false) := by
  obtain ⟨rfl, hlt⟩ := numResult_f32_eq_ok.1 h
  rcases eq_or_ne q 0 with rfl | hq
  · rw [f32Nearest_zero]
    have hzero : f32Value 0#32 = some 0 := by decide +kernel
    exact ⟨⟨_, hzero⟩, fun _ y _ => by simp, fun _ _ _ _ _ => ⟨_, hzero, rfl⟩⟩
  · obtain ⟨w, hw, heven⟩ := exists_pattern_f32Nearest hq hlt
    exact ⟨⟨w, hw⟩, fun _ _ hy => (f32Nearest_nearest_value hq hy).1,
      fun _ _ hy hne htie => ⟨w, hw, heven ((f32Nearest_nearest_value hq hy).2 hne htie)⟩⟩

theorem numDiv_f32_of_ne_zero (a : Rat) {b : Rat} (h : b ≠ 0) : numDiv .f32 a b = numResult .f32 (a / b) := if_neg h

theorem numDiv_f32_zero (a : Rat) : numDiv .f32 a 0 = .error Trap.numeric := by
  rw [numDiv, if_pos rfl]

/-! ## The statements -/

/-- Settles O14: `f32Nearest` is the nearest multiple of the unit in the last place, a tie going to the even one;
a binary32 number that is no such multiple is below the power of two under `|q|`, and so farther away. -/
theorem f32OperationsRoundToNearestEven : Obligations.F32OperationsRoundToNearestEven :=
  ⟨fun _ _ => ⟨rfl, rfl, rfl, rfl⟩,
    fun a _ => ⟨rfl, rfl, rfl, numDiv_f32_of_ne_zero a, numDiv_f32_zero a⟩,
    fun _ => ⟨fun _ => numResult_f32_nearest_even, numResult_f32_eq_error, fun _ h => (numResult_error h).1⟩⟩

/-- Settles O15: the properties the types of the constants carry, and those the reading functions add. -/
theorem configurationFunctionsMeetTheirProperties : Obligations.ConfigurationFunctionsMeetTheirProperties :=
  ⟨fun m => ⟨sine01_quarters m, sine01_mem m, sine01_half_period m, tri01_mem m, tanhFn_zero m, tanhFn_neg m,
    tanhFn_mem m, fun _ h => (tanhFn_pos m h).1, fun _ _ h => (tanhFn_rises m h).le, coefP_mem m, coefP_quarter m,
    fun _ _ => coefP_below m, fun _ _ _ hc h hd => (coefP_rises m hc h hd).le,
    fun _ _ r hc h => coefP_stable m hc h r, fun v a => ⟨velGain_one_left m a, velGain_zero_right m v⟩, noteHz_a4 m,
    fun _ _ => noteHz_pos, fun _ _ _ _ h ex ey => (noteHz_rises h ex ey).le, envMinMs_mem m, draw_mem m,
    drawOther_mem m⟩,
    fun _ _ => coefP_le_top .exact, fun _ _ h => tanhFn_rises .exact h, fun _ _ _ hc h hd => coefP_rises .exact hc h hd,
    fun _ _ _ _ h ex ey => noteHz_rises h ex ey, noteHz_exact_add_twelve, sqHalf_mem⟩

end Sys2Proof.Machine
end

section
/-! SUPPORT. What every step keeps (spec/10_state.md): the buffer's form, then for each unit what each of its
operations can do to the registers and the invariants that follow, and the state after reset. -/

namespace Sys2Proof.Machine

variable {m : NumInst}

/-! ## The buffer below `BUF_LEN` (R37, R60) -/

/-- Every listed index is below a set `BUF_LEN`. -/
def Memory.Below (len : Option (Fin 65536)) (b : Memory) : Prop := ∀ e ∈ b, ∃ n, len = some n ∧ e.1 < n.val

theorem bufferOk_iff {s : State} : s.BufferOk ↔ Memory.wf s.buf ∧ Memory.Below s.bufLen s.buf := Iff.rfl

theorem bufWrite_below {len : Option (Fin 65536)} {b b' : Memory} {i : Nat} {x : Rat}
    (h : bufWrite len b i x = .ok b') (hb : Memory.Below len b) : Memory.Below len b' := by
  obtain ⟨hi, rfl⟩ := bufWrite_eq_ok.1 h
  intro e he
  rcases Memory.mem_put he with rfl | he
  · exact hi
  · exact hb e he

theorem Flt.processFrom_below {len : Option (Fin 65536)} {n i : Nat} {f g : Flt} {b c : Memory}
    (h : Flt.processFrom m len n i f b = .ok (g, c)) (hb : Memory.Below len b) : Memory.Below len c := by
  induction n generalizing i f b with
  | zero => cases h; exact hb
  | succ n ih =>
    obtain ⟨_, _, _, _, _, _, hw, h⟩ := Flt.processFrom_succ.1 h
    exact ih h (bufWrite_below hw hb)

theorem Flt.process_below {len : Option (Fin 65536)} {n i : Nat} {f g : Flt} {b c : Memory}
    (h : f.process m len i n b = .ok (g, c)) (hb : Memory.Below len b) : Memory.Below len c := by
  unfold Flt.process at h
  split at h
  · cases h
  · exact Flt.processFrom_below h hb

theorem Voice.renderFrom_below {file : Vector (Option Rat) 25} {len : Option (Fin 65536)} {n i d d' : Nat}
    {w w' : Voice} {b c : Memory} (h : Voice.renderFrom m file len n i d w b = .ok (d', w', c))
    (hb : Memory.Below len b) : Memory.Below len c := by
  induction n generalizing i d w b with
  | zero => cases h; exact hb
  | succ n ih =>
    obtain ⟨_, _, _, _, _, _, _, _, _, _, _, _, hw, h⟩ := Voice.renderFrom_succ.1 h
    exact ih h (bufWrite_below hw hb)

theorem Voice.render_below {file : Vector (Option Rat) 25} {len : Option (Fin 65536)} {start n d d' : Nat}
    {w w' : Voice} {b c : Memory} (h : w.render m file len start n d b = .ok (d', w', c))
    (hb : Memory.Below len b) : Memory.Below len c := by
  obtain ⟨_, _, ⟨_, _, hr, _⟩ | ⟨_, _, _, rfl⟩⟩ := Voice.render_eq_ok.1 h
  · exact Voice.renderFrom_below hr hb
  · exact hb

theorem renderVoices_below {file : Vector (Option Rat) 25} {len : Option (Fin 65536)} {start n : Nat}
    {l : List (Fin 8)} {d d' : Nat} {vs vs' : Vector Voice 8} {b c : Memory}
    (h : renderVoices m file len start n l d vs b = .ok (d', vs', c)) (hb : Memory.Below len b) :
    Memory.Below len c := by
  induction l generalizing d vs b with
  | nil => cases h; exact hb
  | cons v rest ih =>
    rw [renderVoices, bind_eq_ok] at h
    obtain ⟨_, hr, h⟩ := h
    exact ih h (Voice.render_below hr hb)

/-- Only ENG.PREPARE sets `BUF_LEN`, and it empties the buffer; every other command writes within it. -/
theorem Effect.buf_below {i : Instr} {s t : State} {r : Response} (h : Effect i s r t)
    (hb : Memory.Below s.bufLen s.buf) : Memory.Below t.bufLen t.buf := by
  cases h
  case bufSt hw => exact bufWrite_below hw hb
  case fltProcbuf hp => exact Flt.process_below hp hb
  case voiceRender hr => exact Voice.render_below hr hb
  case engRender hr => exact renderVoices_below hr hb
  case engPrepare hp =>
    obtain ⟨_, _, _, _, _, _, rfl⟩ := prepare_ok hp
    exact fun _ he => nomatch he
  all_goals exact hb

theorem exec_buf_below {i : Instr} {s u : State} (h : exec i s = .next u) (hb : Memory.Below s.bufLen s.buf) :
    Memory.Below u.bufLen u.buf := by
  rcases exec_next h with ⟨r, t, hE, rfl⟩ | ⟨t, rfl⟩
  · exact hE.buf_below hb
  · exact hb

/-- Settles O54: a fault leaves the buffer, and every command that stores goes through `bufWrite`, which checks the
index and keeps the listing's order. -/
theorem stepKeepsBufferForm : Obligations.StepKeepsBufferForm := by
  intro s t hs h
  obtain ⟨hwf, hlt⟩ := bufferOk_iff.1 hs
  rcases step_next h with rfl | ⟨e, rfl⟩ | ⟨i, hi⟩
  · exact hs
  · exact hs
  · exact bufferOk_iff.2 ⟨exec_buf_wf hi hwf, exec_buf_below hi hlt⟩

/-! ## An invariant of one unit is kept by every step if every operation of the unit keeps it -/

theorem VoiceStep.keeps_osc {P : Osc → Prop} (hP : ∀ {o o'}, OscStep m o o' → P o → P o') {w w' : Voice}
    (h : VoiceStep m w w') : P w.osc → P w'.osc := by
  induction h with
  | trans _ _ ih ih' => exact ih' ∘ ih
  | osc h => exact hP h
  | _ => exact id

theorem VoiceStep.keeps_env {P : Env → Prop} (hP : ∀ {e e'}, EnvStep m e e' → P e → P e') {w w' : Voice}
    (h : VoiceStep m w w') : (∀ i : Fin 2, P w.env[i]) → ∀ i : Fin 2, P w'.env[i] := by
  induction h with
  | trans _ _ ih ih' => exact ih' ∘ ih
  | env i h =>
    intro hw j
    rw [Voice.setEnv_get]
    split
    · exact hP h (hw i)
    · exact hw j
  | _ => exact id

theorem VoiceStep.keeps_lfo {P : Lfo → Prop} (hP : ∀ {l l'}, LfoStep m l l' → P l → P l') {w w' : Voice}
    (h : VoiceStep m w w') : (∀ i : Fin 2, P w.lfo[i]) → ∀ i : Fin 2, P w'.lfo[i] := by
  induction h with
  | trans _ _ ih ih' => exact ih' ∘ ih
  | lfo i h =>
    intro hw j
    rw [Voice.setLfo_get]
    split
    · exact hP h (hw i)
    · exact hw j
  | _ => exact id

theorem VoiceStep.keeps_flt {P : Flt → Prop} (hP : ∀ {f f'}, FltStep m f f' → P f → P f') {w w' : Voice}
    (h : VoiceStep m w w') : P w.flt → P w'.flt := by
  induction h with
  | trans _ _ ih ih' => exact ih' ∘ ih
  | flt h => exact hP h
  | _ => exact id

theorem VoiceStep.keeps_router {P : Router → Prop} (hP : ∀ {r r'}, RouterStep r r' → P r → P r') {w w' : Voice}
    (h : VoiceStep m w w') : P w.router → P w'.router := by
  induction h with
  | trans _ _ ih ih' => exact ih' ∘ ih
  | router h => exact hP h
  | _ => exact id

/-! ## Routers and voice registers (R33 to R35) -/

theorem RouterStep.inRange {r r' : Router} (h : RouterStep r r') (hr : r.InRange) : r'.InRange := by
  cases h with
  | conn s d c => exact ⟨hr.mod, hr.velocity, hr.modwheel⟩
  | clear => exact ⟨hr.mod, hr.velocity, hr.modwheel⟩
  | base d x => exact ⟨hr.mod, hr.velocity, hr.modwheel⟩
  | registered o b => exact ⟨hr.mod, hr.velocity, hr.modwheel⟩
  | mod x h => exact ⟨h, hr.velocity, hr.modwheel⟩
  | scalar c x h =>
    refine ⟨hr.mod, ?_, ?_⟩ <;> rw [Router.scalar_setScalar] <;> split
    · exact h (.inl (Eq.symm ‹_›))
    · exact hr.velocity
    · exact h (.inr (Eq.symm ‹_›))
    · exact hr.modwheel

theorem VoiceStep.consistent {w w' : Voice} (h : VoiceStep m w w') : w.Consistent → w'.Consistent := by
  induction h with
  | trans _ _ ih ih' => exact ih' ∘ ih
  | start w note vel hv => exact fun hw => ⟨hv, hw.wheel, fun h => nomatch h⟩
  | stop w => exact fun hw => ⟨hw.vel, hw.wheel, fun _ => ⟨rfl, rfl⟩⟩
  | tail hp => exact fun hw => ⟨hw.vel, hw.wheel, fun h => nomatch hp.symm.trans h⟩
  | wheel w x hx => exact fun hw => ⟨hw.vel, hx, hw.free⟩
  | _ => exact fun hw => ⟨hw.vel, hw.wheel, hw.free⟩

/-- Settles O56: only clamped values reach the modulated values, the scalars and the voice registers, and a voice
gets a note or a tail flag only while it plays. -/
theorem stepKeepsRoutersAndVoices : Obligations.StepKeepsRoutersAndVoices :=
  ⟨fun _ _ hs h v => (step_voiceStep h v).keeps_router RouterStep.inRange (hs v),
    fun _ _ hs h v => (step_voiceStep h v).consistent (hs v)⟩

/-! ## What the operations of an oscillator and an LFO do to frequency, rate, increment and phase -/

theorem Osc.setFreq_cases {x : Rat} {o o' : Osc} (h : o.setFreq m x = .ok o') :
    (o.sr = none ∧ o' = { o with freq := some x }) ∨
      ∃ r q, o.sr = some r ∧ numDiv m x r = .ok q ∧ o' = { o with freq := some x, inc := some q } := by
  unfold Osc.setFreq at h
  split at h
  · cases h; exact .inl ⟨‹_›, rfl⟩
  · simp only [bind_eq_ok, Except.ok.injEq] at h
    obtain ⟨q, hq, rfl⟩ := h
    exact .inr ⟨_, q, ‹_›, hq, rfl⟩

theorem Osc.setSr_cases {imm : Imm} {x : Rat} {o o' : Osc} (h : o.setSr m imm x = .ok o') :
    (o.freq = none ∧ o' = { o with sr := some x }) ∨
      ∃ f q, o.freq = some f ∧ numDiv m f x = .ok q ∧ o' = { o with sr := some x, inc := some q } := by
  unfold Osc.setSr at h
  split at h
  · cases h
  split at h
  · cases h; exact .inl ⟨‹_›, rfl⟩
  · simp only [bind_eq_ok, Except.ok.injEq] at h
    obtain ⟨q, hq, rfl⟩ := h
    exact .inr ⟨_, q, ‹_›, hq, rfl⟩

/-- A phase advance changes the phase alone. -/
theorem Osc.proc_cases {x : Rat} {o o' : Osc} (h : o.proc m = .ok (x, o')) :
    ∃ q p w, o.inc = some q ∧ phaseStep m o.phase q = .ok (p, w) ∧ o' = { o with phase := p } := by
  simp only [Osc.proc, bind_eq_ok, readOpt_eq_ok, Except.ok.injEq, Prod.mk.injEq, Prod.exists] at h
  obtain ⟨q, hq, _, _, p, w, hp, -, rfl⟩ := h
  exact ⟨q, p, w, hq, hp, rfl⟩

/-- LFO.SETFREQ stores a frequency in [1/100, 100] (R162). -/
theorem Lfo.setFreq_cases {x : Rat} {l l' : Lfo} (h : l.setFreq m x = .ok l') :
    (l.sr = none ∧ l' = { l with freq := some (clamp x (lit m (1 / 100)) 100) }) ∨
      ∃ r q, l.sr = some r ∧ numDiv m (clamp x (lit m (1 / 100)) 100) r = .ok q ∧
        l' = { l with freq := some (clamp x (lit m (1 / 100)) 100), inc := some q } := by
  unfold Lfo.setFreq at h
  dsimp only at h
  split at h
  · cases h; exact .inl ⟨‹_›, rfl⟩
  · simp only [bind_eq_ok, Except.ok.injEq] at h
    obtain ⟨q, hq, rfl⟩ := h
    exact .inr ⟨_, q, ‹_›, hq, rfl⟩

theorem Lfo.setSr_cases {imm : Imm} {x : Rat} {l l' : Lfo} (h : l.setSr m imm x = .ok l') :
    (l.freq = none ∧ l' = { l with sr := some x }) ∨
      ∃ f q, l.freq = some f ∧ numDiv m f x = .ok q ∧ l' = { l with sr := some x, inc := some q } := by
  unfold Lfo.setSr at h
  split at h
  · cases h
  split at h
  · cases h; exact .inl ⟨‹_›, rfl⟩
  · simp only [bind_eq_ok, Except.ok.injEq] at h
    obtain ⟨q, hq, rfl⟩ := h
    exact .inr ⟨_, q, ‹_›, hq, rfl⟩

/-- The wrap action (R172) changes the random registers alone, and fills them with draws or with one another. -/
theorem Lfo.wrap_cases (n : Nat) (l : Lfo) :
    (l.wrap m n).2 = l ∨ (l.wrap m n).2 = { l with held := drawOther m n l.held } ∨
      (l.wrap m n).2 = { l with sPrev := l.sTarget, sTarget := draw m n } := by
  unfold Lfo.wrap
  split
  · exact .inr (.inl rfl)
  · exact .inr (.inr rfl)
  all_goals exact .inl rfl

theorem Lfo.advance_cases {n n' : Nat} {l l' : Lfo} (h : l.advance m n = .ok (n', l')) :
    ∃ q p w, l.inc = some q ∧ phaseStep m l.phase q = .ok (p, w) ∧
      (l' = { l with phase := p } ∨ l' = { l with phase := p, held := drawOther m n l.held } ∨
        l' = { l with phase := p, sPrev := l.sTarget, sTarget := draw m n }) := by
  simp only [Lfo.advance, bind_eq_ok, readOpt_eq_ok, Except.ok.injEq, Prod.exists] at h
  obtain ⟨q, hq, p, w, hp, h⟩ := h
  refine ⟨q, p, w, hq, hp, ?_⟩
  split at h
  · rw [← show (Lfo.wrap m n { l with phase := p }).2 = l' from congrArg Prod.snd h]
    exact Lfo.wrap_cases n { l with phase := p }
  · cases h; exact .inl rfl

/-- LFO.NEXT (R170) is an advance, then the output into the latch. -/
theorem Lfo.next_cases {n n' : Nat} {x : Rat} {l l' : Lfo} (h : l.next m n = .ok (x, n', l')) :
    ∃ k u, l.output m k = .ok x ∧ l.advance m n = .ok (n', u) ∧ l' = { u with lastOut := x } := by
  simp only [Lfo.next, bind_eq_ok, Except.ok.injEq, Prod.mk.injEq, Prod.exists] at h
  obtain ⟨k, _, _, _, x, hx, n', u, hu, rfl, rfl, rfl⟩ := h
  exact ⟨k, u, hx, hu, rfl⟩

/-! ## Increments stay derived (R25, R29) -/

@[simp] theorem incDerived_of_some (f r : Rat) (inc : Option Rat) :
    IncDerived m (some f) (some r) inc ↔ ∃ q, numDiv m f r = .ok q ∧ inc = some q := Iff.rfl

@[simp] theorem incDerived_of_freq_none (sr inc : Option Rat) : IncDerived m none sr inc ↔ inc = none := Iff.rfl

@[simp] theorem incDerived_of_sr_none (freq inc : Option Rat) : IncDerived m freq none inc ↔ inc = none := by
  cases freq <;> rfl

/-- The registers `IncDerived` speaks of, of an oscillator. -/
abbrev Osc.IncDerived (m : NumInst) (o : Osc) : Prop := Machine.IncDerived m o.freq o.sr o.inc

/-- The registers `IncDerived` speaks of, of an LFO. -/
abbrev Lfo.IncDerived (m : NumInst) (l : Lfo) : Prop := Machine.IncDerived m l.freq l.sr l.inc

theorem OscStep.incDerived {o o' : Osc} (h : OscStep m o o') (ho : o.IncDerived m) : o'.IncDerived m := by
  cases h with
  | freq h =>
    rcases Osc.setFreq_cases h with ⟨hs, rfl⟩ | ⟨r, q, hs, hq, rfl⟩
    · simpa [Osc.IncDerived, hs] using ho
    · simp [Osc.IncDerived, hs, hq]
  | sr h =>
    rcases Osc.setSr_cases h with ⟨hf, rfl⟩ | ⟨f, q, hf, hq, rfl⟩
    · simpa [Osc.IncDerived, hf] using ho
    · simp [Osc.IncDerived, hf, hq]
  | wave k => exact ho
  | proc h =>
    obtain ⟨_, _, _, _, _, rfl⟩ := Osc.proc_cases h
    exact ho

theorem Lfo.advance_incDerived {n n' : Nat} {l l' : Lfo} (h : l.advance m n = .ok (n', l')) (hl : l.IncDerived m) :
    l'.IncDerived m := by
  obtain ⟨_, _, _, _, _, rfl | rfl | rfl⟩ := Lfo.advance_cases h <;> exact hl

theorem LfoStep.incDerived {l l' : Lfo} (h : LfoStep m l l') (hl : l.IncDerived m) : l'.IncDerived m := by
  cases h with
  | freq h =>
    rcases Lfo.setFreq_cases h with ⟨hs, rfl⟩ | ⟨r, q, hs, hq, rfl⟩
    · simpa [Lfo.IncDerived, hs] using hl
    · simp only [Lfo.IncDerived, hs, incDerived_of_some]
      exact ⟨q, hq, rfl⟩
  | sr h =>
    rcases Lfo.setSr_cases h with ⟨hf, rfl⟩ | ⟨f, q, hf, hq, rfl⟩
    · simpa [Lfo.IncDerived, hf] using hl
    · simp [Lfo.IncDerived, hf, hq]
  | wave k => exact hl
  | bipolar b => exact hl
  | next h =>
    obtain ⟨_, u, _, hu, rfl⟩ := Lfo.next_cases h
    exact show u.IncDerived m from Lfo.advance_incDerived hu hl
  | advance h => exact Lfo.advance_incDerived h hl
  | rewind n => exact hl

/-! ## What the operations of an envelope do -/

theorem Env.rederive_cases {e e' : Env} (h : Env.rederive m e = .ok e') :
    (e.sr = none ∧ e' = e) ∨
      ∃ sr a drop d r, e.sr = some sr ∧ calcRate m 1 e.atkMs sr = .ok a ∧ numSub m 1 e.sus = .ok drop ∧
        calcRate m drop e.decMs sr = .ok d ∧ calcRate m e.relFrom e.relMs sr = .ok r ∧
        e' = { e with atkRate := some a, decRate := some d, relRate := some r } := by
  unfold Env.rederive at h
  split at h
  · cases h; exact .inl ⟨‹_›, rfl⟩
  · simp only [bind_eq_ok, Except.ok.injEq] at h
    obtain ⟨a, ha, drop, hdrop, d, hd, r, hr, rfl⟩ := h
    exact .inr ⟨_, a, drop, d, r, ‹_›, ha, hdrop, hd, hr, rfl⟩

theorem Env.setSr_cases {imm : Imm} {x : Rat} {e e' : Env} (h : e.setSr m imm x = .ok e') :
    0 < x ∧ Env.rederive m { e with sr := some x } = .ok e' := by
  unfold Env.setSr at h
  split at h
  · cases h
  · exact ⟨not_le.1 ‹_›, h⟩

/-- ENV.NOTEOFF (R138): nothing in Idle and Release, else the release starts from the level held. -/
theorem Env.noteOff_cases {e e' : Env} (h : e.noteOff m = .ok e') :
    e' = e ∨ ∃ u, Env.rederive m { e with relFrom := e.level } = .ok u ∧ e' = { u with stage := .release } := by
  unfold Env.noteOff at h
  split at h
  · cases h; exact .inl rfl
  · cases h; exact .inl rfl
  all_goals
    simp only [bind_eq_ok, Except.ok.injEq] at h
    obtain ⟨u, hu, rfl⟩ := h
    exact .inr ⟨u, hu, rfl⟩

/-- What ENV.TICK (R139) leaves of an envelope, stage by stage. -/
inductive Env.Ticked (m : NumInst) (e : Env) : Env → Prop
  | idle (hs : e.stage = .idle) : Env.Ticked m e e
  | attackEnds (hs : e.stage = .attack) : Env.Ticked m e { e with level := 1, stage := .decay }
  | attack {rate l} (hs : e.stage = .attack) (hr : e.atkRate = some rate) (hl : numAdd m e.level rate = .ok l)
    (h1 : l < 1) : Env.Ticked m e { e with level := l }
  | decayEnds (hs : e.stage = .decay) : Env.Ticked m e { e with level := e.sus, stage := .sustain }
  | decay {rate l} (hs : e.stage = .decay) (hr : e.decRate = some rate) (hl : numSub m e.level rate = .ok l)
    (h1 : e.sus < l) : Env.Ticked m e { e with level := l }
  | sustain (hs : e.stage = .sustain) : Env.Ticked m e { e with level := e.sus }
  | releaseEnds (hs : e.stage = .release) : Env.Ticked m e { e with level := 0, stage := .idle }
  | release {rate l} (hs : e.stage = .release) (hr : e.relRate = some rate) (hl : numSub m e.level rate = .ok l)
    (h1 : 0 < l) : Env.Ticked m e { e with level := l }

theorem Env.tick_ticked {x : Rat} {e e' : Env} (h : e.tick m = .ok (x, e')) : Env.Ticked m e e' := by
  unfold Env.tick at h
  split at h
  case h_1 hs => cases h; exact .idle hs
  case h_4 hs => cases h; exact .sustain hs
  all_goals
    rename_i hs
    simp only [bind_eq_ok, readOpt_eq_ok] at h
    obtain ⟨rate, hr, l, hl, h⟩ := h
    split at h <;> rename_i hc <;> cases h
  · exact .attackEnds hs
  · exact .attack hs hr hl (not_le.1 hc)
  · exact .decayEnds hs
  · exact .decay hs hr hl (not_le.1 hc)
  · exact .releaseEnds hs
  · exact .release hs hr hl (not_le.1 hc)

/-! ## Envelope rates stay derived (R27) -/

/-- The rates do not depend on stage and level. -/
theorem Env.rederive_setStageLevel (e : Env) (st : Stage) (l : Rat) :
    Env.rederive m { e with stage := st, level := l } =
      (fun e' => { e' with stage := st, level := l }) <$> Env.rederive m e := by
  cases hs : e.sr with
  | none => simp only [Env.rederive, hs]; rw [← hs]; rfl
  | some sr => simp only [Env.rederive, hs, map_bind]; rfl

theorem Env.Derived.setStageLevel {e : Env} (h : e.Derived m) (st : Stage) (l : Rat) :
    Env.Derived m { e with stage := st, level := l } := by
  refine ⟨?_, h.2⟩
  rw [Env.rederive_setStageLevel, h.1]
  rfl

/-- After `Rederive()` (R134) the rates are derived; without a sample rate they were unset before. -/
theorem Env.derived_of_rederive {e e' : Env} (h : Env.rederive m e = .ok e')
    (hn : e.sr = none → e.atkRate = none ∧ e.decRate = none ∧ e.relRate = none) : e'.Derived m := by
  refine ⟨(rederive_frame h).1, fun hs => ?_⟩
  rcases Env.rederive_cases h with ⟨hs', rfl⟩ | ⟨sr, _, _, _, _, hs', _, _, _, _, rfl⟩
  · exact hn hs'
  · exact nomatch hs'.symm.trans hs

theorem Env.tick_derived {x : Rat} {e e' : Env} (h : e.tick m = .ok (x, e')) (he : e.Derived m) : e'.Derived m := by
  cases Env.tick_ticked h with
  | idle => exact he
  | _ => exact he.setStageLevel _ _

theorem EnvStep.derived {e e' : Env} (h : EnvStep m e e') (he : e.Derived m) : e'.Derived m := by
  cases h with
  | noteOn => exact he.setStageLevel _ _
  | noteOff h =>
    rcases Env.noteOff_cases h with rfl | ⟨u, hu, rfl⟩
    · exact he
    · exact (Env.derived_of_rederive hu he.2).setStageLevel .release u.level
  | atk h => exact Env.derived_of_rederive (e := { e with atkMs := _ }) h he.2
  | dec h => exact Env.derived_of_rederive (e := { e with decMs := _ }) h he.2
  | sus h => exact Env.derived_of_rederive (e := { e with sus := _ }) h he.2
  | rel h => exact Env.derived_of_rederive (e := { e with relMs := _ }) h he.2
  | sr h => exact Env.derived_of_rederive (Env.setSr_cases h).2 fun hn => nomatch hn
  | tick h => exact Env.tick_derived h he
  | idle => exact he.setStageLevel _ _

/-! ## What the operations of a filter do -/

theorem Flt.recompute_cases {f f' : Flt} (h : Flt.recompute m f = .ok f') :
    (f.sr = none ∧ f' = f) ∨
      ∃ sr k1 k2 k3 k4 k, f.sr = some sr ∧ numMul m 4 f.res = .ok k1 ∧ numMul m k1 (coefP m f.cutoff sr) = .ok k2 ∧
        numMul m k2 (coefP m f.cutoff sr) = .ok k3 ∧ numMul m k3 (coefP m f.cutoff sr) = .ok k4 ∧
        numMul m k4 (coefP m f.cutoff sr) = .ok k ∧ f' = { f with p := some (coefP m f.cutoff sr), k := some k } := by
  unfold Flt.recompute at h
  split at h
  · cases h; exact .inl ⟨‹_›, rfl⟩
  · simp only [bind_eq_ok, Except.ok.injEq] at h
    obtain ⟨k1, h1, k2, h2, k3, h3, k4, h4, k, hk, rfl⟩ := h
    exact .inr ⟨_, k1, k2, k3, k4, k, ‹_›, h1, h2, h3, h4, hk, rfl⟩

theorem Flt.setSr_cases {imm : Imm} {x : Rat} {f f' : Flt} (h : f.setSr m imm x = .ok f') :
    ∃ top, numMul m (lit m (9 / 20)) x = .ok top ∧ 20 ≤ top ∧
      Flt.recompute m { f with sr := some x, cutoff := clamp f.cutoff 20 top } = .ok f' := by
  unfold Flt.setSr at h
  split at h
  · cases h
  · rw [bind_eq_ok] at h
    obtain ⟨top, htop, h⟩ := h
    split at h
    · cases h
    · exact ⟨top, htop, not_lt.1 ‹_›, h⟩

theorem Flt.setCut_cases {x : Rat} {f f' : Flt} (h : f.setCut m x = .ok f') :
    ∃ sr top, f.sr = some sr ∧ numMul m (lit m (9 / 20)) sr = .ok top ∧
      Flt.recompute m { f with cutoff := clamp x 20 top } = .ok f' := by
  simp only [Flt.setCut, bind_eq_ok, readOpt_eq_ok] at h
  obtain ⟨sr, hs, top, htop, h⟩ := h
  exact ⟨sr, top, hs, htop, h⟩

/-- One sample (R197) changes the stages and the histories alone. -/
theorem Flt.sample_cases {x y : Rat} {f f' : Flt} (h : f.sample m x = .ok (y, f')) :
    ∃ y1 y2 y3 y4 h1 h2, f' = { f with y1 := y1, y2 := y2, y3 := y3, y4 := y4, h1 := h1, h2 := h2 } := by
  simp only [Flt.sample, bind_eq_ok, Except.ok.injEq, Prod.mk.injEq] at h
  obtain ⟨_, _, _, _, _, _, _, _, _, _, h2, _, y1, _, y2, _, y3, _, y4, _, -, rfl⟩ := h
  exact ⟨y1, y2, y3, y4, _, h2, rfl⟩

/-! ## Filter coefficients stay derived (R31) -/

/-- The coefficients do not depend on the stages, the histories and the drive. -/
theorem Flt.recompute_setSignal (f : Flt) (y1 y2 y3 y4 h1 h2 : Rat) (d : Option Rat) :
    Flt.recompute m { f with y1 := y1, y2 := y2, y3 := y3, y4 := y4, h1 := h1, h2 := h2, drive := d } =
      (fun g => { g with y1 := y1, y2 := y2, y3 := y3, y4 := y4, h1 := h1, h2 := h2, drive := d }) <$>
        Flt.recompute m f := by
  cases hs : f.sr with
  | none => simp only [Flt.recompute, hs]; rw [← hs]; rfl
  | some sr => simp only [Flt.recompute, hs, map_bind]; rfl

theorem Flt.Derived.setSignal {f : Flt} (h : f.Derived m) (y1 y2 y3 y4 h1 h2 : Rat) (d : Option Rat) :
    Flt.Derived m { f with y1 := y1, y2 := y2, y3 := y3, y4 := y4, h1 := h1, h2 := h2, drive := d } := by
  refine ⟨?_, h.2⟩
  rw [Flt.recompute_setSignal, h.1]
  rfl

/-- Recomputing again changes nothing. -/
theorem Flt.recompute_recompute {f f' : Flt} (h : Flt.recompute m f = .ok f') : Flt.recompute m f' = .ok f' := by
  rcases Flt.recompute_cases h with ⟨_, rfl⟩ | ⟨sr, k1, k2, k3, k4, k, hs, h1, h2, h3, h4, hk, rfl⟩
  · exact h
  · unfold Flt.recompute
    simp only [hs, h1, h2, h3, h4, hk, res_ok_bind]

/-- After `Recompute()` (R194) the coefficients are derived; without a sample rate they were unset before. -/
theorem Flt.derived_of_recompute {f f' : Flt} (h : Flt.recompute m f = .ok f')
    (hn : f.sr = none → f.p = none ∧ f.k = none) : f'.Derived m := by
  refine ⟨Flt.recompute_recompute h, fun hs => ?_⟩
  rcases Flt.recompute_cases h with ⟨hs', rfl⟩ | ⟨sr, _, _, _, _, _, hs', _, _, _, _, _, rfl⟩
  · exact hn hs'
  · exact nomatch hs'.symm.trans hs

theorem FltStep.derived {f f' : Flt} (h : FltStep m f f') (hf : f.Derived m) : f'.Derived m := by
  cases h with
  | sr h =>
    obtain ⟨_, _, _, h⟩ := Flt.setSr_cases h
    exact Flt.derived_of_recompute h fun hn => nomatch hn
  | cut h =>
    obtain ⟨_, _, _, _, h⟩ := Flt.setCut_cases h
    exact Flt.derived_of_recompute h hf.2
  | res h => exact Flt.derived_of_recompute (f := { f with res := _ }) h hf.2
  | drv x => exact hf.setSignal f.y1 f.y2 f.y3 f.y4 f.h1 f.h2 _
  | sample h =>
    obtain ⟨_, _, _, _, _, _, rfl⟩ := Flt.sample_cases h
    exact hf.setSignal _ _ _ _ _ _ f.drive
  | clear => exact hf.setSignal 0 0 0 0 0 0 f.drive

/-- Settles O55: every operation that writes a source register derives again from it, every other one leaves both
alone. -/
theorem stepKeepsDerivedRegisters : Obligations.StepKeepsDerivedRegisters := by
  intro s t hs h v
  obtain ⟨hosc, henv, hlfo, hflt⟩ := hs v
  have hv := step_voiceStep h v
  rw [step_num h]
  exact ⟨hv.keeps_osc (P := Osc.IncDerived s.num) OscStep.incDerived hosc, hv.keeps_env EnvStep.derived henv,
    hv.keeps_lfo (P := Lfo.IncDerived s.num) LfoStep.incDerived hlfo, hv.keeps_flt FltStep.derived hflt⟩

/-! ## Phases wrapped, LFO registers in range (R25, R28, R29), in `EXACT` -/

/-- One wrap brings a phase in [0,1) back into it, since the increment is in [0,1) too (R115). -/
theorem phaseStep_mem {p q p' : Rat} {w : Bool} (h : phaseStep .exact p q = .ok (p', w)) (hp : 0 ≤ p ∧ p < 1) :
    0 ≤ p' ∧ p' < 1 := by
  obtain ⟨hp0, hp1⟩ := hp
  unfold phaseStep at h
  split at h
  · cases h
  · rename_i hq
    rw [not_or, not_lt, not_le] at hq
    simp only [numAdd_exact, numSub_exact, res_ok_bind] at h
    split at h <;> cases h <;> constructor <;> linarith

theorem OscStep.inRange {o o' : Osc} (h : OscStep .exact o o') (ho : o.InRange) : o'.InRange := by
  cases h with
  | freq h => obtain ⟨_, rfl⟩ | ⟨_, _, _, _, rfl⟩ := Osc.setFreq_cases h <;> exact ho
  | sr h => obtain ⟨_, rfl⟩ | ⟨_, _, _, _, rfl⟩ := Osc.setSr_cases h <;> exact ho
  | wave k => exact ho
  | proc h =>
    obtain ⟨q, p, w, _, hp, rfl⟩ := Osc.proc_cases h
    exact phaseStep_mem hp ho

/-- Every waveform is in [-1,1] on [0,1) (R114). -/
theorem waveValue_mem {k : OscWave} {t x : Rat} (h : waveValue .exact k t = .ok x) (ht : 0 ≤ t ∧ t < 1) :
    -1 ≤ x ∧ x ≤ 1 := by
  cases k with
  | sine => cases h; exact sine01_mem _ t
  | saw =>
    simp only [waveValue, numMul_exact, numSub_exact, res_ok_bind] at h
    cases h
    constructor <;> linarith
  | square =>
    cases h
    split_ifs
    · norm_num
    · norm_num
    · rcases sqHalf_mem with h | h | h <;> rw [h] <;> norm_num
  | triangle => cases h; exact tri01_mem _ t

/-- A weighted mean of two values in [-1,1] is in [-1,1]: the smoothed waveform between its ends. -/
theorem interpolation_mem {a b t : Rat} (ha : -1 ≤ a ∧ a ≤ 1) (hb : -1 ≤ b ∧ b ≤ 1) (ht : 0 ≤ t ∧ t < 1) :
    -1 ≤ a + (b - a) * t ∧ a + (b - a) * t ≤ 1 := by
  constructor <;> nlinarith

theorem Lfo.value_mem {k : LfoWave} {l : Lfo} {x : Rat} (h : l.value .exact k = .ok x) (hl : l.InRange) :
    -1 ≤ x ∧ x ≤ 1 := by
  cases k with
  | stepped => cases h; exact hl.held
  | smoothed =>
    simp only [Lfo.value, numSub_exact, numMul_exact, numAdd_exact, res_ok_bind] at h
    cases h
    exact interpolation_mem hl.sPrev hl.sTarget hl.phase
  | sine => exact waveValue_mem (k := .sine) h hl.phase
  | triangle => exact waveValue_mem (k := .triangle) h hl.phase
  | saw => exact waveValue_mem (k := .saw) h hl.phase
  | square => exact waveValue_mem (k := .square) h hl.phase

theorem Lfo.output_mem {k : LfoWave} {l : Lfo} {x : Rat} (h : l.output .exact k = .ok x) (hl : l.InRange) :
    -1 ≤ x ∧ x ≤ 1 := by
  rw [Lfo.output, bind_eq_ok] at h
  obtain ⟨y, hy, h⟩ := h
  have hm := Lfo.value_mem hy hl
  split at h
  · cases h; exact hm
  · simp only [numAdd_exact, numMul_exact, res_ok_bind] at h
    cases h
    constructor <;> linarith

theorem Lfo.advance_inRange {n n' : Nat} {l l' : Lfo} (h : l.advance .exact n = .ok (n', l')) (hl : l.InRange) :
    l'.InRange := by
  obtain ⟨q, p, w, _, hp, rfl | rfl | rfl⟩ := Lfo.advance_cases h
  · exact { hl with phase := phaseStep_mem hp hl.phase }
  · exact { hl with phase := phaseStep_mem hp hl.phase, held := (drawOther_mem _ _ _).2 }
  · exact { hl with phase := phaseStep_mem hp hl.phase, sPrev := hl.sTarget, sTarget := draw_mem _ _ }

/-- The range of R162 keeps a stored frequency in [1/100, 100]. -/
theorem Lfo.freq_mem (x : Rat) :
    ∀ f, some (clamp x (lit .exact (1 / 100)) 100) = some f → 1 / 100 ≤ f ∧ f ≤ 100 := by
  rintro _ ⟨⟩
  exact ⟨clamp_lo (by norm_num), clamp_hi _ _ _⟩

theorem LfoStep.inRange {l l' : Lfo} (h : LfoStep .exact l l') (hl : l.InRange) : l'.InRange := by
  cases h with
  | freq h =>
    obtain ⟨_, rfl⟩ | ⟨_, _, _, _, rfl⟩ := Lfo.setFreq_cases h <;> exact { hl with freq := Lfo.freq_mem _ }
  | sr h => obtain ⟨_, rfl⟩ | ⟨_, _, _, _, rfl⟩ := Lfo.setSr_cases h <;> exact { hl with }
  | wave k => exact { hl with }
  | bipolar b => exact { hl with }
  | next h =>
    obtain ⟨k, u, ho, hu, rfl⟩ := Lfo.next_cases h
    exact { Lfo.advance_inRange hu hl with lastOut := Lfo.output_mem ho hl }
  | advance h => exact Lfo.advance_inRange h hl
  | rewind n =>
    exact { hl with phase := ⟨le_rfl, zero_lt_one⟩, held := draw_mem _ _, sPrev := draw_mem _ _, sTarget := draw_mem _ _ }

/-- Settles O57: a phase only moves by `PhaseAdvance`, which wraps it, and the latch only takes outputs, which are in
[-1,1] with the phase and the random registers in range. -/
theorem stepKeepsPhasesWrapped : Obligations.StepKeepsPhasesWrapped := by
  refine ⟨fun s t hm hs h v => ?_, fun s t hm hs h v => ?_⟩ <;> have hv := step_voiceStep h v <;> rw [hm] at hv
  · exact hv.keeps_osc OscStep.inRange (hs v)
  · exact hv.keeps_lfo LfoStep.inRange (hs v)

/-! ## Envelope registers in range (R26, R27, R141), in `EXACT` -/

theorem calcRate_nonneg {delta ms sr r : Rat} (h : calcRate .exact delta ms sr = .ok r) (hd : 0 ≤ delta)
    (hsr : 0 < sr) : 0 ≤ r := by
  unfold calcRate at h
  split at h
  · cases h; exact hd
  · rename_i hms
    rw [not_or, not_le, not_le] at hms
    simp only [numMul_exact, numDiv_exact, lit_exact, res_ok_bind] at h
    cases h
    have := hms.1
    positivity

theorem Env.rederive_inRange {e e' : Env} (h : Env.rederive .exact e = .ok e') (he : e.InRange) : e'.InRange := by
  rcases Env.rederive_cases h with ⟨_, rfl⟩ | ⟨sr, a, drop, d, r, hs, ha, hdrop, hd, hr, rfl⟩
  · exact he
  · have hsr := he.sr sr hs
    cases hdrop
    exact { he with
      atkRate := fun _ h => Option.some.inj h ▸ calcRate_nonneg ha zero_le_one hsr
      decRate := fun _ h => Option.some.inj h ▸ calcRate_nonneg hd (sub_nonneg.2 he.sus.2) hsr
      relRate := fun _ h => Option.some.inj h ▸ calcRate_nonneg hr he.relFrom.1 hsr }

/-- A tick stops at the end of its stage: at 1 in Attack, at the sustain level in Decay, at 0 in Release, where it
enters Idle. -/
theorem Env.Ticked.inRange {e e' : Env} (h : Env.Ticked .exact e e') (he : e.InRange) : e'.InRange := by
  obtain ⟨hl0, hl1⟩ := he.level
  cases h with
  | idle => exact he
  | attackEnds => exact { he with level := ⟨zero_le_one, le_rfl⟩, idle := fun h => nomatch h }
  | attack hs hr hl h1 =>
    cases hl
    exact { he with level := ⟨add_nonneg hl0 (he.atkRate _ hr), h1.le⟩, idle := fun h => nomatch hs.symm.trans h }
  | decayEnds => exact { he with level := he.sus, idle := fun h => nomatch h }
  | decay hs hr hl h1 =>
    cases hl
    have := he.decRate _ hr
    exact { he with level := ⟨he.sus.1.trans h1.le, by linarith⟩, idle := fun h => nomatch hs.symm.trans h }
  | sustain hs => exact { he with level := he.sus, idle := fun h => nomatch hs.symm.trans h }
  | releaseEnds => exact { he with level := ⟨le_rfl, zero_le_one⟩, idle := fun _ => rfl }
  | release hs hr hl h1 =>
    cases hl
    have := he.relRate _ hr
    exact { he with level := ⟨h1.le, by linarith⟩, idle := fun h => nomatch hs.symm.trans h }

theorem EnvStep.inRange {e e' : Env} (h : EnvStep .exact e e') (he : e.InRange) : e'.InRange := by
  cases h with
  | noteOn => exact { he with idle := fun h => nomatch h }
  | noteOff h =>
    rcases Env.noteOff_cases h with rfl | ⟨u, hu, rfl⟩
    · exact he
    · exact { Env.rederive_inRange hu { he with relFrom := he.level } with idle := fun h => nomatch h }
  | atk h => exact Env.rederive_inRange h { he with atkMs := le_max_right _ _ }
  | dec h => exact Env.rederive_inRange h { he with decMs := le_max_right _ _ }
  | sus h => exact Env.rederive_inRange h { he with sus := clamp_unit _ }
  | rel h => exact Env.rederive_inRange h { he with relMs := le_max_right _ _ }
  | sr h =>
    obtain ⟨hx, h⟩ := Env.setSr_cases h
    exact Env.rederive_inRange h { he with sr := fun _ h => Option.some.inj h ▸ hx }
  | tick h => exact (Env.tick_ticked h).inRange he
  | idle => exact { he with level := ⟨le_rfl, zero_le_one⟩, idle := fun _ => rfl }

/-! ## Filter registers in range (R30, R31), in `EXACT` -/

theorem Flt.recompute_inRange {f f' : Flt} (h : Flt.recompute .exact f = .ok f') (hf : f.InRange) : f'.InRange := by
  rcases Flt.recompute_cases h with ⟨_, rfl⟩ | ⟨sr, k1, k2, k3, k4, k, _, h1, h2, h3, h4, hk, rfl⟩
  · exact hf
  · cases h1; cases h2; cases h3; cases h4; cases hk
    have hp := coefP_mem .exact f.cutoff sr
    have hr := hf.res.1
    exact { hf with
      p := fun _ h => Option.some.inj h ▸ hp
      k := fun _ h => Option.some.inj h ▸ by have := hp.1; positivity }

/-- A cutoff clamped to [20, 9/20 × rate], where the rate leaves that interval non-empty. -/
theorem Flt.cutoff_mem (x : Rat) {r : Rat} (hr : 20 ≤ 9 / 20 * r) :
    400 / 9 ≤ r ∧ 20 ≤ clamp x 20 (9 / 20 * r) ∧ clamp x 20 (9 / 20 * r) ≤ 9 / 20 * r :=
  ⟨by linarith, clamp_lo hr, clamp_hi _ _ _⟩

theorem FltStep.inRange {f f' : Flt} (h : FltStep .exact f f') (hf : f.InRange) : f'.InRange := by
  cases h with
  | sr h =>
    obtain ⟨top, htop, h20, h⟩ := Flt.setSr_cases h
    cases htop
    exact Flt.recompute_inRange h { hf with sr := fun _ h => Option.some.inj h ▸ Flt.cutoff_mem _ h20 }
  | cut h =>
    obtain ⟨r, top, hs, htop, h⟩ := Flt.setCut_cases h
    cases htop
    have hr := (hf.sr r hs).1
    refine Flt.recompute_inRange h { hf with sr := fun r' h => ?_ }
    cases hs.symm.trans h
    exact Flt.cutoff_mem _ (by linarith)
  | res h => exact Flt.recompute_inRange h { hf with res := clamp_unit _ }
  | drv x => exact { hf with drive := fun _ h => Option.some.inj h ▸ le_max_right _ _ }
  | sample h =>
    obtain ⟨_, _, _, _, _, _, rfl⟩ := Flt.sample_cases h
    exact { hf with }
  | clear => exact { hf with }

/-- Settles O58: levels end where their stage ends, every other register takes clamped values, and the derived ones
are quotients and products of them. -/
theorem stepKeepsEnvelopesAndFilters : Obligations.StepKeepsEnvelopesAndFilters := by
  refine ⟨fun s t hm hs h v => ?_, fun s t hm hs h v => ?_⟩ <;> have hv := step_voiceStep h v <;> rw [hm] at hv
  · exact hv.keeps_env EnvStep.inRange (hs v)
  · exact hv.keeps_flt FltStep.inRange (hs v)

/-! ## What a command leaves alone (R20, R36, R41, R48, R85) -/

theorem OnlyTargetChanged.of_voices_eq {tg : Target} {s t : State} (h : t.voices = s.voices) :
    OnlyTargetChanged tg s t := by
  cases tg <;>
    simp only [OnlyTargetChanged, h, State.setOsc_self, State.setEnv_self, State.setLfo_self, State.setFlt_self,
      State.setRouter_self, implies_true]

theorem OnlyTargetChanged.setOsc {s t : State} {v : Fin 8} {o : Osc} (h : t.voices = (s.setOsc v o).voices) :
    OnlyTargetChanged (.osc v) s t := by
  simp only [OnlyTargetChanged, h, State.setOsc, State.setVoice_same]

theorem OnlyTargetChanged.setEnv {s t : State} {v : Fin 8} {i : Fin 2} {e : Env}
    (h : t.voices = (s.setEnv v i e).voices) : OnlyTargetChanged (.env v i) s t := by
  simp only [OnlyTargetChanged, h, State.setEnv, State.setVoice_same, Voice.setEnv_get, if_true]

theorem OnlyTargetChanged.setLfo {s t : State} {v : Fin 8} {i : Fin 2} {l : Lfo}
    (h : t.voices = (s.setLfo v i l).voices) : OnlyTargetChanged (.lfo v i) s t := by
  simp only [OnlyTargetChanged, h, State.setLfo, State.setVoice_same, Voice.setLfo_get, if_true]

theorem OnlyTargetChanged.setFlt {s t : State} {v : Fin 8} {f : Flt} (h : t.voices = (s.setFlt v f).voices) :
    OnlyTargetChanged (.flt v) s t := by
  simp only [OnlyTargetChanged, h, State.setFlt, State.setVoice_same]

theorem OnlyTargetChanged.setRouter {s t : State} {v : Fin 8} {r : Router}
    (h : t.voices = (s.setRouter v r).voices) : OnlyTargetChanged (.router v) s t := by
  simp only [OnlyTargetChanged, h, State.setRouter, State.setVoice_same]

theorem OnlyTargetChanged.setVoice {s t : State} {v : Fin 8} {w : Voice} (h : t.voices = (s.setVoice v w).voices) :
    OnlyTargetChanged (.voice v) s t := by
  intro u hu
  rw [h, State.setVoice_other s v u w hu]

theorem OnlyTargetChanged.respond {tg : Target} {s t : State} (h : OnlyTargetChanged tg s t) (r : Response) :
    OnlyTargetChanged tg s (t.respond r) := by
  cases tg <;> exact h

/-- MOD.PROCBLK (R230) writes the router alone. -/
theorem Voice.evaluateN_router {n : Nat} {w w' : Voice} (h : w.evaluateN m n = .ok w') :
    w' = { w with router := w'.router } := by
  induction n generalizing w with
  | zero => cases h; rfl
  | succ n ih =>
    rw [Voice.evaluateN, bind_eq_ok] at h
    obtain ⟨u, hu, h⟩ := h
    obtain ⟨_, _, _, _, _, _, _, _, _, _, rfl⟩ := evaluate_eq_ok.1 hu
    exact (ih h :)

theorem Voice.processBlock_router {n : Nat} {w w' : Voice} (h : w.processBlock m n = .ok w') :
    w' = { w with router := w'.router } :=
  Voice.evaluateN_router (w := { w with router := w.router.resetMod }) h

/-- A command's effect on the voices is on the unit or voice it addresses. -/
theorem Effect.onlyTargetChanged {i : Instr} {s t : State} {r : Response} (h : Effect i s r t) :
    OnlyTargetChanged (target i) s t := by
  cases h
  case oscSetfreq | oscSetsr | oscSetwave | oscProc => exact .setOsc rfl
  case envNoteon | envNoteoff | envSetatk | envSetdec | envSetsus | envSetrel | envSetsr | envTick =>
    exact .setEnv rfl
  case lfoSetfreq | lfoSetsr | lfoSetwave | lfoSetbip | lfoNext | lfoSkip | lfoReset => exact .setLfo rfl
  case fltSetsr | fltSetcut | fltSetres | fltSetdrv | fltProc1 | fltProcbuf | fltReset => exact .setFlt rfl
  case modAdd | modRemove | modClear | modSetbase | modSetscalar | modRegister => exact .setRouter rfl
  case modProcblk v n w h =>
    refine .setRouter (r := w.router) ?_
    rw [State.setRouter, ← Voice.processBlock_router h]
  case voiceNoteon | voiceNoteoff | voiceRender | voicePitchbend | voiceModwheel => exact .setVoice rfl
  case engPrepare | engNoteon | engNoteoff | engRender | engSetparam => trivial
  all_goals exact .of_voices_eq rfl

/-- Only ENG.PREPARE sets the engine's rate and `BUF_LEN`. -/
theorem Effect.engine_frame {i : Instr} {s t : State} {r : Response} (h : Effect i s r t)
    (hi : ∀ size imm, i ≠ .engPrepare size imm) : t.engSr = s.engSr ∧ t.bufLen = s.bufLen := by
  cases h
  case engPrepare => exact absurd rfl (hi _ _)
  all_goals exact ⟨rfl, rfl⟩

/-- Only ENG.SETPARAM writes the parameter file, at its own place. -/
theorem Effect.param_frame {i : Instr} {s t : State} {r : Response} (h : Effect i s r t) {p : Param}
    (hi : ∀ imm, i ≠ .engSetparam p imm) : paramGet t.param p = paramGet s.param p := by
  cases h
  case engSetparam id imm x hx =>
    have hne : p ≠ id := by rintro rfl; exact hi imm rfl
    exact (paramGet_set _ _ _ _).trans (if_neg hne)
  case engPrepare hp =>
    obtain ⟨_, _, _, _, _, _, rfl⟩ := prepare_ok hp
    rfl
  all_goals rfl

/-- Settles O51: a fault changes none of this, and the effect of each command is an update of what it addresses. -/
theorem commandsTouchOnlyTheirUnit : Obligations.CommandsTouchOnlyTheirUnit := by
  intro i s u h
  rcases exec_next h with ⟨r, t, hE, rfl⟩ | ⟨e, rfl⟩
  · obtain ⟨-, hstream, hnum, -, -⟩ := hE.frame
    exact ⟨hE.onlyTargetChanged.respond r, hnum, hstream, hE.engine_frame, fun p => hE.param_frame⟩
  · exact ⟨.of_voices_eq rfl, rfl, rfl, fun _ => ⟨rfl, rfl⟩, fun _ _ => rfl⟩

/-! ## The state after reset (R40, R330) -/

/-- Every voice starts from its reset values, with draws of its own. -/
theorem State.resetIn_voice (m : NumInst) (v : Fin 8) : (State.resetIn m).voices[v] = Voice.reset m (6 * v.val) := by
  fin_cases v <;> rfl

theorem Voice.reset_env (m : NumInst) (n : Nat) (i : Fin 2) : (Voice.reset m n).env[i] = Env.reset m := by
  fin_cases i <;> rfl

theorem Voice.reset_lfo (m : NumInst) (n : Nat) (i : Fin 2) :
    (Voice.reset m n).lfo[i] = Lfo.reset m (n + 3 * i.val) := by
  fin_cases i <;> rfl

theorem State.resetIn_bufferOk (m : NumInst) : (State.resetIn m).BufferOk :=
  ⟨List.Pairwise.nil, fun _ he => nomatch he⟩

theorem State.resetIn_derived (m : NumInst) : (State.resetIn m).Derived := by
  intro v
  rw [State.resetIn_voice]
  refine ⟨rfl, fun i => ?_, fun i => ?_, rfl, fun _ => ⟨rfl, rfl⟩⟩
  · rw [Voice.reset_env]
    exact ⟨rfl, fun _ => ⟨rfl, rfl, rfl⟩⟩
  · rw [Voice.reset_lfo]
    exact rfl

theorem State.resetIn_routersInRange (m : NumInst) : (State.resetIn m).RoutersInRange := by
  intro v
  rw [State.resetIn_voice]
  refine ⟨fun d x h => ?_, ⟨le_rfl, zero_le_one⟩, ⟨le_rfl, zero_le_one⟩⟩
  cases d <;> cases h

theorem State.resetIn_voicesConsistent (m : NumInst) : (State.resetIn m).VoicesConsistent := by
  intro v
  rw [State.resetIn_voice]
  exact ⟨⟨le_rfl, zero_le_one⟩, ⟨le_rfl, zero_le_one⟩, fun _ => ⟨rfl, rfl⟩⟩

theorem Lfo.reset_inRange (n : Nat) : (Lfo.reset .exact n).InRange where
  phase := ⟨le_rfl, zero_lt_one⟩
  freq := fun _ h => nomatch h
  held := draw_mem _ _
  sPrev := draw_mem _ _
  sTarget := draw_mem _ _
  lastOut := ⟨neg_nonpos.2 zero_le_one, zero_le_one⟩

/-- The reset durations meet `ENV_MIN_MS`, which is at most 50 (log 4). -/
theorem Env.reset_inRange : (Env.reset .exact).InRange where
  level := ⟨le_rfl, zero_le_one⟩
  sus := by rw [Env.reset]; norm_num
  relFrom := ⟨le_rfl, zero_le_one⟩
  idle := fun _ => rfl
  atkMs := (envMinMs_mem _).2
  decMs := (envMinMs_mem _).2.trans (by rw [Env.reset]; norm_num)
  relMs := (envMinMs_mem _).2.trans (by rw [Env.reset]; norm_num)
  sr := fun _ h => nomatch h
  atkRate := fun _ h => nomatch h
  decRate := fun _ h => nomatch h
  relRate := fun _ h => nomatch h

theorem Flt.reset_inRange : (Flt.reset .exact).InRange where
  res := by rw [Flt.reset]; norm_num
  drive := fun _ h => nomatch h
  sr := fun _ h => nomatch h
  p := fun _ h => nomatch h
  k := fun _ h => nomatch h

/-- Settles O59: at reset every derived register is unset with its sources, and the others hold the values of their
tables. -/
theorem resetMeetsTheInvariants : Obligations.ResetMeetsTheInvariants := by
  refine ⟨State.resetIn_bufferOk _, State.resetIn_derived _, State.resetIn_routersInRange _,
    State.resetIn_voicesConsistent _, rfl, fun v => ?_, fun v i => ?_, fun v i => ?_, fun v => ?_,
    State.resetIn_bufferOk _, State.resetIn_derived _, State.resetIn_routersInRange _,
    State.resetIn_voicesConsistent _⟩ <;> rw [State.reset, State.resetIn_voice]
  · exact ⟨le_rfl, zero_lt_one⟩
  · rw [Voice.reset_lfo]; exact Lfo.reset_inRange _
  · rw [Voice.reset_env]; exact Env.reset_inRange
  · exact Flt.reset_inRange

end Sys2Proof.Machine
end

section
/-! SUPPORT. The sample buffer (spec/20_memory.md): how a word comes to be fetched and how it is serialised (R65),
the two memory primitives and the commands over them (R62 to R64), and the elements a command leaves (R67, R75). -/

namespace Sys2Proof

/-! ## Words as bytes (R65, R81) -/

/-- The word of a command without a voice and with a 16-bit operand. -/
theorem Fields.word_index (opc : BitVec 8) (x : BitVec 16) (imm : Imm) :
    (Fields.mk opc 0 0 (hiByte x) (loByte x) imm).word = opc ++ 0#8 ++ x ++ imm := by
  rw [Fields.word]
  apply BitVec.eq_of_getElem_eq
  intro i hi
  simp only [hiByte, loByte, BitVec.getElem_append, BitVec.getElem_extractLsb']
  grind

@[simp] theorem tableWord_toNat (w : Cmd) : tableWord 64 w.toNat = w := by
  rw [tableWord, Nat.mod_eq_of_lt w.isLt, BitVec.ofNat_toNat, BitVec.setWidth_eq]

theorem decodeTableWord_toNat {w : Cmd} {i : Instr} (h : decode w = .ok i) :
    decodeTableWord 64 w.toNat = some i := by
  rw [decodeTableWord, tableWord_toNat, h]

theorem bytesOfWord_getElem? (w : Cmd) {k : Nat} (h : k < 8) :
    (bytesOfWord w)[k]? = some (w.extractLsb' (8 * k) 8) := by
  rw [bytesOfWord, List.getElem?_map, List.getElem?_range h, Option.map_some]

theorem wordOfBytes_bytesOfWord_append (w : Cmd) (rest : List (BitVec 8)) :
    wordOfBytes (bytesOfWord w ++ rest) = some (w, rest) := by
  have hw : w.extractLsb' 56 8 ++ w.extractLsb' 48 8 ++ w.extractLsb' 40 8 ++ w.extractLsb' 32 8 ++
      w.extractLsb' 24 8 ++ w.extractLsb' 16 8 ++ w.extractLsb' 8 8 ++ w.extractLsb' 0 8 = w := by
    apply BitVec.eq_of_getElem_eq
    intro i hi
    simp only [BitVec.getElem_append, BitVec.getElem_extractLsb']
    grind
  exact congrArg (fun u => some (u, rest)) hw

theorem decodeBytes_bytesOfWord_append (w : Cmd) (rest : List (BitVec 8)) :
    decodeBytes (bytesOfWord w ++ rest) = some (decode w, rest) := by
  rw [decodeBytes, wordOfBytes_bytesOfWord_append, Option.map_some]

namespace Machine

/-! ## The word put into the stream (log 6) -/

/-- What stands before the put word fills the stream up to its index. -/
theorem length_take_append_gap (stream : List Cmd) (k : Nat) :
    (stream.take k ++ List.replicate (k - stream.length) 0).length = k := by
  rw [List.length_append, List.length_take, List.length_replicate]
  omega

theorem streamPut_same (stream : List Cmd) (k : Nat) (w : Cmd) : (streamPut stream k w)[k]? = some w := by
  rw [streamPut, List.append_assoc, List.getElem?_append_right (length_take_append_gap stream k).le,
    length_take_append_gap, Nat.sub_self]
  rfl

theorem streamPut_other {stream : List Cmd} {k j : Nat} {u : Cmd} (w : Cmd) (hj : j ≠ k) (hu : stream[j]? = some u) :
    (streamPut stream k w)[j]? = some u := by
  have hlt : j < stream.length := (List.getElem?_eq_some_iff.1 hu).1
  have hlen := length_take_append_gap stream k
  rcases Nat.lt_or_gt_of_ne hj with hj | hj
  · rw [streamPut, List.append_assoc, List.getElem?_append_left (by omega), List.getElem?_append_left
      (by rw [List.length_take]; omega), List.getElem?_take_of_lt hj, hu]
  · rw [streamPut, List.getElem?_append_right (by rw [List.length_append, hlen]; exact hj), List.getElem?_drop,
      List.length_append, hlen, List.length_singleton, Nat.add_sub_of_le hj, hu]

@[simp] theorem fetch_loadWord (s : State) (w : Cmd) : fetch (s.loadWord w) = some w :=
  streamPut_same s.stream s.pc w

theorem step_loadWord {s : State} {w : Cmd} {i : Instr} (h : decode w = .ok i) :
    step (s.loadWord w) = exec i (s.loadWord w) := by
  have hrun : (s.loadWord w).halted = false := rfl
  simp only [step, hrun, fetch_loadWord, h, Bool.false_eq_true, if_false]

@[simp] theorem withFetchWord_toNat (s : State) (w : Cmd) : s.withFetchWord 64 w.toNat = s.loadWord w := by
  rw [State.withFetchWord, tableWord_toNat]

/-- Settles O9: the put word is the one fetched, and the eight bytes put together in order are the word. -/
theorem loadedWordIsTheNextCommand : Obligations.LoadedWordIsTheNextCommand := fun s w =>
  ⟨fun _ => step_loadWord, rfl, fun _ hk _ => streamPut_other w hk, withFetchWord_toNat s w,
    fun _ => decodeTableWord_toNat, decodeBytes_bytesOfWord_append w, fun _ => bytesOfWord_getElem? w⟩

/-! ## The primitives, case by case (R62) -/

section
variable (b : Memory) (x : Rat) {n : Fin 65536} {i : Nat}

@[simp] theorem bufRead_none (i : Nat) : bufRead none b i = .error Trap.unset := rfl

@[simp] theorem bufWrite_none (i : Nat) : bufWrite none b i x = .error Trap.unset := rfl

theorem bufRead_beyond (h : n.val ≤ i) : bufRead (some n) b i = .error (Trap.bufRange i) := by
  rw [bufRead, bufCheck_beyond h, res_error_bind]

theorem bufWrite_beyond (h : n.val ≤ i) : bufWrite (some n) b i x = .error (Trap.bufRange i) := by
  rw [bufWrite, bufCheck_beyond h, res_error_bind]

theorem bufRead_within (h : i < n.val) : bufRead (some n) b i = readOpt (Memory.get b i) := by
  rw [bufRead, bufCheck_within h, res_ok_bind]

theorem bufWrite_within (h : i < n.val) : bufWrite (some n) b i x = .ok (Memory.put b i x) := by
  rw [bufWrite, bufCheck_within h, res_ok_bind]

end

/-! ## BUF.ST and BUF.LD (R63, R64) -/

section
variable {s : State} {idx : BitVec 16} {imm : Imm} {x : Rat} {e : Trap}

theorem traps_bufSt_badOperand (idx : BitVec 16) (s : State) (hx : f32Value imm = none) :
    Traps (.bufSt idx imm) s .badOperand (imm.setWidth 64) := by
  show execBufSt idx imm s = _
  rw [execBufSt, valueOp_of_none hx]
  rfl

/-- A fault of `MemWrite` is BUF.ST's. -/
theorem traps_bufSt (hx : f32Value imm = some x) (h : bufWrite s.bufLen s.buf idx.toNat x = .error e) :
    Traps (.bufSt idx imm) s e.code e.info := by
  show execBufSt idx imm s = _
  rw [execBufSt, valueOp_of_some hx, res_ok_bind, indexOp, h]
  rfl

/-- A fault of `MemRead` is BUF.LD's. -/
theorem traps_bufLd (h : bufRead s.bufLen s.buf idx.toNat = .error e) : Traps (.bufLd idx) s e.code e.info := by
  show execBufLd idx s = _
  rw [execBufLd, indexOp, h]
  rfl

end

/-- The checks of `MemRead` and `MemWrite` in their order: length, range, then for a read the element. -/
theorem bufRead_bufWrite_cases (len : Option (Fin 65536)) (b : Memory) (i : Nat) (x : Rat) :
    (len = none → bufRead len b i = .error Trap.unset ∧ bufWrite len b i x = .error Trap.unset) ∧
    (∀ n, len = some n → n.val ≤ i →
      bufRead len b i = .error (Trap.bufRange i) ∧ bufWrite len b i x = .error (Trap.bufRange i)) ∧
    (∀ n, len = some n → i < n.val →
      (Memory.get b i = none → bufRead len b i = .error Trap.unset) ∧
      (∀ y, Memory.get b i = some y → bufRead len b i = .ok y) ∧
      ∃ b', bufWrite len b i x = .ok b' ∧ StoredAt b b' i x ∧ (Memory.wf b → Memory.wf b')) := by
  refine ⟨?_, ?_, ?_⟩
  · rintro rfl
    exact ⟨bufRead_none b i, bufWrite_none b x i⟩
  · rintro n rfl h
    exact ⟨bufRead_beyond b h, bufWrite_beyond b x h⟩
  · rintro n rfl h
    rw [bufRead_within b h]
    exact ⟨fun hg => by rw [hg, readOpt_none], fun y hg => by rw [hg, readOpt_some],
      _, bufWrite_within b x h, Memory.put_stored b i x, fun hb => Memory.put_wf hb i x⟩

/-- Settles O16: the commands' faults are those of the primitives, after the operand's. -/
theorem bufferStoreAndLoad : Obligations.BufferStoreAndLoad := by
  refine ⟨bufRead_bufWrite_cases, fun s idx imm => ?_⟩
  refine ⟨Fields.word_index _ idx imm, Fields.word_index _ idx 0, traps_bufSt_badOperand idx s,
    fun x hx hn => ?_, fun x n hx hn hi => ?_, fun x n hx hn hi => ?_, fun hn => ?_, fun n hn hi => ?_,
    fun n hn hi hg => ?_, fun n x hn hi hg => ?_⟩
  · exact traps_bufSt hx (by rw [hn, bufWrite_none] : _ = Except.error Trap.unset)
  · exact traps_bufSt hx (by rw [hn, bufWrite_beyond _ _ hi] : _ = Except.error (Trap.bufRange _))
  · exact ⟨_, (Effect.bufSt hx (by rw [hn]; exact bufWrite_within _ _ hi)).completes, Memory.put_stored _ _ _⟩
  · exact traps_bufLd (by rw [hn, bufRead_none] : _ = Except.error Trap.unset)
  · exact traps_bufLd (by rw [hn, bufRead_beyond _ hi] : _ = Except.error (Trap.bufRange _))
  · exact traps_bufLd (by rw [hn, bufRead_within _ hi, hg, readOpt_none] : _ = Except.error Trap.unset)
  · exact (Effect.bufLd (bufRead_eq_ok.2 ⟨⟨n, hn, hi⟩, hg⟩)).completes

/-! ## The elements a command leaves (R67, R75, R265) -/

theorem Voice.applyParams_playing {m : NumInst} {file : Vector (Option Rat) 25} {w w' : Voice}
    (h : w.applyParams m file = .ok w') : w'.playing = w.playing := by
  obtain ⟨_, _, _, _, _, _, -, -, -, -, -, -, rfl⟩ := applyParams_eq_ok.1 h
  rfl

/-- `RenderVoice` of a Free voice renders nothing (R265). -/
theorem Voice.render_buf_of_free {m : NumInst} {file : Vector (Option Rat) 25} {len : Option (Fin 65536)}
    {start n d d' : Nat} {w w' : Voice} {b c : Memory} (h : w.render m file len start n d b = .ok (d', w', c))
    (hw : w.playing = false) : c = b := by
  obtain ⟨u, hu, ⟨hp, -⟩ | ⟨-, -, -, hc⟩⟩ := Voice.render_eq_ok.1 h
  · rw [Voice.applyParams_playing hu, hw] at hp
    cases hp
  · exact hc

/-- Only the commands with a storing address write the buffer, and they write within it. -/
theorem Effect.buf_frame {i : Instr} {s t : State} {r : Response} (h : Effect i s r t)
    (hi : ∀ size imm, i ≠ .engPrepare size imm) {j : Nat} (hj : ¬StoresAt i j) :
    Memory.get t.buf j = Memory.get s.buf j := by
  cases h
  case engPrepare => exact absurd rfl (hi _ _)
  case bufSt hw =>
    obtain ⟨-, rfl⟩ := bufWrite_eq_ok.1 hw
    exact Memory.get_put_other _ _ hj
  case fltProcbuf hp => exact (Flt.process_buf hp).2 j (by simp only [StoresAt] at hj; omega)
  case voiceRender hr => exact (Voice.render_buf hr).2 j (by simp only [StoresAt] at hj; omega)
  case engRender hr => exact (renderVoices_buf hr).2 j (by simp only [StoresAt] at hj; omega)
  all_goals rfl

/-- Settles O52: a fault leaves the buffer; an effect writes it within the command's range only. -/
theorem bufferChangesOnlyWhereStored : Obligations.BufferChangesOnlyWhereStored := by
  intro i s u h hi
  rcases exec_next h with ⟨r, t, hE, rfl⟩ | ⟨e, rfl⟩
  · refine ⟨fun j => hE.buf_frame hi, ?_⟩
    rintro v start n rfl hv
    cases hE
    case voiceRender hr => exact Voice.render_buf_of_free hr hv
  · exact ⟨fun _ _ => rfl, fun _ _ _ _ _ => rfl⟩

end Machine

end Sys2Proof
end

section
/-! SUPPORT. Command words (spec/30_encoding.md): the decoder on every word (R105), the words each row of the opcode
table selects (R106), the reserved opcodes (R98) and the step that fetches a word (R80). -/

namespace Sys2Proof

/-! ## The decoder on every word (R105) -/

/-- On a command's own word only the check of the value operand is left (R105 step 5). -/
theorem decode_encode_cases (i : Instr) :
    (WellFormed i = true ∧ decode (encode i) = .ok i) ∨
    ∃ imm, i.valueOperand = some imm ∧ finitePattern imm = false ∧ decode (encode i) = .error (.badOperand imm) := by
  rw [decode, (legal_ofWord _ i).2 rfl, WellFormed]
  cases hv : i.valueOperand with
  | none => exact .inl ⟨rfl, by simp [hv]⟩
  | some imm =>
    cases hf : finitePattern imm with
    | true => exact .inl ⟨hf, by simp [hv, hf]⟩
    | false => exact .inr ⟨imm, rfl, hf, by simp [hv, hf]⟩

theorem decode_encode {i : Instr} (h : WellFormed i = true) : decode (encode i) = .ok i := by
  rcases decode_encode_cases i with ⟨-, hd⟩ | ⟨imm, hv, hf, -⟩
  · exact hd
  · rw [WellFormed, hv] at h
    exact absurd h (by simp [hf])

theorem decode_encode_badOperand {i : Instr} {imm : Imm} (hv : i.valueOperand = some imm)
    (hf : finitePattern imm = false) : decode (encode i) = .error (.badOperand imm) := by
  rw [decode, (legal_ofWord _ i).2 rfl]
  simp [hv, hf]

theorem decode_eq_illegalCmd {w : Cmd} : decode w = .error .illegalCmd ↔ ∀ i : Instr, encode i ≠ w := by
  rw [← legal_ofWord_none]
  cases hl : (Fields.ofWord w).legal with
  | none => simp [decode, hl]
  | some i =>
    obtain rfl := (legal_ofWord w i).1 hl
    rcases decode_encode_cases i with ⟨-, hd⟩ | ⟨_, -, -, hd⟩ <;> simp [hd]

/-- A word that is not refused as illegal is some command's. -/
theorem exists_encode_eq {w : Cmd} (h : decode w ≠ .error .illegalCmd) : ∃ i : Instr, encode i = w := by
  rw [Ne, decode_eq_illegalCmd] at h
  push Not at h
  exact h

theorem decode_eq_ok {w : Cmd} {i : Instr} : decode w = .ok i ↔ encode i = w ∧ WellFormed i = true := by
  constructor
  · intro h
    obtain ⟨j, rfl⟩ := exists_encode_eq (w := w) (by simp [h])
    rcases decode_encode_cases j with ⟨hw, hd⟩ | ⟨imm, -, -, hd⟩ <;> rw [h] at hd <;> cases hd
    exact ⟨rfl, hw⟩
  · rintro ⟨rfl, hw⟩
    exact decode_encode hw

theorem decode_eq_badOperand {w : Cmd} {imm : Imm} : decode w = .error (.badOperand imm) ↔
    ∃ i : Instr, encode i = w ∧ i.valueOperand = some imm ∧ finitePattern imm = false := by
  constructor
  · intro h
    obtain ⟨j, rfl⟩ := exists_encode_eq (w := w) (by simp [h])
    rcases decode_encode_cases j with ⟨-, hd⟩ | ⟨imm, hv, hf, hd⟩ <;> rw [h] at hd <;> cases hd
    exact ⟨j, rfl, hv, hf⟩
  · rintro ⟨i, rfl, hv, hf⟩
    exact decode_encode_badOperand hv hf

theorem decode_badOperand_imm {w : Cmd} {imm : Imm} (h : decode w = .error (.badOperand imm)) :
    imm = w.extractLsb' 0 32 := by
  obtain ⟨i, rfl, hv, -⟩ := decode_eq_badOperand.1 h
  exact (encode_imm i imm hv).symm

/-- Settles O1: the decoder's checks accept the fields of every command, and a well-formed one has a finite operand. -/
theorem decodeOfEncodeIsTheCommand : Obligations.DecodeOfEncodeIsTheCommand := fun _ => decode_encode

/-- Settles O2: a word is no command's, or one command's with a finite or a non-finite operand. -/
theorem decodingAcceptsExactlyTheCommandWords : Obligations.DecodingAcceptsExactlyTheCommandWords := fun _ =>
  ⟨fun _ => decode_eq_ok, decode_eq_illegalCmd, fun _ => decode_eq_badOperand, fun _ => decode_badOperand_imm⟩

/-- Settles O5: the decoder run on the words. -/
theorem wordsOfTheSpecDecode : Obligations.WordsOfTheSpecDecode := by
  unfold Obligations.WordsOfTheSpecDecode
  decide +kernel

/-! ## What selectors, formats and codes accept (R82, R85, R88), as bits under a mask -/

variable {α β : Type}

theorem Fields.global_isSome (f : Fields) (k : Option Instr) :
    (f.global k).isSome ↔ f.voice = 0 ∧ f.inst = 0 ∧ k.isSome := by
  unfold Fields.global; split <;> simp_all

theorem voice_lt_iff (v : BitVec 4) : v.toNat < 8 ↔ v &&& 8#4 = 0#4 := by revert v; decide

theorem inst_lt_iff (i : BitVec 4) : i.toNat < 2 ↔ i &&& 14#4 = 0#4 := by revert i; decide

theorem Fields.onVoice_isSome (f : Fields) (k : Fin 8 → Option Instr) :
    (f.onVoice k).isSome ↔ f.voice &&& 8#4 = 0#4 ∧ f.inst = 0 ∧ (k (Fin.ofNat 8 f.voice.toNat)).isSome := by
  rw [← voice_lt_iff]
  unfold Fields.onVoice
  split
  case isTrue h =>
    rw [show (⟨f.voice.toNat, h⟩ : Fin 8) = Fin.ofNat 8 f.voice.toNat from Fin.ext (Nat.mod_eq_of_lt h).symm]
    split <;> simp_all
  case isFalse h => simp [h]

theorem Fields.onUnit_isSome (f : Fields) (k : Fin 8 → Fin 2 → Option Instr) :
    (f.onUnit k).isSome ↔ f.voice &&& 8#4 = 0#4 ∧ f.inst &&& 14#4 = 0#4 ∧
      (k (Fin.ofNat 8 f.voice.toNat) (Fin.ofNat 2 f.inst.toNat)).isSome := by
  rw [← voice_lt_iff, ← inst_lt_iff]
  unfold Fields.onUnit
  split
  case isTrue h =>
    rw [show (⟨f.voice.toNat, h⟩ : Fin 8) = Fin.ofNat 8 f.voice.toNat from Fin.ext (Nat.mod_eq_of_lt h).symm]
    split
    case isTrue g =>
      rw [show (⟨f.inst.toNat, g⟩ : Fin 2) = Fin.ofNat 2 f.inst.toNat from Fin.ext (Nat.mod_eq_of_lt g).symm]
      simp [h, g]
    case isFalse g => simp [g]
  case isFalse h => simp [h]

theorem Fields.fmtN_isSome (f : Fields) (k : Instr) : (f.fmtN k).isSome ↔ f.a = 0 ∧ f.b = 0 ∧ f.imm = 0 := by
  unfold Fields.fmtN; split <;> simp_all

theorem Fields.fmtV_isSome (f : Fields) (k : Imm → Instr) : (f.fmtV k).isSome ↔ f.a = 0 ∧ f.b = 0 := by
  unfold Fields.fmtV; split <;> simp_all

theorem Fields.fmtI_isSome (f : Fields) (k : BitVec 32 → Instr) : (f.fmtI k).isSome ↔ f.a = 0 ∧ f.b = 0 :=
  f.fmtV_isSome k

theorem Fields.fmtK_isSome (f : Fields) (dec : BitVec 8 → Option α) (k : α → Instr) :
    (f.fmtK dec k).isSome ↔ (dec f.a).isSome ∧ f.b = 0 ∧ f.imm = 0 := by
  unfold Fields.fmtK; split <;> simp_all

theorem Fields.fmtAV_isSome (f : Fields) (dec : BitVec 8 → Option α) (k : α → Imm → Instr) :
    (f.fmtAV dec k).isSome ↔ (dec f.a).isSome ∧ f.b = 0 := by
  unfold Fields.fmtAV; split <;> simp_all

theorem Fields.fmtAB_isSome (f : Fields) (decA : BitVec 8 → Option α) (decB : BitVec 8 → Option β)
    (k : α → β → Instr) :
    (f.fmtAB decA decB k).isSome ↔ (decA f.a).isSome ∧ (decB f.b).isSome ∧ f.imm = 0 := by
  unfold Fields.fmtAB
  cases decA f.a <;> cases decB f.b <;> split <;> simp_all

theorem Fields.fmtABV_isSome (f : Fields) (decA : BitVec 8 → Option α) (decB : BitVec 8 → Option β)
    (k : α → β → Imm → Instr) :
    (f.fmtABV decA decB k).isSome ↔ (decA f.a).isSome ∧ (decB f.b).isSome := by
  unfold Fields.fmtABV
  cases decA f.a <;> cases decB f.b <;> simp_all

theorem Fields.fmtBV_isSome (f : Fields) (dec : BitVec 8 → Option β) (k : β → Imm → Instr) :
    (f.fmtBV dec k).isSome ↔ f.a = 0 ∧ (dec f.b).isSome := by
  unfold Fields.fmtBV; split <;> simp_all

theorem Fields.fmtB_isSome (f : Fields) (dec : BitVec 8 → Option β) (k : β → Instr) :
    (f.fmtB dec k).isSome ↔ f.a = 0 ∧ (dec f.b).isSome ∧ f.imm = 0 := by
  unfold Fields.fmtB; split <;> simp_all

theorem Fields.fmtX_isSome (f : Fields) (k : BitVec 16 → Instr) : (f.fmtX k).isSome ↔ f.imm = 0 := by
  unfold Fields.fmtX; split <;> simp_all

theorem Fields.fmtXV_isSome (f : Fields) (k : BitVec 16 → Imm → Instr) : (f.fmtXV k).isSome := rfl

theorem Fields.fmtXI_isSome (f : Fields) (k : BitVec 16 → BitVec 32 → Instr) : (f.fmtXI k).isSome := rfl

/-! ### Codes -/

theorem oscWave_isSome (c : BitVec 8) : (OscWave.ofCode c).isSome ↔ c &&& 252#8 = 0#8 := by
  revert c; decide +kernel

theorem lfoWave_isSome (c : BitVec 8) : (LfoWave.ofCode c).isSome ↔ c &&& 248#8 = 0#8 ∧ c.toNat ≤ 5 := by
  revert c; decide +kernel

theorem objSource_isSome (c : BitVec 8) : (ObjSource.ofCode c).isSome ↔ c &&& 252#8 = 0#8 := by
  revert c; decide +kernel

theorem scalarSource_isSome (c : BitVec 8) : (ScalarSource.ofCode c).isSome ↔ c &&& 252#8 = 4#8 := by
  revert c; decide +kernel

theorem source_isSome (c : BitVec 8) : (Source.ofCode c).isSome ↔ c &&& 248#8 = 0#8 := by
  revert c; decide +kernel

theorem dest_isSome (c : BitVec 8) : (Dest.ofCode c).isSome ↔ c &&& 248#8 = 0#8 ∧ c.toNat ≤ 4 := by
  revert c; decide +kernel

theorem param_isSome (c : BitVec 8) : (Param.ofCode c).isSome ↔ c &&& 224#8 = 0#8 ∧ c.toNat ≤ 24 := by
  revert c; decide +kernel

theorem boolOfCode_isSome (c : BitVec 8) : (boolOfCode c).isSome ↔ c &&& 254#8 = 0#8 := by
  revert c; decide +kernel

theorem noteOfCode_isSome (c : BitVec 8) : (noteOfCode c).isSome ↔ c &&& 128#8 = 0#8 := by
  revert c; decide +kernel

/-! ## The rows of the opcode table (R100, R106) -/

theorem Fields.word_a (f : Fields) : f.word.extractLsb' 40 8 = f.a := congrArg Fields.a f.ofWord_word

theorem Fields.word_b (f : Fields) : f.word.extractLsb' 32 8 = f.b := congrArg Fields.b f.ofWord_word

/-! The masks of a field that is fixed or must be zero: all ones. -/

theorem and_ones4 (x : BitVec 4) : x &&& 15#4 = x := BitVec.and_allOnes

theorem and_ones8 (x : BitVec 8) : x &&& 255#8 = x := BitVec.and_allOnes

theorem and_ones32 (x : BitVec 32) : x &&& 4294967295#32 = x := BitVec.and_allOnes

theorem tableMask_opc (i : Instr) : (tableMask i).extractLsb' 56 8 = 255#8 := by cases i <;> simp [tableMask]

theorem tableMatch_opc (i : Instr) : (tableMatch i).extractLsb' 56 8 = (encodeFields i).opc := by
  cases i <;> simp [tableMatch, encodeFields]

/-- A row's mask, match and constraints say what its selector, format and codes check (R82, R85, R88). -/
theorem Fields.selectsRow_word (f : Fields) (i : Instr) :
    SelectsRow f.word i ↔ f.opc = (encodeFields i).opc ∧ f.legal.isSome := by
  rw [SelectsRow, Fields.word_and_eq, tableMask_opc, tableMatch_opc, and_ones8, and_assoc]
  refine and_congr_right fun hopc => ?_
  obtain ⟨opc, voice, inst, a, b, imm⟩ := f
  obtain rfl : opc = _ := hopc
  -- Per row: both sides become the same conditions on the fields, up to where a constraint stands.
  cases i
  all_goals
    dsimp only [TableConstraint, tableMask, tableMatch, Fields.legal, encodeFields]
    simp only [Fields.word_a, Fields.word_b, Fields.global_isSome, Fields.onVoice_isSome, Fields.onUnit_isSome,
      Fields.fmtN_isSome, Fields.fmtV_isSome, Fields.fmtI_isSome, Fields.fmtK_isSome, Fields.fmtAV_isSome,
      Fields.fmtAB_isSome, Fields.fmtABV_isSome, Fields.fmtBV_isSome, Fields.fmtB_isSome, Fields.fmtX_isSome,
      Fields.fmtXV_isSome, Fields.fmtXI_isSome, oscWave_isSome, lfoWave_isSome, objSource_isSome,
      scalarSource_isSome, source_isSome, dest_isSome, param_isSome, boolOfCode_isSome, noteOfCode_isSome]
    simp only [BitVec.reduceExtractLsb', and_ones4, and_ones8, and_ones32, BitVec.and_zero, BitVec.ofNat_eq_ofNat,
      and_true, true_and, and_assoc]
  all_goals simp only [and_comm, and_left_comm]

theorem selectsRow_iff (w : Cmd) (i : Instr) :
    SelectsRow w i ↔ (Fields.ofWord w).opc = (encodeFields i).opc ∧ (Fields.ofWord w).legal.isSome := by
  rw [← Fields.selectsRow_word, Fields.word_ofWord]

theorem selectsRow_encode (i : Instr) : SelectsRow (encode i) i := by
  rw [encode, Fields.selectsRow_word, Fields.legal_encodeFields]
  exact ⟨rfl, rfl⟩

theorem exists_selectsRow_iff {w : Cmd} : (∃ i : Instr, SelectsRow w i) ↔ decode w ≠ .error .illegalCmd := by
  constructor
  · rintro ⟨i, hi⟩ h
    rw [decode_eq_illegalCmd, ← legal_ofWord_none] at h
    rw [selectsRow_iff, h] at hi
    exact absurd hi.2 Bool.false_ne_true
  · intro h
    obtain ⟨i, rfl⟩ := exists_encode_eq h
    exact ⟨i, selectsRow_encode i⟩

/-- The command with opcode `o` and every operand the least its row admits: `A = 4` for MOD.SETSCALAR, else zeros (R88). -/
def leastCommand (o : BitVec 8) : Option Instr :=
  (Fields.mk o 0 0 (if o = 0x57#8 then 4 else 0) 0 0).legal

theorem leastCommand_opc {o : BitVec 8} {i : Instr} (h : leastCommand o = some i) : (encodeFields i).opc = o := by
  rw [← Fields.legal_fields _ _ h]

theorem leastCommand_isSome (o : BitVec 8) : (leastCommand o).isSome ↔ ¬ReservedOpcode o.toNat := by
  unfold ReservedOpcode
  revert o
  decide +kernel

/-- Every command is in the row of the least command of its opcode. -/
theorem leastCommand_row (i : Instr) : ∃ j, leastCommand (encodeFields i).opc = some j ∧
    tableMatch j = tableMatch i ∧ tableMask j = tableMask i := by
  cases i <;> exact ⟨_, rfl, rfl, rfl⟩

/-- The opcode determines the row. -/
theorem table_eq_of_opc_eq {i j : Instr} (h : (encodeFields i).opc = (encodeFields j).opc) :
    tableMatch i = tableMatch j ∧ tableMask i = tableMask j := by
  obtain ⟨k, hk, hmatch, hmask⟩ := leastCommand_row i
  obtain ⟨l, hl, hmatch', hmask'⟩ := leastCommand_row j
  rw [h, hl] at hk
  cases hk
  exact ⟨hmatch.symm.trans hmatch', hmask.symm.trans hmask'⟩

/-! ## Reserved opcodes (R98) -/

theorem encode_opc (i : Instr) : (encode i).extractLsb' 56 8 = (encodeFields i).opc :=
  congrArg Fields.opc (Fields.ofWord_word _)

theorem encodeFields_opc_not_reserved (i : Instr) : ¬ReservedOpcode (encodeFields i).opc.toNat := by
  obtain ⟨j, hj, -⟩ := leastCommand_row i
  rw [← leastCommand_isSome, hj, Option.isSome_some]

theorem decode_of_reserved {w : Cmd} (h : ReservedOpcode (w.extractLsb' 56 8).toNat) :
    decode w = .error .illegalCmd := by
  rw [decode_eq_illegalCmd]
  rintro i rfl
  rw [encode_opc] at h
  exact encodeFields_opc_not_reserved i h

theorem exists_encode_opc {o : BitVec 8} (h : ¬ReservedOpcode o.toNat) :
    ∃ i : Instr, (encode i).extractLsb' 56 8 = o := by
  obtain ⟨i, hi⟩ := Option.isSome_iff_exists.1 ((leastCommand_isSome o).2 h)
  exact ⟨i, (encode_opc i).trans (leastCommand_opc hi)⟩

namespace Machine

/-! ## The step that fetches a word (R80, R302, R303) -/

section
variable {s : State} {w : Cmd}

theorem halted_of_fault_none (h : s.fault = none) : s.halted = false := by rw [State.halted, h]; rfl

theorem step_of_fault (h : s.fault ≠ none) : step s = .next s :=
  if_pos (Option.isSome_iff_ne_none.2 h)

theorem step_of_end (h : s.fault = none) (hpc : s.stream.length ≤ s.pc) : step s = .fault .endOfStream := by
  simp [step, halted_of_fault_none h, fetch, hpc]

theorem step_of_decode_ok {i : Instr} (h : s.fault = none) (hw : s.stream[s.pc]? = some w) (hd : decode w = .ok i) :
    step s = exec i s := by
  simp [step, halted_of_fault_none h, fetch, hw, hd]

theorem step_of_decode_error {e : DecodeError} (h : s.fault = none) (hw : s.stream[s.pc]? = some w)
    (hd : decode w = .error e) : step s = .next (s.takeFault (decodeTrap w e)) := by
  simp [step, halted_of_fault_none h, fetch, hw, hd]

end

theorem exec_exists_next (i : Instr) (s : State) : ∃ t, exec i s = .next t := by
  rcases exec_cases i s with ⟨r, t, -, h⟩ | ⟨t, h⟩ <;> exact ⟨_, h⟩

/-- What a step answers: a next state, or a stop at the end of the stream. -/
theorem step_cases (s : State) :
    (∃ t, step s = .next t) ∧ ¬(s.fault = none ∧ s.stream.length ≤ s.pc) ∨
    step s = .fault .endOfStream ∧ s.fault = none ∧ s.stream.length ≤ s.pc := by
  by_cases h : s.fault = none
  · rcases le_or_gt s.stream.length s.pc with hpc | hpc
    · exact .inr ⟨step_of_end h hpc, h, hpc⟩
    · have hw := List.getElem?_eq_getElem hpc
      refine .inl ⟨?_, fun hend => hend.2.not_gt hpc⟩
      cases hd : decode s.stream[s.pc] with
      | error e => exact ⟨_, step_of_decode_error h hw hd⟩
      | ok i => rw [step_of_decode_ok h hw hd]; exact exec_exists_next i s
  · exact .inl ⟨⟨s, step_of_fault h⟩, fun hend => h hend.1⟩

/-- Settles O6: the step by what the fetched word decodes to. -/
theorem stepRunsTheFetchedWord : Obligations.StepRunsTheFetchedWord := fun s w h hw =>
  ⟨fun _ => step_of_decode_ok h hw, step_of_decode_error h hw, fun imm hd => by
    rw [step_of_decode_error h hw hd, ← decode_badOperand_imm hd]
    rfl⟩

/-- Settles O8: every branch of the step but the end of the stream answers a next state, as every command does. -/
theorem onlyTheEndOfTheStreamStops : Obligations.OnlyTheEndOfTheStreamStops := by
  refine ⟨fun s => ?_, fun s r => ?_, exec_exists_next⟩
  · rcases step_cases s with ⟨⟨t, ht⟩, hend⟩ | ⟨hstop, hend⟩
    · exact iff_of_false (by rw [ht]; exact nofun) hend
    · exact iff_of_true hstop hend
  · rcases step_cases s with ⟨⟨t, ht⟩, -⟩ | ⟨hstop, -⟩
    · rw [ht]; exact nofun
    · rw [hstop]; exact nofun

/-- Settles O3: no command has a reserved opcode, and every other opcode has its least command. -/
theorem reservedOpcodesAreIllegal : Obligations.ReservedOpcodesAreIllegal :=
  ⟨fun _ _ h hw ho => step_of_decode_error h hw (decode_of_reserved ho), decode_of_reserved (.inl (by decide)),
    fun _ => exists_encode_opc⟩

/-- Settles O4: a word selects a row exactly if it has the row's opcode and the decoder accepts its fields. -/
theorem opcodeTableSelectsTheCommand : Obligations.OpcodeTableSelectsTheCommand := by
  refine fun w => ⟨exists_selectsRow_iff.symm, fun i j hi hj => ?_, fun i hi => ?_, fun s h hw hno => ?_⟩
  · rw [selectsRow_iff] at hi hj
    exact table_eq_of_opc_eq (hi.1.symm.trans hj.1)
  · obtain ⟨rfl, -⟩ := decode_eq_ok.1 hi
    exact selectsRow_encode i
  · exact step_of_decode_error h hw (not_not.1 (exists_selectsRow_iff.not.1 hno))

end Machine

end Sys2Proof
end

section
/-! SUPPORT. The value of a binary32 pattern (spec/30_encoding.md R86), the pattern of a value and the words of
responses (R83, spec/60_exceptions.md R309). -/

namespace Sys2Proof.Machine

/-! ## The value of a pattern and the pattern of a value (R86, R83) -/

theorem f32Value_of_exponent_top {w : Imm} (h : (w.extractLsb' 23 8).toNat = 255) : f32Value w = none := by
  rw [Option.eq_none_iff_forall_ne_some]
  intro x hx
  exact (f32Value_eq_some.1 hx).1 h

theorem f32Magnitude_zero (m : Nat) : f32Magnitude 0 m = m * (2 : Rat) ^ (-149 : Int) := by
  rw [f32Magnitude, if_pos rfl, pow2_eq_zpow]

theorem f32Magnitude_of_ne_zero {e : Nat} (h : e ≠ 0) (m : Nat) :
    f32Magnitude e m = (2 ^ 23 + (m : Rat)) * (2 : Rat) ^ ((e : Int) - 150) := by
  rw [f32Magnitude, if_neg h, pow2_eq_zpow, Nat.cast_add, Nat.cast_pow, Nat.cast_ofNat]

theorem f32Value_of_exponent {w : Imm} (h : (w.extractLsb' 23 8).toNat ≠ 255) :
    f32Value w = some ((-1) ^ (if w.getLsbD 31 then 1 else 0) *
      f32Magnitude (w.extractLsb' 23 8).toNat (w.extractLsb' 0 23).toNat) := by
  rw [f32Value_eq_some]
  refine ⟨h, ?_⟩
  split <;> simp

/-- Settles O12: the magnitude at exponent 0 and above it, with its sign. -/
theorem binaryPatternValue : Obligations.BinaryPatternValue := by
  refine ⟨fun w => ⟨fun he => ?_, fun he => ?_, fun he hfin => ?_, fun _ => valueOp_of_some⟩, by decide +kernel⟩
  · have hnone := f32Value_of_exponent_top he
    exact ⟨hnone, valueOp_of_none hnone⟩
  · rw [f32Value_of_exponent (by omega), he, f32Magnitude_zero, mul_assoc]
  · rw [f32Value_of_exponent hfin, f32Magnitude_of_ne_zero he, mul_assoc]

theorem ilog2_eq {a : Rat} {k : Int} (hlo : pow2 k ≤ a) (hhi : a < pow2 (k + 1)) : ilog2 a = k := by
  obtain ⟨hlo', hhi'⟩ := ilog2_spec ((pow2_pos k).trans_le hlo)
  have h1 := lt_of_pow2_lt (hlo.trans_lt hhi')
  have h2 := lt_of_pow2_lt (hlo'.trans_lt hhi)
  omega

theorem floor_mul_pow2_div (k : Nat) (i : Int) : ((k : Rat) * pow2 i / pow2 i).floor.toNat = k := by
  rw [mul_div_cancel_right₀ _ (pow2_pos i).ne', ← Int.cast_natCast k, Rat.floor_intCast, Int.toNat_natCast]

theorem f32Word_extract (w : Imm) :
    f32Word (BitVec.ofBool (w.getLsbD 31)) (w.extractLsb' 23 8) (w.extractLsb' 0 23) = w := by
  apply BitVec.eq_of_getElem_eq
  intro i hi
  simp only [f32Word]
  grind

theorem f32Magnitude_nonneg (e m : Nat) : 0 ≤ f32Magnitude e m := by
  unfold f32Magnitude
  split <;> exact mul_nonneg (Nat.cast_nonneg _) (pow2_pos _).le

theorem ilog2_f32Magnitude_subnormal {m : Nat} (hm : m < 2 ^ 23) (hpos : 0 < f32Magnitude 0 m) :
    ilog2 (f32Magnitude 0 m) < -126 := by
  refine lt_of_pow2_lt ((ilog2_spec hpos).1.trans_lt ?_)
  rw [f32Magnitude, if_pos rfl, show (-126 : Int) = (23 : Nat) + -149 by norm_num, pow2_natCast_add]
  exact mul_lt_mul_of_pos_right (by exact_mod_cast hm) (pow2_pos _)

/-- The significand of a normal number lies in `[2^23, 2^24)`. -/
theorem ilog2_f32Magnitude_normal {e m : Nat} (he : e ≠ 0) (hm : m < 2 ^ 23) :
    ilog2 (f32Magnitude e m) = (e : Int) - 127 := by
  rw [f32Magnitude, if_neg he, show (e : Int) - 127 = (23 : Nat) + ((e : Int) - 150) by omega]
  apply ilog2_eq
  · rw [pow2_natCast_add]
    exact mul_le_mul_of_nonneg_right (by exact_mod_cast Nat.le_add_right _ m) (pow2_pos _).le
  · rw [show ((23 : Nat) : Int) + (e - 150) + 1 = (24 : Nat) + ((e : Int) - 150) by omega, pow2_natCast_add]
    exact mul_lt_mul_of_pos_right (by exact_mod_cast (by omega : 2 ^ 23 + m < 2 ^ 24)) (pow2_pos _)

/-- A number with the magnitude of a finite pattern has that pattern. -/
theorem f32Pattern_eq_f32Word {x : Rat} (hx : x ≠ 0) {e m : Nat} (hm : m < 2 ^ 23) (h : |x| = f32Magnitude e m) :
    f32Pattern x = f32Word (BitVec.ofBool (x < 0)) (BitVec.ofNat 8 e) (BitVec.ofNat 23 m) := by
  have hsign : (if x < 0 then 1 else 0 : BitVec 1) = BitVec.ofBool (x < 0) := by split <;> simp [*]
  have hpos : 0 < f32Magnitude e m := h ▸ abs_pos.2 hx
  rw [f32Pattern, if_neg hx, absQ_eq_abs, hsign, f32Word, h]
  rcases eq_or_ne e 0 with rfl | he
  · rw [if_pos (ilog2_f32Magnitude_subnormal hm hpos), f32Magnitude, if_pos rfl, floor_mul_pow2_div]
    rfl
  · simp only [ilog2_f32Magnitude_normal he hm]
    rw [if_neg (by omega), f32Magnitude, if_neg he, show (e : Int) - 127 - 23 = e - 150 by omega, floor_mul_pow2_div,
      show ((e : Int) - 127 + 127).toNat = e by omega, Nat.add_sub_cancel_left]

theorem f32Pattern_signed {b : Bool} {e m : Nat} (hm : m < 2 ^ 23) (hpos : 0 < f32Magnitude e m) :
    f32Pattern ((if b then -1 else 1) * f32Magnitude e m) =
      f32Word (BitVec.ofBool b) (BitVec.ofNat 8 e) (BitVec.ofNat 23 m) := by
  have hsign : decide ((if b then -1 else 1) * f32Magnitude e m < 0) = b := by
    cases b <;> simp [hpos, hpos.le]
  have habs : |(if b then -1 else 1) * f32Magnitude e m| = f32Magnitude e m := by
    cases b <;> simp [abs_of_pos hpos]
  rw [f32Pattern_eq_f32Word (abs_pos.1 (hpos.trans_eq habs.symm)) hm habs, hsign]

/-- The operand's own pattern is answered, except for the second zero (R309). -/
theorem f32Pattern_of_value {w : Imm} {x : Rat} (h : f32Value w = some x) (hx : x ≠ 0) : f32Pattern x = w := by
  obtain ⟨-, rfl⟩ := f32Value_eq_some.1 h
  rw [f32Pattern_signed (w.extractLsb' 0 23).isLt ((f32Magnitude_nonneg _ _).lt_of_ne' (right_ne_zero_of_mul hx)),
    BitVec.ofNat_toNat, BitVec.ofNat_toNat, BitVec.setWidth_eq, BitVec.setWidth_eq, f32Word_extract]

theorem f32Pattern_zero : f32Pattern 0 = 0#32 := if_pos rfl

theorem f32Value_zero : f32Value 0#32 = some 0 := by decide +kernel

/-- Settles O13: a non-zero value determines its pattern, since its leading bit gives the exponent field. -/
theorem responseWordLayout : Obligations.ResponseWordLayout := by
  refine ⟨fun w x h => ?_, f32Pattern_zero, fun m => ⟨rfl, rfl, rfl, fun _ => rfl⟩, fun _ => rfl, fun _ => rfl⟩
  rcases eq_or_ne x 0 with rfl | hx
  · exact ⟨by rw [f32Pattern_zero, f32Value_zero], absurd rfl⟩
  · have hp := f32Pattern_of_value h hx
    exact ⟨by rw [hp, h], fun _ => hp⟩

end Sys2Proof.Machine
end

section
/-! SUPPORT. The oscillator (spec/40_oscillator.md): its setters (R111, R112), the waveform function and the phase
advance (R114, R115) it shares with the LFO, OSC.PROC (R116), its period (R118), and the ranges of results (R117,
R177). -/

namespace Sys2Proof

/-! ## Words whose code is no member's (R88) -/

theorem Fields.fmtK_none {α : Type} (f : Fields) {dec : BitVec 8 → Option α} (k : α → Instr) (h : dec f.a = none) :
    f.fmtK dec k = none := by
  unfold Fields.fmtK
  split <;> simp [h]

namespace Machine

/-- The word written out as `cmdWord` is the word of its fields (R81). -/
theorem cmdWord_eq_word (opc : BitVec 8) (voice inst : Nat) (a b : BitVec 8) (imm : Imm) :
    cmdWord opc voice inst a b imm = (Fields.mk opc (BitVec.ofNat 4 voice) (BitVec.ofNat 4 inst) a b imm).word := rfl

theorem decode_oscSetwave_illegal (v : Fin 8) {c : BitVec 8} (h : 3 < c.toNat) :
    decode (cmdWord 0x12#8 v 0 c 0 0) = .error .illegalCmd := by
  rw [cmdWord_eq_word]
  exact Fields.decode_word_of_legal_none _ <| Fields.onVoice_none _ _ fun _ => Fields.fmtK_none _ _ <|
    ofCode_none oscWave_ofCode (fun k => by cases k <;> decide) h

/-! ## A fault raised by a command's body is the command's -/

theorem traps_of_body_error {i : Instr} {s : State} {body : Res (Response × State)} {e : Trap}
    (hi : exec i s = finish s body) (he : body = .error e) : Traps i s e.code e.info := by
  rw [Traps, hi, he]
  rfl

/-! ## OSC.SETFREQ and OSC.SETSR (R111, R112) -/

section
variable {m : NumInst} {o : Osc} {x : Rat}

theorem Osc.setFreq_of_sr_none (x : Rat) (h : o.sr = none) : o.setFreq m x = .ok { o with freq := some x } := by
  rw [Osc.setFreq, h]

/-- With a rate the frequency is stored together with the quotient, or the quotient's fault is raised. -/
theorem Osc.setFreq_of_sr_some {r : Rat} (x : Rat) (h : o.sr = some r) :
    o.setFreq m x = (do let q ← numDiv m x r; .ok { o with freq := some x, inc := some q }) := by
  rw [Osc.setFreq, h]

theorem Osc.setSr_of_nonpos (m : NumInst) (o : Osc) (imm : Imm) (h : x ≤ 0) :
    o.setSr m imm x = .error (Trap.srRange imm) := if_pos h

theorem Osc.setSr_of_freq_none (imm : Imm) (hx : 0 < x) (h : o.freq = none) :
    o.setSr m imm x = .ok { o with sr := some x } := by
  rw [Osc.setSr, if_neg hx.not_ge, h]

/-- With a frequency the rate is stored together with the quotient, or the quotient's fault is raised. -/
theorem Osc.setSr_of_freq_some {f : Rat} (imm : Imm) (hx : 0 < x) (h : o.freq = some f) :
    o.setSr m imm x = (do let q ← numDiv m f x; .ok { o with sr := some x, inc := some q }) := by
  rw [Osc.setSr, if_neg hx.not_ge, h]

end

section
variable {s : State} {v : Fin 8} {imm : Imm} {x : Rat} {e : Trap}

theorem traps_oscSetfreq_badOperand (s : State) (v : Fin 8) (hx : f32Value imm = none) :
    Traps (.oscSetfreq v imm) s .badOperand (imm.setWidth 64) :=
  traps_of_body_error (e := Trap.badOperand imm) rfl (by rw [valueOp_of_none hx, res_error_bind])

theorem traps_oscSetsr_badOperand (s : State) (v : Fin 8) (hx : f32Value imm = none) :
    Traps (.oscSetsr v imm) s .badOperand (imm.setWidth 64) :=
  traps_of_body_error (e := Trap.badOperand imm) rfl (by rw [valueOp_of_none hx, res_error_bind])

theorem traps_oscSetfreq (hx : f32Value imm = some x) (h : s.voices[v].osc.setFreq s.num x = .error e) :
    Traps (.oscSetfreq v imm) s e.code e.info :=
  traps_of_body_error rfl (by rw [valueOp_of_some hx, res_ok_bind, h, res_error_bind])

theorem traps_oscSetsr (hx : f32Value imm = some x) (h : s.voices[v].osc.setSr s.num imm x = .error e) :
    Traps (.oscSetsr v imm) s e.code e.info :=
  traps_of_body_error rfl (by rw [valueOp_of_some hx, res_ok_bind, h, res_error_bind])

end

/-- Settles O17: each command is its register operation, whose branches are the clauses. -/
theorem oscillatorFrequencyAndRate : Obligations.OscillatorFrequencyAndRate := by
  refine fun s v imm => ⟨rfl, rfl,
    fun hx => ⟨traps_oscSetfreq_badOperand s v hx, traps_oscSetsr_badOperand s v hx⟩, fun x hx =>
    ⟨fun hs => ?_, fun r q hs hq => ?_, fun r e hs he => ?_, fun h0 => ?_, fun h0 hf => ?_, fun f q h0 hf hq => ?_,
      fun f e h0 hf he => ?_⟩⟩
  · exact (Effect.oscSetfreq hx (Osc.setFreq_of_sr_none x hs)).completes
  · exact (Effect.oscSetfreq hx (by rw [Osc.setFreq_of_sr_some x hs, hq, res_ok_bind])).completes
  · exact traps_oscSetfreq hx (by rw [Osc.setFreq_of_sr_some x hs, he, res_error_bind])
  · exact traps_oscSetsr hx (Osc.setSr_of_nonpos s.num _ imm h0)
  · exact (Effect.oscSetsr hx (Osc.setSr_of_freq_none imm h0 hf)).completes
  · exact (Effect.oscSetsr hx (by rw [Osc.setSr_of_freq_some imm h0 hf, hq, res_ok_bind])).completes
  · exact traps_oscSetsr hx (by rw [Osc.setSr_of_freq_some imm h0 hf, he, res_error_bind])

/-! ## The waveform function (R114) -/

section
variable {m : NumInst} {t d x : Rat}

theorem waveValue_saw (hd : numMul m 2 t = .ok d) (hx : numSub m d 1 = .ok x) : waveValue m .saw t = .ok x := by
  rw [waveValue, hd, res_ok_bind, hx]

theorem waveValue_square_of_lt (m : NumInst) (h : t < 1 / 2) : waveValue m .square t = .ok (-1) := by
  rw [waveValue, if_pos h]

theorem waveValue_square_of_gt (m : NumInst) (h : 1 / 2 < t) : waveValue m .square t = .ok 1 := by
  rw [waveValue, if_neg h.not_gt, if_pos h]

theorem waveValue_square_half (m : NumInst) : waveValue m .square (1 / 2) = .ok sqHalf := by
  rw [waveValue, if_neg (lt_irrefl _), if_neg (lt_irrefl _)]

end

/-! ## The phase advance (R115) -/

section
variable {m : NumInst} {phase inc t u : Rat}

theorem phaseStep_of_inc_outside (m : NumInst) (phase : Rat) (h : inc < 0 ∨ 1 ≤ inc) :
    phaseStep m phase inc = .error Trap.incRange := if_pos h

/-- An increment in [0,1) is added, and 1 is taken off a sum that reaches 1. -/
theorem phaseStep_of_inc_mem (h0 : 0 ≤ inc) (h1 : inc < 1) (ht : numAdd m phase inc = .ok t) :
    phaseStep m phase inc = if 1 ≤ t then (do let u ← numSub m t 1; .ok (u, true)) else .ok (t, false) := by
  rw [phaseStep, if_neg (not_or.2 ⟨h0.not_gt, h1.not_ge⟩), ht, res_ok_bind]

theorem phaseStep_of_lt (h0 : 0 ≤ inc) (h1 : inc < 1) (ht : numAdd m phase inc = .ok t) (hlt : t < 1) :
    phaseStep m phase inc = .ok (t, false) := by
  rw [phaseStep_of_inc_mem h0 h1 ht, if_neg hlt.not_ge]

theorem phaseStep_of_ge (h0 : 0 ≤ inc) (h1 : inc < 1) (ht : numAdd m phase inc = .ok t) (hge : 1 ≤ t)
    (hu : numSub m t 1 = .ok u) : phaseStep m phase inc = .ok (u, true) := by
  rw [phaseStep_of_inc_mem h0 h1 ht, if_pos hge, hu, res_ok_bind]

/-- In `EXACT` the one subtraction takes the fractional part, since the sum is below 2. -/
theorem phaseStep_exact_fract {p q : Rat} (hp : 0 ≤ p ∧ p < 1) (h0 : 0 ≤ q) (h1 : q < 1) :
    phaseStep .exact p q = .ok (Int.fract (p + q), decide (1 ≤ p + q)) := by
  obtain ⟨hp0, hp1⟩ := hp
  rcases lt_or_ge (p + q) 1 with h | h
  · rw [phaseStep_of_lt h0 h1 (numAdd_exact p q) h, Int.fract_eq_self.2 ⟨add_nonneg hp0 h0, h⟩,
      decide_eq_false h.not_ge]
  · have hf : Int.fract (p + q) = p + q - 1 := by
      rw [← Int.fract_sub_one, Int.fract_eq_self]
      constructor <;> linarith
    rw [phaseStep_of_ge h0 h1 (numAdd_exact p q) h (numSub_exact _ 1), hf, decide_eq_true h]

end

/-! ## OSC.PROC (R116) -/

section
variable {m : NumInst} {o : Osc} {q out : Rat}

theorem Osc.proc_of_inc_none (m : NumInst) (h : o.inc = none) : o.proc m = .error Trap.unset := by
  rw [Osc.proc, h, readOpt_none, res_error_bind]

/-- With an increment and a value, what the advance does decides. -/
theorem Osc.proc_of_inc_some (hq : o.inc = some q) (hout : waveValue m o.wave o.phase = .ok out) :
    o.proc m = (do let t ← phaseStep m o.phase q; .ok (out, { o with phase := t.1 })) := by
  rw [Osc.proc, hq, readOpt_some, res_ok_bind, hout, res_ok_bind]

theorem traps_oscProc {s : State} {v : Fin 8} {e : Trap} (h : s.voices[v].osc.proc s.num = .error e) :
    Traps (.oscProc v) s e.code e.info :=
  traps_of_body_error rfl (by rw [h, res_error_bind])

end

/-- Settles O18: WAVE and PhaseAdvance branch by branch, and OSC.PROC by what they answer. -/
theorem oscillatorProcess : Obligations.OscillatorProcess := by
  refine ⟨fun m t => ⟨rfl, rfl, fun d x => waveValue_saw, waveValue_square_of_lt m, waveValue_square_of_gt m,
      waveValue_square_half m, rfl⟩,
    fun m phase inc => ⟨phaseStep_of_inc_outside m phase, fun h0 h1 =>
      ⟨fun t => phaseStep_of_lt h0 h1, fun t u => phaseStep_of_ge h0 h1⟩⟩,
    fun s v kind => ⟨rfl, rfl, fun c => decode_oscSetwave_illegal v, Effect.oscSetwave.completes, fun hi => ?_,
      fun q out hq hr hout => ?_, fun q out t wrapped hq hout ht => ?_⟩⟩
  · exact traps_oscProc (Osc.proc_of_inc_none s.num hi)
  · exact traps_oscProc (e := Trap.incRange)
      (by rw [Osc.proc_of_inc_some hq hout, phaseStep_of_inc_outside _ _ hr, res_error_bind])
  · exact (Effect.oscProc (by rw [Osc.proc_of_inc_some hq hout, ht, res_ok_bind])).completes

/-! ## The period (R118) -/

/-- The whole part of a summand does not count. -/
theorem fract_fract_add (a b : Rat) : Int.fract (Int.fract a + b) = Int.fract (a + b) :=
  Int.fract_eq_fract.2 ⟨-⌊a⌋, by rw [Int.fract]; push_cast; ring⟩

/-- One OSC.PROC in `EXACT` moves the phase alone, to the fractional part of its sum with the increment. -/
theorem Osc.proc_exact_fract {o : Osc} {q : Rat} (hq : o.inc = some q) (h0 : 0 ≤ q) (h1 : q < 1) (ho : o.InRange) :
    ∃ x, o.proc .exact = .ok (x, { o with phase := Int.fract (o.phase + q) }) := by
  obtain ⟨x, hx⟩ := waveValue_exact o.wave o.phase
  exact ⟨x, by rw [Osc.proc_of_inc_some hq hx, phaseStep_exact_fract ho h0 h1, res_ok_bind]⟩

/-- The phases add up modulo 1. -/
theorem Osc.procs_exact_fract {q : Rat} (h0 : 0 ≤ q) (h1 : q < 1) (k : Nat) (o : Osc) (hq : o.inc = some q)
    (ho : o.InRange) : Osc.procs .exact k o = .ok { o with phase := Int.fract (o.phase + k * q) } := by
  induction k generalizing o with
  | zero => rw [Osc.procs, Nat.cast_zero, zero_mul, add_zero, Int.fract_eq_self.2 ho]
  | succ k ih =>
    obtain ⟨x, hx⟩ := Osc.proc_exact_fract hq h0 h1 ho
    have hsum : o.phase + q + k * q = o.phase + ((k + 1 : Nat) : Rat) * q := by push_cast; ring
    rw [Osc.procs, hx, res_ok_bind, ih { o with phase := Int.fract (o.phase + q) } hq
      ⟨Int.fract_nonneg _, Int.fract_lt_one _⟩, fract_fract_add, hsum]

/-- Settles O19: the phases add up modulo 1, and a whole number `sr ÷ freq` of increments `freq ÷ sr` is 1 (or, for a
rate of 0, is 0). -/
theorem oscillatorIsPeriodic : Obligations.OscillatorIsPeriodic := by
  intro o q hq h0 h1 hp0 hp1
  have hprocs := fun k => Osc.procs_exact_fract h0 h1 k o hq ⟨hp0, hp1⟩
  refine ⟨hprocs, fun N f sr _ _ hf hqf hN => ?_⟩
  have hphase : Int.fract (o.phase + N * q) = o.phase := by
    rcases eq_or_ne sr 0 with rfl | hsr
    · rw [hN, zero_div, zero_mul, add_zero, Int.fract_eq_self.2 ⟨hp0, hp1⟩]
    · have hone : (N : Rat) * q = 1 := by rw [hN, hqf]; field_simp
      rw [hone, Int.fract_add_one, Int.fract_eq_self.2 ⟨hp0, hp1⟩]
  rw [hprocs N, hphase]

/-! ## Results in range (R117, R177), in `EXACT` -/

/-- What OSC.PROC answers is the waveform's value at the current phase. -/
theorem Effect.oscProc_value {s t : State} {v : Fin 8} {x : Rat} (h : Effect (.oscProc v) s (.num x) t) :
    waveValue s.num s.voices[v].osc.wave s.voices[v].osc.phase = .ok x := by
  cases h with
  | oscProc h =>
    simp only [Osc.proc, bind_eq_ok, Except.ok.injEq, Prod.mk.injEq] at h
    obtain ⟨_, _, _, hx, _, _, rfl, _⟩ := h
    exact hx

/-- What LFO.NEXT answers is the output for some waveform at the current phase. -/
theorem Effect.lfoNext_output {s t : State} {v : Fin 8} {i : Fin 2} {x : Rat}
    (h : Effect (.lfoNext v i) s (.num x) t) : ∃ k, s.voices[v].lfo[i].output s.num k = .ok x := by
  cases h with
  | lfoNext h =>
    obtain ⟨k, _, hx, _⟩ := Lfo.next_cases h
    exact ⟨k, hx⟩

/-- The remap of R170 takes [-1,1] to [0,1]. -/
theorem Lfo.output_nonneg {k : LfoWave} {l : Lfo} {x : Rat} (h : l.output .exact k = .ok x) (hl : l.InRange)
    (hb : l.bipolar = false) : 0 ≤ x := by
  rw [Lfo.output, bind_eq_ok] at h
  obtain ⟨y, hy, h⟩ := h
  have hm := Lfo.value_mem hy hl
  rw [hb, if_neg Bool.false_ne_true, numAdd_exact, res_ok_bind, numMul_exact, Except.ok.injEq] at h
  linarith

/-- Settles O30: a result is a waveform's value at a phase in range, or one of the random registers, or between two of
them, remapped when the LFO is not bipolar. -/
theorem outputsStayInRange : Obligations.OutputsStayInRange := by
  refine ⟨fun s t v x hm ho hc => ?_, fun s t v i x hm hl hc => ?_⟩
  · have hx := (completes_iff.1 hc).oscProc_value
    rw [hm] at hx
    exact waveValue_mem hx ho
  · obtain ⟨k, hx⟩ := (completes_iff.1 hc).lfoNext_output
    rw [hm] at hx
    exact ⟨Lfo.output_mem hx hl, Lfo.output_nonneg hx hl⟩

end Machine

end Sys2Proof
end

section
/-! SUPPORT. The envelope (spec/41_envelope.md): its rates (R133, R134), its setters (R132, R135, R136, R145, R146),
note on and off (R137, R138), ENV.TICK (R139), and in `EXACT` the ramps the ticks of a stage make (R140, R143, R144). -/

namespace Sys2Proof.Machine

/-! ## Rates (R133, R134) -/

theorem calcRate_of_nonpos {delta ms : Rat} (m : NumInst) (sr : Rat) (h : ms ≤ 0 ∨ delta ≤ 0) :
    calcRate m delta ms sr = .ok delta := if_pos h

theorem calcRate_of_pos {delta ms : Rat} (m : NumInst) (sr : Rat) (hms : 0 < ms) (hd : 0 < delta) :
    calcRate m delta ms sr = (do
      let a ← numMul m ms (lit m (1 / 1000))
      let samples ← numMul m a sr
      numDiv m delta samples) := if_neg (not_or.2 ⟨hms.not_ge, hd.not_ge⟩)

theorem calcRate_exact (delta ms sr : Rat) : ∃ q, calcRate .exact delta ms sr = .ok q := by
  rw [calcRate]
  split_ifs <;> exact ⟨_, rfl⟩

theorem Env.rederive_of_sr_none {e : Env} (m : NumInst) (h : e.sr = none) : Env.rederive m e = .ok e := by
  rw [Env.rederive, h]

theorem Env.rederive_of_sr_some {m : NumInst} {e : Env} {sr drop a d r : Rat} (hsr : e.sr = some sr)
    (ha : calcRate m 1 e.atkMs sr = .ok a) (hdrop : numSub m 1 e.sus = .ok drop)
    (hd : calcRate m drop e.decMs sr = .ok d) (hr : calcRate m e.relFrom e.relMs sr = .ok r) :
    Env.rederive m e = .ok { e with atkRate := some a, decRate := some d, relRate := some r } := by
  rw [Env.rederive, hsr]
  simp [ha, hdrop, hd, hr]

theorem Env.rederive_exact (e : Env) : ∃ e', Env.rederive .exact e = .ok e' := by
  cases hsr : e.sr with
  | none => exact ⟨e, Env.rederive_of_sr_none _ hsr⟩
  | some sr =>
    obtain ⟨a, ha⟩ := calcRate_exact 1 e.atkMs sr
    obtain ⟨d, hd⟩ := calcRate_exact (1 - e.sus) e.decMs sr
    obtain ⟨r, hr⟩ := calcRate_exact e.relFrom e.relMs sr
    exact ⟨_, Env.rederive_of_sr_some hsr ha rfl hd hr⟩

/-- Settles O20: the branches of CalcRate and of Rederive; no operation of `EXACT` faults. -/
theorem envelopeRateDerivation : Obligations.EnvelopeRateDerivation := by
  refine ⟨fun m delta ms sr => ⟨calcRate_of_nonpos m sr, fun a samples q hms hd ha hsamples hq => ?_⟩,
    fun m e => ⟨Env.rederive_of_sr_none m, fun sr drop a d r => Env.rederive_of_sr_some⟩, Env.rederive_exact⟩
  rw [calcRate_of_pos m sr hms hd, ha, res_ok_bind, hsamples, res_ok_bind, hq]

/-! ## Setters (R132, R135, R136, R145, R146) -/

/-- A command whose body begins with its value operand takes F_BAD_OPERAND for one that is no number (R303). -/
theorem traps_badOperand_of_body {i : Instr} {s : State} {imm : Imm} {f : Rat → Res (Response × State)}
    (hi : exec i s = finish s (valueOp imm >>= f)) (hx : f32Value imm = none) :
    Traps i s .badOperand (imm.setWidth 64) :=
  traps_of_body_error (e := Trap.badOperand imm) hi (by rw [valueOp_of_none hx, res_error_bind])

theorem Env.setSr_of_nonpos {x : Rat} (m : NumInst) (imm : Imm) (e : Env) (h : x ≤ 0) :
    Env.setSr m imm x e = .error (Trap.srRange imm) := if_pos h

theorem Env.setSr_of_pos {x : Rat} (m : NumInst) (imm : Imm) (e : Env) (h : 0 < x) :
    Env.setSr m imm x e = Env.rederive m { e with sr := some x } := if_neg h.not_ge

/-- Settles O21: each setter is a write of its register and Rederive, which keeps stage and level. -/
theorem envelopeSettersRederive : Obligations.EnvelopeSettersRederive := by
  refine fun s v i imm => ⟨rfl, rfl, rfl, rfl, rfl,
    fun hx => ⟨traps_badOperand_of_body rfl hx, traps_badOperand_of_body rfl hx, traps_badOperand_of_body rfl hx,
      traps_badOperand_of_body rfl hx, traps_badOperand_of_body rfl hx⟩,
    fun x e' hx => ⟨fun h => (Effect.envSetatk hx h).completes, fun h => (Effect.envSetdec hx h).completes,
      fun h => (Effect.envSetsus hx h).completes, fun h => (Effect.envSetrel hx h).completes,
      fun h0 h => (Effect.envSetsr hx ((Env.setSr_of_pos _ imm _ h0).trans h)).completes⟩,
    fun x hx h0 => ?_, fun e₁ e' h => ?_⟩
  · exact traps_of_body_error (e := Trap.srRange imm) rfl
      (by rw [valueOp_of_some hx, res_ok_bind, Env.setSr_of_nonpos _ _ _ h0, res_error_bind])
  · obtain ⟨-, -, -, -, -, -, hstage, hlevel, -⟩ := rederive_frame h
    exact ⟨hstage, hlevel⟩

/-! ## Note on, note off, active (R137, R138, R142) -/

/-- `ENV_RETRIG_RESET` is false in this hardware, so the level stays. -/
theorem Env.noteOn_eq (e : Env) : e.noteOn = { e with stage := .attack } := rfl

theorem Env.noteOff_of_idle_or_release {e : Env} (m : NumInst) (h : e.stage = .idle ∨ e.stage = .release) :
    e.noteOff m = .ok e := by
  rcases h with h | h <;> rw [Env.noteOff, h]

/-- The other stages latch the level the Release starts from, re-derive and enter it. -/
theorem Env.noteOff_of_sounding {m : NumInst} {e e' : Env}
    (h : e.stage = .attack ∨ e.stage = .decay ∨ e.stage = .sustain)
    (he : Env.rederive m { e with relFrom := e.level } = .ok e') :
    e.noteOff m = .ok { e' with stage := .release } := by
  rcases h with h | h | h <;>
  · rw [h] at he
    rw [Env.noteOff, h]
    simp only [he, res_ok_bind]

theorem Env.isActive_eq (e : Env) : e.isActive = decide (e.stage ≠ .idle) := by
  rw [Env.isActive, bne, decide_not, beq_eq_decide]

/-- Settles O22: NOTEOFF by the stage it finds; a state with an envelope written back over itself is that state. -/
theorem envelopeNotes : Obligations.EnvelopeNotes := by
  refine fun s v i => ⟨rfl, rfl, rfl, ?_, fun e' hs he => ?_, fun hs => ?_, ?_⟩
  · rw [← Env.noteOn_eq]
    exact Effect.envNoteon.completes
  · exact (Effect.envNoteoff (Env.noteOff_of_sounding hs he)).completes
  · have h := (Effect.envNoteoff (Env.noteOff_of_idle_or_release s.num hs)).completes
    rwa [State.setEnv_self] at h
  · have h := (Effect.envIsactive (v := v) (i := i) (s := s)).completes
    rwa [Env.isActive_eq] at h

/-! ## ENV.TICK (R139) -/

section
variable {m : NumInst} {e : Env} {r l : Rat}

theorem Env.tick_idle (hs : e.stage = .idle) : e.tick m = .ok (e.level, e) := by
  rw [Env.tick, hs]

theorem Env.tick_sustain (hs : e.stage = .sustain) : e.tick m = .ok (e.sus, { e with level := e.sus }) := by
  rw [Env.tick, hs]

theorem Env.tick_of_lacking (h : e.Lacking) : e.tick m = .error Trap.unset := by
  rcases h with ⟨hs, hr⟩ | ⟨hs, hr⟩ | ⟨hs, hr⟩ <;> rw [Env.tick, hs] <;> simp [hr]

/-- An Attack adds its rate, and enters Decay at exactly 1 once the sum reaches 1. -/
theorem Env.tick_attack (hs : e.stage = .attack) (hr : e.atkRate = some r) (hl : numAdd m e.level r = .ok l) :
    e.tick m = if 1 ≤ l then .ok (1, { e with level := 1, stage := .decay }) else .ok (l, { e with level := l }) := by
  rw [Env.tick, hs]
  simp [hr, hl]

/-- A Decay subtracts its rate, and enters Sustain at the sustain level once the difference reaches it. -/
theorem Env.tick_decay (hs : e.stage = .decay) (hr : e.decRate = some r) (hl : numSub m e.level r = .ok l) :
    e.tick m = if l ≤ e.sus then .ok (e.sus, { e with level := e.sus, stage := .sustain })
      else .ok (l, { e with level := l }) := by
  rw [Env.tick, hs]
  simp [hr, hl]

/-- A Release subtracts its rate, and enters Idle at 0 once the difference reaches 0. -/
theorem Env.tick_release (hs : e.stage = .release) (hr : e.relRate = some r) (hl : numSub m e.level r = .ok l) :
    e.tick m = if l ≤ 0 then .ok (0, { e with level := 0, stage := .idle }) else .ok (l, { e with level := l }) := by
  rw [Env.tick, hs]
  simp [hr, hl]

end

/-- A tick answers the level it leaves. -/
theorem Env.tick_result {m : NumInst} {e e' : Env} {x : Rat} (h : e.tick m = .ok (x, e')) : x = e'.level := by
  unfold Env.tick at h
  split at h
  case h_1 => cases h; rfl
  case h_4 => cases h; rfl
  all_goals
    simp only [bind_eq_ok] at h
    obtain ⟨rate, -, l, -, h⟩ := h
    split at h <;> cases h <;> rfl

theorem traps_envTick_of_lacking {s : State} {v : Fin 8} {i : Fin 2} (h : s.voices[v].env[i].Lacking) :
    Traps (.envTick v i) s .unset 0 :=
  traps_of_body_error (e := Trap.unset) rfl (by rw [Env.tick_of_lacking h, res_error_bind])

theorem completes_envTick {s : State} {v : Fin 8} {i : Fin 2} {x : Rat} {e : Env}
    (h : s.voices[v].env[i].tick s.num = .ok (x, e)) : Completes (.envTick v i) s (.num x) (s.setEnv v i e) :=
  (Effect.envTick h).completes

/-- A tick that tests its new level against the boundary completes either way. -/
theorem completes_envTick_ite {s : State} {v : Fin 8} {i : Fin 2} {a b : Rat} {p q : Rat × Env}
    (h : s.voices[v].env[i].tick s.num = if a ≤ b then .ok p else .ok q) :
    (b < a → Completes (.envTick v i) s (.num q.1) (s.setEnv v i q.2)) ∧
    (a ≤ b → Completes (.envTick v i) s (.num p.1) (s.setEnv v i p.2)) :=
  ⟨fun hc => completes_envTick (h.trans (if_neg hc.not_ge)), fun hc => completes_envTick (h.trans (if_pos hc))⟩

/-- Settles O23: the command is the tick of its envelope, whose branches are the clauses. -/
theorem envelopeTick : Obligations.EnvelopeTick := by
  refine fun s v i => ⟨rfl, fun hs => ?_,
    fun hs hr => traps_envTick_of_lacking (.inl ⟨hs, hr⟩),
    fun r l hs hr hl => completes_envTick_ite (Env.tick_attack hs hr hl),
    fun hs hr => traps_envTick_of_lacking (.inr (.inl ⟨hs, hr⟩)),
    fun r l hs hr hl => completes_envTick_ite (Env.tick_decay hs hr hl),
    fun hs => completes_envTick (Env.tick_sustain hs),
    fun hs hr => traps_envTick_of_lacking (.inr (.inr ⟨hs, hr⟩)),
    fun r l hs hr hl => completes_envTick_ite (Env.tick_release hs hr hl)⟩
  · have h := completes_envTick (Env.tick_idle hs)
    rwa [State.setEnv_self] at h

/-! ## Repeated ticks -/

theorem Env.ticks_one {m : NumInst} {e e' : Env} {x : Rat} (h : e.tick m = .ok (x, e')) : Env.ticks m 1 e = .ok e' := by
  rw [Env.ticks, h, res_ok_bind, Env.ticks]

theorem Env.ticks_add (m : NumInst) (a b : Nat) (e : Env) :
    Env.ticks m (a + b) e = Env.ticks m a e >>= Env.ticks m b := by
  induction a generalizing e with
  | zero => rw [Nat.zero_add, Env.ticks, res_ok_bind]
  | succ a ih =>
    rw [Nat.succ_add, Env.ticks, Env.ticks]
    cases e.tick m with
    | error t => rfl
    | ok p => exact ih p.2

theorem Env.ticks_sustain {m : NumInst} {e : Env} (hs : e.stage = .sustain) (k : Nat) :
    Env.ticks m k { e with level := e.sus } = .ok { e with level := e.sus } := by
  induction k with
  | zero => rw [Env.ticks]
  | succ k ih =>
    rw [Env.ticks, Env.tick_sustain (e := { e with level := e.sus }) hs, res_ok_bind]
    exact ih

/-! ## The ramps (R139, R140, R143), in `EXACT`

A stage with a rate `r` takes `r` off the distance to its boundary with every tick; when no more than `r` is left, the
tick lands on the boundary in the next stage. -/

/-- `left d` is the envelope with the distance `d` left to the boundary where its stage becomes that of `last`: a tick
takes `r` off a distance above `r`, and any other distance in one step. -/
structure Env.Ramp (left : Rat → Env) (r : Rat) (last : Env) : Prop where
  short : ∀ d, r < d → ∃ x, (left d).tick .exact = .ok (x, left (d - r))
  ends  : ∀ d, d ≤ r → ∃ x, (left d).tick .exact = .ok (x, last)

section
variable {e : Env} {r : Rat}

theorem Env.attack_ramp (hs : e.stage = .attack) (hr : e.atkRate = some r) :
    Env.Ramp (fun d => { e with level := 1 - d }) r { e with level := 1, stage := .decay } where
  short d h := ⟨1 - d + r, by
    rw [sub_sub_eq_add_sub, add_sub_right_comm]
    exact (Env.tick_attack (e := { e with level := 1 - d }) hs hr rfl).trans (if_neg (by linarith))⟩
  ends d h := ⟨1, (Env.tick_attack (e := { e with level := 1 - d }) hs hr rfl).trans (if_pos (by linarith))⟩

theorem Env.decay_ramp (hs : e.stage = .decay) (hr : e.decRate = some r) :
    Env.Ramp (fun d => { e with level := e.sus + d }) r { e with level := e.sus, stage := .sustain } where
  short d h := ⟨e.sus + d - r, by
    rw [← add_sub_assoc]
    exact (Env.tick_decay (e := { e with level := e.sus + d }) hs hr rfl).trans
      (if_neg (show ¬e.sus + d - r ≤ e.sus by linarith))⟩
  ends d h := ⟨e.sus, (Env.tick_decay (e := { e with level := e.sus + d }) hs hr rfl).trans
    (if_pos (show e.sus + d - r ≤ e.sus by linarith))⟩

theorem Env.release_ramp (hs : e.stage = .release) (hr : e.relRate = some r) :
    Env.Ramp (fun d => { e with level := d }) r { e with level := 0, stage := .idle } where
  short d h := ⟨d - r, (Env.tick_release (e := { e with level := d }) hs hr rfl).trans (if_neg (by linarith))⟩
  ends d h := ⟨0, (Env.tick_release (e := { e with level := d }) hs hr rfl).trans (if_pos (by linarith))⟩

end

section
variable {left : Rat → Env} {r d : Rat} {last e : Env}

/-- Where the distance left is at most `r`, one tick ends the ramp. -/
theorem Env.Ramp.ticks_one (h : Env.Ramp left r last) (he : left d = e) (hd : d ≤ r) :
    Env.ticks .exact 1 e = .ok last := by
  obtain ⟨x, hx⟩ := h.ends d hd
  exact he ▸ Env.ticks_one hx

/-- A tick that leaves the ramp's stage is the one that ends the ramp, with at most `r` left (R140). -/
theorem Env.Ramp.leaves (h : Env.Ramp left r last) (he : left d = e) {x : Rat} {e' : Env}
    (ht : e.tick .exact = .ok (x, e')) (hs : (left (d - r)).stage ≠ e'.stage) : e' = last ∧ d ≤ r := by
  subst he
  rcases le_or_gt d r with hd | hd
  · obtain ⟨y, hy⟩ := h.ends d hd
    cases ht.symm.trans hy
    exact ⟨rfl, hd⟩
  · obtain ⟨y, hy⟩ := h.short d hd
    cases ht.symm.trans hy
    exact absurd rfl hs

/-- Short of the boundary, `k` ticks take `k × r` off the distance. -/
theorem Env.Ramp.ticks_short (h : Env.Ramp left r last) (he : left d = e) (hr : 0 ≤ r) {k : Nat} (hd : k * r < d) :
    Env.ticks .exact k e = .ok (left (d - k * r)) := by
  subst he
  induction k with
  | zero => rw [Env.ticks, Nat.cast_zero, zero_mul, sub_zero]
  | succ k ih =>
    push_cast at hd ⊢
    obtain ⟨x, hx⟩ := h.short (d - k * r) (by linarith)
    rw [Env.ticks_add, ih (by linarith), res_ok_bind, Env.ticks_one hx, add_one_mul, sub_sub]

/-- The tick after those ends the ramp when what is left is at most `r`. -/
theorem Env.Ramp.ticks_ends (h : Env.Ramp left r last) (he : left d = e) (hr : 0 ≤ r) {k : Nat} (hd : k * r < d)
    (hend : d ≤ (k + 1) * r) : Env.ticks .exact (k + 1) e = .ok last := by
  rw [Env.ticks_add, h.ticks_short he hr hd, res_ok_bind, h.ticks_one rfl (by linarith)]

/-- A ramp over a distance of at most `D` ends within `⌈D ÷ r⌉` ticks (R143). -/
theorem Env.Ramp.ends_within (h : Env.Ramp left r last) (he : left d = e) (hr : 0 < r) {D : Rat} (hD : 0 < D)
    (hd : d ≤ D) : ∃ k : Nat, (k : Int) ≤ ⌈D / r⌉ ∧ Env.ticks .exact k e = .ok last := by
  rcases le_or_gt d r with hlast | hmore
  · exact ⟨1, Int.one_le_ceil_iff.2 (div_pos hD hr), h.ticks_one he hlast⟩
  · obtain ⟨k, hk⟩ := Nat.exists_eq_succ_of_ne_zero (Nat.ceil_pos.2 (div_pos (hr.trans hmore) hr)).ne'
    obtain ⟨hlt, hge⟩ := (Nat.ceil_eq_iff k.succ_ne_zero).1 hk
    rw [Nat.succ_sub_one] at hlt
    rw [Nat.cast_succ] at hge
    refine ⟨k + 1, Int.le_ceil_iff.2 ?_, h.ticks_ends he hr.le ((lt_div_iff₀ hr).1 hlt) ((div_le_iff₀ hr).1 hge)⟩
    push_cast
    rw [add_sub_cancel_right]
    exact hlt.trans_le (div_le_div_of_nonneg_right hd hr.le)

end

/-! An envelope in Attack or Decay, written by the distance left to 1 or to the sustain level. -/

theorem Env.attack_left (e : Env) : { e with level := 1 - (1 - e.level) } = e := by rw [sub_sub_cancel]

theorem Env.decay_left (e : Env) : { e with level := e.sus + (e.level - e.sus) } = e := by rw [add_sub_cancel]

/-- Settles O24: a stage with a rate is a ramp, whose last tick steps over what is left, at most the rate, and which
ends within the distance divided by the rate. -/
theorem envelopeRampsAreContinuousAndEnd : Obligations.EnvelopeRampsAreContinuousAndEnd := by
  refine ⟨fun e e' l h => ⟨Env.tick_result h, fun r hs hs' hr hl => ?_, fun r hs hs' hr hl => ?_,
      fun r hs hs' hr hl => ?_⟩,
    fun e r hs hr h0 hl => ?_, fun e r hs hr h0 hsus hl => ?_, fun e r hs hr h0 hsus hl => ?_,
    fun e r hs hr h0 hf hl => ?_, fun e r hs hr h0 hl => ?_⟩
  · obtain ⟨rfl, hstep⟩ := (Env.attack_ramp hs hr).leaves e.attack_left h (by simp [hs, hs'])
    exact ⟨rfl, hl, hstep⟩
  · obtain ⟨rfl, hstep⟩ := (Env.decay_ramp hs hr).leaves e.decay_left h (by simp [hs, hs'])
    exact ⟨rfl, hl, hstep⟩
  · obtain ⟨rfl, hstep⟩ := (Env.release_ramp hs hr).leaves rfl h (by simp [hs, hs'])
    exact ⟨rfl, hl, (sub_zero e.level).trans_le hstep⟩
  · exact (Env.attack_ramp hs hr).ends_within e.attack_left h0 one_pos (sub_le_self 1 hl)
  · exact (Env.decay_ramp hs hr).ends_within e.decay_left h0 (sub_pos.2 hsus) (sub_le_sub_right hl _)
  · exact (Env.decay_ramp hs hr).ticks_one e.decay_left (by linarith)
  · exact (Env.release_ramp hs hr).ends_within rfl h0 hf hl
  · exact (Env.release_ramp hs hr).ticks_one rfl (hl.trans h0)

/-! ## The default envelope at 44100 Hz (R144), in `EXACT` -/

/-- The reset envelope with the rates R134 derives at 44100 Hz, after ENV.NOTEON. -/
def Env.defaultNote : Env :=
  { Env.reset .exact with
    stage := .attack, sr := some 44100, atkRate := some (1 / 2205), decRate := some (1 / 14700), relRate := some 0 }

theorem Env.noteOn_of_setSr_reset {imm : Imm} {e : Env} (h : Env.setSr .exact imm 44100 (Env.reset .exact) = .ok e) :
    e.atkRate = some (1 / 2205) ∧ e.decRate = some (1 / 14700) ∧ e.noteOn = Env.defaultNote := by
  have hrates : Env.rederive .exact { Env.reset .exact with sr := some 44100 } =
      .ok { Env.defaultNote with stage := .idle } := by decide +kernel
  cases hrates.symm.trans (Env.setSr_cases h).2
  exact ⟨rfl, rfl, rfl⟩

theorem Env.defaultNote_attack_ramp : Env.Ramp (fun d => { Env.defaultNote with level := 1 - d }) (1 / 2205)
    { Env.defaultNote with level := 1, stage := .decay } := Env.attack_ramp rfl rfl

theorem Env.defaultNote_decay_ramp :
    Env.Ramp (fun d => { Env.defaultNote with level := 7 / 10 + d, stage := .decay }) (1 / 14700)
      { Env.defaultNote with level := 7 / 10, stage := .sustain } :=
  Env.decay_ramp (e := { Env.defaultNote with stage := .decay }) rfl rfl

/-- Settles O25: an Attack over 1 in steps of 1/2205, then a Decay over 3/10 in steps of 1/14700, then Sustain. -/
theorem defaultEnvelopeTiming : Obligations.DefaultEnvelopeTiming := by
  intro imm e h
  obtain ⟨hatk, hdec, hnote⟩ := Env.noteOn_of_setSr_reset h
  rw [hnote]
  have hstart : { Env.defaultNote with level := 1 - 1 } = Env.defaultNote := by decide +kernel
  have hpeak : { Env.defaultNote with level := 7 / 10 + 3 / 10, stage := .decay } =
      { Env.defaultNote with level := 1, stage := .decay } := by norm_num
  have hattack := Env.defaultNote_attack_ramp.ticks_ends hstart (k := 2204) (by norm_num) (by norm_num) (by norm_num)
  have hdecay := Env.defaultNote_decay_ramp.ticks_ends hpeak (k := 4409) (by norm_num) (by norm_num) (by norm_num)
  refine ⟨hatk, hdec, fun k hk => ?_, fun k hk => ?_, fun k => ?_⟩
  · have hk : (k : Rat) < 2205 := by exact_mod_cast hk
    rw [show (k : Rat) / 2205 = 1 - (1 - k * (1 / 2205)) by ring]
    exact Env.defaultNote_attack_ramp.ticks_short hstart (by norm_num) (by linarith)
  · have hk : (k : Rat) < 4410 := by exact_mod_cast hk
    rw [Env.ticks_add, hattack, res_ok_bind, show 1 - (k : Rat) / 14700 = 7 / 10 + (3 / 10 - k * (1 / 14700)) by ring]
    exact Env.defaultNote_decay_ramp.ticks_short hpeak (by norm_num) (by linarith)
  · rw [show 6615 + k = 2205 + (4410 + k) by omega, Env.ticks_add, hattack, res_ok_bind, Env.ticks_add, hdecay,
      res_ok_bind]
    exact Env.ticks_sustain (e := { Env.defaultNote with stage := .sustain }) rfl k

end Sys2Proof.Machine
end

section
/-! SUPPORT. The LFO (spec/42_lfo.md): its setters (R162 to R165), its value, advance and wrap action (R167 to R173),
LFO.NEXT and LFO.RESET (R170, R176), and LFO.SKIP, which is repeated advances (R174, R175). -/

namespace Sys2Proof

theorem Fields.onUnit_fmtK_none {α : Type} (f : Fields) {dec : BitVec 8 → Option α} (k : Fin 8 → Fin 2 → α → Instr)
    (h : dec f.a = none) : (f.onUnit fun v i => f.fmtK dec (k v i)) = none :=
  Fields.onUnit_none _ _ fun _ _ => Fields.fmtK_none _ _ h

namespace Machine

theorem decode_lfoSetwave_illegal (v : Fin 8) (i : Fin 2) {c : BitVec 8} (h : 5 < c.toNat) :
    decode (cmdWord 0x32#8 v i c 0 0) = .error .illegalCmd := by
  rw [cmdWord_eq_word]
  exact Fields.decode_word_of_legal_none _ <| Fields.onUnit_fmtK_none _ _ <|
    ofCode_none lfoWave_ofCode (fun k => by cases k <;> decide) h

theorem decode_lfoSetbip_illegal (v : Fin 8) (i : Fin 2) {c : BitVec 8} (h : 1 < c.toNat) :
    decode (cmdWord 0x33#8 v i c 0 0) = .error .illegalCmd := by
  rw [cmdWord_eq_word]
  exact Fields.decode_word_of_legal_none _ <| Fields.onUnit_fmtK_none _ _ <|
    ofCode_none bool_ofCode (fun b => by cases b <;> decide) h

/-! ## LFO.SETFREQ and LFO.SETSR (R162, R163) -/

section
variable {m : NumInst} {l : Lfo} {x : Rat}

theorem Lfo.setFreq_of_sr_none (x : Rat) (h : l.sr = none) :
    l.setFreq m x = .ok { l with freq := some (clamp x (lit m (1 / 100)) 100) } := by
  rw [Lfo.setFreq, h]

theorem Lfo.setFreq_of_sr_some {r q : Rat} (h : l.sr = some r)
    (hq : numDiv m (clamp x (lit m (1 / 100)) 100) r = .ok q) :
    l.setFreq m x = .ok { l with freq := some (clamp x (lit m (1 / 100)) 100), inc := some q } := by
  rw [Lfo.setFreq, h]
  simp only [hq, res_ok_bind]

theorem Lfo.setSr_of_nonpos (m : NumInst) (l : Lfo) (imm : Imm) (h : x ≤ 0) :
    l.setSr m imm x = .error (Trap.srRange imm) := if_pos h

theorem Lfo.setSr_of_freq_none (imm : Imm) (hx : 0 < x) (h : l.freq = none) :
    l.setSr m imm x = .ok { l with sr := some x } := by
  rw [Lfo.setSr, if_neg hx.not_ge, h]

theorem Lfo.setSr_of_freq_some {f q : Rat} (imm : Imm) (hx : 0 < x) (h : l.freq = some f)
    (hq : numDiv m f x = .ok q) : l.setSr m imm x = .ok { l with sr := some x, inc := some q } := by
  rw [Lfo.setSr, if_neg hx.not_ge, h]
  simp only [hq, res_ok_bind]

end

/-- Settles O26: each setter is its register operation, whose branches are the clauses. -/
theorem lfoSetters : Obligations.LfoSetters := by
  refine fun s v i imm kind b => ⟨rfl, rfl, rfl, rfl,
    fun hx => ⟨traps_badOperand_of_body rfl hx, traps_badOperand_of_body rfl hx⟩,
    fun x hx => ⟨fun hs => ?_, fun r q hs hq => ?_, fun h0 => ?_, fun h0 hf => ?_, fun f q h0 hf hq => ?_⟩,
    fun c => decode_lfoSetwave_illegal v i, fun c => decode_lfoSetbip_illegal v i,
    Effect.lfoSetwave.completes, Effect.lfoSetbip.completes⟩
  · exact (Effect.lfoSetfreq hx (Lfo.setFreq_of_sr_none x hs)).completes
  · exact (Effect.lfoSetfreq hx (Lfo.setFreq_of_sr_some hs hq)).completes
  · exact traps_of_body_error (e := Trap.srRange imm) rfl
      (by rw [valueOp_of_some hx, res_ok_bind, Lfo.setSr_of_nonpos _ _ _ h0, res_error_bind])
  · exact (Effect.lfoSetsr hx (Lfo.setSr_of_freq_none imm h0 hf)).completes
  · exact (Effect.lfoSetsr hx (Lfo.setSr_of_freq_some imm h0 hf hq)).completes

/-! ## The wrap action (R172, R173) -/

section
variable {l : Lfo}

theorem Lfo.wrap_stepped (m : NumInst) (n : Nat) (h : l.wave = some .stepped) :
    l.wrap m n = (n + 1, { l with held := drawOther m n l.held }) := by
  rw [Lfo.wrap, h]

theorem Lfo.wrap_smoothed (m : NumInst) (n : Nat) (h : l.wave = some .smoothed) :
    l.wrap m n = (n + 1, { l with sPrev := l.sTarget, sTarget := draw m n }) := by
  rw [Lfo.wrap, h]

/-- Only the two random waveforms have a wrap action. -/
theorem Lfo.wrap_other (m : NumInst) (n : Nat) (hstep : l.wave ≠ some .stepped) (hsmooth : l.wave ≠ some .smoothed) :
    l.wrap m n = (n, l) := by
  unfold Lfo.wrap
  split
  case h_1 h => exact absurd h hstep
  case h_2 h => exact absurd h hsmooth
  all_goals rfl

end

/-- Settles O28: the wrap action by waveform; the value a stepped LFO takes is `drawOther`'s. -/
theorem lfoWrapAction : Obligations.LfoWrapAction := by
  refine fun m n l => ⟨fun h => ?_, Lfo.wrap_smoothed m n, Lfo.wrap_other m n⟩
  obtain ⟨hne, hlo, hhi⟩ := drawOther_mem m n l.held
  exact ⟨_, Lfo.wrap_stepped m n h, hne, hlo, hhi, drawOther_eq m n⟩

/-! ## The advance (R171) -/

section
variable {m : NumInst} {l : Lfo} {q : Rat}

/-- With an increment the phase advances, and the wrap action is taken exactly on a wrap. -/
theorem Lfo.advance_of_phaseStep {t : Rat} {wrapped : Bool} (n : Nat) (hq : l.inc = some q)
    (ht : phaseStep m l.phase q = .ok (t, wrapped)) :
    l.advance m n = .ok (if wrapped then Lfo.wrap m n { l with phase := t } else (n, { l with phase := t })) := by
  rw [Lfo.advance, hq, readOpt_some, res_ok_bind, ht, res_ok_bind]

theorem Lfo.advance_of_inc_outside (m : NumInst) (n : Nat) (hq : l.inc = some q) (hr : q < 0 ∨ 1 ≤ q) :
    l.advance m n = .error Trap.incRange := by
  rw [Lfo.advance, hq, readOpt_some, res_ok_bind, phaseStep_of_inc_outside m _ hr, res_error_bind]

theorem Lfo.advance_lastOut {n n' : Nat} {l' : Lfo} (h : l.advance m n = .ok (n', l')) : l'.lastOut = l.lastOut := by
  obtain ⟨_, _, _, _, _, rfl | rfl | rfl⟩ := Lfo.advance_cases h <;> rfl

end

/-! ## LFO.NEXT (R170) -/

section
variable {m : NumInst} {l : Lfo} {kind : LfoWave} {x : Rat}

theorem Lfo.value_smoothed {d p : Rat} (hd : numSub m l.sTarget l.sPrev = .ok d) (hp : numMul m d l.phase = .ok p)
    (hx : numAdd m l.sPrev p = .ok x) : l.value m .smoothed = .ok x := by
  rw [Lfo.value, hd, res_ok_bind, hp, res_ok_bind, hx]

theorem Lfo.output_of_bipolar (hb : l.bipolar = true) (hx : l.value m kind = .ok x) : l.output m kind = .ok x := by
  rw [Lfo.output, hx, res_ok_bind, if_pos hb]

/-- The value of an LFO that is not bipolar is remapped (R170). -/
theorem Lfo.output_of_unipolar {y out : Rat} (hb : l.bipolar = false) (hx : l.value m kind = .ok x)
    (hy : numAdd m x 1 = .ok y) (hout : numMul m y (1 / 2) = .ok out) : l.output m kind = .ok out := by
  rw [Lfo.output, hx, res_ok_bind, if_neg (by rw [hb]; exact Bool.false_ne_true), hy, res_ok_bind, hout]

/-- A value has an output unless the remap faults. -/
theorem Lfo.output_exists (hx : l.value m kind = .ok x)
    (h : l.bipolar = true ∨ ∃ y out, numAdd m x 1 = .ok y ∧ numMul m y (1 / 2) = .ok out) :
    ∃ out, l.output m kind = .ok out := by
  cases hb : l.bipolar with
  | true => exact ⟨x, Lfo.output_of_bipolar hb hx⟩
  | false =>
    obtain ⟨y, out, hy, hout⟩ := h.resolve_left (by rw [hb]; exact Bool.false_ne_true)
    exact ⟨out, Lfo.output_of_unipolar hb hx hy hout⟩

theorem Lfo.next_of_unset (m : NumInst) (n : Nat) (h : l.wave = none ∨ l.inc = none) :
    l.next m n = .error Trap.unset := by
  rcases h with h | h
  · rw [Lfo.next, h, readOpt_none, res_error_bind]
  · cases hw : l.wave <;> simp [Lfo.next, h, hw]

/-- With an output, what the advance does decides. -/
theorem Lfo.next_of_output {q out : Rat} (n : Nat) (hw : l.wave = some kind) (hq : l.inc = some q)
    (hout : l.output m kind = .ok out) :
    l.next m n = (do let r ← l.advance m n; .ok (out, r.1, { r.2 with lastOut := out })) := by
  rw [Lfo.next, hw, readOpt_some, res_ok_bind, hq, readOpt_some, res_ok_bind, hout, res_ok_bind]

end

section
variable {s : State} {v : Fin 8} {i : Fin 2} {kind : LfoWave} {q out : Rat}

theorem traps_lfoNext {e : Trap} (h : s.voices[v].lfo[i].next s.num s.draws = .error e) :
    Traps (.lfoNext v i) s e.code e.info :=
  traps_of_body_error rfl (by rw [h, res_error_bind])

/-- An increment outside [0,1) faults in the advance, once the output has been found. -/
theorem traps_lfoNext_incRange (hw : s.voices[v].lfo[i].wave = some kind) (hq : s.voices[v].lfo[i].inc = some q)
    (hout : s.voices[v].lfo[i].output s.num kind = .ok out) (hr : q < 0 ∨ 1 ≤ q) :
    Traps (.lfoNext v i) s .incRange 0 :=
  traps_lfoNext (e := Trap.incRange)
    (by rw [Lfo.next_of_output _ hw hq hout, Lfo.advance_of_inc_outside _ _ hq hr, res_error_bind])

theorem completes_lfoNext {n : Nat} {l' : Lfo} (hw : s.voices[v].lfo[i].wave = some kind)
    (hq : s.voices[v].lfo[i].inc = some q) (hout : s.voices[v].lfo[i].output s.num kind = .ok out)
    (ha : s.voices[v].lfo[i].advance s.num s.draws = .ok (n, l')) :
    Completes (.lfoNext v i) s (.num out) { s.setLfo v i { l' with lastOut := out } with draws := n } :=
  (Effect.lfoNext (by rw [Lfo.next_of_output _ hw hq hout, ha, res_ok_bind])).completes

end

/-- Settles O27: the value and the advance branch by branch, and LFO.NEXT by its output and its advance. -/
theorem lfoNextAndReset : Obligations.LfoNextAndReset := by
  refine ⟨fun m l => ⟨⟨rfl, rfl, rfl, rfl⟩, rfl, rfl, fun d p x => Lfo.value_smoothed⟩,
    fun m n l q t hq => ⟨Lfo.advance_of_phaseStep n hq, Lfo.advance_of_phaseStep n hq⟩,
    fun s v i => ⟨rfl, rfl, fun h => ?_, fun kind q x hw hq hx =>
      ⟨fun hr hdom => ?_, fun y out hr hy hout => ?_, fun n l' ha hb => ?_, fun n l' y out ha hb hy hout => ?_⟩,
      Effect.lfoReset.completes⟩⟩
  · exact traps_lfoNext (Lfo.next_of_unset s.num s.draws h)
  · have hremap : s.voices[v].lfo[i].bipolar = true ∨
        ∃ y out, numAdd s.num x 1 = .ok y ∧ numMul s.num y (1 / 2) = .ok out :=
      hdom.symm.imp_right fun hm => by rw [hm]; exact ⟨_, _, rfl, rfl⟩
    obtain ⟨out, hout⟩ := Lfo.output_exists hx hremap
    exact traps_lfoNext_incRange hw hq hout hr
  · obtain ⟨out', hout'⟩ := Lfo.output_exists hx (.inr ⟨y, out, hy, hout⟩)
    exact traps_lfoNext_incRange hw hq hout' hr
  · exact completes_lfoNext hw hq (Lfo.output_of_bipolar hb hx) ha
  · exact completes_lfoNext hw hq (Lfo.output_of_unipolar hb hx hy hout) ha

/-! ## LFO.SKIP (R174): completions, and what repeated advances leave -/

section
variable {m : NumInst} {k n : Nat} {l : Lfo} {q : Rat}

theorem Lfo.skip_zero (m : NumInst) (n : Nat) (l : Lfo) : l.skip m 0 n = .ok (n, l) := rfl

theorem Lfo.skip_of_unset (m : NumInst) (n : Nat) (hk : 0 < k) (h : l.wave = none ∨ l.inc = none) :
    l.skip m k n = .error Trap.unset := if_pos ⟨hk, h⟩

theorem Lfo.skip_of_set (m : NumInst) (k n : Nat) (hw : l.wave.isSome) (hq : l.inc = some q) :
    l.skip m k n = Lfo.advanceN m k n l := by
  rw [Lfo.skip, if_neg]
  rintro ⟨-, h | h⟩
  · rw [h] at hw
    cases hw
  · cases h.symm.trans hq

/-- A skip that runs is its advances, with waveform and increment set if there are any. -/
theorem Lfo.skip_eq_ok {r : Nat × Lfo} :
    l.skip m k n = .ok r ↔ (0 < k → l.wave ≠ none ∧ l.inc ≠ none) ∧ Lfo.advanceN m k n l = .ok r := by
  rw [Lfo.skip]
  split_ifs with h
  · exact iff_of_false nofun fun hs => not_or.2 (hs.1 h.1) h.2
  · exact (and_iff_right fun hk => not_or.1 (not_and.1 h hk)).symm

theorem Lfo.advanceN_one (m : NumInst) (n : Nat) (l : Lfo) : Lfo.advanceN m 1 n l = l.advance m n := by
  rw [Lfo.advanceN]
  cases l.advance m n <;> rfl

theorem Lfo.advanceN_add {r : Nat × Lfo} (a b : Nat) (h : Lfo.advanceN m a n l = .ok r) :
    Lfo.advanceN m (a + b) n l = Lfo.advanceN m b r.1 r.2 := by
  induction a generalizing n l with
  | zero => cases h; rw [Nat.zero_add]
  | succ a ih =>
    rw [Lfo.advanceN, bind_eq_ok] at h
    obtain ⟨r₁, h₁, h⟩ := h
    rw [Nat.succ_add, Lfo.advanceN, h₁, res_ok_bind, ih h]

/-- An increment outside [0,1) is the first advance's fault. -/
theorem Lfo.advanceN_of_inc_outside (m : NumInst) (n : Nat) (hk : 0 < k) (hq : l.inc = some q) (hr : q < 0 ∨ 1 ≤ q) :
    Lfo.advanceN m k n l = .error Trap.incRange := by
  obtain ⟨k, rfl⟩ := Nat.exists_eq_succ_of_ne_zero hk.ne'
  rw [Lfo.advanceN, Lfo.advance_of_inc_outside m n hq hr, res_error_bind]

/-- Skips add up: one that starts where another ended continues it (R175). -/
theorem Lfo.skip_add {a b : Nat} {r r' : Nat × Lfo} (ha : l.skip m a n = .ok r) (hb : r.2.skip m b r.1 = .ok r') :
    l.skip m (a + b) n = .ok r' := by
  rw [Lfo.skip_eq_ok] at ha hb ⊢
  obtain ⟨hset, ha⟩ := ha
  obtain ⟨hset', hb⟩ := hb
  refine ⟨fun hab => ?_, (Lfo.advanceN_add a b ha).trans hb⟩
  rcases Nat.eq_zero_or_pos a with rfl | hpos
  · cases ha
    exact hset' (by omega)
  · exact hset hpos

/-- An LFO.NEXT that runs is one advance but for the latch, with waveform and increment set (R175). -/
theorem Lfo.skip_one_of_next {n' : Nat} {x : Rat} {l' : Lfo} (h : l.next m n = .ok (x, n', l')) :
    l.skip m 1 n = .ok (n', { l' with lastOut := l.lastOut }) := by
  obtain ⟨_, u, _, hu, rfl⟩ := Lfo.next_cases h
  have hset : ¬(l.wave = none ∨ l.inc = none) := fun hn => by
    rw [Lfo.next_of_unset m n hn] at h
    cases h
  rw [Lfo.skip_eq_ok, Lfo.advanceN_one, hu, ← Lfo.advance_lastOut hu]
  exact ⟨fun _ => not_or.1 hset, rfl⟩

end

/-! ### The states LFO.SKIP and LFO.NEXT leave -/

section
variable {s t : State} {v : Fin 8} {i : Fin 2} {l : Lfo}

@[simp] theorem State.setLfo_lfo (s : State) (v : Fin 8) (i : Fin 2) (l : Lfo) :
    (s.setLfo v i l).voices[v].lfo[i] = l := by
  rw [State.setLfo_get, if_pos rfl, Voice.setLfo_get, if_pos rfl]

@[simp] theorem Voice.setLfo_setLfo_same (w : Voice) (i : Fin 2) (l l' : Lfo) :
    (w.setLfo i l).setLfo i l' = w.setLfo i l' := by
  simp [Voice.setLfo]

@[simp] theorem State.setLfo_setLfo (s : State) (v : Fin 8) (i : Fin 2) (l l' : Lfo) :
    (s.setLfo v i l).setLfo v i l' = s.setLfo v i l' := by
  rw [State.setLfo, State.setLfo, State.setVoice_same, Voice.setLfo_setLfo_same, State.setVoice_setVoice, State.setLfo]

/-- `t` is `s` with `r.1` draws taken and the LFO `r.2`, whatever its `pc` and responses are. -/
def State.LeavesLfo (s : State) (v : Fin 8) (i : Fin 2) (r : Nat × Lfo) (t : State) : Prop :=
  ∃ pc responses, t = { s.setLfo v i r.2 with draws := r.1, pc := pc, responses := responses }

theorem State.leavesLfo_of_eq {r : Nat × Lfo} {pc : Nat} {responses : List Response}
    (h : { t with pc := pc, responses := responses } = { s.setLfo v i r.2 with draws := r.1 }) :
    s.LeavesLfo v i r t :=
  ⟨t.pc, t.responses, congrArg (fun u : State => { u with pc := t.pc, responses := t.responses }) h⟩

theorem State.LeavesLfo.registers {r : Nat × Lfo} (h : s.LeavesLfo v i r t) :
    t.num = s.num ∧ t.draws = r.1 ∧ t.voices[v].lfo[i] = r.2 := by
  obtain ⟨_, _, rfl⟩ := h
  exact ⟨rfl, rfl, s.setLfo_lfo v i r.2⟩

theorem State.LeavesLfo.setLfo {n : Nat} (h : s.LeavesLfo v i (n, l) t) (l' : Lfo) :
    s.LeavesLfo v i (n, l') (t.setLfo v i l') := by
  obtain ⟨pc, responses, rfl⟩ := h
  exact ⟨pc, responses, by rw [← s.setLfo_setLfo v i l l']; rfl⟩

theorem State.LeavesLfo.trans {u : State} {r r' : Nat × Lfo} (h : s.LeavesLfo v i r t) (h' : t.LeavesLfo v i r' u) :
    s.LeavesLfo v i r' u := by
  obtain ⟨pc, responses, rfl⟩ := h'
  obtain ⟨_, _, ht⟩ := h.setLfo r'.2
  exact ⟨pc, responses, by rw [ht]⟩

theorem completes_lfoSkip_iff {k : BitVec 32} : Completes (.lfoSkip v i k) s .none t ↔
    ∃ r, s.voices[v].lfo[i].skip s.num k.toNat s.draws = .ok r ∧ s.LeavesLfo v i r t := by
  constructor
  · intro h
    replace h := completes_iff.1 h
    generalize hu : ({ t with pc := s.pc, responses := s.responses } : State) = u at h
    cases h with
    | @lfoSkip _ _ _ _ n l h => exact ⟨(n, l), h, State.leavesLfo_of_eq hu⟩
  · rintro ⟨r, h, _, _, rfl⟩
    exact (Effect.lfoSkip (l := r.2) (n := r.1) h).completes

theorem completes_lfoNext_cases {x : Rat} (h : Completes (.lfoNext v i) s (.num x) t) :
    ∃ n l, s.voices[v].lfo[i].next s.num s.draws = .ok (x, n, l) ∧ s.LeavesLfo v i (n, l) t := by
  replace h := completes_iff.1 h
  generalize hu : ({ t with pc := s.pc, responses := s.responses } : State) = u at h
  cases h with
  | @lfoNext _ _ _ _ n l h => exact ⟨n, l, h, State.leavesLfo_of_eq hu⟩

theorem traps_lfoSkip {k : BitVec 32} {e : Trap} (h : s.voices[v].lfo[i].skip s.num k.toNat s.draws = .error e) :
    Traps (.lfoSkip v i k) s e.code e.info :=
  traps_of_body_error rfl (by rw [countOp, h, res_error_bind])

end

/-! ### In `EXACT`: the phases of the advances add up modulo 1 -/

section
variable {l : Lfo} {q : Rat}

/-- `r` is what advances of `l` after `n` draws can leave: the phase `p`, and other random registers only for a random
waveform. -/
def Lfo.AdvancesTo (l : Lfo) (n : Nat) (p : Rat) (r : Nat × Lfo) : Prop :=
  ∃ held sPrev sTarget,
    r.2 = { l with phase := p, held := held, sPrev := sPrev, sTarget := sTarget } ∧
    (l.wave ≠ some .stepped → l.wave ≠ some .smoothed →
      r.1 = n ∧ held = l.held ∧ sPrev = l.sPrev ∧ sTarget = l.sTarget)

theorem Lfo.AdvancesTo.registers {n : Nat} {p : Rat} {r : Nat × Lfo} (h : l.AdvancesTo n p r) :
    r.2.inc = l.inc ∧ r.2.phase = p := by
  obtain ⟨_, _, _, hl, -⟩ := h
  rw [hl]
  exact ⟨rfl, rfl⟩

theorem Lfo.advancesTo_phase (l : Lfo) (n : Nat) (p : Rat) : l.AdvancesTo n p (n, { l with phase := p }) :=
  ⟨_, _, _, rfl, fun _ _ => ⟨rfl, rfl, rfl, rfl⟩⟩

theorem Lfo.advancesTo_wrap (m : NumInst) (l : Lfo) (n : Nat) (p : Rat) :
    l.AdvancesTo n p (Lfo.wrap m n { l with phase := p }) := by
  by_cases hstep : l.wave = some .stepped
  · rw [Lfo.wrap_stepped m n (l := { l with phase := p }) hstep]
    exact ⟨_, _, _, rfl, fun h => absurd hstep h⟩
  by_cases hsmooth : l.wave = some .smoothed
  · rw [Lfo.wrap_smoothed m n (l := { l with phase := p }) hsmooth]
    exact ⟨_, _, _, rfl, fun _ h => absurd hsmooth h⟩
  rw [Lfo.wrap_other m n (l := { l with phase := p }) hstep hsmooth]
  exact l.advancesTo_phase n p

theorem Lfo.AdvancesTo.trans {n : Nat} {p p' : Rat} {r r' : Nat × Lfo} (h : l.AdvancesTo n p r)
    (h' : r.2.AdvancesTo r.1 p' r') : l.AdvancesTo n p' r' := by
  obtain ⟨held, sPrev, sTarget, hl, hkeep⟩ := h
  obtain ⟨held', sPrev', sTarget', hl', hkeep'⟩ := h'
  rw [hl] at hl' hkeep'
  refine ⟨held', sPrev', sTarget', hl', fun hstep hsmooth => ?_⟩
  obtain ⟨hn, rfl, rfl, rfl⟩ := hkeep hstep hsmooth
  obtain ⟨hn', hrandom⟩ := hkeep' hstep hsmooth
  exact ⟨hn'.trans hn, hrandom⟩

theorem Lfo.advance_exact_fract (n : Nat) (hq : l.inc = some q) (h0 : 0 ≤ q) (h1 : q < 1)
    (hp : 0 ≤ l.phase ∧ l.phase < 1) :
    ∃ r, l.advance .exact n = .ok r ∧ l.AdvancesTo n (Int.fract (l.phase + q)) r := by
  refine ⟨_, Lfo.advance_of_phaseStep n hq (phaseStep_exact_fract hp h0 h1), ?_⟩
  split
  · exact Lfo.advancesTo_wrap .exact l n _
  · exact l.advancesTo_phase n _

theorem Lfo.advanceN_exact_fract (h0 : 0 ≤ q) (h1 : q < 1) (k n : Nat) (l : Lfo) (hq : l.inc = some q)
    (hp : 0 ≤ l.phase ∧ l.phase < 1) :
    ∃ r, Lfo.advanceN .exact k n l = .ok r ∧ l.AdvancesTo n (Int.fract (l.phase + k * q)) r := by
  induction k generalizing n l with
  | zero =>
    refine ⟨_, rfl, ?_⟩
    rw [Nat.cast_zero, zero_mul, add_zero, Int.fract_eq_self.2 hp]
    exact l.advancesTo_phase n l.phase
  | succ k ih =>
    obtain ⟨r₁, hadv, hto⟩ := Lfo.advance_exact_fract n hq h0 h1 hp
    obtain ⟨hinc, hphase⟩ := hto.registers
    obtain ⟨r, hr, hto'⟩ := ih r₁.1 r₁.2 (hinc.trans hq)
      (by rw [hphase]; exact ⟨Int.fract_nonneg _, Int.fract_lt_one _⟩)
    have hsum : l.phase + q + k * q = l.phase + ((k + 1 : Nat) : Rat) * q := by push_cast; ring
    rw [hphase, fract_fract_add, hsum] at hto'
    exact ⟨r, by rw [Lfo.advanceN, hadv, res_ok_bind, hr], hto.trans hto'⟩

end

/-- Settles O29: a skip is its advances, which add up and each of which is an LFO.NEXT without
output and latch. -/
theorem lfoSkipLaws : Obligations.LfoSkipLaws := by
  refine fun s t t₂ v i a b x => ⟨rfl, ?_, fun ha hn => ?_, fun q ha hw hq hr => ?_, fun hab hs ht => ?_,
    fun hn => ?_, fun q hm hw hq h0 h1 hp0 hp1 => ?_⟩
  · rw [completes_lfoSkip_iff]
    exact ⟨_, Lfo.skip_zero .., s.pc, s.responses, (s.setLfo_self v i).symm⟩
  · exact traps_lfoSkip (Lfo.skip_of_unset s.num s.draws ha hn)
  · exact traps_lfoSkip (e := Trap.incRange) (by
      rw [Lfo.skip_of_set _ _ _ hw hq,
        Lfo.advanceN_of_inc_outside _ _ ha hq hr])
  · rw [completes_lfoSkip_iff] at hs ht ⊢
    obtain ⟨r, hr, hleft⟩ := hs
    obtain ⟨r', hr', hleft'⟩ := ht
    obtain ⟨hnum, hdraws, hlfo⟩ := hleft.registers
    rw [hnum, hdraws, hlfo] at hr'
    refine ⟨r', ?_, hleft.trans hleft'⟩
    rw [BitVec.toNat_add_of_lt hab]
    exact Lfo.skip_add hr hr'
  · obtain ⟨n, l, hl, hleft⟩ := completes_lfoNext_cases hn
    obtain ⟨-, -, hlfo⟩ := hleft.registers
    rw [completes_lfoSkip_iff, hlfo]
    exact ⟨_, Lfo.skip_one_of_next hl, hleft.setLfo _⟩
  · obtain ⟨⟨n, l⟩, hr, held, sPrev, sTarget, rfl, hkeep⟩ :=
      Lfo.advanceN_exact_fract h0 h1 a.toNat s.draws s.voices[v].lfo[i] hq ⟨hp0, hp1⟩
    refine ⟨n, held, sPrev, sTarget, completes_lfoSkip_iff.2 ⟨(n, _), ?_, s.pc, s.responses, rfl⟩, hkeep⟩
    rw [Lfo.skip_of_set _ _ _ hw hq, hm, hr]

end Machine

end Sys2Proof
end

section
/-! SUPPORT. The ladder filter (spec/43_ladder_filter.md): its coefficients (R194), its setters and reset (R192, R193,
R195, R196, R202), one sample (R197, R198), the loop of FLT.PROCBUF (R201), and in `EXACT` the bound of its output
(R203). -/

namespace Sys2Proof

/-! ## The word of FLT.PROCBUF (R81) -/

/-- The word of a command with a voice and a 16-bit operand. -/
theorem Fields.word_voice_index (opc : BitVec 8) (v : BitVec 4) (x : BitVec 16) (imm : Imm) :
    (Fields.mk opc v 0 (hiByte x) (loByte x) imm).word = opc ++ v ++ 0#4 ++ x ++ imm := by
  rw [Fields.word]
  apply BitVec.eq_of_getElem_eq
  intro i hi
  simp only [hiByte, loByte, BitVec.getElem_append, BitVec.getElem_extractLsb']
  grind

namespace Machine

/-! ## Coefficients (R194) -/

section
variable {m : NumInst} {f : Flt} {sr : Rat}

theorem Flt.recompute_of_sr_none (m : NumInst) (h : f.sr = none) : Flt.recompute m f = .ok f := by
  rw [Flt.recompute, h]

theorem Flt.recompute_of_sr_some {k₁ k₂ k₃ k₄ k : Rat} (hsr : f.sr = some sr) (h1 : numMul m 4 f.res = .ok k₁)
    (h2 : numMul m k₁ (coefP m f.cutoff sr) = .ok k₂) (h3 : numMul m k₂ (coefP m f.cutoff sr) = .ok k₃)
    (h4 : numMul m k₃ (coefP m f.cutoff sr) = .ok k₄) (hk : numMul m k₄ (coefP m f.cutoff sr) = .ok k) :
    Flt.recompute m f = .ok { f with p := some (coefP m f.cutoff sr), k := some k } := by
  rw [Flt.recompute, hsr]
  simp [h1, h2, h3, h4, hk]

theorem Flt.recompute_exact_of_sr_some (hsr : f.sr = some sr) :
    Flt.recompute .exact f = .ok { f with
      p := some (coefP .exact f.cutoff sr), k := some (4 * f.res * coefP .exact f.cutoff sr ^ 4) } := by
  rw [Flt.recompute_of_sr_some hsr rfl rfl rfl rfl rfl]
  simp only [pow_succ, pow_zero, one_mul, mul_assoc]

/-- The feedback factor of a resonance in [0,1] is below 4. -/
theorem feedback_mem {r p : Rat} (hr0 : 0 ≤ r) (hr1 : r ≤ 1) (hp0 : 0 < p) (hp1 : p < 1) :
    0 ≤ 4 * r * p ^ 4 ∧ 4 * r * p ^ 4 < 4 := by
  refine ⟨by positivity, ?_⟩
  calc 4 * r * p ^ 4 ≤ 4 * 1 * p ^ 4 := by gcongr
    _ < 4 := by linarith [pow_lt_one₀ hp0.le hp1 four_ne_zero]

end

/-- Settles O31: the branches of Recompute, and in `EXACT` the product as a power. -/
theorem filterCoefficients : Obligations.FilterCoefficients := by
  refine ⟨fun m f => ⟨Flt.recompute_of_sr_none m, fun sr k₁ k₂ k₃ k₄ k => Flt.recompute_of_sr_some⟩,
    fun f sr hsr hr0 hr1 => ?_⟩
  obtain ⟨hp0, hp1⟩ := coefP_mem .exact f.cutoff sr
  exact ⟨_, _, Flt.recompute_exact_of_sr_some hsr, rfl, rfl, hp0, hp1, feedback_mem hr0 hr1 hp0 hp1⟩

/-! ## Setters and reset (R192, R193, R195, R196, R202) -/

section
variable {m : NumInst} {f : Flt} {x r top : Rat}

theorem Flt.setSr_of_nonpos (m : NumInst) (imm : Imm) (f : Flt) (h : x ≤ 0) :
    f.setSr m imm x = .error (Trap.srRange imm) := if_pos h

/-- The top cutoff of a positive rate decides. -/
theorem Flt.setSr_of_pos (imm : Imm) (f : Flt) (h : 0 < x) (htop : numMul m (lit m (9 / 20)) x = .ok top) :
    f.setSr m imm x = if top < 20 then .error (Trap.srRange imm)
      else Flt.recompute m { f with sr := some x, cutoff := clamp f.cutoff 20 top } := by
  rw [Flt.setSr, if_neg h.not_ge, htop, res_ok_bind]

theorem Flt.setCut_of_sr_none (m : NumInst) (x : Rat) (h : f.sr = none) : f.setCut m x = .error Trap.unset := by
  rw [Flt.setCut, h, readOpt_none, res_error_bind]

theorem Flt.setCut_of_sr_some (x : Rat) (h : f.sr = some r) (htop : numMul m (lit m (9 / 20)) r = .ok top) :
    f.setCut m x = Flt.recompute m { f with cutoff := clamp x 20 top } := by
  rw [Flt.setCut, h, readOpt_some, res_ok_bind, htop, res_ok_bind]

end

/-- A fault that the rest of a body raises on the value of its operand is the command's. -/
theorem traps_of_value_error {i : Instr} {s : State} {imm : Imm} {f : Rat → Res (Response × State)} {x : Rat}
    {e : Trap} (hi : exec i s = finish s (valueOp imm >>= f)) (hx : f32Value imm = some x)
    (he : f x = .error e) : Traps i s e.code e.info :=
  traps_of_body_error hi (by rw [valueOp_of_some hx, res_ok_bind, he])

/-- Settles O32: each command is its register operation, whose branches are the clauses. -/
theorem filterSetters : Obligations.FilterSetters := by
  refine fun s v imm => ⟨⟨rfl, rfl, rfl, rfl, rfl⟩,
    fun hx => ⟨traps_badOperand_of_body rfl hx, traps_badOperand_of_body rfl hx, traps_badOperand_of_body rfl hx,
      traps_badOperand_of_body rfl hx⟩,
    fun x hx => ⟨fun h0 => ?_, fun top h0 htop hlt => ?_, fun top f' h0 htop hge hf => ?_, fun hs => ?_,
      fun r top f' hs htop hf => ?_, fun f' hf => (Effect.fltSetres hx hf).completes,
      (Effect.fltSetdrv hx).completes⟩,
    Effect.fltReset.completes⟩
  · exact traps_of_value_error (e := Trap.srRange imm) rfl hx (by rw [Flt.setSr_of_nonpos _ _ _ h0, res_error_bind])
  · exact traps_of_value_error (e := Trap.srRange imm) rfl hx
      (by rw [Flt.setSr_of_pos _ _ h0 htop, if_pos hlt, res_error_bind])
  · exact (Effect.fltSetsr hx (((Flt.setSr_of_pos imm _ h0 htop).trans (if_neg hge.not_gt)).trans hf)).completes
  · exact traps_of_value_error (e := Trap.unset) rfl hx (by rw [Flt.setCut_of_sr_none _ _ hs, res_error_bind])
  · exact (Effect.fltSetcut hx ((Flt.setCut_of_sr_some x hs htop).trans hf)).completes

/-! ## One sample (R197, R198) -/

/-- The outputs of the four stages. -/
def Flt.stages (f : Flt) : Rat × Rat × Rat × Rat := (f.y1, f.y2, f.y3, f.y4)

section
variable {m : NumInst} {f : Flt} {p k drive x : Rat}

theorem ladderStage_of_eq {y d e r : Rat} (hd : numSub m x y = .ok d) (he : numMul m p d = .ok e)
    (hr : numAdd m y e = .ok r) : ladderStage m p x y = .ok r := by
  rw [ladderStage, hd, res_ok_bind, he, res_ok_bind, hr]

theorem Flt.sample_of_unset (m : NumInst) (x : Rat) (h : f.p = none ∨ f.drive = none) :
    f.sample m x = .error Trap.unset := by
  rcases h with h | h
  · rw [Flt.sample, h, readOpt_none, res_error_bind]
  · cases hp : f.p <;> simp [Flt.sample, h, hp]

theorem Flt.sample_of_set {driven fb x' y₁ y₂ y₃ y₄ : Rat} (hp : f.p = some p) (hk : f.k = some k)
    (hd : f.drive = some drive) (hdriven : numMul m drive x = .ok driven) (hfb : numMul m k f.y4 = .ok fb)
    (hx : numSub m (tanhFn m driven) fb = .ok x') (h1 : ladderStage m p x' f.y1 = .ok y₁)
    (h2 : ladderStage m p y₁ f.y2 = .ok y₂) (h3 : ladderStage m p y₂ f.y3 = .ok y₃)
    (h4 : ladderStage m p y₃ f.y4 = .ok y₄) :
    f.sample m x = .ok (y₄, { f with
      y1 := y₁, y2 := y₂, y3 := y₃, y4 := y₄, h1 := tanhFn m driven, h2 := x' }) := by
  simp only [Flt.sample, hp, hk, hd, readOpt_some, res_ok_bind, hdriven, hfb, hx, h1, h2, h3, h4]

/-- In `EXACT` a sample is the linear loop (R200) on the driven input, and leaves the coefficients and the drive. -/
theorem Flt.sample_exact (hp : f.p = some p) (hk : f.k = some k) (hd : f.drive = some drive) (x : Rat) :
    ∃ y f', f.sample .exact x = .ok (y, f') ∧ y = f'.stages.2.2.2 ∧ f'.p = f.p ∧ f'.k = f.k ∧ f'.drive = f.drive ∧
      f'.stages = ladderLinear p k (tanhFn .exact (drive * x)) f.stages :=
  ⟨_, _, Flt.sample_of_set hp hk hd rfl rfl rfl rfl rfl rfl rfl, rfl, rfl, rfl, rfl, rfl⟩

end

/-- Settles O33: the command is FilterStep, which reads its registers and then runs its operations in order. -/
theorem filterSample : Obligations.FilterSample := by
  refine ⟨fun m p x y d e r => ladderStage_of_eq, fun s v imm => ⟨rfl, traps_badOperand_of_body rfl, fun x hx =>
    ⟨fun h => ?_, fun p k drive driven fb x' y₁ y₂ y₃ y₄ hp hk hd hdriven hfb hx' h1 h2 h3 h4 => ?_,
      fun hm hp hk hd => ?_⟩⟩⟩
  · exact traps_of_value_error (e := Trap.unset) rfl hx (by rw [Flt.sample_of_unset _ _ h, res_error_bind])
  · exact (Effect.fltProc1 hx (Flt.sample_of_set hp hk hd hdriven hfb hx' h1 h2 h3 h4)).completes
  · obtain ⟨p, hp⟩ := Option.isSome_iff_exists.1 hp
    obtain ⟨k, hk⟩ := Option.isSome_iff_exists.1 hk
    obtain ⟨d, hd⟩ := Option.isSome_iff_exists.1 hd
    obtain ⟨y, f', hf', -⟩ := Flt.sample_exact hp hk hd x
    exact ⟨y, f', (Effect.fltProc1 hx (by rw [hm, hf'])).completes⟩

/-! ## The loop of FLT.PROCBUF (R201) -/

section
variable {m : NumInst} {len : Option (Fin 65536)} {n i : Nat} {f : Flt} {b : Memory}

theorem Flt.process_of_unset (len : Option (Fin 65536)) (i : Nat) (b : Memory) (hn : 0 < n)
    (h : f.p = none ∨ f.drive = none) : f.process m len i n b = .error Trap.unset := if_pos ⟨hn, h⟩

theorem Flt.process_of_set (m : NumInst) (len : Option (Fin 65536)) (n i : Nat) (b : Memory)
    (h : ¬(f.p = none ∨ f.drive = none)) : f.process m len i n b = Flt.processFrom m len n i f b :=
  if_neg fun hu => h hu.2

/-- A FLT.PROCBUF that runs is its loop, with coefficient and drive set if there are any elements. -/
theorem Flt.process_eq_ok {r : Flt × Memory} : f.process m len i n b = .ok r ↔
    (0 < n → ¬(f.p = none ∨ f.drive = none)) ∧ Flt.processFrom m len n i f b = .ok r := by
  rw [Flt.process]
  split_ifs with h
  · exact iff_of_false nofun fun hs => hs.1 h.1 h.2
  · exact (and_iff_right fun hn hu => h ⟨hn, hu⟩).symm

/-- A sample that runs has found coefficient and drive set. -/
theorem Flt.set_of_sample {x : Rat} {r : Rat × Flt} (h : f.sample m x = .ok r) : ¬(f.p = none ∨ f.drive = none) :=
  fun hu => by
    rw [Flt.sample_of_unset m x hu] at h
    cases h

/-- The loop filters the element it stands at, stores it back and goes on. -/
theorem Flt.processFrom_step {k : Fin 65536} {x y : Rat} {f' : Flt} (n : Nat) (hi : i < k.val)
    (hx : Memory.get b i = some x) (hf : f.sample m x = .ok (y, f')) :
    Flt.processFrom m (some k) (n + 1) i f b =
      Flt.processFrom m (some k) n (i + 1) f' (Memory.put b i y) := by
  rw [Flt.processFrom, bufRead_within b hi, hx, readOpt_some, res_ok_bind, hf, res_ok_bind, bufWrite_within b y hi,
    res_ok_bind]

/-- A loop whose first element cannot be read faults with it. -/
theorem Flt.processFrom_of_bufRead_error {e : Trap} (hn : 0 < n) (h : bufRead len b i = .error e) :
    Flt.processFrom m len n i f b = .error e := by
  obtain ⟨n, rfl⟩ := Nat.exists_eq_succ_of_ne_zero hn.ne'
  rw [Flt.processFrom, h, res_error_bind]

/-- The loop over `a + b` elements is that over `a` and then that over `b`, faults included. -/
theorem Flt.processFrom_add (m : NumInst) (len : Option (Fin 65536)) (a b i : Nat) (f : Flt) (c : Memory) :
    Flt.processFrom m len (a + b) i f c =
      (Flt.processFrom m len a i f c >>= fun r => Flt.processFrom m len b (i + a) r.1 r.2) := by
  induction a generalizing i f c with
  | zero => rw [Nat.zero_add]; rfl
  | succ a ih =>
    rw [Nat.succ_add, Flt.processFrom, Flt.processFrom]
    simp only [bind_assoc]
    refine bind_congr fun _ => bind_congr fun _ => bind_congr fun _ => ?_
    rw [ih, Nat.succ_add_eq_add_succ]

/-- Loops add up: one that starts where another ended continues it. -/
theorem Flt.process_add {a n : Nat} {r r' : Flt × Memory} (ha : f.process m len i a b = .ok r)
    (hn : r.1.process m len (i + a) n r.2 = .ok r') : f.process m len i (a + n) b = .ok r' := by
  rw [Flt.process_eq_ok] at ha hn ⊢
  obtain ⟨hset, ha⟩ := ha
  obtain ⟨hset', hn⟩ := hn
  refine ⟨fun hpos => ?_, by rw [Flt.processFrom_add, ha, res_ok_bind, hn]⟩
  rcases Nat.eq_zero_or_pos a with rfl | ha0
  · cases ha
    exact hset' (by omega)
  · exact hset ha0

end

/-! ### The loop in `EXACT` -/

section
variable {k : Fin 65536} {n i : Nat} {f : Flt} {b : Memory}

/-- Coefficients and drive hold values. -/
def Flt.Ready (f : Flt) : Prop := f.p.isSome ∧ f.k.isSome ∧ f.drive.isSome

theorem Flt.Ready.not_unset (h : f.Ready) : ¬(f.p = none ∨ f.drive = none) := by
  obtain ⟨hp, -, hd⟩ := h
  exact not_or.2 ⟨Option.isSome_iff_ne_none.1 hp, Option.isSome_iff_ne_none.1 hd⟩

theorem Flt.Ready.sample (h : f.Ready) (x : Rat) : ∃ y f', f.sample .exact x = .ok (y, f') ∧ f'.Ready := by
  have ⟨hp, hk, hd⟩ := h
  obtain ⟨p, hp⟩ := Option.isSome_iff_exists.1 hp
  obtain ⟨c, hk⟩ := Option.isSome_iff_exists.1 hk
  obtain ⟨d, hd⟩ := Option.isSome_iff_exists.1 hd
  obtain ⟨y, f', hf', -, hp', hk', hd', -⟩ := Flt.sample_exact hp hk hd x
  exact ⟨y, f', hf', by rwa [Flt.Ready, hp', hk', hd']⟩

/-- The elements of the range that lie in the buffer hold values. -/
def ElementsSet (k : Fin 65536) (b : Memory) (i n : Nat) : Prop :=
  ∀ j, i ≤ j → j < i + n → j < k.val → (Memory.get b j).isSome

theorem ElementsSet.head (h : ElementsSet k b i (n + 1)) (hi : i < k.val) : ∃ x, Memory.get b i = some x :=
  Option.isSome_iff_exists.1 (h i le_rfl (by omega) hi)

theorem ElementsSet.tail (h : ElementsSet k b i (n + 1)) (y : Rat) : ElementsSet k (Memory.put b i y) (i + 1) n := by
  intro j hij hjn hjk
  rw [Memory.get_put_other b y (by omega)]
  exact h j (by omega) (by omega) hjk

/-- One element of a ready filter's loop. -/
theorem Flt.Ready.processFrom_step (hf : f.Ready) (hb : ElementsSet k b i (n + 1)) (hi : i < k.val) :
    ∃ f' b', f'.Ready ∧ ElementsSet k b' (i + 1) n ∧
      Flt.processFrom .exact (some k) (n + 1) i f b = Flt.processFrom .exact (some k) n (i + 1) f' b' := by
  obtain ⟨x, hx⟩ := hb.head hi
  obtain ⟨y, f', hs, hf'⟩ := hf.sample x
  exact ⟨f', _, hf', hb.tail y, Flt.processFrom_step n hi hx hs⟩

theorem Flt.Ready.processFrom_within (hf : f.Ready) (hb : ElementsSet k b i n) (hin : i + n ≤ k.val) :
    ∃ r, Flt.processFrom .exact (some k) n i f b = .ok r := by
  induction n generalizing i f b with
  | zero => exact ⟨_, rfl⟩
  | succ n ih =>
    obtain ⟨f', b', hf', hb', hstep⟩ := hf.processFrom_step hb (by omega)
    rw [hstep]
    exact ih hf' hb' (by omega)

/-- A range that reaches beyond the buffer faults at the first index out of it. -/
theorem Flt.Ready.processFrom_beyond (hf : f.Ready) (hb : ElementsSet k b i n) (hn : 0 < n) (hin : k.val < i + n) :
    Flt.processFrom .exact (some k) n i f b = .error (Trap.bufRange (max i k.val)) := by
  induction n generalizing i f b with
  | zero => omega
  | succ n ih =>
    rcases Nat.lt_or_ge i k.val with hi | hi
    · obtain ⟨f', b', hf', hb', hstep⟩ := hf.processFrom_step hb hi
      rw [hstep, ih hf' hb' (by omega) (by omega), Nat.max_eq_right hi, Nat.max_eq_right hi.le]
    · rw [Nat.max_eq_left hi]
      exact Flt.processFrom_of_bufRead_error hn (bufRead_beyond b hi)

end

/-! ### The states FLT.PROCBUF leaves -/

section
variable {s t : State} {v : Fin 8} {r : Flt × Memory}

@[simp] theorem State.setFlt_flt (s : State) (v : Fin 8) (f : Flt) : (s.setFlt v f).voices[v].flt = f := by
  rw [State.setFlt_get, if_pos rfl]

@[simp] theorem State.setFlt_setFlt (s : State) (v : Fin 8) (f f' : Flt) :
    (s.setFlt v f).setFlt v f' = s.setFlt v f' := by
  rw [State.setFlt, State.setFlt, State.setVoice_same, State.setVoice_setVoice, State.setFlt]

/-- `t` is `s` with the filter `r.1` and the buffer `r.2`, whatever its `pc` and responses are. -/
def State.LeavesFlt (s : State) (v : Fin 8) (r : Flt × Memory) (t : State) : Prop :=
  ∃ pc responses, t = { s.setFlt v r.1 with buf := r.2, pc := pc, responses := responses }

theorem State.LeavesFlt.registers (h : s.LeavesFlt v r t) :
    t.num = s.num ∧ t.bufLen = s.bufLen ∧ t.buf = r.2 ∧ t.voices[v].flt = r.1 := by
  obtain ⟨_, _, rfl⟩ := h
  exact ⟨rfl, rfl, rfl, s.setFlt_flt v r.1⟩

theorem State.LeavesFlt.trans {u : State} {r' : Flt × Memory} (h : s.LeavesFlt v r t) (h' : t.LeavesFlt v r' u) :
    s.LeavesFlt v r' u := by
  obtain ⟨_, _, rfl⟩ := h
  obtain ⟨pc, responses, rfl⟩ := h'
  exact ⟨pc, responses, by rw [← s.setFlt_setFlt v r.1 r'.1]; rfl⟩

theorem completes_fltProcbuf_iff {start : BitVec 16} {n : BitVec 32} : Completes (.fltProcbuf v start n) s .none t ↔
    ∃ r, s.voices[v].flt.process s.num s.bufLen start.toNat n.toNat s.buf = .ok r ∧ s.LeavesFlt v r t := by
  constructor
  · intro h
    replace h := completes_iff.1 h
    generalize hu : ({ t with pc := s.pc, responses := s.responses } : State) = u at h
    cases h with
    | @fltProcbuf _ _ _ _ f b h =>
      exact ⟨(f, b), h, t.pc, t.responses,
        congrArg (fun u : State => { u with pc := t.pc, responses := t.responses }) hu⟩
  · rintro ⟨r, h, _, _, rfl⟩
    exact (Effect.fltProcbuf (f := r.1) (b := r.2) h).completes

theorem traps_fltProcbuf {start : BitVec 16} {n : BitVec 32} {e : Trap}
    (h : s.voices[v].flt.process s.num s.bufLen start.toNat n.toNat s.buf = .error e) :
    Traps (.fltProcbuf v start n) s e.code e.info :=
  traps_of_body_error rfl (by rw [indexOp, countOp, h, res_error_bind])

end

/-- Settles O34: the command is its loop, which adds up, and in `EXACT` runs as far as the buffer reaches. -/
theorem filterBuffer : Obligations.FilterBuffer := by
  refine fun s t t₂ v start a b n => ⟨Fields.word_voice_index _ _ start n, ?_, fun hn h => ?_,
    fun len x y f' hlen hi hx hf => ?_, fun hstart hab hs ht => ?_,
    fun hm hp hk hd => ?_⟩
  · exact completes_fltProcbuf_iff.2 ⟨_, rfl, s.pc, s.responses, by rw [State.setFlt_self]⟩
  · exact traps_fltProcbuf (Flt.process_of_unset _ _ _ hn h)
  · refine ⟨Memory.put s.buf start.toNat y, ?_, Memory.put_stored _ _ _⟩
    refine (Effect.fltProcbuf ?_).completes
    rw [Flt.process_of_set _ _ _ _ _ (Flt.set_of_sample hf), hlen]
    exact Flt.processFrom_step 0 hi hx hf
  · rw [completes_fltProcbuf_iff] at hs ht ⊢
    obtain ⟨r, hr, hleft⟩ := hs
    obtain ⟨r', hr', hleft'⟩ := ht
    obtain ⟨hnum, hlen, hbuf, hflt⟩ := hleft.registers
    have hidx : (start + a.setWidth 16).toNat = start.toNat + a.toNat := by
      rw [BitVec.toNat_add_of_lt] <;> rw [BitVec.toNat_setWidth, Nat.mod_eq_of_lt (by omega)]
      exact hstart
    rw [hnum, hlen, hbuf, hflt, hidx] at hr'
    refine ⟨r', ?_, hleft.trans hleft'⟩
    rw [BitVec.toNat_add_of_lt hab]
    exact Flt.process_add hr hr'
  · have hf : Flt.Ready s.voices[v].flt := ⟨hp, hk, hd⟩
    have hloop := fun len => Flt.process_of_set .exact len n.toNat start.toNat s.buf hf.not_unset
    refine ⟨fun len hlen hset => ⟨fun hin => ?_, fun hn hout => ?_⟩, fun hn hlen => ?_⟩
    · obtain ⟨⟨f', b'⟩, hr⟩ := hf.processFrom_within hset hin
      rw [← hloop, ← hm, ← hlen] at hr
      exact ⟨f', b', (Effect.fltProcbuf hr).completes, (Flt.process_buf hr).2⟩
    · exact traps_fltProcbuf (e := Trap.bufRange _)
        (by rw [hm, hlen, hloop, hf.processFrom_beyond hset hn hout])
    · exact traps_fltProcbuf (e := Trap.unset)
        (by rw [hm, hlen, hloop, Flt.processFrom_of_bufRead_error hn (bufRead_none _ _)])

/-! ## The bound of the output (R203), in `EXACT`

The stages after any inputs are a sum of delayed impulse responses, each weighted by its driven sample. -/

section
variable {p k g : Rat} {us : List Rat}

/-- The loop without input (R200), as the linear map it is. -/
def ladderLoop (p k : Rat) : (Rat × Rat × Rat × Rat) →ₗ[Rat] (Rat × Rat × Rat × Rat) where
  toFun := ladderLinear p k 0
  map_add' y z := by
    simp only [ladderLinear, Prod.fst_add, Prod.snd_add, Prod.mk_add_mk, Prod.mk.injEq]
    refine ⟨?_, ?_, ?_, ?_⟩ <;> ring
  map_smul' c y := by
    simp only [ladderLinear, Prod.smul_fst, Prod.smul_snd, smul_eq_mul, Prod.smul_mk, RingHom.id_apply, Prod.mk.injEq]
    refine ⟨?_, ?_, ?_, ?_⟩ <;> ring

theorem ladderImpulse_eq_loop (p k : Rat) (n : Nat) :
    ladderImpulse p k n = ((ladderLoop p k ^ n) (ladderLinear p k 1 0)).2.2.2 := by
  rw [Module.End.pow_apply]
  rfl

/-- The loop's output is that of its input from rest and that of its history without input. -/
theorem ladderLinear_eq_add (p k u : Rat) (y : Rat × Rat × Rat × Rat) :
    ladderLinear p k u y = u • ladderLinear p k 1 0 + ladderLoop p k y := by
  change _ = u • ladderLinear p k 1 0 + ladderLinear p k 0 y
  simp only [ladderLinear, Prod.fst_zero, Prod.snd_zero, Prod.smul_mk, smul_eq_mul, Prod.mk_add_mk, Prod.mk.injEq]
  refine ⟨?_, ?_, ?_, ?_⟩ <;> ring

/-- The stages after the driven samples `us`, the last one first, from history 0. -/
def stagesAfter (p k : Rat) : List Rat → Rat × Rat × Rat × Rat
  | [] => 0
  | u :: us => ladderLinear p k u (stagesAfter p k us)

/-- `m` samples later a driven sample is weighted by the impulse response at `m`. -/
theorem loop_stagesAfter_cons (p k u : Rat) (us : List Rat) (m : Nat) :
    ((ladderLoop p k ^ m) (stagesAfter p k (u :: us))).2.2.2 =
      u * ladderImpulse p k m + ((ladderLoop p k ^ (m + 1)) (stagesAfter p k us)).2.2.2 := by
  rw [stagesAfter, ladderLinear_eq_add, map_add, map_smul, pow_succ, Module.End.mul_apply, ladderImpulse_eq_loop]
  rfl

/-- The absolute sum of `n` samples of the impulse response, from sample `m`. -/
def impulseSum (p k : Rat) (m n : Nat) : Rat := ((List.range' m n).map fun j => absQ (ladderImpulse p k j)).sum

theorem impulseSum_succ (p k : Rat) (m n : Nat) :
    impulseSum p k m (n + 1) = |ladderImpulse p k m| + impulseSum p k (m + 1) n := by
  rw [impulseSum, List.range'_succ, List.map_cons, List.sum_cons, absQ_eq_abs, impulseSum]

theorem LadderGainAtMost.impulseSum_le (h : LadderGainAtMost p k g) (n : Nat) : impulseSum p k 0 n ≤ g := by
  rw [impulseSum, ← List.range_eq_range']
  exact h n

theorem abs_loop_stagesAfter_le (hu : ∀ u ∈ us, |u| < 1) (m : Nat) :
    |((ladderLoop p k ^ m) (stagesAfter p k us)).2.2.2| ≤ impulseSum p k m us.length := by
  induction us generalizing m with
  | nil => simp [stagesAfter, impulseSum]
  | cons u us ih =>
    obtain ⟨hu, hus⟩ := List.forall_mem_cons.1 hu
    rw [loop_stagesAfter_cons, List.length_cons, impulseSum_succ]
    refine (abs_add_le _ _).trans (add_le_add ?_ (ih hus (m + 1)))
    rw [abs_mul]
    exact mul_le_of_le_one_left (abs_nonneg _) hu.le

/-- The last driven sample reaches the output by `p⁴`, so that the bound is strict. -/
theorem abs_stagesAfter_lt (hp : 0 < p) (hg : LadderGainAtMost p k g) {u : Rat} (hu : |u| < 1)
    (hus : ∀ u ∈ us, |u| < 1) : |(stagesAfter p k (u :: us)).2.2.2| < g := by
  have h0 : 0 < |ladderImpulse p k 0| := by
    have : ladderImpulse p k 0 = p * (p * (p * p)) := by simp [ladderImpulse, ladderLinear]
    rw [this]
    positivity
  have hsum := hg.impulseSum_le (us.length + 1)
  rw [impulseSum_succ] at hsum
  have hsplit := loop_stagesAfter_cons p k u us 0
  rw [pow_zero, Module.End.one_apply] at hsplit
  rw [hsplit]
  refine (abs_add_le _ _).trans_lt ((add_lt_add_of_lt_of_le ?_ (abs_loop_stagesAfter_le hus 1)).trans_le hsum)
  rw [abs_mul]
  exact mul_lt_of_lt_one_left h0 hu

/-- The filter completes on every list of inputs, and each output is below the gain of its loop. -/
theorem Flt.outputs_bounded {drive : Rat} (hp0 : 0 < p) (hg : LadderGainAtMost p k g) (xs : List Rat) {f : Flt}
    (hp : f.p = some p) (hk : f.k = some k) (hd : f.drive = some drive) (hus : ∀ u ∈ us, |u| < 1)
    (hf : f.stages = stagesAfter p k us) :
    ∃ ys, Flt.outputs .exact xs f = .ok ys ∧ ys.length = xs.length ∧ ∀ y ∈ ys, |y| < g := by
  induction xs generalizing f us with
  | nil => exact ⟨[], rfl, rfl, nofun⟩
  | cons x xs ih =>
    obtain ⟨_, f', hs, rfl, hp', hk', hd', hf'⟩ := Flt.sample_exact hp hk hd x
    rw [hf] at hf'
    have hu : |tanhFn .exact (drive * x)| < 1 := abs_lt.2 (tanhFn_mem .exact (drive * x))
    obtain ⟨ys, hys, hlen, hlt⟩ := ih (hp'.trans hp) (hk'.trans hk) (hd'.trans hd)
      (List.forall_mem_cons.2 ⟨hu, hus⟩) hf'
    have hy : |f'.stages.2.2.2| < g := by
      rw [hf']
      exact abs_stagesAfter_lt hp0 hg hu hus
    refine ⟨_ :: ys, ?_, congrArg Nat.succ hlen, List.forall_mem_cons.2 ⟨hy, hlt⟩⟩
    rw [Flt.outputs, hs, res_ok_bind, hys, res_ok_bind]

end

/-- Settles O35: the outputs are below the gain of the loop; derived coefficients have the gain of `LADDER_STABLE`. -/
theorem filterOutputIsBounded : Obligations.FilterOutputIsBounded := by
  refine ⟨fun p k g drive f hp0 hg hp hk hd h1 h2 h3 h4 xs => ?_,
    fun fs drive f hf hsr hc20 hctop hr0 hr1 hd h1 h2 h3 h4 xs => ?_⟩
  · exact Flt.outputs_bounded (us := []) hp0 hg xs hp hk hd nofun (by rw [Flt.stages, h1, h2, h3, h4]; rfl)
  · have hderived := Except.ok.inj ((Flt.recompute_exact_of_sr_some hsr).symm.trans hf)
    exact Flt.outputs_bounded (us := []) (coefP_mem .exact f.cutoff fs).1 (coefP_stable .exact hc20 hctop f.res hr0 hr1)
      xs (congrArg Flt.p hderived).symm (congrArg Flt.k hderived).symm hd nofun
      (by rw [Flt.stages, h1, h2, h3, h4]; rfl)

end Machine

end Sys2Proof
end

section
/-! SUPPORT. The ModulationRouter (spec/44_mod_router.md): words whose codes name no source or destination (R88), the
connection matrix (R222 to R225), bases, scalars and registrations (R226, R227, R234, R235), and the evaluation of the
destinations (R228 to R232). -/

namespace Sys2Proof

/-! ## Words with a code that names nothing (R88) -/

section
variable {α β : Type} (f : Fields) {decA : BitVec 8 → Option α} {decB : BitVec 8 → Option β}

theorem Fields.fmtAV_none (k : α → Imm → Instr) (h : decA f.a = none) : f.fmtAV decA k = none := by
  rw [← Option.not_isSome_iff_eq_none, Fields.fmtAV_isSome, h]
  simp

theorem Fields.fmtBV_none (k : β → Imm → Instr) (h : decB f.b = none) : f.fmtBV decB k = none := by
  rw [← Option.not_isSome_iff_eq_none, Fields.fmtBV_isSome, h]
  simp

theorem Fields.fmtB_none (k : β → Instr) (h : decB f.b = none) : f.fmtB decB k = none := by
  rw [← Option.not_isSome_iff_eq_none, Fields.fmtB_isSome, h]
  simp

theorem Fields.fmtAB_none (k : α → β → Instr) (h : decA f.a = none ∨ decB f.b = none) :
    f.fmtAB decA decB k = none := by
  rw [← Option.not_isSome_iff_eq_none, Fields.fmtAB_isSome]
  rcases h with h | h <;> simp [h]

theorem Fields.fmtABV_none (k : α → β → Imm → Instr) (h : decA f.a = none ∨ decB f.b = none) :
    f.fmtABV decA decB k = none := by
  rw [← Option.not_isSome_iff_eq_none, Fields.fmtABV_isSome]
  rcases h with h | h <;> simp [h]

end

section
variable {c : BitVec 8}

theorem Source.ofCode_of_gt (h : 7 < c.toNat) : Source.ofCode c = none := by
  refine ofCode_none source_ofCode (fun s => ?_) h
  cases s with
  | obj o => cases o <;> decide
  | scalar k => cases k <;> decide

theorem Dest.ofCode_of_gt (h : 4 < c.toNat) : Dest.ofCode c = none :=
  ofCode_none dest_ofCode (fun d => by cases d <;> decide) h

theorem ObjSource.ofCode_of_gt (h : 3 < c.toNat) : ObjSource.ofCode c = none :=
  ofCode_none objSource_ofCode (fun o => by cases o <;> decide) h

theorem boolOfCode_of_gt (h : 1 < c.toNat) : boolOfCode c = none :=
  ofCode_none bool_ofCode (fun b => by cases b <;> decide) h

/-- The scalar sources have the codes 4 to 7, so that a code below them names none either. -/
theorem ScalarSource.ofCode_of_outside (h : c.toNat < 4 ∨ 7 < c.toNat) : ScalarSource.ofCode c = none := by
  rw [Option.eq_none_iff_forall_ne_some]
  intro k hk
  rw [scalarSource_ofCode] at hk
  subst hk
  cases k <;> revert h <;> decide

theorem source_or_dest_none {a b : BitVec 8} (h : 7 < a.toNat ∨ 4 < b.toNat) :
    Source.ofCode a = none ∨ Dest.ofCode b = none := h.imp Source.ofCode_of_gt Dest.ofCode_of_gt

theorem objSource_or_bool_none {a b : BitVec 8} (h : 3 < a.toNat ∨ 1 < b.toNat) :
    ObjSource.ofCode a = none ∨ boolOfCode b = none := h.imp ObjSource.ofCode_of_gt boolOfCode_of_gt

end

namespace Machine

theorem decode_cmdWord_of_legal_none {opc : BitVec 8} {voice inst : Nat} {a b : BitVec 8} {imm : Imm}
    (h : ∀ v i, (Fields.mk opc v i a b imm).legal = none) :
    decode (cmdWord opc voice inst a b imm) = .error .illegalCmd := by
  rw [cmdWord_eq_word]
  exact Fields.decode_word_of_legal_none _ (h _ _)

/-! ## Connections (R222 to R225) -/

/-- Settles O36: each command is one update of the matrix, and MOD.HAS asks for one cell. -/
theorem routerConnections : Obligations.RouterConnections := by
  refine fun s v src d imm => ⟨rfl, rfl, rfl, rfl, fun a b h => ?_, traps_badOperand_of_body rfl,
    fun x hx => ⟨_, (Effect.modAdd hx).completes, fun s' d' => Router.cell_setConn _ src s' d d' (some x)⟩,
    ⟨_, Effect.modRemove.completes, fun s' d' => Router.cell_setConn _ src s' d d' none⟩,
    ⟨_, Effect.modClear.completes, fun s' d' => Router.cell_clear _ s' d'⟩, Effect.modHas.completes⟩
  have hcode := source_or_dest_none h
  exact ⟨decode_cmdWord_of_legal_none fun _ _ => Fields.onVoice_none _ _ fun _ => Fields.fmtABV_none _ _ hcode,
    decode_cmdWord_of_legal_none fun _ _ => Fields.onVoice_none _ _ fun _ => Fields.fmtAB_none _ _ hcode,
    decode_cmdWord_of_legal_none fun _ _ => Fields.onVoice_none _ _ fun _ => Fields.fmtAB_none _ _ hcode⟩

/-! ## Bases, scalars, registrations (R226, R227, R234, R235) -/

/-- MOD.SETSCALAR stores its value, clamped for velocity and mod wheel (R234). -/
theorem Router.putScalar_eq (r : Router) (c : ScalarSource) (x : Rat) :
    r.putScalar c x = r.setScalar c (if c = .velocity ∨ c = .modwheel then clamp x 0 1 else x) := by
  cases c <;> rfl

/-- Settles O37: each command is one update of a register array, and MOD.GETDEST reads one place. -/
theorem routerValues : Obligations.RouterValues := by
  refine fun s v d c o b imm => ⟨rfl, rfl, rfl, rfl, fun e he => ?_, fun a ha => ?_, fun a e h => ?_,
    fun hx => ⟨traps_badOperand_of_body rfl hx, traps_badOperand_of_body rfl hx⟩,
    fun x hx => ⟨⟨_, (Effect.modSetbase hx).completes, fun d' => Router.base_setBase _ d d' x⟩, ?_⟩,
    ⟨_, Effect.modRegister.completes, fun o' => Router.registered_setRegistered _ o o' b⟩, fun h => ?_,
    fun x h => (Effect.modGetdest h).completes⟩
  · have hd := Dest.ofCode_of_gt he
    exact ⟨decode_cmdWord_of_legal_none fun _ _ => Fields.onVoice_none _ _ fun _ => Fields.fmtBV_none _ _ hd,
      decode_cmdWord_of_legal_none fun _ _ => Fields.onVoice_none _ _ fun _ => Fields.fmtB_none _ _ hd⟩
  · exact decode_cmdWord_of_legal_none fun _ _ => Fields.onVoice_none _ _ fun _ =>
      Fields.fmtAV_none _ _ (ScalarSource.ofCode_of_outside ha)
  · exact decode_cmdWord_of_legal_none fun _ _ => Fields.onVoice_none _ _ fun _ =>
      Fields.fmtAB_none _ _ (objSource_or_bool_none h)
  · have hput := (Effect.modSetscalar (v := v) (c := c) (s := s) hx).completes
    rw [Router.putScalar_eq] at hput
    exact ⟨_, hput, fun c' => Router.scalar_setScalar _ c c' _⟩
  · exact traps_of_body_error (e := Trap.unset) rfl (by rw [h, readOpt_none, res_error_bind])

/-! ## The sum of one destination (R229, R231) -/

/-- One addition of `Evaluate()` (R229): the connection from `src` into `d`, if there is one. -/
def Voice.addSource (m : NumInst) (w : Voice) (d : Dest) (acc : Rat) (src : Source) : Res Rat :=
  match w.router.cell src d with
  | none => .ok acc
  | some amount => do
    let t ← numMul m (w.sourceValue src) amount
    numAdd m acc t

/-- What a source adds to a destination in `EXACT` (R231). -/
def Voice.contribution (w : Voice) (d : Dest) (src : Source) : Rat :=
  match w.router.cell src d with
  | none => 0
  | some amount => w.sourceValue src * amount

section
variable (m : NumInst) (w : Voice) (d : Dest)

theorem Voice.sumInto_cons (src : Source) (srcs : List Source) (acc : Rat) :
    w.sumInto m d (src :: srcs) acc = w.addSource m d acc src >>= w.sumInto m d srcs := by
  rw [Voice.sumInto, Voice.addSource, Router.cell]
  cases (w.router.conn[src.idx])[d.idx] with
  | none => rfl
  | some amount => exact (bind_assoc _ _ _).symm

theorem Voice.sumInto_eq_foldlM (srcs : List Source) (acc : Rat) :
    w.sumInto m d srcs acc = srcs.foldlM (w.addSource m d) acc := by
  induction srcs generalizing acc with
  | nil => rfl
  | cons src rest ih =>
    rw [Voice.sumInto_cons, List.foldlM_cons]
    exact congrArg _ (funext ih)

theorem Voice.evalDest_of_base_some {base : Rat} (h : w.router.base[d.idx] = some base) :
    w.evalDest m d = (do
      let acc ← allSources.foldlM (w.addSource m d) base
      .ok (some (clamp acc (Dest.lo d) (Dest.hi d)))) := by
  rw [Voice.evalDest, h, ← Voice.sumInto_eq_foldlM]

theorem Voice.addSource_exact (acc : Rat) (src : Source) :
    w.addSource .exact d acc src = .ok (acc + w.contribution d src) := by
  rw [Voice.addSource, Voice.contribution]
  cases w.router.cell src d with
  | none => rw [add_zero]
  | some amount => rfl

theorem Voice.foldlM_addSource_exact (srcs : List Source) (acc : Rat) :
    srcs.foldlM (w.addSource .exact d) acc = .ok (acc + (srcs.map (w.contribution d)).sum) := by
  induction srcs generalizing acc with
  | nil => exact congrArg Except.ok (add_zero acc).symm
  | cons src rest ih =>
    rw [List.foldlM_cons, Voice.addSource_exact, res_ok_bind, ih, List.map_cons, List.sum_cons, add_assoc]

/-- In `EXACT` a destination gets its clamped sum, or nothing if it has no base (R231). -/
theorem Voice.evalDest_exact_eq : w.evalDest .exact d =
    .ok ((w.router.base[d.idx]).map fun b => clamp (w.exactSum d b) (Dest.lo d) (Dest.hi d)) := by
  cases h : w.router.base[d.idx] with
  | none => rw [Voice.evalDest, h]; rfl
  | some b => rw [Voice.evalDest_of_base_some .exact w d h, Voice.foldlM_addSource_exact]; rfl

end

/-! ## All destinations, and MOD.PROCBLK (R229, R230) -/

/-- A value for each destination, in code order. -/
def destTable (g : Dest → Option Rat) : Vector (Option Rat) 5 :=
  #v[g .cutoff, g .resonance, g .pwm, g .level, g .pitch]

theorem destTable_get (g : Dest → Option Rat) (d : Dest) : (destTable g)[d.idx] = g d := by
  cases d <;> rfl

/-- The voice with its modulated values replaced. -/
def Voice.setMod (w : Voice) (x : Vector (Option Rat) 5) : Voice := { w with router := { w.router with mod := x } }

section
variable {m : NumInst} {w : Voice}

/-- No modulated value is read by the evaluation. -/
theorem Voice.sumInto_setMod (x : Vector (Option Rat) 5) (d : Dest) (srcs : List Source) (acc : Rat) :
    (w.setMod x).sumInto m d srcs acc = w.sumInto m d srcs acc := by
  rw [Voice.sumInto_eq_foldlM, Voice.sumInto_eq_foldlM]
  rfl

theorem Voice.evaluate_setMod (x : Vector (Option Rat) 5) : (w.setMod x).evaluate m = w.evaluate m := by
  have hdest (d : Dest) : (w.setMod x).evalDest m d = w.evalDest m d := by
    simp only [Voice.evalDest, Voice.sumInto_setMod]
    rfl
  simp only [Voice.evaluate, hdest]
  rfl

/-- Evaluating again changes nothing. -/
theorem Voice.evaluate_of_evaluate {w' : Voice} (h : w.evaluate m = .ok w') : w'.evaluate m = .ok w' := by
  obtain ⟨c, r, p, l, t, -, -, -, -, -, rfl⟩ := evaluate_eq_ok.1 h
  exact (Voice.evaluate_setMod _).trans h

theorem Voice.evaluateN_succ (m : NumInst) (n : Nat) (w : Voice) : w.evaluateN m (n + 1) = w.evaluate m := by
  induction n generalizing w with
  | zero => exact bind_pure _
  | succ n ih =>
    rw [Voice.evaluateN]
    cases h : w.evaluate m with
    | error e => rfl
    | ok w' => exact (ih w').trans (Voice.evaluate_of_evaluate h)

/-- The values reset first are overwritten by the first evaluation, and the further ones change nothing. -/
theorem Voice.processBlock_of_pos (m : NumInst) (w : Voice) {n : Nat} (h : 1 ≤ n) :
    w.processBlock m n = w.evaluate m := by
  obtain ⟨k, rfl⟩ := Nat.exists_eq_add_of_le' h
  exact (Voice.evaluateN_succ m k _).trans (Voice.evaluate_setMod _)

theorem Voice.evaluate_exact (w : Voice) : w.evaluate .exact = .ok (w.setMod (destTable fun d =>
    (w.router.base[d.idx]).map fun b => clamp (w.exactSum d b) (Dest.lo d) (Dest.hi d))) := by
  simp only [Voice.evaluate, Voice.evalDest_exact_eq, res_ok_bind]
  rfl

end

theorem exec_modProcblk_of_pos (s : State) (v : Fin 8) {n : BitVec 32} (h : 1 ≤ n.toNat) :
    exec (.modProcblk v n) s = exec (.modProcblk v 1) s := by
  rw [exec, exec, execModProcblk, execModProcblk, countOp, Voice.processBlock_of_pos _ _ h,
    Voice.processBlock_of_pos _ _ (n := countOp 1) le_rfl]

/-- Settles O38: a destination's value is its fold over the sources, and MOD.PROCBLK is one evaluation or none. -/
theorem routerEvaluation : Obligations.RouterEvaluation := by
  refine ⟨fun w => ⟨rfl, rfl, rfl, rfl, rfl, rfl, rfl, rfl⟩, ⟨rfl, rfl, rfl, rfl, rfl, rfl, rfl, rfl, rfl, rfl⟩, rfl,
    fun m w d base => Voice.evalDest_of_base_some m w d, fun s t v n => ⟨rfl,
      ⟨destTable _, (Effect.modProcblk (n := 0) rfl).completes, destTable_get _⟩, fun hn h => ?_, fun hm hn => ?_⟩⟩
  · exact (exec_modProcblk_of_pos s v hn).trans h
  · refine ⟨destTable _, (Effect.modProcblk ?_).completes, destTable_get _⟩
    rw [hm]
    exact (Voice.processBlock_of_pos .exact _ hn).trans (Voice.evaluate_exact _)

end Machine

end Sys2Proof
end

section
/-! SUPPORT. Notes, controllers and queries of a voice (spec/45_voice.md R252 to R258, R268 to R270), and what every
command can do to the flags of a voice (R250). -/

namespace Sys2Proof

/-! ## Codes that name no note (R88) -/

theorem noteOfCode_of_gt {c : BitVec 8} (h : 127 < c.toNat) : noteOfCode c = none :=
  ofCode_none note_ofCode (fun k => by simp only [noteCode, BitVec.toNat_ofNat]; omega) h

namespace Machine

/-! ## The voice registers (R34), and the operations that only touch units -/

/-- The registers of the voice itself, without its units. -/
def Voice.regs (w : Voice) : Option (Fin 128) × Rat × Rat × Rat × Bool × Bool :=
  (w.note, w.vel, w.bend, w.wheel, w.playing, w.tailOff)

theorem Voice.regs_eq {w w' : Voice} : w'.regs = w.regs ↔ w'.note = w.note ∧ w'.vel = w.vel ∧ w'.bend = w.bend ∧
    w'.wheel = w.wheel ∧ w'.playing = w.playing ∧ w'.tailOff = w.tailOff := by
  simp only [Voice.regs, Prod.mk.injEq]

section
variable {m : NumInst} {file : Vector (Option Rat) 25} {w w' : Voice}

theorem Voice.setPitch_regs (h : w.setPitch m file = .ok w') : w'.regs = w.regs := by
  obtain ⟨_, _, rfl⟩ := setPitch_eq_ok.1 h
  rfl

theorem Voice.applyParams_regs (h : w.applyParams m file = .ok w') : w'.regs = w.regs := by
  obtain ⟨_, _, _, _, _, _, _, _, _, _, _, _, rfl⟩ := applyParams_eq_ok.1 h
  rfl

theorem Voice.processBlock_regs {n : Nat} (h : w.processBlock m n = .ok w') : w'.regs = w.regs := by
  rw [Voice.processBlock_router h]
  rfl

theorem Voice.chain_regs {d d' : Nat} {y a : Rat} (h : w.chain m d = .ok (y, a, d', w')) : w'.regs = w.regs := by
  obtain ⟨_, _, _, _, _, _, _, _, _, _, u, _, _, _, _, _, _, _, _, hu, _, _, _, rfl⟩ := chain_eq_ok.1 h
  exact (Voice.processBlock_regs hu :)

theorem Voice.renderFrom_regs {len : Option (Fin 65536)} {n i d d' : Nat} {b c : Memory}
    (h : Voice.renderFrom m file len n i d w b = .ok (d', w', c)) : w'.regs = w.regs := by
  induction n generalizing i d w b with
  | zero => cases h; rfl
  | succ n ih =>
    obtain ⟨_, _, _, u, _, _, _, _, hc, _, _, _, _, h⟩ := Voice.renderFrom_succ.1 h
    exact (ih h).trans (Voice.chain_regs hc)

theorem Voice.setRates_regs {imm : Imm} {x : Rat} (h : w.setRates m imm x = .ok w') : w'.regs = w.regs := by
  obtain ⟨_, _, _, _, _, _, _, _, _, _, _, _, rfl⟩ := setRates_eq_ok.1 h
  rfl

end

/-! ## The pitch (R253) -/

section
variable {m : NumInst} {file : Vector (Option Rat) 25} {w : Voice}

theorem Voice.setPitch_of_note_none (m : NumInst) (file : Vector (Option Rat) 25) (h : w.note = none) :
    w.setPitch m file = .ok w := by
  rw [Voice.setPitch, h]

/-- A voice that holds a note is tuned to NOTE_HZ of note, tune and bend. -/
theorem Voice.setPitch_of_note_some {note : Fin 128} {a pitch hz : Rat} {o : Osc} (h : w.note = some note)
    (ha : numAdd m ((note.val : Nat) : Rat) ((paramGet file .oscTune).getD 0) = .ok a)
    (hp : numAdd m a w.bend = .ok pitch) (hhz : noteHz m pitch = .ok hz) (ho : w.osc.setFreq m hz = .ok o) :
    w.setPitch m file = .ok { w with osc := o } := by
  rw [Voice.setPitch, h]
  simp only [ha, hp, hhz, ho, res_ok_bind]

end

theorem Osc.setFreq_exact (x : Rat) (o : Osc) : ∃ o', o.setFreq .exact x = .ok o' := by
  cases h : o.sr with
  | none => exact ⟨_, Osc.setFreq_of_sr_none x h⟩
  | some r => exact ⟨_, Osc.setFreq_of_sr_some x h⟩

theorem Voice.setPitch_exact (file : Vector (Option Rat) 25) (w : Voice) : ∃ w', w.setPitch .exact file = .ok w' := by
  cases h : w.note with
  | none => exact ⟨w, Voice.setPitch_of_note_none .exact file h⟩
  | some note =>
    obtain ⟨o, ho⟩ := Osc.setFreq_exact _ w.osc
    exact ⟨_, Voice.setPitch_of_note_some h rfl rfl (noteHz_exact _) ho⟩

/-! ## VOICE.NOTEON (R252) -/

/-- The note on, once the pitch is set: both envelopes start, both LFOs are reset, the voice plays. -/
theorem Voice.noteOn_of_setPitch {m : NumInst} {file : Vector (Option Rat) 25} {note : Fin 128} {x : Rat} {n : Nat}
    {w u : Voice} (h : Voice.setPitch m file { w with
      note := some note, vel := clamp x 0 1, router := w.router.setScalar .velocity (clamp x 0 1) } = .ok u) :
    w.noteOn m file note x n = .ok (n + 6, { u with
      env := #v[u.env[0].noteOn, u.env[1].noteOn]
      lfo := #v[(u.lfo[0].rewind m n).2, (u.lfo[1].rewind m (n + 3)).2]
      playing := true
      tailOff := false }) := by
  rw [Voice.noteOn]
  simp only [h, res_ok_bind, Voice.setEnv_setEnv, Voice.setLfo_setLfo]
  rfl

theorem decode_voiceNoteon_illegal (v : Fin 8) (imm : Imm) {a : BitVec 8} (h : 127 < a.toNat) :
    decode (cmdWord 0x60#8 v 0 a 0 imm) = .error .illegalCmd :=
  decode_cmdWord_of_legal_none fun _ _ => Fields.onVoice_none _ _ fun _ =>
    Fields.fmtAV_none _ _ (noteOfCode_of_gt h)

/-- Settles O39: the command sets the pitch of the new note, and nothing else of it can fault. -/
theorem voiceNoteOn : Obligations.VoiceNoteOn := by
  refine fun s v note imm => ⟨rfl, fun a => decode_voiceNoteon_illegal v imm, traps_badOperand_of_body rfl,
    fun x a pitch hz o hx ha hp hhz ho => ?_, fun x hx hm => ?_⟩
  · exact (Effect.voiceNoteon hx (Voice.noteOn_of_setPitch (Voice.setPitch_of_note_some rfl ha hp hhz ho))).completes
  · obtain ⟨u, hu⟩ := Voice.setPitch_exact s.param { s.voices[v] with
      note := some note, vel := clamp x 0 1, router := s.voices[v].router.setScalar .velocity (clamp x 0 1) }
    obtain ⟨hnote, -⟩ := Voice.regs_eq.1 (Voice.setPitch_regs hu)
    refine ⟨_, (Effect.voiceNoteon hx (Voice.noteOn_of_setPitch (hm ▸ hu))).completes, ?_, ?_⟩
    · exact congrArg Voice.playing (State.setVoice_same s v _)
    · exact (congrArg Voice.note (State.setVoice_same s v _)).trans hnote

/-! ## VOICE.NOTEOFF (R255, R256) -/

theorem Env.noteOff_exact (e : Env) : ∃ e', e.noteOff .exact = .ok e' := by
  obtain ⟨u, hu⟩ := Env.rederive_exact { e with relFrom := e.level }
  cases hs : e.stage
  case idle => exact ⟨e, Env.noteOff_of_idle_or_release _ (.inl hs)⟩
  case release => exact ⟨e, Env.noteOff_of_idle_or_release _ (.inr hs)⟩
  case attack => exact ⟨_, Env.noteOff_of_sounding (.inl hs) hu⟩
  case decay => exact ⟨_, Env.noteOff_of_sounding (.inr (.inl hs)) hu⟩
  case sustain => exact ⟨_, Env.noteOff_of_sounding (.inr (.inr hs)) hu⟩

section
variable {m : NumInst} {w : Voice}

theorem Voice.noteOff_of_free (m : NumInst) (allow : Bool) (h : w.playing = false) : w.noteOff m allow = .ok w := by
  rw [Voice.noteOff, h, if_neg Bool.false_ne_true]

theorem Voice.noteOff_tail {e₀ e₁ : Env} (h : w.playing = true) (h0 : w.env[0].noteOff m = .ok e₀)
    (h1 : w.env[1].noteOff m = .ok e₁) : w.noteOff m true = .ok { w with env := #v[e₀, e₁], tailOff := true } := by
  rw [Voice.noteOff, if_pos h, if_pos rfl, h0, res_ok_bind, h1, res_ok_bind]

theorem Voice.noteOff_cut (m : NumInst) (h : w.playing = true) : w.noteOff m false = .ok w.free := by
  rw [Voice.noteOff, if_pos h, if_neg Bool.false_ne_true]

end

/-- In `EXACT` a sounding voice can always be released, and is then Releasing or Free. -/
theorem Voice.noteOff_exact {w : Voice} (allow : Bool) (h : w.playing = true) :
    ∃ w', w.noteOff .exact allow = .ok w' ∧ w'.lifecycle = if allow then .releasing else .free := by
  cases allow with
  | false => exact ⟨_, Voice.noteOff_cut _ h, rfl⟩
  | true =>
    obtain ⟨e₀, h0⟩ := Env.noteOff_exact w.env[0]
    obtain ⟨e₁, h1⟩ := Env.noteOff_exact w.env[1]
    exact ⟨_, Voice.noteOff_tail h h0 h1, by simp [Voice.lifecycle, h]⟩

theorem decode_voiceNoteoff_illegal (v : Fin 8) {a : BitVec 8} (h : 1 < a.toNat) :
    decode (cmdWord 0x61#8 v 0 a 0 0) = .error .illegalCmd :=
  decode_cmdWord_of_legal_none fun _ _ => Fields.onVoice_none _ _ fun _ => Fields.fmtK_none _ _ (boolOfCode_of_gt h)

/-- VOICE.NOTEOFF to a Free voice does nothing (R255). -/
theorem completes_voiceNoteoff_of_free {s : State} {v : Fin 8} (allow : Bool) (h : s.voices[v].playing = false) :
    Completes (.voiceNoteoff v allow) s .none s := by
  have hc := (Effect.voiceNoteoff (Voice.noteOff_of_free s.num allow h)).completes
  rwa [State.setVoice_self] at hc

/-- Settles O40: the note off of a voice that is Free, that has a tail, and that is cut. -/
theorem voiceNoteOff : Obligations.VoiceNoteOff := by
  refine fun s v allow => ⟨by cases allow <;> rfl, fun a => decode_voiceNoteoff_illegal v,
    completes_voiceNoteoff_of_free allow,
    fun e₀ e₁ h h0 h1 => (Effect.voiceNoteoff (Voice.noteOff_tail h h0 h1)).completes,
    fun h => (Effect.voiceNoteoff (Voice.noteOff_cut s.num h)).completes, fun hm => ?_⟩
  cases h : s.voices[v].playing with
  | false => exact ⟨s, completes_voiceNoteoff_of_free allow h, nofun⟩
  | true =>
    obtain ⟨w', hw', hlife⟩ := Voice.noteOff_exact allow h
    exact ⟨_, (Effect.voiceNoteoff (hm ▸ hw')).completes, fun _ => by rw [State.setVoice_same, hlife]⟩

/-! ## The controllers and the queries (R257, R258, R268 to R270) -/

/-- Settles O41: each controller writes its register and its scalar, the pitch bend sets the pitch as well. -/
theorem voiceControllersAndQueries : Obligations.VoiceControllersAndQueries := by
  refine fun s v imm => ⟨rfl, rfl, rfl, rfl, rfl,
    fun hx => ⟨traps_badOperand_of_body rfl hx, traps_badOperand_of_body rfl hx⟩,
    fun x hx => ⟨fun hn => ?_, fun note a pitch hz o hn ha hp hhz ho => ?_, (Effect.voiceModwheel hx).completes⟩,
    Effect.voiceIsactive.completes, fun hn => (Effect.voiceNote (by rw [hn])).completes,
    fun note hn => (Effect.voiceNote (by rw [hn])).completes, Effect.voiceVelocity.completes⟩
  · exact (Effect.voicePitchbend hx (Voice.setPitch_of_note_none s.num s.param hn)).completes
  · exact (Effect.voicePitchbend hx (Voice.setPitch_of_note_some hn ha hp hhz ho)).completes

/-! ## The lifecycle (R250, R35) -/

section
variable {m : NumInst} {file : Vector (Option Rat) 25} {w w' : Voice}

theorem Voice.noteOn_flags {note : Fin 128} {x : Rat} {n n' : Nat} (h : w.noteOn m file note x n = .ok (n', w')) :
    w'.playing = true ∧ w'.tailOff = false := by
  simp only [Voice.noteOn, bind_eq_ok, Except.ok.injEq, Prod.mk.injEq] at h
  obtain ⟨_, _, _, rfl⟩ := h
  exact ⟨rfl, rfl⟩

/-- A note off leaves a Free voice alone, releases with the tail and frees without. -/
theorem Voice.noteOff_flags {allow : Bool} (h : w.noteOff m allow = .ok w') :
    (w.playing = false ∧ w' = w) ∨ (w.playing = true ∧ w'.playing = allow ∧ w'.tailOff = allow) := by
  unfold Voice.noteOff at h
  split at h
  · rename_i hp
    split at h
    · rename_i ha
      simp only [bind_eq_ok, Except.ok.injEq] at h
      obtain ⟨_, _, _, _, rfl⟩ := h
      exact .inr ⟨hp, hp.trans ha.symm, ha.symm⟩
    · rename_i ha
      cases h
      exact .inr ⟨hp, (Bool.eq_false_of_not_eq_true ha).symm, (Bool.eq_false_of_not_eq_true ha).symm⟩
  · cases h
    exact .inl ⟨Bool.eq_false_of_not_eq_true ‹_›, rfl⟩

/-- What a render does to the voice registers: nothing, or it ends a voice whose tail is on (R267). -/
def Voice.KeptOrEnded (w w' : Voice) : Prop := w'.regs = w.regs ∨ (w.tailOff = true ∧ w'.playing = false)

theorem Voice.KeptOrEnded.trans {u : Voice} (h : w.KeptOrEnded w') (h' : w'.KeptOrEnded u) : w.KeptOrEnded u := by
  rcases h with h | ⟨ht, hp⟩
  · obtain ⟨-, -, -, -, -, ht⟩ := Voice.regs_eq.1 h
    exact h'.imp (·.trans h) fun ⟨ht', hp⟩ => ⟨ht.symm.trans ht', hp⟩
  · refine .inr ⟨ht, ?_⟩
    rcases h' with h' | ⟨-, hp'⟩
    · obtain ⟨-, -, -, -, hp', -⟩ := Voice.regs_eq.1 h'
      exact hp'.trans hp
    · exact hp'

theorem Voice.endOfRender_keptOrEnded (w : Voice) : w.KeptOrEnded w.endOfRender := by
  unfold Voice.endOfRender
  split
  · rename_i h
    exact .inr ⟨h.1, rfl⟩
  · exact .inl rfl

theorem Voice.render_keptOrEnded {len : Option (Fin 65536)} {start n d d' : Nat} {b c : Memory}
    (h : w.render m file len start n d b = .ok (d', w', c)) : w.KeptOrEnded w' := by
  obtain ⟨u, hu, ⟨-, w₁, hr, rfl⟩ | ⟨-, -, rfl, -⟩⟩ := Voice.render_eq_ok.1 h
  · exact .trans (.inl ((Voice.renderFrom_regs hr).trans (Voice.applyParams_regs hu))) w₁.endOfRender_keptOrEnded
  · exact .inl (Voice.applyParams_regs hu)

end

section
variable {m : NumInst} {l : List (Fin 8)} {vs vs' : Vector Voice 8}

theorem prepareVoices_regs {imm : Imm} {x : Rat} (h : prepareVoices m imm x l vs = .ok vs') (u : Fin 8) :
    vs'[u].regs = vs[u].regs := by
  induction l generalizing vs with
  | nil => cases h; rfl
  | cons v rest ih =>
    rw [prepareVoices, bind_eq_ok] at h
    obtain ⟨w, hw, h⟩ := h
    rw [ih h, set_get]
    split
    · rename_i hu; subst hu; exact Voice.setRates_regs hw
    · rfl

theorem renderVoices_keptOrEnded {file : Vector (Option Rat) 25} {len : Option (Fin 65536)} {start n d d' : Nat}
    {b c : Memory} (h : renderVoices m file len start n l d vs b = .ok (d', vs', c)) (u : Fin 8) :
    vs[u].KeptOrEnded vs'[u] := by
  induction l generalizing d vs b with
  | nil => cases h; exact .inl rfl
  | cons v rest ih =>
    rw [renderVoices, bind_eq_ok] at h
    obtain ⟨⟨e, w, b₁⟩, hr, h⟩ := h
    refine .trans ?_ (ih h)
    rw [set_get]
    split
    · rename_i hu; subst hu; exact Voice.render_keptOrEnded hr
    · exact .inl rfl

theorem Voice.holds_iff {w : Voice} {note : Fin 128} :
    w.holds note = true ↔ w.playing = true ∧ w.tailOff = false ∧ w.note = some note := by
  simp only [Voice.holds, Bool.and_eq_true, Bool.not_eq_true', beq_iff_eq, and_assoc]

/-- ENG.NOTEOFF (R286) leaves a voice's registers alone, or turns on the tail of a voice that holds the note. -/
theorem releaseVoices_flags {note : Fin 128} (h : releaseVoices m note l vs = .ok vs') (u : Fin 8) :
    vs'[u].regs = vs[u].regs ∨ (vs[u].holds note = true ∧ vs'[u].playing = true ∧ vs'[u].tailOff = true) := by
  induction l generalizing vs with
  | nil => cases h; exact .inl rfl
  | cons v rest ih =>
    unfold releaseVoices at h
    split at h
    · rename_i hv
      rw [bind_eq_ok] at h
      obtain ⟨w, hw, h⟩ := h
      have hu := ih h
      rw [set_get] at hu
      split at hu
      · rename_i huv
        subst huv
        obtain ⟨hp, -, -⟩ := Voice.holds_iff.1 hv
        rcases Voice.noteOff_flags hw with ⟨hp', -⟩ | ⟨-, hp', ht'⟩
        · exact nomatch hp.symm.trans hp'
        · rcases hu with hu | ⟨hh, -, -⟩
          · obtain ⟨-, -, -, -, hup, hut⟩ := Voice.regs_eq.1 hu
            exact .inr ⟨hv, hup.trans hp', hut.trans ht'⟩
          · obtain ⟨-, ht, -⟩ := Voice.holds_iff.1 hh
            exact nomatch ht'.symm.trans ht
      · exact hu
    · exact ih h

end

/-- What a command does to the flags of a voice, with the event of R250's table it is. -/
inductive Voice.Event (i : Instr) (v : Fin 8) (w w' : Voice) : Prop
  | none (hp : w'.playing = w.playing) (ht : w'.tailOff = w.tailOff)
  | noteOn (hi : (∃ note imm, i = .voiceNoteon v note imm) ∨ ∃ note imm, i = .engNoteon note imm)
    (hp : w'.playing = true) (ht : w'.tailOff = false)
  | release (hi : i = .voiceNoteoff v true ∨ ∃ note, i = .engNoteoff note ∧ w.note = some note)
    (h : w.playing = true) (hp : w'.playing = true) (ht : w'.tailOff = true)
  | cut (hi : i = .voiceNoteoff v false) (hp : w'.playing = false)
  | ended (hi : (∃ start n, i = .voiceRender v start n) ∨ ∃ start n, i = .engRender start n)
    (h : w.tailOff = true) (hp : w'.playing = false)

section
variable {i : Instr} {s t : State} {r : Response}

theorem Voice.Event.of_regs {v : Fin 8} {w w' : Voice} (h : w'.regs = w.regs) : Voice.Event i v w w' := by
  obtain ⟨-, -, -, -, hp, ht⟩ := Voice.regs_eq.1 h
  exact .none hp ht

theorem Voice.KeptOrEnded.event {v : Fin 8} {w w' : Voice} (h : w.KeptOrEnded w')
    (hi : (∃ start n, i = .voiceRender v start n) ∨ ∃ start n, i = .engRender start n) : Voice.Event i v w w' := by
  rcases h with h | ⟨ht, hp⟩
  · exact .of_regs h
  · exact .ended hi ht hp

/-- A command that addresses a unit, or the buffer, leaves the voice registers alone. -/
theorem OnlyTargetChanged.regs {tg : Target} (h : OnlyTargetChanged tg s t) (hv : ∀ v, tg ≠ .voice v)
    (he : tg ≠ .engine) (u : Fin 8) : t.voices[u].regs = s.voices[u].regs := by
  have hset {v : Fin 8} {w : Voice} (h : t.voices = (s.setVoice v w).voices) (hw : w.regs = s.voices[v].regs) :
      t.voices[u].regs = s.voices[u].regs := by
    rw [h, State.setVoice_get]
    split
    · rename_i hu; subst hu; exact hw
    · rfl
  cases tg with
  | buffer => rw [show t.voices = s.voices from h]
  | osc v => exact hset h rfl
  | env v i => exact hset h rfl
  | lfo v i => exact hset h rfl
  | flt v => exact hset h rfl
  | router v => exact hset h rfl
  | voice v => exact absurd rfl (hv v)
  | engine => exact absurd rfl he

/-- An update of one voice is an event of every voice if it is one of that voice. -/
theorem setVoice_event {v : Fin 8} {w : Voice} (h : Voice.Event i v s.voices[v] w) (u : Fin 8) :
    Voice.Event i u s.voices[u] (s.setVoice v w).voices[u] := by
  rw [State.setVoice_get]
  split
  · rename_i hu; subst hu; exact h
  · exact .none rfl rfl

/-- Everything a command can do to the flags of a voice (R250). -/
theorem Effect.event (h : Effect i s r t) (u : Fin 8) : Voice.Event i u s.voices[u] t.voices[u] := by
  have htarget := h.onlyTargetChanged
  cases h
  case voiceNoteon hx h =>
    obtain ⟨hp, ht⟩ := Voice.noteOn_flags h
    exact setVoice_event (.noteOn (.inl ⟨_, _, rfl⟩) hp ht) u
  case voiceNoteoff v allow w h =>
    refine setVoice_event ?_ u
    rcases Voice.noteOff_flags h with ⟨-, rfl⟩ | ⟨hp, hp', ht⟩
    · exact .none rfl rfl
    · cases allow with
      | false => exact .cut rfl hp'
      | true => exact .release (.inl rfl) hp hp' ht
  case voiceRender h => exact setVoice_event ((Voice.render_keptOrEnded h).event (.inl ⟨_, _, rfl⟩)) u
  case voicePitchbend hx h =>
    obtain ⟨-, -, -, -, hp, ht⟩ := Voice.regs_eq.1 (Voice.setPitch_regs h)
    exact setVoice_event (.none hp ht) u
  case voiceModwheel => exact setVoice_event (w := Voice.modWheel _ _) (.none rfl rfl) u
  case voiceIsactive | voiceNote | voiceVelocity | engSetparam => exact .none rfl rfl
  case engPrepare hx h =>
    obtain ⟨_, _, _, _, _, hvs, rfl⟩ := prepare_ok h
    exact .of_regs (prepareVoices_regs hvs u)
  case engNoteon hx h =>
    obtain ⟨hp, ht⟩ := Voice.noteOn_flags h
    exact setVoice_event (.noteOn (.inr ⟨_, _, rfl⟩) hp ht) u
  case engNoteoff h =>
    rcases releaseVoices_flags h u with h | ⟨hh, hp', ht'⟩
    · exact .of_regs h
    · obtain ⟨hp, -, hnote⟩ := Voice.holds_iff.1 hh
      exact .release (.inr ⟨_, rfl, hnote⟩) hp hp' ht'
  case engRender h => exact (renderVoices_keptOrEnded h u).event (.inr ⟨_, _, rfl⟩)
  all_goals exact .of_regs (htarget.regs nofun nofun u)

end

section
variable {w w' : Voice}

theorem Voice.lifecycle_free : w.lifecycle = .free ↔ w.playing = false := by
  cases hp : w.playing <;> cases ht : w.tailOff <;> simp [Voice.lifecycle, hp, ht]

theorem Voice.lifecycle_playing : w.lifecycle = .playing ↔ w.playing = true ∧ w.tailOff = false := by
  cases hp : w.playing <;> cases ht : w.tailOff <;> simp [Voice.lifecycle, hp, ht]

theorem Voice.lifecycle_releasing : w.lifecycle = .releasing ↔ w.playing = true ∧ w.tailOff = true := by
  cases hp : w.playing <;> cases ht : w.tailOff <;> simp [Voice.lifecycle, hp, ht]

/-- An event changes the lifecycle state only as R250's table has it. -/
theorem Voice.Event.follows_table {i : Instr} {v : Fin 8} (h : Voice.Event i v w w') :
    (w.lifecycle = .free → w'.lifecycle ≠ .free → w'.lifecycle = .playing ∧
      ((∃ note imm, i = .voiceNoteon v note imm) ∨ ∃ note imm, i = .engNoteon note imm)) ∧
    (w.lifecycle = .playing → w'.lifecycle = .releasing →
      i = .voiceNoteoff v true ∨ ∃ note, i = .engNoteoff note ∧ w.note = some note) ∧
    (w.lifecycle = .playing → w'.lifecycle = .free → i = .voiceNoteoff v false) ∧
    (w.lifecycle = .releasing → w'.lifecycle = .playing →
      (∃ note imm, i = .voiceNoteon v note imm) ∨ ∃ note imm, i = .engNoteon note imm) ∧
    (w.lifecycle = .releasing → w'.lifecycle = .free →
      i = .voiceNoteoff v false ∨ (∃ start n, i = .voiceRender v start n) ∨ ∃ start n, i = .engRender start n) := by
  simp only [ne_eq, Voice.lifecycle_free, Voice.lifecycle_playing, Voice.lifecycle_releasing]
  cases h with
  | none hp ht => simp +contextual [hp, ht]
  | noteOn hi hp ht => simp [hp, ht, hi]
  | release hi h hp ht => simp [h, hp, ht, hi]
  | cut hi hp => simp [hp, hi]
  | ended hi h hp => simp [h, hp, hi]

end

/-- Settles O53: a fault leaves every voice alone, and what a command does to the flags is an event of the table. -/
theorem voiceLifecycleFollowsTheTable : Obligations.VoiceLifecycleFollowsTheTable := by
  intro i s u v h
  rcases exec_next h with ⟨r, t, hE, rfl⟩ | ⟨e, rfl⟩
  · exact (hE.event v).follows_table
  · exact (Voice.Event.none rfl rfl).follows_table

end Machine

end Sys2Proof
end

section
/-! SUPPORT. `ApplyParams` (spec/45_voice.md R262): what it leaves in each register, and that one sample of a render
leaves its result applied (R263). -/

namespace Sys2Proof
namespace Machine

/-! ## Choices (R262) -/

theorem choiceCode_eq_floor (x : Rat) (top : Nat) : choiceCode x top = ⌊clamp x 0 top⌋₊ := by
  rw [← Int.floor_toNat]
  rfl

theorem choiceCode_le (x : Rat) (top : Nat) : choiceCode x top ≤ top := by
  rw [choiceCode_eq_floor]
  exact Nat.floor_le_of_le (clamp_hi x 0 top)

theorem choiceCode_of_neg {x : Rat} (top : Nat) (h : x < 0) : choiceCode x top = 0 := by
  rw [choiceCode_eq_floor, clamp, max_eq_right h.le, min_eq_left (Nat.cast_nonneg top), Nat.floor_zero]

/-- Of a value that is not negative the choice is the greatest code not above it, or the top one. -/
theorem choiceCode_of_nonneg {x : Rat} (top : Nat) (h : 0 ≤ x) :
    (choiceCode x top : Rat) ≤ x ∧ (x < choiceCode x top + 1 ∨ choiceCode x top = top) := by
  rw [choiceCode_eq_floor, clamp, max_eq_left h]
  rcases le_total x top with hx | hx
  · rw [min_eq_left hx]
    exact ⟨Nat.floor_le h, .inl (Nat.lt_floor_add_one x)⟩
  · rw [min_eq_right hx, Nat.floor_natCast]
    exact ⟨hx, .inr rfl⟩

theorem oscChoice_code (x : Rat) : (oscChoice x).code.toNat = choiceCode x 3 := by
  have h := choiceCode_le x 3
  unfold oscChoice
  generalize choiceCode x 3 = k at h
  interval_cases k <;> rfl

theorem lfoChoice_code (x : Rat) : (lfoChoice x).code.toNat = choiceCode x 5 := by
  have h := choiceCode_le x 5
  unfold lfoChoice
  generalize choiceCode x 5 = k at h
  interval_cases k <;> rfl

/-! ## A line on one unit -/

section
variable {α : Type} {o : Option Rat} {f : Rat → α → Res α} {a b : α}

theorem optLine_eq_ok : optLine o f a = .ok b ↔ (o = none ∧ b = a) ∨ ∃ x, o = some x ∧ f x a = .ok b := by
  cases o <;> simp [eq_comm]

theorem optLine_succeeds (o : Option Rat) (hf : ∀ x a, ∃ b, f x a = .ok b) (a : α) : ∃ b, optLine o f a = .ok b := by
  cases o with
  | none => exact ⟨a, rfl⟩
  | some x => exact hf x a

end

/-! ## The oscillator's lines -/

section
variable {m : NumInst} {file : Vector (Option Rat) 25} {note : Option (Fin 128)} {bend : Rat} {o o' : Osc}

/-- The waveform comes from its parameter, and frequency and increment from the note if there is one. -/
theorem paramOsc_eq_ok : paramOsc m file note bend o = .ok o' ↔
    (note = none ∧ o' = { o with wave := ((paramGet file .oscWaveform).map oscChoice).getD o.wave }) ∨
    ∃ k a x hz, note = some k ∧ numAdd m ((k.val : Nat) : Rat) ((paramGet file .oscTune).getD 0) = .ok a ∧
      numAdd m a bend = .ok x ∧ noteHz m x = .ok hz ∧
      Osc.setFreq m hz { o with wave := ((paramGet file .oscWaveform).map oscChoice).getD o.wave } = .ok o' := by
  unfold paramOsc
  cases note with
  | none => simp [eq_comm]
  | some k => simp [bind_eq_ok]

/-- What the oscillator's lines leave in its registers but the increment. -/
theorem paramOsc_ok (h : paramOsc m file note bend o = .ok o') :
    o'.wave = ((paramGet file .oscWaveform).map oscChoice).getD o.wave ∧ (note = none → o'.freq = o.freq) ∧
    (∀ k, note = some k → ∃ a x hz, numAdd m ((k.val : Nat) : Rat) ((paramGet file .oscTune).getD 0) = .ok a ∧
      numAdd m a bend = .ok x ∧ noteHz m x = .ok hz ∧ o'.freq = some hz) ∧
    o'.phase = o.phase ∧ o'.sr = o.sr := by
  rcases paramOsc_eq_ok.1 h with ⟨rfl, rfl⟩ | ⟨k, a, x, hz, rfl, ha, hx, hhz, ho⟩
  · exact ⟨rfl, fun _ => rfl, nofun, rfl, rfl⟩
  · have hfreq : ∀ k', some k = some k' → ∃ a x hz,
        numAdd m ((k'.val : Nat) : Rat) ((paramGet file .oscTune).getD 0) = .ok a ∧ numAdd m a bend = .ok x ∧
        noteHz m x = .ok hz ∧ o'.freq = some hz := by
      rintro _ ⟨⟩
      refine ⟨a, x, hz, ha, hx, hhz, ?_⟩
      rcases Osc.setFreq_cases ho with ⟨-, rfl⟩ | ⟨_, _, -, -, rfl⟩ <;> rfl
    rcases Osc.setFreq_cases ho with ⟨-, rfl⟩ | ⟨_, _, -, -, rfl⟩
    · exact ⟨rfl, nofun, hfreq, rfl, rfl⟩
    · exact ⟨rfl, nofun, hfreq, rfl, rfl⟩

/-- Setting the frequency again, at any phase, changes nothing. -/
theorem Osc.setFreq_again {x : Rat} (h : o.setFreq m x = .ok o') (p : Rat) :
    Osc.setFreq m x { o' with phase := p } = .ok { o' with phase := p } := by
  rcases Osc.setFreq_cases h with ⟨hs, rfl⟩ | ⟨r, q, hs, hq, rfl⟩
  · exact Osc.setFreq_of_sr_none x hs
  · rw [Osc.setFreq_of_sr_some (o := { o with phase := p, freq := some x, inc := some q }) x hs, hq, res_ok_bind]

/-- The oscillator's lines again, at any phase, change nothing. -/
theorem paramOsc_again (h : paramOsc m file note bend o = .ok o') (p : Rat) :
    paramOsc m file note bend { o' with phase := p } = .ok { o' with phase := p } := by
  have hw : ((paramGet file .oscWaveform).map oscChoice).getD o'.wave = o'.wave := by
    rcases paramOsc_eq_ok.1 h with ⟨-, rfl⟩ | ⟨_, _, _, _, -, -, -, -, ho⟩
    · cases paramGet file .oscWaveform <;> rfl
    · rcases Osc.setFreq_cases ho with ⟨-, rfl⟩ | ⟨_, _, -, -, rfl⟩ <;> cases paramGet file .oscWaveform <;> rfl
  rw [paramOsc_eq_ok, hw]
  rcases paramOsc_eq_ok.1 h with ⟨hn, -⟩ | ⟨k, a, x, hz, hn, ha, hx, hhz, ho⟩
  · exact .inl ⟨hn, rfl⟩
  · exact .inr ⟨k, a, x, hz, hn, ha, hx, hhz, Osc.setFreq_again ho p⟩

theorem paramOsc_exact (file : Vector (Option Rat) 25) (note : Option (Fin 128)) (bend : Rat) (o : Osc) :
    ∃ o', paramOsc .exact file note bend o = .ok o' := by
  cases note with
  | none => exact ⟨_, paramOsc_eq_ok.2 (.inl ⟨rfl, rfl⟩)⟩
  | some k =>
    obtain ⟨o', ho⟩ := Osc.setFreq_exact _ { o with wave := ((paramGet file .oscWaveform).map oscChoice).getD o.wave }
    exact ⟨o', paramOsc_eq_ok.2 (.inr ⟨k, _, _, _, rfl, rfl, rfl, noteHz_exact _, ho⟩)⟩

end

/-! ## An envelope's lines -/

/-- The envelope with other rates. -/
def Env.withRates (e : Env) (a d r : Option Rat) : Env := { e with atkRate := a, decRate := d, relRate := r }

section
variable {m : NumInst} {e e' : Env} {o atk dec sus rel : Option Rat}

theorem Env.rederive_withRates (h : Env.rederive m e = .ok e') : ∃ a d r, e' = e.withRates a d r := by
  rcases Env.rederive_cases h with ⟨-, rfl⟩ | ⟨_, a, _, d, r, -, -, -, -, -, rfl⟩
  · exact ⟨_, _, _, rfl⟩
  · exact ⟨some a, some d, some r, rfl⟩

section
variable {reg : Env → Rat} {put : Env → Rat → Env} {g : Rat → Rat}

/-- A line of an envelope writes its register through its setter's clamp, and leaves the rates derived. -/
theorem optLine_rederive (hput : ∀ e, put e (reg e) = e)
    (h : optLine o (fun x e => Env.rederive m (put e (g x))) e = .ok e') :
    (∃ a d r, e' = (put e ((o.map g).getD (reg e))).withRates a d r) ∧
    ((o = none ∧ e' = e) ∨ Env.rederive m e' = .ok e') := by
  rcases optLine_eq_ok.1 h with ⟨rfl, rfl⟩ | ⟨x, rfl, h⟩
  · exact ⟨⟨e'.atkRate, e'.decRate, e'.relRate, by rw [Option.map_none, Option.getD_none, hput]; rfl⟩, .inl ⟨rfl, rfl⟩⟩
  · exact ⟨Env.rederive_withRates h, .inr (rederive_frame h).1⟩

/-- A line whose register already holds its value changes nothing once the rates are derived. -/
theorem optLine_rederive_self (hput : ∀ e, put e (reg e) = e) (hd : Env.rederive m e = .ok e)
    (hr : reg e = (o.map g).getD (reg e)) : optLine o (fun x e => Env.rederive m (put e (g x))) e = .ok e := by
  cases o with
  | none => rfl
  | some x =>
    have hx : reg e = g x := hr
    rw [optLine_some, ← hx, hput, hd]

end

/-- An envelope's lines taken apart: each register through its setter's clamp, and the rates derived if there is a
line. -/
theorem paramEnv_ok (h : paramEnv m atk dec sus rel e = .ok e') :
    (∃ a d r, e' = Env.withRates { e with
      atkMs := (atk.map (max · (envMinMs m))).getD e.atkMs
      decMs := (dec.map (max · (envMinMs m))).getD e.decMs
      sus := (sus.map (clamp · 0 1)).getD e.sus
      relMs := (rel.map (max · (envMinMs m))).getD e.relMs } a d r) ∧
    ((atk = none ∧ dec = none ∧ sus = none ∧ rel = none) ∨ Env.rederive m e' = .ok e') := by
  simp only [paramEnv, bind_eq_ok] at h
  obtain ⟨e1, h1, e2, h2, e3, h3, h4⟩ := h
  obtain ⟨⟨_, _, _, hr1⟩, hd1⟩ := optLine_rederive (reg := Env.atkMs) (put := fun e x => { e with atkMs := x })
    (fun _ => rfl) h1
  obtain ⟨⟨_, _, _, hr2⟩, hd2⟩ := optLine_rederive (reg := Env.decMs) (put := fun e x => { e with decMs := x })
    (fun _ => rfl) h2
  obtain ⟨⟨_, _, _, hr3⟩, hd3⟩ := optLine_rederive (reg := Env.sus) (put := fun e x => { e with sus := x })
    (fun _ => rfl) h3
  obtain ⟨⟨a, d, r, hr4⟩, hd4⟩ := optLine_rederive (reg := Env.relMs) (put := fun e x => { e with relMs := x })
    (fun _ => rfl) h4
  refine ⟨⟨a, d, r, by rw [hr4, hr3, hr2, hr1]; rfl⟩, ?_⟩
  rcases hd4 with ⟨rfl, rfl⟩ | hd4
  · rcases hd3 with ⟨rfl, rfl⟩ | hd3
    · rcases hd2 with ⟨rfl, rfl⟩ | hd2
      · exact hd1.imp_left fun ⟨h, _⟩ => ⟨h, rfl, rfl, rfl⟩
      · exact .inr hd2
    · exact .inr hd3
  · exact .inr hd4

/-- An envelope's lines again, in any stage and at any level, change nothing. -/
theorem paramEnv_again (h : paramEnv m atk dec sus rel e = .ok e') (st : Stage) (l : Rat) :
    paramEnv m atk dec sus rel { e' with stage := st, level := l } = .ok { e' with stage := st, level := l } := by
  obtain ⟨⟨a, d, r, he'⟩, ⟨rfl, rfl, rfl, rfl⟩ | hd⟩ := paramEnv_ok h
  · rfl
  generalize hu : { e' with stage := st, level := l } = u
  have hd : Env.rederive m u = .ok u := by
    rw [← hu, Env.rederive_setStageLevel, hd]
    rfl
  have h1 : optLine atk (Env.setAtk m) u = .ok u := optLine_rederive_self (put := fun e x => { e with atkMs := x })
    (reg := Env.atkMs) (fun _ => rfl) hd (by subst hu he'; cases atk <;> rfl)
  have h2 : optLine dec (Env.setDec m) u = .ok u := optLine_rederive_self (put := fun e x => { e with decMs := x })
    (reg := Env.decMs) (fun _ => rfl) hd (by subst hu he'; cases dec <;> rfl)
  have h3 : optLine sus (Env.setSus m) u = .ok u := optLine_rederive_self (put := fun e x => { e with sus := x })
    (reg := Env.sus) (fun _ => rfl) hd (by subst hu he'; cases sus <;> rfl)
  have h4 : optLine rel (Env.setRel m) u = .ok u := optLine_rederive_self (put := fun e x => { e with relMs := x })
    (reg := Env.relMs) (fun _ => rfl) hd (by subst hu he'; cases rel <;> rfl)
  rw [paramEnv, h1, res_ok_bind, h2, res_ok_bind, h3, res_ok_bind, h4]

theorem Env.tick_setStageLevel {x : Rat} (h : e.tick m = .ok (x, e')) :
    ∃ st l, e' = { e with stage := st, level := l } := by
  cases Env.tick_ticked h <;> exact ⟨_, _, rfl⟩

theorem paramEnv_exact (atk dec sus rel : Option Rat) (e : Env) : ∃ e', paramEnv .exact atk dec sus rel e = .ok e' := by
  simp only [paramEnv, bind_eq_ok]
  obtain ⟨e1, h1⟩ := optLine_succeeds (f := Env.setAtk .exact) atk (fun _ _ => Env.rederive_exact _) e
  obtain ⟨e2, h2⟩ := optLine_succeeds (f := Env.setDec .exact) dec (fun _ _ => Env.rederive_exact _) e1
  obtain ⟨e3, h3⟩ := optLine_succeeds (f := Env.setSus .exact) sus (fun _ _ => Env.rederive_exact _) e2
  obtain ⟨e4, h4⟩ := optLine_succeeds (f := Env.setRel .exact) rel (fun _ _ => Env.rederive_exact _) e3
  exact ⟨e4, e1, h1, e2, h2, e3, h3, h4⟩

end

/-! ## An LFO's lines -/

section
variable {m : NumInst} {l l' : Lfo} {rate wave : Option Rat}

/-- The LFO with other values in the registers LFO.NEXT writes. -/
def Lfo.setSignal (l : Lfo) (phase held sPrev sTarget lastOut : Rat) : Lfo :=
  { l with phase := phase, held := held, sPrev := sPrev, sTarget := sTarget, lastOut := lastOut }

theorem Lfo.next_setSignal {n n' : Nat} {x : Rat} (h : l.next m n = .ok (x, n', l')) :
    ∃ phase held sPrev sTarget lastOut, l' = l.setSignal phase held sPrev sTarget lastOut := by
  obtain ⟨k, u, -, hu, rfl⟩ := Lfo.next_cases h
  obtain ⟨_, _, _, _, _, rfl | rfl | rfl⟩ := Lfo.advance_cases hu <;> exact ⟨_, _, _, _, _, rfl⟩

/-- An LFO's lines taken apart. -/
theorem paramLfo_eq_ok : paramLfo m rate wave l = .ok l' ↔ ∃ u, optLine rate (Lfo.setFreq m) l = .ok u ∧
    l' = { u with wave := (wave.map lfoChoice).or u.wave } := bind_ok_iff _ _ _

/-- An LFO's lines write frequency, increment and waveform. -/
theorem paramLfo_ok (h : paramLfo m rate wave l = .ok l') : ∃ inc, l' = { l with
    freq := (rate.map (clamp · (lit m (1 / 100)) 100)).or l.freq
    wave := (wave.map lfoChoice).or l.wave
    inc := inc } := by
  obtain ⟨u, hu, rfl⟩ := paramLfo_eq_ok.1 h
  rcases optLine_eq_ok.1 hu with ⟨rfl, rfl⟩ | ⟨x, rfl, hx⟩
  · exact ⟨_, rfl⟩
  · rcases Lfo.setFreq_cases hx with ⟨-, rfl⟩ | ⟨_, _, -, -, rfl⟩ <;> exact ⟨_, rfl⟩

/-- Setting the frequency again, whatever the waveform and the signal, changes nothing. -/
theorem Lfo.setFreq_again {x : Rat} (h : l.setFreq m x = .ok l') (w : Option LfoWave)
    (phase held sPrev sTarget lastOut : Rat) :
    Lfo.setFreq m x { l'.setSignal phase held sPrev sTarget lastOut with wave := w } =
      .ok { l'.setSignal phase held sPrev sTarget lastOut with wave := w } := by
  rcases Lfo.setFreq_cases h with ⟨hs, rfl⟩ | ⟨r, q, hs, hq, rfl⟩
  · exact Lfo.setFreq_of_sr_none x hs
  · exact Lfo.setFreq_of_sr_some hs hq

/-- An LFO's lines again, whatever LFO.NEXT made of the signal, change nothing. -/
theorem paramLfo_again (h : paramLfo m rate wave l = .ok l') (phase held sPrev sTarget lastOut : Rat) :
    paramLfo m rate wave (l'.setSignal phase held sPrev sTarget lastOut) =
      .ok (l'.setSignal phase held sPrev sTarget lastOut) := by
  obtain ⟨u, hu, rfl⟩ := paramLfo_eq_ok.1 h
  generalize hv : Lfo.setSignal _ phase held sPrev sTarget lastOut = v
  have hwave : (wave.map lfoChoice).or v.wave = v.wave := by
    subst hv
    cases wave <;> rfl
  refine paramLfo_eq_ok.2 ⟨v, ?_, by rw [hwave]⟩
  rcases optLine_eq_ok.1 hu with ⟨rfl, rfl⟩ | ⟨x, rfl, hx⟩
  · rfl
  · subst hv
    exact Lfo.setFreq_again hx _ phase held sPrev sTarget lastOut

theorem Lfo.setFreq_exact (x : Rat) (l : Lfo) : ∃ l', l.setFreq .exact x = .ok l' := by
  cases hs : l.sr with
  | none => exact ⟨_, Lfo.setFreq_of_sr_none x hs⟩
  | some r => exact ⟨_, Lfo.setFreq_of_sr_some hs rfl⟩

theorem paramLfo_exact (rate wave : Option Rat) (l : Lfo) : ∃ l', paramLfo .exact rate wave l = .ok l' := by
  obtain ⟨u, hu⟩ := optLine_succeeds rate Lfo.setFreq_exact l
  exact ⟨_, paramLfo_eq_ok.2 ⟨u, hu, rfl⟩⟩

end

/-! ## The filter's lines -/

section
variable {m : NumInst} {file : Vector (Option Rat) 25} {f f' : Flt}

/-- The filter holds what its lines write, and coefficients derived from it if there is a line that derives them. -/
structure Flt.Applied (m : NumInst) (file : Vector (Option Rat) 25) (f : Flt) : Prop where
  res : ∀ x, paramGet file .fltResonance = some x → f.res = clamp x 0 1
  coefs : (paramGet file .fltResonance).isSome → Flt.recompute m f = .ok f
  drive : ∀ x, paramGet file .fltDrive = some x → f.drive = some (max x 0)

theorem Flt.recompute_setCoefs (h : Flt.recompute m f = .ok f') : ∃ p k, f' = { f with p := p, k := k } := by
  rcases Flt.recompute_cases h with ⟨-, rfl⟩ | ⟨_, _, _, _, _, k, -, -, -, -, -, -, rfl⟩
  · exact ⟨_, _, rfl⟩
  · exact ⟨_, some k, rfl⟩

/-- The filter's lines taken apart. -/
theorem paramFlt_eq_ok : paramFlt m file f = .ok f' ↔
    ∃ g, optLine (paramGet file .fltResonance) (Flt.setRes m) f = .ok g ∧
      f' = { g with drive := ((paramGet file .fltDrive).map fun x => max x 0).or g.drive } := bind_ok_iff _ _ _

/-- The filter's lines write resonance, drive and the coefficients. -/
theorem paramFlt_ok (h : paramFlt m file f = .ok f') : ∃ p k, f' = { f with
    res := ((paramGet file .fltResonance).map (clamp · 0 1)).getD f.res
    drive := ((paramGet file .fltDrive).map fun x => max x 0).or f.drive
    p := p
    k := k } := by
  obtain ⟨g, hg, rfl⟩ := paramFlt_eq_ok.1 h
  rcases optLine_eq_ok.1 hg with ⟨hn, rfl⟩ | ⟨x, hx, hg⟩
  · exact ⟨_, _, by rw [hn]; rfl⟩
  · obtain ⟨p, k, rfl⟩ := Flt.recompute_setCoefs hg
    exact ⟨p, k, by rw [hx]; rfl⟩

theorem Flt.Applied.of_paramFlt (h : paramFlt m file f = .ok f') : f'.Applied m file := by
  obtain ⟨g, hg, rfl⟩ := paramFlt_eq_ok.1 h
  have hdrive : ∀ x, paramGet file .fltDrive = some x →
      ((paramGet file .fltDrive).map fun x => max x 0).or g.drive = some (max x 0) := by
    intro x hx
    rw [hx]
    rfl
  rcases optLine_eq_ok.1 hg with ⟨hn, rfl⟩ | ⟨x, hx, hg⟩
  · exact ⟨fun x hx => (nomatch hn.symm.trans hx), fun hs => absurd hs (by simp [hn]), hdrive⟩
  · refine ⟨fun x' hx' => ?_, fun _ => ?_, hdrive⟩
    · obtain ⟨p, k, rfl⟩ := Flt.recompute_setCoefs hg
      rw [← Option.some.inj (hx.symm.trans hx')]
    · exact (Flt.recompute_setSignal g g.y1 g.y2 g.y3 g.y4 g.h1 g.h2 _).trans (by rw [Flt.recompute_recompute hg]; rfl)

theorem Flt.Applied.paramFlt (h : f.Applied m file) : paramFlt m file f = .ok f := by
  refine paramFlt_eq_ok.2 ⟨f, ?_, ?_⟩
  · cases hx : paramGet file .fltResonance with
    | none => rfl
    | some x => rw [optLine_some, Flt.setRes, ← h.res x hx, h.coefs (by rw [hx]; rfl)]
  · cases hx : paramGet file .fltDrive with
    | none => rfl
    | some x => rw [Option.map_some, Option.some_or, ← h.drive x hx]

theorem Flt.Applied.setCut {c : Rat} (h : f.Applied m file) (hc : f.setCut m c = .ok f') : f'.Applied m file := by
  obtain ⟨_, _, -, -, hc⟩ := Flt.setCut_cases hc
  have hcoefs := Flt.recompute_recompute hc
  obtain ⟨p, k, rfl⟩ := Flt.recompute_setCoefs hc
  exact ⟨h.res, fun _ => hcoefs, h.drive⟩

theorem Flt.Applied.sample {x y : Rat} (h : f.Applied m file) (hs : f.sample m x = .ok (y, f')) :
    f'.Applied m file := by
  obtain ⟨_, _, _, _, _, _, rfl⟩ := Flt.sample_cases hs
  refine ⟨h.res, fun hr => ?_, h.drive⟩
  exact (Flt.recompute_setSignal f _ _ _ _ _ _ f.drive).trans (by rw [h.coefs hr]; rfl)

theorem Flt.recompute_exact (f : Flt) : ∃ f', Flt.recompute .exact f = .ok f' := by
  cases hs : f.sr with
  | none => exact ⟨_, Flt.recompute_of_sr_none _ hs⟩
  | some r => exact ⟨_, Flt.recompute_exact_of_sr_some hs⟩

theorem paramFlt_exact (file : Vector (Option Rat) 25) (f : Flt) : ∃ f', paramFlt .exact file f = .ok f' := by
  obtain ⟨g, hg⟩ := optLine_succeeds (f := Flt.setRes .exact) (paramGet file .fltResonance)
    (fun _ _ => Flt.recompute_exact _) f
  exact ⟨_, paramFlt_eq_ok.2 ⟨g, hg, rfl⟩⟩

end

/-! ## The router's lines -/

section
variable {file : Vector (Option Rat) 25}

theorem paramRouter_base (file : Vector (Option Rat) 25) (r : Router) (d : Dest) :
    (paramRouter file r).base[d.idx] =
      match d with
      | .pwm => (paramGet file .oscPwm).or r.base[d.idx]
      | .cutoff => (paramGet file .fltCutoff).or r.base[d.idx]
      | .resonance | .level | .pitch => r.base[d.idx] := by
  simp only [paramRouter, Router.optConn_base, Router.base_optBase]
  cases d <;> rfl

theorem paramRouter_cell (file : Vector (Option Rat) 25) (r : Router) (src : Source) (d : Dest) :
    (paramRouter file r).cell src d =
      match src, d with
      | .obj .env2, .cutoff => (paramGet file .fltEnvAmount).or (r.cell src d)
      | .obj .lfo1, .cutoff => (paramGet file .lfo1ToFilter).or (r.cell src d)
      | .obj .lfo2, .cutoff => (paramGet file .lfo2ToFilter).or (r.cell src d)
      | .scalar .modwheel, .cutoff => (paramGet file .modwheelAmount).or (r.cell src d)
      | .scalar .velocity, .cutoff => (paramGet file .velToFilter).or (r.cell src d)
      | _, _ => r.cell src d := by
  simp only [paramRouter, Router.cell_optConn, Router.optBase_cell]
  rcases src with src | src <;> cases src <;> cases d <;> rfl

theorem paramRouter_frame (file : Vector (Option Rat) 25) (r : Router) :
    (paramRouter file r).mod = r.mod ∧ (paramRouter file r).scalar = r.scalar ∧
      (paramRouter file r).registered = r.registered := by
  simp [paramRouter]

/-- The router's lines again, whatever the modulated values, change nothing. -/
theorem paramRouter_again (r : Router) (x : Vector (Option Rat) 5) :
    paramRouter file { paramRouter file r with mod := x } = { paramRouter file r with mod := x } := by
  obtain ⟨hmod, hscalar, hregistered⟩ := paramRouter_frame file { paramRouter file r with mod := x }
  refine Router.ext_cells (fun src d => ?_) (fun d => ?_) hmod hscalar hregistered
  · have hcell : Router.cell { paramRouter file r with mod := x } src d = (paramRouter file r).cell src d := rfl
    rw [paramRouter_cell, hcell, paramRouter_cell]
    split <;> simp [← Option.or_assoc]
  · rw [paramRouter_base]
    simp only [paramRouter_base]
    cases d <;> simp [← Option.or_assoc]

end

/-! ## The whole -/

section
variable {m : NumInst} {file : Vector (Option Rat) 25} {w w' : Voice}

/-- In `EXACT` the parameters can always be applied. -/
theorem Voice.applyParams_exact (file : Vector (Option Rat) 25) (w : Voice) :
    ∃ w', w.applyParams .exact file = .ok w' := by
  obtain ⟨o, ho⟩ := paramOsc_exact file w.note w.bend w.osc
  obtain ⟨f, hf⟩ := paramFlt_exact file w.flt
  obtain ⟨e₀, h₀⟩ := paramEnv_exact (paramGet file .ampAttack) (paramGet file .ampDecay) (paramGet file .ampSustain)
    (paramGet file .ampRelease) w.env[0]
  obtain ⟨e₁, h₁⟩ := paramEnv_exact (paramGet file .fenvAttack) (paramGet file .fenvDecay) (paramGet file .fenvSustain)
    (paramGet file .fenvRelease) w.env[1]
  obtain ⟨l₀, k₀⟩ := paramLfo_exact (paramGet file .lfo1Rate) (paramGet file .lfo1Waveform) w.lfo[0]
  obtain ⟨l₁, k₁⟩ := paramLfo_exact (paramGet file .lfo2Rate) (paramGet file .lfo2Waveform) w.lfo[1]
  exact ⟨_, applyParams_eq_ok.2 ⟨o, f, e₀, e₁, l₀, l₁, ho, hf, h₀, h₁, k₀, k₁, rfl⟩⟩

/-- The parameters are applied (R263): each unit's lines leave the unit as it is. -/
structure Voice.Applied (m : NumInst) (file : Vector (Option Rat) 25) (w : Voice) : Prop where
  osc : paramOsc m file w.note w.bend w.osc = .ok w.osc
  flt : w.flt.Applied m file
  env0 : paramEnv m (paramGet file .ampAttack) (paramGet file .ampDecay) (paramGet file .ampSustain)
    (paramGet file .ampRelease) w.env[0] = .ok w.env[0]
  env1 : paramEnv m (paramGet file .fenvAttack) (paramGet file .fenvDecay) (paramGet file .fenvSustain)
    (paramGet file .fenvRelease) w.env[1] = .ok w.env[1]
  lfo0 : paramLfo m (paramGet file .lfo1Rate) (paramGet file .lfo1Waveform) w.lfo[0] = .ok w.lfo[0]
  lfo1 : paramLfo m (paramGet file .lfo2Rate) (paramGet file .lfo2Waveform) w.lfo[1] = .ok w.lfo[1]
  router : paramRouter file w.router = w.router

theorem Voice.Applied.of_applyParams (h : w.applyParams m file = .ok w') : w'.Applied m file := by
  obtain ⟨o, f, e₀, e₁, l₀, l₁, ho, hf, he₀, he₁, hl₀, hl₁, rfl⟩ := applyParams_eq_ok.1 h
  exact ⟨paramOsc_again ho o.phase, .of_paramFlt hf, paramEnv_again he₀ e₀.stage e₀.level,
    paramEnv_again he₁ e₁.stage e₁.level, paramLfo_again hl₀ l₀.phase l₀.held l₀.sPrev l₀.sTarget l₀.lastOut,
    paramLfo_again hl₁ l₁.phase l₁.held l₁.sPrev l₁.sTarget l₁.lastOut, paramRouter_again w.router _⟩

theorem Voice.Applied.applyParams (h : w.Applied m file) : w.applyParams m file = .ok w :=
  applyParams_eq_ok.2 ⟨_, _, _, _, _, _, h.osc, h.flt.paramFlt, h.env0, h.env1, h.lfo0, h.lfo1, by
    rw [h.router, vector_pair_eta, vector_pair_eta]⟩

/-- One sample (R265) leaves applied parameters applied: it writes the cutoff through its setter, and otherwise only
registers that no line reads. -/
theorem Voice.Applied.chain {d d' : Nat} {y a : Rat} (h : w.Applied m file) (hc : w.chain m d = .ok (y, a, d', w')) :
    w'.Applied m file := by
  obtain ⟨_, _, e₀, _, e₁, _, _, l₀, _, l₁, u, _, f, g, ho, he₀, he₁, hl₀, hl₁, hu, -, hf, hg, rfl⟩ := chain_eq_ok.1 hc
  obtain ⟨_, phase, _, -, -, rfl⟩ := Osc.proc_cases ho
  obtain ⟨st₀, level₀, rfl⟩ := Env.tick_setStageLevel he₀
  obtain ⟨st₁, level₁, rfl⟩ := Env.tick_setStageLevel he₁
  obtain ⟨_, _, _, _, _, rfl⟩ := Lfo.next_setSignal hl₀
  obtain ⟨_, _, _, _, _, rfl⟩ := Lfo.next_setSignal hl₁
  rw [Voice.processBlock_of_pos m _ le_rfl, evaluate_eq_ok] at hu
  obtain ⟨_, _, _, _, _, -, -, -, -, -, rfl⟩ := hu
  refine ⟨paramOsc_again h.osc phase, (h.flt.setCut hf).sample hg, paramEnv_again h.env0 st₀ level₀,
    paramEnv_again h.env1 st₁ level₁, paramLfo_again h.lfo0 .., paramLfo_again h.lfo1 .., ?_⟩
  have hr := paramRouter_again (file := file) w.router
  rw [h.router] at hr
  exact hr _

theorem Voice.Applied.renderFrom {len : Option (Fin 65536)} {n i d d' : Nat} {b c : Memory} (h : w.Applied m file)
    (hr : Voice.renderFrom m file len n i d w b = .ok (d', w', c)) : w'.Applied m file := by
  induction n generalizing i d w b with
  | zero => cases hr; exact h
  | succ n ih =>
    obtain ⟨_, _, _, _, _, _, _, _, hc, _, _, _, _, hr⟩ := Voice.renderFrom_succ.1 hr
    exact ih (h.chain hc) hr

end

/-- Settles O42: each unit's registers come from its own lines, and a line writes through its setter's clamp. -/
theorem applyParamsWritesTheUnits : Obligations.ApplyParamsWritesTheUnits := by
  refine ⟨fun x top => ⟨choiceCode_le x top, choiceCode_of_neg top, choiceCode_of_nonneg top⟩,
    fun x => ⟨oscChoice_code x, lfoChoice_code x⟩, Voice.applyParams_exact, fun m file w w' h => ?_⟩
  obtain ⟨o, f, e₀, e₁, l₀, l₁, ho, hf, he₀, he₁, hl₀, hl₁, rfl⟩ := applyParams_eq_ok.1 h
  obtain ⟨hwave, hfreq, hnote, hphase, hsr⟩ := paramOsc_ok ho
  obtain ⟨_, _, rfl⟩ := paramFlt_ok hf
  obtain ⟨⟨_, _, _, rfl⟩, -⟩ := paramEnv_ok he₀
  obtain ⟨⟨_, _, _, rfl⟩, -⟩ := paramEnv_ok he₁
  obtain ⟨_, rfl⟩ := paramLfo_ok hl₀
  obtain ⟨_, rfl⟩ := paramLfo_ok hl₁
  obtain ⟨hmod, hscalar, hregistered⟩ := paramRouter_frame file w.router
  refine ⟨hwave, hfreq, hnote, hphase, hsr, paramRouter_base file w.router, paramRouter_cell file w.router, hmod,
    hscalar, hregistered, rfl, rfl, ⟨rfl, rfl, rfl, rfl, rfl, rfl, rfl, rfl⟩, ⟨rfl, rfl, rfl, rfl⟩,
    ⟨rfl, rfl, rfl, rfl⟩, fun i => ?_, ⟨rfl, rfl, rfl, rfl⟩, fun i => ?_, rfl, rfl, rfl, rfl, rfl, rfl⟩
  · fin_cases i
    · exact ⟨rfl, rfl, rfl, rfl⟩
    · exact ⟨rfl, rfl, rfl, rfl⟩
  · fin_cases i
    · exact ⟨rfl, rfl, rfl, rfl, rfl, rfl, rfl⟩
    · exact ⟨rfl, rfl, rfl, rfl, rfl, rfl, rfl⟩

end Machine

end Sys2Proof
end

section
/-! SUPPORT. VOICE.RENDER (spec/45_voice.md R263 to R267): its states, the render cut in two, the first sample and its
faults, and in `EXACT` the range of a ready voice. -/

namespace Sys2Proof
namespace Machine

/-! ## The states VOICE.RENDER leaves -/

section
variable {s t : State} {v : Fin 8} {r : Nat × Voice × Memory} {start : BitVec 16} {n : BitVec 32}

/-- `t` is `s` with the draws `r.1`, the voice `r.2.1` and the buffer `r.2.2`, whatever its `pc` and responses are. -/
def State.LeavesRender (s : State) (v : Fin 8) (r : Nat × Voice × Memory) (t : State) : Prop :=
  ∃ pc responses, t = { s.setVoice v r.2.1 with draws := r.1, buf := r.2.2, pc := pc, responses := responses }

theorem State.LeavesRender.registers (h : s.LeavesRender v r t) : t.num = s.num ∧ t.param = s.param ∧
    t.bufLen = s.bufLen ∧ t.draws = r.1 ∧ t.buf = r.2.2 ∧ t.voices[v] = r.2.1 := by
  obtain ⟨_, _, rfl⟩ := h
  exact ⟨rfl, rfl, rfl, rfl, rfl, s.setVoice_same v r.2.1⟩

/-- A second render of the voice covers the first. -/
theorem State.LeavesRender.again {r' : Nat × Voice × Memory} {u : State} (h : s.LeavesRender v r t) :
    t.LeavesRender v r' u ↔ s.LeavesRender v r' u := by
  obtain ⟨_, _, rfl⟩ := h
  simp only [State.LeavesRender, ← s.setVoice_setVoice v r.2.1 r'.2.1]
  rfl

theorem completes_voiceRender_iff : Completes (.voiceRender v start n) s .none t ↔
    ∃ r, s.voices[v].render s.num s.param s.bufLen start.toNat n.toNat s.draws s.buf = .ok r ∧
      s.LeavesRender v r t := by
  constructor
  · intro h
    replace h := completes_iff.1 h
    generalize hu : ({ t with pc := s.pc, responses := s.responses } : State) = u at h
    cases h with
    | @voiceRender _ _ _ _ d w b h =>
      exact ⟨(d, w, b), h, t.pc, t.responses,
        congrArg (fun u : State => { u with pc := t.pc, responses := t.responses }) hu⟩
  · rintro ⟨r, h, _, _, rfl⟩
    exact (Effect.voiceRender (d := r.1) (w := r.2.1) (b := r.2.2) h).completes

theorem traps_voiceRender_iff {code : FaultCode} {info : BitVec 64} : Traps (.voiceRender v start n) s code info ↔
    s.voices[v].render s.num s.param s.bufLen start.toNat n.toNat s.draws s.buf = .error ⟨code, info⟩ := by
  refine ⟨fun h => ?_, traps_voiceRender⟩
  cases hr : s.voices[v].render s.num s.param s.bufLen start.toNat n.toNat s.draws s.buf with
  | ok r =>
    exact absurd (completes_voiceRender_iff.2 ⟨r, hr, s.pc, s.responses, rfl⟩) (traps_not_completes h)
  | error e =>
    have he := h.symm.trans (traps_voiceRender hr)
    have hfault := congrArg State.fault (Host.Outcome.next.inj he)
    obtain ⟨rfl, rfl⟩ : code = e.code ∧ info = e.info := by simpa using hfault
    rfl

end

/-! ## A render cut in two (R263, R288) -/

section
variable {m : NumInst} {file : Vector (Option Rat) 25} {len : Option (Fin 65536)} {w w' : Voice} {b c : Memory}
  {start n d d' : Nat}

theorem Voice.render_of_playing {u : Voice} (h : w.applyParams m file = .ok u) (hp : u.playing = true) :
    w.render m file len start n d b = (do
      let r ← Voice.renderFrom m file len n start d u b
      .ok (r.1, r.2.1.endOfRender, r.2.2)) := by
  rw [Voice.render, h, res_ok_bind, if_pos hp]

theorem Voice.render_of_not_playing {u : Voice} (h : w.applyParams m file = .ok u) (hp : u.playing = false) :
    w.render m file len start n d b = .ok (d, u, b) := by
  rw [Voice.render, h, res_ok_bind, if_neg (Bool.eq_false_iff.1 hp)]

theorem Voice.endOfRender_of_playing (h : w.endOfRender.playing = true) : w.endOfRender = w := by
  unfold Voice.endOfRender at h ⊢
  split
  · rename_i hc
    rw [if_pos hc] at h
    exact nomatch h
  · rfl

/-- A render that does not end the voice, then a second one, is the render of both ranges: the parameters are applied
once and stay applied. -/
theorem Voice.render_add {a k : Nat} (h : w.render m file len start a d b = .ok (d', w', c))
    (hp : w'.playing = w.playing) :
    w.render m file len start (a + k) d b = w'.render m file len (start + a) k d' c := by
  obtain ⟨u, hu, ⟨hup, w₁, hr, rfl⟩ | ⟨hup, rfl, rfl, rfl⟩⟩ := Voice.render_eq_ok.1 h
  · have hend : w₁.endOfRender = w₁ :=
      Voice.endOfRender_of_playing (hp.trans ((Voice.applyParams_playing hu).symm.trans hup))
    have hw₁ : w₁.playing = true := by rw [← hend, hp, ← Voice.applyParams_playing hu, hup]
    have happlied := ((Voice.Applied.of_applyParams hu).renderFrom hr).applyParams
    rw [hend, Voice.render_of_playing hu hup, Voice.render_of_playing happlied hw₁, Voice.renderFrom_add, hr,
      res_ok_bind]
  · rw [Voice.render_of_not_playing hu hup,
      Voice.render_of_not_playing (Voice.Applied.of_applyParams hu).applyParams hup]

/-- A render of no samples does not depend on where it starts. -/
theorem Voice.render_zero_start (start' : Nat) :
    w.render m file len start 0 d b = w.render m file len start' 0 d b := rfl

end

/-- Settles O43: applied parameters are applied by no line again, and a first render of no samples only applies them. -/
theorem applyingParametersIsIdempotent : Obligations.ApplyingParametersIsIdempotent := by
  refine ⟨fun m file w w' h => (Voice.Applied.of_applyParams h).applyParams, fun s t t₂ v start₀ start n h hp => ?_⟩
  obtain ⟨⟨d, w, b⟩, hr, hleft⟩ := completes_voiceRender_iff.1 h
  obtain ⟨hnum, hparam, hlen, hdraws, hbuf, hvoice⟩ := hleft.registers
  rw [hvoice] at hp
  have hr₀ : s.voices[v].render s.num s.param s.bufLen start.toNat 0 s.draws s.buf = .ok (d, w, b) :=
    (Voice.render_zero_start start₀.toNat).trans hr
  have hadd := Voice.render_add (k := n.toNat) hr₀ hp
  rw [Nat.zero_add, Nat.add_zero] at hadd
  rw [completes_voiceRender_iff, completes_voiceRender_iff, hnum, hparam, hlen, hdraws, hbuf, hvoice, hadd]
  simp only [hleft.again]

theorem toNat_add_setWidth {start : BitVec 16} {a : BitVec 32} (h : start.toNat + a.toNat < 2 ^ 16) :
    (start + a.setWidth 16).toNat = start.toNat + a.toNat := by
  rw [BitVec.toNat_add, BitVec.toNat_setWidth, Nat.add_mod_mod, Nat.mod_eq_of_lt h]

/-- Settles O45: the second part is the rest of the whole, its faults included. -/
theorem renderMayBeCut : Obligations.RenderMayBeCut := by
  intro s t t₂ v start a k hstart hcount h hp
  obtain ⟨⟨d, w, b⟩, hr, hleft⟩ := completes_voiceRender_iff.1 h
  obtain ⟨hnum, hparam, hlen, hdraws, hbuf, hvoice⟩ := hleft.registers
  rw [hvoice] at hp
  have hadd := Voice.render_add (k := k.toNat) hr hp
  rw [completes_voiceRender_iff, completes_voiceRender_iff, hnum, hparam, hlen, hdraws, hbuf, hvoice,
    toNat_add_setWidth hstart, BitVec.toNat_add_of_lt hcount, hadd]
  refine ⟨fun ⟨r, hr', hleft'⟩ => ⟨r, hr', hleft.again.1 hleft'⟩, fun code info ht => ?_⟩
  rw [traps_voiceRender_iff, hnum, hparam, hlen, hdraws, hbuf, hvoice, toNat_add_setWidth hstart] at ht
  rw [traps_voiceRender_iff, BitVec.toNat_add_of_lt hcount, hadd, ht]

/-! ## One sample (R264, R265, R267) -/

section
variable {s : State} {v : Fin 8} {w : Voice} {start : BitVec 16} {n : BitVec 32}

/-- A Free voice applies its parameters and renders nothing. -/
theorem completes_voiceRender_of_not_playing (hw : s.voices[v].applyParams s.num s.param = .ok w)
    (hp : w.playing = false) : Completes (.voiceRender v start n) s .none (s.setVoice v w) :=
  (Effect.voiceRender (Voice.render_of_not_playing hw hp)).completes

/-- A render of no samples applies the parameters and makes the end-of-render check (log 19). -/
theorem completes_voiceRender_zero (hw : s.voices[v].applyParams s.num s.param = .ok w) (hp : w.playing = true) :
    Completes (.voiceRender v start 0) s .none (s.setVoice v w.endOfRender) :=
  (Effect.voiceRender (Voice.render_of_playing hw hp)).completes

/-- A render of one sample adds it to its element and makes the end-of-render check. -/
theorem completes_voiceRender_one {u : Voice} {y a smp old sum : Rat} {d : Nat} {len : Fin 65536}
    (hw : s.voices[v].applyParams s.num s.param = .ok w) (hp : w.playing = true)
    (hc : w.chain s.num s.draws = .ok (y, a, d, u)) (hsmp : finalSample s.num s.param w.vel y a = .ok smp)
    (hlen : s.bufLen = some len) (hi : start.toNat < len.val) (hold : Memory.get s.buf start.toNat = some old)
    (hsum : numAdd s.num old smp = .ok sum) :
    Completes (.voiceRender v start 1) s .none
      { s.setVoice v u.endOfRender with draws := d, buf := Memory.put s.buf start.toNat sum } := by
  refine (Effect.voiceRender ?_).completes
  have hr : Voice.renderFrom s.num s.param s.bufLen 1 start.toNat s.draws w s.buf =
      .ok (d, u, Memory.put s.buf start.toNat sum) :=
    Voice.renderFrom_succ.2 ⟨_, _, _, _, _, _, _, _, hc, hsmp, bufRead_eq_ok.2 ⟨⟨len, hlen, hi⟩, hold⟩, hsum,
      bufWrite_eq_ok.2 ⟨⟨len, hlen, hi⟩, rfl⟩, rfl⟩
  rw [Voice.render_of_playing hw hp]
  exact (congrArg (· >>= _) hr :)

end

theorem finalSample_eq_ok {m : NumInst} {file : Vector (Option Rat) 25} {vel y a t₁ amount g t₂ volume smp : Rat}
    (h1 : numMul m y a = .ok t₁) (hamount : paramGet file .velToAmp = some amount) (hg : velGain m vel amount = .ok g)
    (h2 : numMul m t₁ g = .ok t₂) (hvolume : paramGet file .masterVolume = some volume)
    (hsmp : numMul m t₂ volume = .ok smp) : finalSample m file vel y a = .ok smp := by
  simp only [finalSample, h1, hamount, hg, h2, hvolume, hsmp, readOpt_some, res_ok_bind]

/-! ## The faults of the first sample (R310, log 10) -/

section
variable {α β : Type} {P : Trap → Prop} {x : Res α} {f : α → Res β}

/-- The faults of a sequence are those of its first part, and of the rest on what the first part gave. -/
theorem raises_bind : Raises P (x >>= f) ↔ Raises P x ∧ ∀ a, x = .ok a → Raises P (f a) := by
  refine ⟨fun h => ⟨fun e he => h e ((bind_eq_error x f e).2 (.inl he)), fun a ha e he => ?_⟩,
    fun ⟨hx, hf⟩ => .bind_ok hx hf⟩
  exact h e ((bind_eq_error x f e).2 (.inr ⟨a, ha, he⟩))

theorem Raises.readOpt_unset {o : Option α} (h : Raises P (readOpt o)) (ho : o = none) : P Trap.unset :=
  h _ ((readOpt_eq_error _ _).2 ⟨ho, rfl⟩)

theorem Raises.numeric {m : NumInst} (h : Raises P x) (hx : ∀ e, x = .error e → e = Trap.numeric ∧ m = .f32) :
    ∀ e, x = .error e → P Trap.numeric :=
  fun e he => (hx e he).1 ▸ h e he

end

/-- What a fault of a Playing voice's first sample does is done by VOICE.RENDER. -/
theorem raises_renderFrom_traps {s : State} {v : Fin 8} {w : Voice} {start : BitVec 16} {n : BitVec 32}
    (hw : s.voices[v].applyParams s.num s.param = .ok w) (hp : w.playing = true) :
    Raises (fun e => Traps (.voiceRender v start n) s e.code e.info)
      (Voice.renderFrom s.num s.param s.bufLen n.toNat start.toNat s.draws w s.buf) :=
  fun _ he => traps_voiceRender (Voice.render_eq_error.2 (.inr ⟨w, hw, hp, he⟩))

/-- Settles O44: the sample is the chain of its units and the final product, and its faults are those of each step on
what the steps before gave. -/
theorem voiceRenderOneSample : Obligations.VoiceRenderOneSample := by
  refine fun s v start n => ⟨Fields.word_voice_index _ _ start n,
    fun e he => traps_voiceRender (Voice.render_eq_error.2 (.inl he)), fun w hw =>
    ⟨completes_voiceRender_of_not_playing hw, fun hp hend => ?_, fun ht hs hp => ?_, ?_, fun hn hp => ?_⟩⟩
  · have h := completes_voiceRender_zero (start := start) hw hp
    rwa [Voice.endOfRender, if_neg (by rcases hend with h | h <;> simp [h])] at h
  · have h := completes_voiceRender_zero (start := start) hw hp
    rwa [Voice.endOfRender, if_pos ⟨ht, hs⟩] at h
  · intro o osc a e₀ b e₁ x₀ n₀ l₀ x₁ n₁ l₁ w₂ c f y f' t₁ amount g t₂ volume smp len old sum hp ho ha hb hl₀ hl₁ hw₂ hc
      hf hy h1 hamount hg h2 hvolume hsmp hlen hi hold hsum
    refine ⟨_, Memory.put_stored s.buf start.toNat sum, ?_⟩
    have h := completes_voiceRender_one hw hp
      (chain_eq_ok.2 ⟨_, _, _, _, _, _, _, _, _, _, _, _, _, _, ho, ha, hb, hl₀, hl₁, hw₂, hc, hf, hy, rfl⟩)
      (finalSample_eq_ok h1 hamount hg h2 hvolume hsmp) hlen hi hold hsum
    rw [Voice.processBlock_router hw₂] at h ⊢
    exact h
  · obtain ⟨k, hk⟩ := Nat.exists_eq_add_of_lt hn
    have hR := raises_renderFrom_traps (start := start) (n := n) hw hp
    rw [hk, Nat.zero_add, Voice.renderFrom, raises_bind] at hR
    obtain ⟨h, hR⟩ := hR
    obtain ⟨hosc, h⟩ := raises_bind.1 h
    refine ⟨hosc, fun o osc ho => ?_⟩
    obtain ⟨henv₀, h⟩ := raises_bind.1 (h _ ho)
    refine ⟨henv₀, fun a e₀ ha => ?_⟩
    obtain ⟨henv₁, h⟩ := raises_bind.1 (h _ ha)
    refine ⟨henv₁, fun b e₁ hb => ?_⟩
    obtain ⟨hlfo₀, h⟩ := raises_bind.1 (h _ hb)
    refine ⟨hlfo₀, fun x₀ n₀ l₀ hl₀ => ?_⟩
    obtain ⟨hlfo₁, h⟩ := raises_bind.1 (h _ hl₀)
    refine ⟨hlfo₁, fun x₁ n₁ l₁ hl₁ => ?_⟩
    obtain ⟨hrouter, h⟩ := raises_bind.1 (h _ hl₁)
    refine ⟨hrouter, fun w₂ hw₂ => ?_⟩
    obtain ⟨hmod, h⟩ := raises_bind.1 (h _ hw₂)
    refine ⟨hmod.readOpt_unset, fun c hc => ?_⟩
    obtain ⟨hcut, h⟩ := raises_bind.1 (h _ ((readOpt_eq_ok _ _).2 hc))
    refine ⟨hcut, fun f hf => ?_⟩
    obtain ⟨hflt, -⟩ := raises_bind.1 (h _ hf)
    refine ⟨hflt, fun y f' hy => ?_⟩
    obtain ⟨h, hR⟩ := raises_bind.1 (hR _
      (chain_eq_ok.2 ⟨_, _, _, _, _, _, _, _, _, _, _, _, _, _, ho, ha, hb, hl₀, hl₁, hw₂, hc, hf, hy, rfl⟩))
    obtain ⟨hmul₁, h⟩ := raises_bind.1 h
    refine ⟨hmul₁.numeric fun _ => numMul_error, fun t₁ h1 => ?_⟩
    obtain ⟨hamp, h⟩ := raises_bind.1 (h _ h1)
    refine ⟨hamp.readOpt_unset, fun amount hamount => ?_⟩
    obtain ⟨hgain, h⟩ := raises_bind.1 (h _ ((readOpt_eq_ok _ _).2 hamount))
    refine ⟨hgain.numeric fun _ => velGain_error, fun g hg => ?_⟩
    obtain ⟨hmul₂, h⟩ := raises_bind.1 (h _ hg)
    refine ⟨hmul₂.numeric fun _ => numMul_error, fun t₂ h2 => ?_⟩
    obtain ⟨hmaster, h⟩ := raises_bind.1 (h _ h2)
    refine ⟨hmaster.readOpt_unset, fun volume hvolume => ?_⟩
    refine ⟨(h _ ((readOpt_eq_ok _ _).2 hvolume)).numeric fun _ => numMul_error, fun smp hsmp => ?_⟩
    obtain ⟨hread, hR⟩ := raises_bind.1 (hR _ (finalSample_eq_ok h1 hamount hg h2 hvolume hsmp))
    refine ⟨fun hlen => hread Trap.unset (by rw [hlen, bufRead_none]), fun len hlen => ⟨fun hi =>
      hread (Trap.bufRange _) (by rw [hlen, bufRead_beyond _ hi]), fun hi => ⟨fun hget =>
      hread Trap.unset (by rw [hlen, bufRead_within _ hi, hget, readOpt_none]), fun old hold => ?_⟩⟩⟩
    obtain ⟨hadd, -⟩ := raises_bind.1 (hR _ (bufRead_eq_ok.2 ⟨⟨len, hlen, hi⟩, hold⟩))
    exact hadd.numeric fun _ => numAdd_error

/-! ## Ready voices (R266), in `EXACT` -/

/-- A voice that lacks something R266 lists faults in its first sample, before the buffer is read. -/
theorem renderFrom_of_lacking {file : Vector (Option Rat) 25} {w : Voice} (len : Option (Fin 65536)) {n : Nat}
    (i d : Nat) (b : Memory) (hn : 0 < n) (hI : w.IncsInRange) (hL : w.Lacking file) :
    Voice.renderFrom .exact file len n i d w b = .error Trap.unset := by
  obtain ⟨k, rfl⟩ := Nat.exists_eq_succ_of_ne_zero hn.ne'
  rw [Voice.renderFrom]
  rcases chain_of_lacking d hI hL with hc | ⟨y, a, d', u, hc, hf⟩
  · rw [hc, res_error_bind]
  · rw [hc, res_ok_bind, hf, res_error_bind]

section
variable {s : State} {v : Fin 8} {w : Voice} {start : BitVec 16} {n : BitVec 32}

/-- A voice that is Free, or whose sample loop runs, renders within its range and leaves every set element set. -/
theorem completes_voiceRender_within (hw : s.voices[v].applyParams s.num s.param = .ok w)
    (hr : w.playing = true → ∃ r, Voice.renderFrom s.num s.param s.bufLen n.toNat start.toNat s.draws w s.buf = .ok r ∧
      ∀ j, (Memory.get s.buf j).isSome → (Memory.get r.2.2 j).isSome) :
    ∃ w d b, Completes (.voiceRender v start n) s .none { s.setVoice v w with draws := d, buf := b } ∧
      (∀ j, j < start.toNat ∨ start.toNat + n.toNat ≤ j → Memory.get b j = Memory.get s.buf j) ∧
      ∀ j, (Memory.get s.buf j).isSome → (Memory.get b j).isSome := by
  cases hp : w.playing with
  | false => exact ⟨w, s.draws, s.buf, completes_voiceRender_of_not_playing hw hp, fun _ _ => rfl, fun _ h => h⟩
  | true =>
    obtain ⟨⟨d, w₁, b⟩, hr, hset⟩ := hr hp
    refine ⟨w₁.endOfRender, d, b, (Effect.voiceRender ?_).completes, (Voice.renderFrom_buf hr).2, hset⟩
    rw [indexOp, countOp, Voice.render_of_playing hw hp, hr, res_ok_bind]

end

/-- Settles O46: the sample loop of a ready voice runs as far as the buffer has set elements. -/
theorem readyVoiceRenders : Obligations.ReadyVoiceRenders := by
  refine fun s v start n hm => ⟨fun hready => ?_, fun w hn hw hp hI hL => ?_⟩
  · obtain ⟨w, hw⟩ := Voice.applyParams_exact s.param s.voices[v]
    obtain ⟨hset, hunset, hnone⟩ := renderFrom_of_ready s.bufLen n.toNat start.toNat s.draws s.buf (hready w hw)
    rw [← hm] at hw hset hunset hnone
    have hfault : s.voices[v].playing = true → Raises (fun e => Traps (.voiceRender v start n) s e.code e.info)
        (Voice.renderFrom s.num s.param s.bufLen n.toNat start.toNat s.draws w s.buf) :=
      fun hp => raises_renderFrom_traps hw ((Voice.applyParams_playing hw).trans hp)
    exact ⟨fun len hlen hj => ⟨fun hle => completes_voiceRender_within hw fun _ => (hset len hlen hj).1 hle,
      fun hn hp hlt => hfault hp _ ((hset len hlen hj).2 hn hlt)⟩,
      fun len j hlen hp hlo hhi hj hget => hfault hp _ (hunset len j hlen hlo hhi hj hget),
      fun hn hp hlen => hfault hp _ (hnone hn hlen)⟩
  · rw [← hm] at hw
    refine raises_renderFrom_traps hw hp Trap.unset ?_
    rw [hm]
    exact renderFrom_of_lacking _ _ _ _ hn hI hL

end Machine

end Sys2Proof
end

section
/-! SUPPORT. The VoiceAllocator/Engine (spec/46_engine.md R281 to R290): its loops over the eight voices, the voice
ENG.NOTEON takes, and ENG.RENDER as a chain of VOICE.RENDERs. -/

namespace Sys2Proof

theorem Param.ofCode_of_gt {c : BitVec 8} (h : 24 < c.toNat) : Param.ofCode c = none :=
  ofCode_none param_ofCode (fun p => by cases p <;> decide) h

namespace Machine

/-! ## Loops that take each voice by itself -/

/-- The listed voices, each replaced by what `f` makes of it. -/
def updateVoices (f : Voice → Res Voice) : List (Fin 8) → Vector Voice 8 → Res (Vector Voice 8)
  | [], vs => .ok vs
  | v :: rest, vs => do
    let w ← f vs[v]
    updateVoices f rest (vs.set v w)

section
variable {m : NumInst} {f : Voice → Res Voice} {l : List (Fin 8)} {vs vs' : Vector Voice 8}

theorem voices_ext (h : ∀ v : Fin 8, vs[v] = vs'[v]) : vs = vs' :=
  Vector.ext fun i hi => h ⟨i, hi⟩

theorem mem_allVoices (v : Fin 8) : v ∈ allVoices := by revert v; decide

theorem allVoices_pairwise_lt : allVoices.Pairwise (· < ·) := by decide

theorem allVoices_nodup : allVoices.Nodup := allVoices_pairwise_lt.imp ne_of_lt

theorem allVoices_drop (k : Fin 8) : allVoices.drop k.castSucc = k :: allVoices.drop k.succ := by revert k; decide

theorem prepareVoices_eq_updateVoices (imm : Imm) (x : Rat) :
    prepareVoices m imm x l vs = updateVoices (Voice.setRates m imm x) l vs := by
  induction l generalizing vs with
  | nil => rfl
  | cons v rest ih => simp only [prepareVoices, updateVoices, ih]

/-- What ENG.NOTEOFF makes of one voice (R286). -/
def Voice.releaseNote (m : NumInst) (note : Fin 128) (w : Voice) : Res Voice :=
  if w.holds note then w.noteOff m true else .ok w

theorem releaseVoices_eq_updateVoices (note : Fin 128) :
    releaseVoices m note l vs = updateVoices (Voice.releaseNote m note) l vs := by
  induction l generalizing vs with
  | nil => rfl
  | cons v rest ih =>
    rw [releaseVoices, updateVoices, Voice.releaseNote]
    split
    · simp only [ih]
    · rw [res_ok_bind, ih, Fin.getElem_fin, Vector.set_getElem_self]

/-- A loop over different voices succeeds with what `f` makes of each. -/
theorem updateVoices_eq_ok (hl : l.Nodup) (h : ∀ v ∈ l, f vs[v] = .ok vs'[v]) (h' : ∀ v ∉ l, vs'[v] = vs[v]) :
    updateVoices f l vs = .ok vs' := by
  induction l generalizing vs with
  | nil => rw [updateVoices, voices_ext fun v => h' v List.not_mem_nil]
  | cons v rest ih =>
    obtain ⟨hv, hrest⟩ := List.nodup_cons.1 hl
    rw [updateVoices, h v List.mem_cons_self, res_ok_bind]
    refine ih hrest (fun u hu => ?_) fun u hu => ?_
    · rw [set_get, if_neg (ne_of_mem_of_not_mem hu hv), h u (List.mem_cons_of_mem v hu)]
    · rw [set_get]
      split
      · next huv => rw [huv]
      · next huv => exact h' u (List.not_mem_cons_of_ne_of_not_mem huv hu)

theorem updateVoices_allVoices (h : ∀ v : Fin 8, f vs[v] = .ok vs'[v]) : updateVoices f allVoices vs = .ok vs' :=
  updateVoices_eq_ok allVoices_nodup (fun v _ => h v) fun v hv => absurd (mem_allVoices v) hv

theorem updateVoices_succeeds (h : ∀ w, ∃ w', f w = .ok w') : ∃ vs', updateVoices f l vs = .ok vs' := by
  induction l generalizing vs with
  | nil => exact ⟨vs, rfl⟩
  | cons v rest ih =>
    obtain ⟨w, hw⟩ := h vs[v]
    rw [updateVoices, hw, res_ok_bind]
    exact ih

end

/-! ## ENG.PREPARE and ENG.SETPARAM (R281, R290) -/

section
variable {x : Rat}

theorem Osc.setSr_exact (imm : Imm) (o : Osc) (h : 0 < x) : ∃ o', o.setSr .exact imm x = .ok o' := by
  cases hf : o.freq with
  | none => exact ⟨_, Osc.setSr_of_freq_none imm h hf⟩
  | some f => exact ⟨_, Osc.setSr_of_freq_some imm h hf⟩

theorem Env.setSr_exact (imm : Imm) (e : Env) (h : 0 < x) : ∃ e', e.setSr .exact imm x = .ok e' := by
  rw [Env.setSr_of_pos .exact imm e h]
  exact Env.rederive_exact _

theorem Lfo.setSr_exact (imm : Imm) (l : Lfo) (h : 0 < x) : ∃ l', l.setSr .exact imm x = .ok l' := by
  cases hf : l.freq with
  | none => exact ⟨_, Lfo.setSr_of_freq_none imm h hf⟩
  | some f => exact ⟨_, Lfo.setSr_of_freq_some imm h hf rfl⟩

theorem pos_of_rate_le (h : 400 / 9 ≤ x) : 0 < x := by linarith

theorem top_of_rate_le (h : 400 / 9 ≤ x) : 20 ≤ 9 / 20 * x := by linarith

theorem Flt.setSr_exact (imm : Imm) (f : Flt) (h : 400 / 9 ≤ x) : ∃ f', f.setSr .exact imm x = .ok f' := by
  rw [Flt.setSr_of_pos imm f (pos_of_rate_le h) rfl, lit_exact, if_neg (top_of_rate_le h).not_gt]
  exact Flt.recompute_exact _

/-- In `EXACT` every voice accepts a rate of which 9/20 is at least 20. -/
theorem Voice.setRates_exact (imm : Imm) (w : Voice) (h : 400 / 9 ≤ x) : ∃ w', w.setRates .exact imm x = .ok w' := by
  have h0 := pos_of_rate_le h
  obtain ⟨o, ho⟩ := Osc.setSr_exact imm w.osc h0
  obtain ⟨e₀, he₀⟩ := Env.setSr_exact imm w.env[0] h0
  obtain ⟨e₁, he₁⟩ := Env.setSr_exact imm w.env[1] h0
  obtain ⟨l₀, hl₀⟩ := Lfo.setSr_exact imm w.lfo[0] h0
  obtain ⟨l₁, hl₁⟩ := Lfo.setSr_exact imm w.lfo[1] h0
  obtain ⟨f, hf⟩ := Flt.setSr_exact imm w.flt h
  exact ⟨_, setRates_eq_ok.2 ⟨o, e₀, e₁, l₀, l₁, f, ho, he₀, he₁, hl₀, hl₁, hf, rfl⟩⟩

variable {imm : Imm} {size : Fin 65536} {s : State} {top : Rat}

theorem prepare_of_nonpos (h : x ≤ 0) : prepare imm size x s = .error (Trap.srRange imm) := if_pos h

theorem prepare_of_top_lt (h : 0 < x) (htop : numMul s.num (lit s.num (9 / 20)) x = .ok top) (hlt : top < 20) :
    prepare imm size x s = .error (Trap.srRange imm) := by
  rw [prepare, if_neg h.not_ge, htop, res_ok_bind, if_pos hlt]

theorem prepare_of_prepareVoices {vs : Vector Voice 8} (h : 0 < x)
    (htop : numMul s.num (lit s.num (9 / 20)) x = .ok top) (hge : 20 ≤ top)
    (hvs : prepareVoices s.num imm x allVoices s.voices = .ok vs) :
    prepare imm size x s = .ok { s with engSr := some x, bufLen := some size, buf := [], voices := vs } := by
  rw [prepare, if_neg h.not_ge, htop, res_ok_bind, if_neg hge.not_gt, hvs, res_ok_bind]

end

theorem Fields.word_index (opc : BitVec 8) (x : BitVec 16) (imm : Imm) :
    (Fields.mk opc 0 0 (hiByte x) (loByte x) imm).word = opc ++ 0#8 ++ x ++ imm := by
  have h : opc ++ 0#4 ++ 0#4 = opc ++ 0#8 := by rw [BitVec.append_assoc]; rfl
  rw [← h]
  exact Fields.word_voice_index opc 0 x imm

/-- Settles O47: ENG.PREPARE is its guards and the rate setters of each voice, ENG.SETPARAM one write of the file. -/
theorem enginePrepareAndParameters : Obligations.EnginePrepareAndParameters := by
  refine fun s size id imm => ⟨Fields.word_index _ size imm, rfl, fun a ha => ?_,
    fun hx => ⟨traps_badOperand_of_body rfl hx, traps_badOperand_of_body rfl hx⟩,
    fun x hx => ⟨fun h0 => ?_, fun top h0 htop hlt => ?_, fun top vs h0 htop hge hvs => ?_, fun hm hr => ?_,
      _, (Effect.engSetparam hx).completes, fun p => paramGet_set s.param id p (some x)⟩⟩
  · exact decode_cmdWord_of_legal_none fun _ _ => Fields.global_none _ _ <|
      Fields.fmtAV_none _ _ (Param.ofCode_of_gt ha)
  · exact traps_of_value_error (e := Trap.srRange imm) rfl hx (by rw [prepare_of_nonpos h0, res_error_bind])
  · exact traps_of_value_error (e := Trap.srRange imm) rfl hx
      (by rw [prepare_of_top_lt h0 htop hlt, res_error_bind])
  · refine (Effect.engPrepare hx (prepare_of_prepareVoices h0 htop hge ?_)).completes
    rw [prepareVoices_eq_updateVoices]
    exact updateVoices_allVoices fun v => setRates_eq_ok.2 (hvs v)
  · obtain ⟨vs, hvs⟩ := updateVoices_succeeds (l := allVoices) (vs := s.voices)
      fun w => Voice.setRates_exact imm w hr
    rw [← prepareVoices_eq_updateVoices, ← hm] at hvs
    have htop : numMul s.num (lit s.num (9 / 20)) x = .ok (9 / 20 * x) := by rw [hm]; rfl
    exact ⟨_, (Effect.engPrepare hx
      (prepare_of_prepareVoices (pos_of_rate_le hr) htop (top_of_rate_le hr) hvs)).completes, rfl, rfl, fun _ => rfl⟩

/-! ## ENG.NOTEON (R282 to R284) -/

section
variable {vs : Vector Voice 8} {l : List (Fin 8)} {u : Fin 8}

theorem firstFree_eq_none : firstFree vs l = none ↔ ∀ v ∈ l, vs[v].playing = true := by
  induction l with
  | nil => simp [firstFree]
  | cons v rest ih =>
    rw [firstFree, List.forall_mem_cons]
    split
    · next hv => exact ih.trans (and_iff_right hv).symm
    · next hv => exact ⟨nofun, fun h => absurd h.1 hv⟩

/-- In an ascending list the first Free voice has only Playing ones below it. -/
theorem firstFree_eq_some (hl : l.Pairwise (· < ·)) (h : firstFree vs l = some u) :
    vs[u].playing = false ∧ ∀ v ∈ l, v < u → vs[v].playing = true := by
  induction l with
  | nil => exact nomatch h
  | cons v rest ih =>
    obtain ⟨hv, hrest⟩ := List.pairwise_cons.1 hl
    rw [firstFree] at h
    cases hp : vs[v].playing with
    | true =>
      rw [if_pos hp] at h
      obtain ⟨hu, hbelow⟩ := ih hrest h
      exact ⟨hu, List.forall_mem_cons.2 ⟨fun _ => hp, hbelow⟩⟩
    | false =>
      rw [if_neg (Bool.eq_false_iff.1 hp), Option.some.injEq] at h
      subst h
      exact ⟨hp, List.forall_mem_cons.2 ⟨fun hlt => absurd hlt (lt_irrefl _), fun k hk hlt =>
        absurd hlt (hv k hk).not_gt⟩⟩

/-- `u` goes before `v` in stealing (R284): its amplitude level is not above `v`'s, and below it where `v` has the lower
index. -/
def StealsBefore (vs : Vector Voice 8) (u v : Fin 8) : Prop :=
  vs[u].env[0].level ≤ vs[v].env[0].level ∧ (v < u → vs[u].env[0].level < vs[v].env[0].level)

/-- The search of an ascending list that starts not before `best` ends with the lowest level, of equal ones the lowest
index. -/
theorem lowestFrom_stealsBefore {best : Fin 8} (hl : l.Pairwise (· < ·)) (hb : ∀ v ∈ l, best ≤ v) :
    ∀ v ∈ best :: l, StealsBefore vs (lowestFrom vs best l) v := by
  induction l generalizing best with
  | nil => exact List.forall_mem_singleton.2 ⟨le_rfl, fun h => absurd h (lt_irrefl _)⟩
  | cons v rest ih =>
    obtain ⟨hv, hrest⟩ := List.pairwise_cons.1 hl
    rw [lowestFrom]
    split
    · next hlt =>
      have hbelow := ih hrest fun k hk => (hv k hk).le
      obtain ⟨hle, -⟩ := hbelow v List.mem_cons_self
      exact List.forall_mem_cons.2 ⟨⟨(hle.trans_lt hlt).le, fun _ => hle.trans_lt hlt⟩, hbelow⟩
    · next hge =>
      obtain ⟨hbv, hb⟩ := List.forall_mem_cons.1 hb
      obtain ⟨⟨hle, hlt⟩, hbelow⟩ := List.forall_mem_cons.1 (ih hrest hb)
      have hv : StealsBefore vs (lowestFrom vs best rest) v :=
        ⟨hle.trans (not_lt.1 hge), fun h => (hlt (hbv.trans_lt h)).trans_le (not_lt.1 hge)⟩
      exact List.forall_mem_cons.2 ⟨⟨hle, hlt⟩, List.forall_mem_cons.2 ⟨hv, hbelow⟩⟩

/-- With a Free voice, ENG.NOTEON takes the one of lowest index. -/
theorem noteTarget_of_free {k : Fin 8} (hk : vs[k].playing = false) :
    vs[noteTarget vs].playing = false ∧ ∀ v < noteTarget vs, vs[v].playing = true := by
  cases h : firstFree vs allVoices with
  | none => exact absurd (firstFree_eq_none.1 h k (mem_allVoices k)) (Bool.eq_false_iff.1 hk)
  | some u =>
    obtain ⟨hu, hbelow⟩ := firstFree_eq_some allVoices_pairwise_lt h
    obtain rfl : noteTarget vs = u := by rw [noteTarget, h]
    exact ⟨hu, fun v => hbelow v (mem_allVoices v)⟩

/-- With no Free voice, ENG.NOTEON steals the one of lowest level. -/
theorem noteTarget_of_all_playing (h : ∀ v : Fin 8, vs[v].playing = true) (v : Fin 8) :
    StealsBefore vs (noteTarget vs) v := by
  rw [noteTarget, firstFree_eq_none.2 fun v _ => h v]
  exact lowestFrom_stealsBefore allVoices_pairwise_lt (fun k _ => Fin.zero_le k) v
    (List.mem_cons_of_mem 0 (mem_allVoices v))

end

/-- In `EXACT` every voice accepts every note, and then holds it in Attack. -/
theorem Voice.noteOn_exact (file : Vector (Option Rat) 25) (note : Fin 128) (x : Rat) (n : Nat) (w : Voice) :
    ∃ n' w', w.noteOn .exact file note x n = .ok (n', w') ∧ w'.note = some note ∧ w'.env[0].stage = .attack := by
  obtain ⟨u, hu⟩ := Voice.setPitch_exact file { w with
    note := some note, vel := clamp x 0 1, router := w.router.setScalar .velocity (clamp x 0 1) }
  obtain ⟨hnote, -⟩ := Voice.regs_eq.1 (Voice.setPitch_regs hu)
  exact ⟨_, _, Voice.noteOn_of_setPitch hu, hnote, rfl⟩

/-- Settles O48: the search for a Free voice, the search for the lowest level, and the note on of the voice found. -/
theorem engineNoteOnTakesTheTargetVoice : Obligations.EngineNoteOnTakesTheTargetVoice := by
  refine fun s note imm => ⟨rfl, fun a ha => ?_, traps_badOperand_of_body rfl, noteTarget s.voices, rfl,
    fun ⟨k, hk⟩ => noteTarget_of_free hk, noteTarget_of_all_playing, fun x hx hm => ?_⟩
  · exact decode_cmdWord_of_legal_none fun _ _ => Fields.global_none _ _ <|
      Fields.fmtAV_none _ _ (noteOfCode_of_gt ha)
  · obtain ⟨n, w, hw, hnote, hstage⟩ := Voice.noteOn_exact s.param note x s.draws s.voices[noteTarget s.voices]
    have hsame := s.setVoice_same (noteTarget s.voices) w
    rw [← hm] at hw
    exact ⟨_, (Effect.engNoteon hx hw).completes, (congrArg Voice.note hsame).trans hnote,
      (congrArg (fun u : Voice => u.env[0].stage) hsame).trans hstage,
      fun k hk => s.setVoice_other (noteTarget s.voices) k w hk⟩

/-! ## ENG.NOTEOFF (R286) -/

/-- In `EXACT` every voice can be released. -/
theorem Voice.releaseNote_exact (note : Fin 128) (w : Voice) : ∃ w', w.releaseNote .exact note = .ok w' := by
  unfold Voice.releaseNote
  split
  · next h =>
    obtain ⟨hp, -⟩ := Voice.holds_iff.1 h
    obtain ⟨w', hw', -⟩ := Voice.noteOff_exact true hp
    exact ⟨w', hw'⟩
  · exact ⟨w, rfl⟩

/-- Settles O49: the loop releases the voices that hold the note, each by itself. -/
theorem engineNoteOffReleasesTheNote : Obligations.EngineNoteOffReleasesTheNote := by
  refine fun s note => ⟨rfl, fun a ha => ?_, fun vs hvs => ?_, fun hm => ?_⟩
  · exact decode_cmdWord_of_legal_none fun _ _ => Fields.global_none _ _ <|
      Fields.fmtK_none _ _ (noteOfCode_of_gt ha)
  · refine (Effect.engNoteoff ?_).completes
    rw [releaseVoices_eq_updateVoices]
    refine updateVoices_allVoices fun v => ?_
    have hv := hvs v
    rw [Voice.releaseNote]
    split at hv
    · next h => rw [if_pos (Voice.holds_iff.2 h), hv]
    · next h => rw [if_neg (mt Voice.holds_iff.1 h), hv]
  · obtain ⟨vs, hvs⟩ := updateVoices_succeeds (l := allVoices) (vs := s.voices) (Voice.releaseNote_exact note)
    rw [← releaseVoices_eq_updateVoices, ← hm] at hvs
    exact ⟨_, (Effect.engNoteoff hvs).completes⟩

/-! ## ENG.RENDER (R287) -/

section
variable {s t : State} {v : Fin 8} {l l' : List (Fin 8)} {start : BitVec 16} {n : BitVec 32}

/-- The loop of ENG.RENDER over the listed voices, on the registers of a state. -/
def State.renderListed (s : State) (start : BitVec 16) (n : BitVec 32) (l : List (Fin 8)) :
    Res (Nat × Vector Voice 8 × Memory) :=
  renderVoices s.num s.param s.bufLen (indexOp start) (countOp n) l s.draws s.voices s.buf

theorem completes_engRender {r : Nat × Vector Voice 8 × Memory} (h : s.renderListed start n allVoices = .ok r) :
    Completes (.engRender start n) s .none { s with draws := r.1, voices := r.2.1, buf := r.2.2 } :=
  (Effect.engRender h).completes

theorem traps_engRender {e : Trap} (h : s.renderListed start n allVoices = .error e) :
    Traps (.engRender start n) s e.code e.info :=
  traps_of_body_error rfl (by rw [← State.renderListed, h, res_error_bind])

/-- The loop over `l` from `s` goes on as the loop over `l'` from `t`, and only what renders change lies between. -/
def State.RendersTo (s : State) (start : BitVec 16) (n : BitVec 32) (l : List (Fin 8)) (t : State)
    (l' : List (Fin 8)) : Prop :=
  s.renderListed start n l = t.renderListed start n l' ∧
    t = { s with draws := t.draws, voices := t.voices, buf := t.buf, pc := t.pc, responses := t.responses }

theorem State.RendersTo.refl : s.RendersTo start n l s l := ⟨rfl, rfl⟩

theorem State.RendersTo.trans {u : State} {l'' : List (Fin 8)} (h : s.RendersTo start n l t l')
    (h' : t.RendersTo start n l' u l'') : s.RendersTo start n l u l'' := by
  obtain ⟨hr, hs⟩ := h
  obtain ⟨hr', hs'⟩ := h'
  refine ⟨hr.trans hr', ?_⟩
  rw [hs] at hs'
  exact hs'

/-- A VOICE.RENDER that completes is one round of the loop. -/
theorem State.RendersTo.of_completes (l : List (Fin 8)) (h : Completes (.voiceRender v start n) s .none t) :
    s.RendersTo start n (v :: l) t l := by
  obtain ⟨r, hr, pc, responses, rfl⟩ := completes_voiceRender_iff.1 h
  refine ⟨?_, rfl⟩
  rw [State.renderListed, renderVoices, indexOp, countOp, hr, res_ok_bind]
  rfl

theorem renderListed_of_traps (l : List (Fin 8)) {code : FaultCode} {info : BitVec 64}
    (h : Traps (.voiceRender v start n) s code info) : s.renderListed start n (v :: l) = .error ⟨code, info⟩ := by
  rw [State.renderListed, renderVoices, indexOp, countOp, traps_voiceRender_iff.1 h, res_error_bind]

/-- Renders of the voices below `k` that complete one after the other are the loop's first rounds. -/
theorem State.RendersTo.of_chain {st : Fin 9 → State} (k : Fin 9)
    (h : ∀ v : Fin 8, v.castSucc < k → Completes (.voiceRender v start n) (st v.castSucc) .none (st v.succ)) :
    (st 0).RendersTo start n allVoices (st k) (allVoices.drop k) := by
  induction k using Fin.induction with
  | zero => exact .refl
  | succ k ih =>
    have hfirst := ih fun v hv => h v (hv.trans k.castSucc_lt_succ)
    rw [allVoices_drop] at hfirst
    exact hfirst.trans (.of_completes _ (h k k.castSucc_lt_succ))

/-- In `EXACT` the loop over different voices runs when the sounding ones are ready and the elements of the range hold
values. -/
theorem renderListed_of_ready {len : Fin 65536} (hm : s.num = .exact) (hl : l.Nodup)
    (hready : ∀ v ∈ l, ∀ w, s.voices[v].applyParams .exact s.param = .ok w → w.playing = true → w.Ready s.param)
    (hlen : s.bufLen = some len) (hle : start.toNat + n.toNat ≤ len.val)
    (hset : ∀ j, start.toNat ≤ j → j < start.toNat + n.toNat → (Memory.get s.buf j).isSome) :
    ∃ r, s.renderListed start n l = .ok r := by
  induction l generalizing s with
  | nil => exact ⟨_, rfl⟩
  | cons v rest ih =>
    obtain ⟨hv, hrest⟩ := List.nodup_cons.1 hl
    obtain ⟨w, hw⟩ := Voice.applyParams_exact s.param s.voices[v]
    have hrender : w.playing = true → ∃ r,
        Voice.renderFrom .exact s.param s.bufLen n.toNat start.toNat s.draws w s.buf = .ok r ∧
          ∀ j, (Memory.get s.buf j).isSome → (Memory.get r.2.2 j).isSome := fun hp =>
      ((renderFrom_of_ready s.bufLen n.toNat start.toNat s.draws s.buf (hready v List.mem_cons_self w hw hp)).1 len hlen
        fun j hlo hhi _ => hset j hlo hhi).1 hle
    rw [← hm] at hw hrender
    obtain ⟨w', d, b, hc, -, hkept⟩ := completes_voiceRender_within hw hrender
    obtain ⟨hr, -⟩ := State.RendersTo.of_completes rest hc
    rw [hr]
    refine ih hm hrest (fun u hu => ?_) hlen fun j hlo hhi => hkept j (hset j hlo hhi)
    have hother := s.setVoice_other v u w' (ne_of_mem_of_not_mem hu hv)
    exact hother ▸ hready u (List.mem_cons_of_mem v hu)

end

/-- Settles O50: the loop is the chain of the voices' renders, its first fault the command's. -/
theorem engineRenderIsEightVoiceRenders : Obligations.EngineRenderIsEightVoiceRenders := by
  refine fun s start n => ⟨Fields.word_index _ start n, fun st h0 hc => ?_, fun st k code info h0 hc ht => ?_,
    fun len hm hready hlen hle hset => ?_⟩
  · obtain ⟨hr, hs⟩ := State.RendersTo.of_chain 8 fun v _ => hc v
    rw [h0] at hr hs
    rw [completes_iff, hs]
    exact Effect.engRender hr
  · obtain ⟨hr, -⟩ := State.RendersTo.of_chain k.castSucc fun v hv => hc v hv
    rw [allVoices_drop, renderListed_of_traps _ ht, h0] at hr
    exact traps_engRender hr
  · obtain ⟨⟨d, vs, b⟩, hr⟩ := renderListed_of_ready hm allVoices_nodup (fun v _ => hready v) hlen hle hset
    exact ⟨vs, d, b, completes_engRender hr, (renderVoices_buf hr).2⟩

end Machine

end Sys2Proof
end

section
/-! SUPPORT. The fault a command takes (spec/60_exceptions.md R300 to R308), the halted block (R301) and the registers
after reset (spec/70_reset_and_hazards.md R330, R331). -/

namespace Sys2Proof

/-! ## Non-finite operands (R303) -/

theorem finitePattern_eq_false {w : Imm} : finitePattern w = false ↔ w.extractLsb' 23 8 = 255#8 := by
  simp [finitePattern]

theorem wellFormed_iff {i : Instr} :
    WellFormed i = true ↔ ∀ imm, i.valueOperand = some imm → imm.extractLsb' 23 8 ≠ 255#8 := by
  unfold WellFormed
  cases i.valueOperand with
  | none => simp
  | some imm => simp [finitePattern]

namespace Machine

section
variable {α : Type} {P : Trap → Prop} {i : Instr} {s : State} {imm : Imm} {code : FaultCode} {info : BitVec 64}

theorem f32Value_eq_none {w : Imm} : f32Value w = none ↔ w.extractLsb' 23 8 = 255#8 := by
  rw [← BitVec.toNat_inj]
  refine ⟨fun h => ?_, f32Value_of_exponent_top⟩
  by_contra hne
  rw [f32Value_of_exponent hne] at h
  cases h

/-- A command with a value operand reads it first (R310). -/
theorem exec_eq_finish_valueOp (hv : i.valueOperand = some imm) (s : State) :
    ∃ f, exec i s = finish s (valueOp imm >>= f) := by
  cases i <;> cases hv <;> exact ⟨_, rfl⟩

theorem traps_badOperand (hv : i.valueOperand = some imm) (hx : f32Value imm = none) (s : State) :
    Traps i s .badOperand (imm.setWidth 64) := by
  obtain ⟨f, hf⟩ := exec_eq_finish_valueOp hv s
  exact traps_of_body_error hf (by rw [valueOp_of_none hx, res_error_bind])

/-! ## The fault a command takes is one its body raises -/

/-- A body that succeeds leaves the responses to `finish`, and one that faults raises a fault that meets `P`. Only with
the first half can a completion not pass for a fault, so that the fault of `Traps` is the body's. -/
def CommitsOrRaises (P : Trap → Prop) (s : State) : Res (Response × State) → Prop
  | .ok (_, t) => t.responses = s.responses
  | .error e => P e

theorem CommitsOrRaises.bind {x : Res α} {f : α → Res (Response × State)} (hx : Raises P x)
    (hf : ∀ a, x = .ok a → CommitsOrRaises P s (f a)) : CommitsOrRaises P s (x >>= f) := by
  cases x with
  | ok a => exact hf a rfl
  | error e => exact hx e rfl

theorem CommitsOrRaises.mono {Q : Trap → Prop} {x : Res (Response × State)} (h : CommitsOrRaises P s x)
    (hPQ : ∀ t, P t → Q t) : CommitsOrRaises Q s x := by
  cases x with
  | ok p => exact h
  | error e => exact hPQ e h

/-- A body that only computes. -/
theorem CommitsOrRaises.body {x : Res (Response × State)}
    (h : CommitsOrRaises (CmdTrap s.num ((encode i).extractLsb' 0 32) (s.bufLen.bind fun n => outOfRange i n.val)) s
      x) :
    CommitsOrRaises (InstrTrap i s) s x :=
  h.mono fun _ => .inl

/-- A body that reads its value operand and then computes. -/
theorem CommitsOrRaises.value {f : Rat → Res (Response × State)} (hv : i.valueOperand = some imm)
    (h : ∀ x, CommitsOrRaises (CmdTrap s.num imm (s.bufLen.bind fun n => outOfRange i n.val)) s (f x)) :
    CommitsOrRaises (InstrTrap i s) s (valueOp imm >>= f) := by
  rw [← encode_imm i imm hv] at h
  exact .bind (raises_valueOp fun hn => .inr ⟨imm, hv, hn, rfl⟩) fun x _ => .body (h x)

theorem CommitsOrRaises.of_traps {x : Res (Response × State)} (hx : CommitsOrRaises P s x) (hi : exec i s = finish s x)
    (h : Traps i s code info) : P ⟨code, info⟩ := by
  cases x with
  | ok p =>
    have hresp := congrArg State.responses (Host.Outcome.next.inj (hi.symm.trans h))
    rw [State.respond_responses, show p.2.responses = s.responses from hx] at hresp
    simp at hresp
  | error e =>
    have hfault := congrArg State.fault (Host.Outcome.next.inj (hi.symm.trans h))
    rw [State.takeFault_fault] at hfault
    cases hfault
    exact hx

/-- What `exec_raises` says of a body, here of one that also leaves the responses: a fault taken is that body's. -/
theorem exec_commitsOrRaises (i : Instr) (s : State) :
    ∃ x, exec i s = finish s x ∧ CommitsOrRaises (InstrTrap i s) s x := by
  cases i
  -- commands that always complete
  case oscSetwave | envNoteon | envIsactive | lfoSetwave | lfoSetbip | lfoReset | fltReset | modRemove | modClear
    | modHas | modRegister | voiceIsactive | voiceNote | voiceVelocity => exact ⟨.ok (_, _), rfl, rfl⟩
  all_goals refine ⟨_, rfl, ?_⟩
  -- commands that read their operand and then cannot fault
  case fltSetdrv | modAdd | modSetbase | modSetscalar | voiceModwheel | engSetparam => exact .value rfl fun _ => rfl
  -- commands that read their operand and then compute
  case bufSt =>
    exact .value rfl fun _ => .bind (raises_bufWrite (n := 0) (firstBeyond_one fun _ => rfl) _ _) fun _ _ => rfl
  case oscSetfreq => exact .value rfl fun _ => .bind (raises_oscSetFreq _ _) fun _ _ => rfl
  case oscSetsr => exact .value rfl fun _ => .bind (raises_oscSetSr _ _) fun _ _ => rfl
  case envSetatk | envSetdec | envSetsus | envSetrel =>
    exact .value rfl fun _ => .bind (raises_rederive _) fun _ _ => rfl
  case envSetsr => exact .value rfl fun _ => .bind (raises_envSetSr _ _) fun _ _ => rfl
  case lfoSetfreq => exact .value rfl fun _ => .bind (raises_lfoSetFreq _ _) fun _ _ => rfl
  case lfoSetsr => exact .value rfl fun _ => .bind (raises_lfoSetSr _ _) fun _ _ => rfl
  case fltSetsr => exact .value rfl fun _ => .bind (raises_fltSetSr _ _) fun _ _ => rfl
  case fltSetcut => exact .value rfl fun _ => .bind (raises_fltSetCut _ _) fun _ _ => rfl
  case fltSetres => exact .value rfl fun _ => .bind (raises_fltSetRes _ _) fun _ _ => rfl
  case fltProc1 => exact .value rfl fun _ => .bind (raises_fltSample _ _) fun _ _ => rfl
  case voiceNoteon | engNoteon => exact .value rfl fun _ => .bind (raises_noteOn _ _ _ _ _) fun _ _ => rfl
  case voicePitchbend => exact .value rfl fun _ => .bind (raises_pitchBend _ _ _) fun _ _ => rfl
  case engPrepare =>
    refine .value rfl fun _ => .bind (raises_prepare _ _ _) fun t ht => ?_
    obtain ⟨_, _, _, _, _, _, rfl⟩ := prepare_ok ht
    rfl
  -- commands without a value operand that compute
  case bufLd => exact .body (.bind (raises_bufRead (n := 0) (firstBeyond_one fun _ => rfl) _) fun _ _ => rfl)
  case oscProc => exact .body (.bind (raises_oscProc _) fun _ _ => rfl)
  case envNoteoff => exact .body (.bind (raises_envNoteOff _) fun _ _ => rfl)
  case envTick => exact .body (.bind (raises_envTick _) fun _ _ => rfl)
  case lfoNext => exact .body (.bind (raises_lfoNext _ _) fun _ _ => rfl)
  case lfoSkip => exact .body (.bind (raises_lfoSkip _ _ _) fun _ _ => rfl)
  case fltProcbuf => exact .body (.bind (raises_fltProcess (firstBeyond_counted fun _ => rfl) _ _) fun _ _ => rfl)
  case modGetdest => exact .body (.bind (raises_readOpt _) fun _ _ => rfl)
  case modProcblk => exact .body (.bind (raises_processBlock _ _) fun _ _ => rfl)
  case voiceNoteoff => exact .body (.bind (raises_voiceNoteOff _ _) fun _ _ => rfl)
  case voiceRender => exact .body (.bind (raises_render _ (firstBeyond_counted fun _ => rfl) _ _ _) fun _ _ => rfl)
  case engNoteoff => exact .body (.bind (raises_releaseVoices _ _ _) fun _ _ => rfl)
  case engRender =>
    exact .body (.bind (raises_renderVoices _ (firstBeyond_counted fun _ => rfl) _ _ _ _) fun _ _ => rfl)

theorem instrTrap_of_traps (h : Traps i s code info) : InstrTrap i s ⟨code, info⟩ := by
  obtain ⟨x, hi, hx⟩ := exec_commitsOrRaises i s
  exact hx.of_traps hi h

theorem CmdTrap.code_ne_badOperand {m : NumInst} {out : Option Nat} {t : Trap} (h : CmdTrap m imm out t) :
    t.code ≠ .badOperand := by
  rcases h with rfl | rfl | ⟨rfl, -⟩ | rfl | ⟨k, -, rfl⟩ <;> exact nofun

theorem exists_operand_of_traps_badOperand (h : Traps i s .badOperand info) :
    ∃ imm, i.valueOperand = some imm ∧ imm.extractLsb' 23 8 = 255#8 := by
  rcases instrTrap_of_traps h with h | ⟨imm, hv, hx, -⟩
  · exact absurd rfl h.code_ne_badOperand
  · exact ⟨imm, hv, f32Value_eq_none.1 hx⟩

theorem decode_ok_and_not_traps_badOperand (h : ∀ imm, i.valueOperand = some imm → imm.extractLsb' 23 8 ≠ 255#8) :
    decode (encode i) = .ok i ∧ ∀ info, ¬Traps i s .badOperand info := by
  refine ⟨decode_encode (wellFormed_iff.2 h), fun info ht => ?_⟩
  obtain ⟨imm, hv, he⟩ := exists_operand_of_traps_badOperand ht
  exact h imm hv he

/-- Settles O11: a value operand is read first, and reading it is the one source of `F_BAD_OPERAND`. -/
theorem nonFiniteOperandFaults : Obligations.NonFiniteOperandFaults := by
  refine fun i s => ⟨fun imm hv => ⟨(encode_imm i imm hv).symm, fun he => ⟨?_, ?_⟩, fun he => ?_⟩, fun hv => ?_⟩
  · exact decode_encode_badOperand hv (finitePattern_eq_false.2 he)
  · exact traps_badOperand hv (f32Value_eq_none.2 he) s
  · exact decode_ok_and_not_traps_badOperand (by simpa [hv] using he)
  · exact decode_ok_and_not_traps_badOperand (by simp [hv])

/-! ## The index of `F_BUF_RANGE` (R307) -/

theorem outOfRange_one {a l k : Nat} (hi : ∀ l, outOfRange i l = if l ≤ a then some a else none)
    (h : outOfRange i l = some k) : k = a ∧ l ≤ k := by
  rw [hi, Option.ite_none_right_eq_some] at h
  obtain ⟨hle, h⟩ := h
  cases h
  exact ⟨rfl, hle⟩

theorem outOfRange_counted {start n l k : Nat}
    (hi : ∀ l, outOfRange i l = if 0 < n ∧ l < start + n then some (max start l) else none)
    (h : outOfRange i l = some k) : k = max start l ∧ 0 < n ∧ l < start + n := by
  rw [hi, Option.ite_none_right_eq_some] at h
  obtain ⟨hlt, h⟩ := h
  cases h
  exact ⟨rfl, hlt⟩

/-- Settles O10: a completion is an effect, which leaves the fault and the responses alone; a fault is one the command's
operations raise. -/
theorem commandIsAllOrNothing : Obligations.CommandIsAllOrNothing := by
  intro i s
  rcases exec_cases i s with ⟨r, t, hE, hx⟩ | ⟨⟨code, info⟩, hx⟩
  · obtain ⟨hpc, hstream, hnum, hfault, hresp⟩ := hE.frame
    exact ⟨_, hx, by rw [State.respond_pc, hpc], hstream, hnum,
      .inl ⟨hfault, r, by rw [State.respond_responses, hresp]⟩⟩
  · refine ⟨_, hx, rfl, rfl, rfl, .inr ⟨code, info, rfl, ?_⟩⟩
    rcases instrTrap_of_traps hx with (h | h | ⟨h, hm⟩ | h | ⟨k, hk, h⟩) | ⟨imm, hv, -, h⟩ <;> cases h
    · rfl
    · rfl
    · exact ⟨rfl, hm⟩
    · rfl
    · obtain ⟨len, hlen, hk⟩ := Option.bind_eq_some_iff.1 hk
      refine ⟨len, k, hlen, rfl, ?_⟩
      cases i
      case bufSt | bufLd => exact outOfRange_one (fun _ => rfl) hk
      case fltProcbuf | voiceRender | engRender => exact outOfRange_counted (fun _ => rfl) hk
      all_goals cases hk
    · exact congrArg (BitVec.setWidth 64) (encode_imm i imm hv).symm

end

/-! ## The halted block (R301) -/

/-- Settles O7: the step tests `SYS.halted` first, which is whether `SYS.fault` holds a record. -/
theorem haltedBlockExecutesNothing : Obligations.HaltedBlockExecutesNothing :=
  ⟨fun _ => step_of_fault, fun _ => Option.isSome_iff_ne_none, rfl⟩

/-! ## The registers after reset (R330, R331) -/

theorem Router.reset_cell (src : Source) (d : Dest) : Router.reset.cell src d = none := by
  simp [Router.cell, Router.reset]

/-- Settles O60: each voice holds its units' reset values, the random registers of its LFOs draws of R12. -/
theorem resetValues : Obligations.ResetValues := by
  refine ⟨rfl, rfl, rfl, rfl, Memory.get_nil, fun v => ?_, fun p => by cases p <;> rfl⟩
  rw [State.reset, State.resetIn_voice]
  refine ⟨rfl, Voice.reset_env _ _, fun i => ⟨_, _, _, Voice.reset_lfo _ _ i, ?_⟩, rfl, Router.reset_cell, fun d => ?_,
    fun c => ?_, fun o => ?_, rfl, rfl, rfl, rfl, rfl, rfl⟩
  · exact ⟨(draw_mem _ _).1, (draw_mem _ _).2, (draw_mem _ _).1, (draw_mem _ _).2, draw_mem _ _⟩
  · cases d <;> exact ⟨rfl, rfl⟩
  · cases c <;> rfl
  · cases o <;> rfl

end Machine

end Sys2Proof
end
